-- ==== Sys2Proof/Word.lean ====
section
/-! DEFINITION. The word types of the CY-9400 (R2, R55): bytes, 32-bit words, pairs and quads. -/

namespace Sys2Proof

/-- One byte of memory (R2). -/
abbrev Byte := BitVec 8

/-- A 32-bit instruction word or single register (R55, R71). -/
abbrev Word := BitVec 32

/-- A 64-bit pair value or generic address (R55, R127). -/
abbrev DWord := BitVec 64

/-- A 128-bit quad or bypass-latch value (R36, R55). -/
abbrev QWord := BitVec 128

end Sys2Proof
end

