-- ==== Sys2Proof/Config.lean ====
section
/-! DEFINITION. What is fixed for the device, and the free values: constants with no body, of which
nothing can be proved but what holds for every value (assumption log 4). -/

namespace Sys2Proof.Config

/-- Dies of a package (R10). -/
def dies : Nat := 4
/-- Cores of a die (R10). -/
def coresPerDie : Nat := 48
/-- Partitions of a core (R10). -/
def partsPerCore : Nat := 4
/-- Thread slots of a partition (R10). -/
def slotsPerPart : Nat := 384
/-- Transit bins of a partition (R28). -/
def binsPerPart : Nat := 32
/-- Bytes of a core's tile store (R131). -/
def tileStoreBytes : Nat := 1048576
/-- Bytes of a core's accumulator store (R14, R210). -/
def accBytes : Nat := 131072
/-- Entries of the shadow stack (R52). -/
def shadowMax : Nat := 528
/-- Ticks of a read lease (R161: at most 4,096; log 6). -/
def leaseTicks : Nat := 4096
/-- Lines of a core's L1, of a die's remote-data cache, and bytes of a core's weight cache (R14). -/
def l1Lines : Nat := 2048
def remoteLines : Nat := 262144
def weightBytes : Nat := 65536
/-- Partial sums of a die's gradient reducing cache, 16 bytes each (R14). -/
def grcEntries : Nat := 1048576
/-- Default budget of a power period (R294). -/
def defaultBudget : Nat := 140000000
/-- The clip of the budget register (R294). -/
def budgetClip : Nat := 200000000
/-- Live tasks of a package (R291). -/
def maxTasks : Nat := 65536

/-- Free value: the contents of a byte that the manual leaves undefined (log 4). -/
opaque freeByte : Nat → BitVec 8
/-- Free value: an estimate E of R220 before two K-steps have been compared (log 4, log 40). -/
opaque freeEst : Nat → Fin 257
/-- Free value: a choice between two outcomes that the manual leaves open (log 4). -/
opaque freeBit : Nat → Bool
/-- The L2 slice of its home die that holds a line, and the line's set there: the hash of R138 is fixed and not given, and
16 ways of 128 bytes make 4,096 sets of a slice of 8 MiB (log 8). -/
opaque l2Slice : Nat → Fin 16
opaque l2Set : Nat → Fin 4096
/-- The 132 bytes of the root public key that is fused into the boot ROM (R296; log 8). -/
opaque rootKey : Nat → BitVec 8
/-- The fused minimum firmware version (R296; log 8). -/
opaque minVersion : Nat
/-- The XMSS-SHAKE_20_512 signature of a report's first 256 bytes under an index (R297; log 8). -/
opaque reportSignature : Nat → List (BitVec 8) → List (BitVec 8)
/-- The module serial number (R297; log 8). -/
opaque serial : BitVec 64
/-- The identity public key, 132 bytes (R294; log 8). -/
opaque idKey : Nat → BitVec 8

end Sys2Proof.Config
end

