-- ==== Sys2Proof/Syntax.lean ====
section
/-! DEFINITION. The instructions: one constructor for each row of spec/opcode_table.json. A thread
instruction carries its operands with register numbers and modes as constructors; a device event carries
what the manual leaves to the outside or to timing. -/

namespace Sys2Proof

/-- The guard of an extended form: predicate and inversion (R76). -/
structure Guard where
  p : Fin 8
  neg : Bool
  deriving DecidableEq, Repr

/-- A source operand field (R55, R62, R76). -/
inductive Src where
  /-- mode 00: a register number, with its hold bit -/
  | reg (n : Fin 128) (hold : Bool)
  /-- mode 01: a bypass latch -/
  | latch (k : Fin 4)
  /-- mode 10: a channel pop -/
  | pop (c : Fin 32)
  /-- mode 11: a channel peek -/
  | peek (c : Fin 32)
  deriving DecidableEq, Repr

/-- Source b: a field, the immediate (I = 1, in imm32), or the 64-bit literal (R77, R79). -/
inductive SrcB where
  | src (s : Src)
  | imm
  | lit (v : BitVec 64)
  deriving DecidableEq, Repr

/-- The destination field: a register, the latch only (N = 1), or a channel push (dM = 1) with its N bit
(R36, R55, R82). -/
inductive Dst where
  | reg (n : Fin 128)
  | latchOnly
  | push (c : Fin 32) (n1 : Bool)
  deriving DecidableEq, Repr

/-- The extended and literal forms (R71, R76, R79). `baseLit` is L = 10; otherwise L is 11 when b is a
literal and 01 when it is not. -/
structure ExtOp where
  guard : Guard
  baseLit : Bool
  d : Dst
  a : Src
  b : SrcB
  c : Src
  func : BitVec 6
  mod : BitVec 5
  imm : BitVec 32
  deriving DecidableEq, Repr

/-- Source b of a base form: a register or sint(7) (R73, R74). -/
inductive BaseB where
  | reg (n : Fin 128)
  | imm (v : BitVec 7)
  deriving DecidableEq, Repr

/-- The base form, L = 00 (R73, R74). -/
structure BaseOp where
  d : Dst
  a : Fin 128
  b : BaseB
  deriving DecidableEq, Repr

/-- What the boot firmware found and chose (R296, R266, R144): supplied from outside. -/
structure BootReport where
  /-- the bytes of the firmware image in module flash; empty when it is missing -/
  image : List Byte
  hbmOk : Bool
  tpolicy : BitVec 48
  hvec : BitVec 64
  savebase : BitVec 64
  savesize : BitVec 64
  scope : List Byte
  cap : List Nat
  cxlUp : List Bool
  plogonUp : List Bool
  /-- extents of the second tier that the memory devices have not allocated: first address and bytes (R263) -/
  unalloc : List (Nat × Nat)
  pkg : BitVec 9
  deriving DecidableEq, Repr

/-- One soft error (R284). -/
inductive SoftErr where
  /-- a single-bit error, corrected and counted on a die -/
  | corrected (die : Fin 4)
  /-- an uncorrectable error in a 32-byte unit of device memory or a device cache -/
  | device (unit : Nat)
  /-- host memory reported poisoned over CXL -/
  | host (unit : Nat)
  /-- a unit of tile allocation `alloc` -/
  | tile (alloc : Nat) (unit : Nat)
  /-- a unit of accumulator store `acc` -/
  | acc (acc : Nat) (unit : Nat)
  /-- a unit of thread `k`'s stack lines -/
  | stack (k : Nat) (unit : Nat)
  /-- register `n` of thread `k` -/
  | reg (k : Nat) (n : Fin 128)
  /-- the partial sum a die holds for the element at a physical address -/
  | partialSum (die : Fin 4) (addr : Nat)
  /-- a unit of copy number `i` in the L1 caches -/
  | lease (i : Nat) (unit : Fin 4)
  /-- a unit of copy number `i` in the remote-data caches -/
  | remoteCopy (i : Nat) (unit : Fin 4)
  /-- piece number `i` of the weight caches -/
  | weight (i : Nat)
  deriving DecidableEq, Repr

/-- A link that fails (R267, R263). -/
inductive LinkId where
  | plogon (l : Fin 12)
  | cxl (l : Fin 4)
  /-- the last route to a package -/
  | route (pkg : Fin 512)
  deriving DecidableEq, Repr

/-- A host access to device memory over CXL.mem (R171). -/
inductive HostAccess where
  | read (addr : Nat) (n : Nat)
  | write (addr : Nat) (bytes : List Byte)
  deriving DecidableEq, Repr

/-- An access from another package (R170): to a line homed here, or, as far as this package can see it, to one homed elsewhere. -/
inductive RemoteAccess where
  | load (addr : Nat) (n : Nat)
  | store (addr : Nat) (bytes : List Byte)
  | atom (op : BitVec 4) (wide : Bool) (addr : Nat) (y : BitVec 64) (c : BitVec 64)
  deriving DecidableEq, Repr

/-- What another member of a collective brings (R270): its block's agreement fields and its source data;
for a key exchange `src` holds its pairs, 12 bytes each. `early` is a member that ended early. -/
structure Peer where
  rank : Nat
  op : Nat
  nmem : Nat
  root : Nat
  nbytes : Nat
  early : Bool
  src : List Byte
  deriving DecidableEq, Repr

/-- The rows of spec/opcode_table.json. -/
inductive Instr where
  /-- POWER_ON (R295). -/
  | powerOn
  /-- COLD_RESET (R295). -/
  | coldReset
  /-- WARM_RESET (R295). -/
  | warmReset
  /-- BOOT (R296). -/
  | boot (r : BootReport)
  /-- ATTESTATION_START (R297). -/
  | attestationStart
  /-- ATTESTATION_COMPLETE (R297). -/
  | attestationComplete
  /-- PARTITION_STOP (R302). -/
  | partitionStop
  /-- PARTITION_RESUME (R303). -/
  | partitionResume
  /-- PARTITION_STEP (R303). -/
  | partitionStep
  /-- END_THREAD (R303). -/
  | endThread
  /-- RELEASE (R303). -/
  | release
  /-- THREAD_WINDOW_WRITE (R305). -/
  | threadWindowWrite (off : Nat) (v : BitVec 64)
  /-- BUDGET_WRITE (R294). -/
  | budgetWrite (v : BitVec 64)
  /-- SPECTROGRAPH_RING_CONFIG (R299). -/
  | spectrographRingConfig (lg : Bool) (v : BitVec 64)
  /-- BBC_COUNTER_WRITE (R301). -/
  | bbcCounterWrite (i : BitVec 8) (v : BitVec 64)
  /-- CONTROL_WINDOW_WRITE: the value of a write of 8 bytes, none for a write of any other size (R294). -/
  | controlWindowWrite (off : BitVec 16) (v : Option (BitVec 64))
  /-- QUEUE_SET (R174). -/
  | queueSet
  /-- QUEUE_STOP (R204). -/
  | queueStop
  /-- MIGRATE (R153). -/
  | migrate
  /-- MIGRATION_COMPLETE (R153). -/
  | migrationComplete
  /-- BIAS (R154). -/
  | bias
  /-- BIAS_FLIP_COMPLETE (R154). -/
  | biasFlipComplete
  /-- CANCEL (R204). -/
  | cancel
  /-- WATCHDOG (R204). -/
  | watchdog
  /-- MQ_INVALID_COMMAND (R204). -/
  | mqInvalidCommand
  /-- TAIL_STORE_RECALL (R175). -/
  | tailStoreRecall (q : Fin 64)
  /-- SUBMISSION_SLOT_READ (R175). -/
  | submissionSlotRead (q : Fin 64)
  /-- TASK_DEPENDENCES_COMPLETE (R181). -/
  | taskDependencesComplete (t : Nat)
  /-- TENURE_GRANT (R149). -/
  | tenureGrant (t : Nat)
  /-- TEAM_PLACEMENT (R182). -/
  | teamPlacement (t : Nat) (core : Fin 192) (part : Fin 4) (slot : Fin 384)
  /-- TASK_COMPLETE (R187). -/
  | taskComplete (t : Nat)
  /-- PREEMPT_SECTION (R289). -/
  | preemptSection (waiter : Nat)
  /-- SECTION_RESUME (R293). -/
  | sectionResume (t : Nat) (sec : Nat) (core : Fin 192) (shift : List Nat)
  /-- BIN_AGE_EXPIRY (R31). -/
  | binAgeExpiry (p : Fin 768) (b : Nat)
  /-- MEMORY_WAIT_SPLIT (R27). -/
  | memoryWaitSplit (p : Fin 768) (g : Nat)
  /-- LOAD_DATA_RETURN (R40). -/
  | loadDataReturn (k : Nat)
  /-- COPY_DATA_LANDING (R132). -/
  | copyDataLanding (c : Nat) (line : Nat)
  /-- TWAIT_REEVALUATE (R190). -/
  | twaitReevaluate (k : Nat)
  /-- TWAIT_TIMEOUT (R190). -/
  | twaitTimeout (k : Nat)
  /-- CHANNEL_SPILL (R195). -/
  | channelSpill (k : Nat)
  /-- EXIT_COMPLETE (R48). -/
  | exitComplete (k : Nat)
  /-- NODE_BATCH_LAUNCH (R200). -/
  | nodeBatchLaunch (t : Nat) (node : Nat) (core : Fin 192) (part : Fin 4) (slots : List Nat)
  /-- NODE_BATCH_TIMEOUT (R200). -/
  | nodeBatchTimeout (t : Nat) (node : Nat) (core : Fin 192) (part : Fin 4) (slots : List Nat)
  /-- WATCHDOG_EXPIRY (R203). -/
  | watchdogExpiry (ts : List Nat)
  /-- MMA_START (R207). -/
  | mmaStart (core : Fin 192)
  /-- MMA_ITERATION (R211). -/
  | mmaIteration (core : Fin 192)
  /-- MMA_COMPLETE (R218). -/
  | mmaComplete (core : Fin 192)
  /-- NEVAL_TILE_TIMEOUT (R224). -/
  | nevalTileTimeout (i : Nat)
  /-- NEVAL_TILE_RUN (R225). -/
  | nevalTileRun (i : Nat)
  /-- COPY_START (R252). -/
  | copyStart (e : Fin 16)
  /-- COPY_RUN (R255). -/
  | copyRun (e : Fin 16)
  /-- COPY_COND_REEVALUATE (R257). -/
  | copyCondReevaluate (e : Fin 16)
  /-- COPY_COND_TIMEOUT (R257). -/
  | copyCondTimeout (e : Fin 16)
  /-- COPY_BARRIER_ARRIVAL (R260). -/
  | copyBarrierArrival (e : Fin 16)
  /-- COPY_COMPLETE (R259). -/
  | copyComplete (e : Fin 16)
  /-- SORT_START (R234). -/
  | sortStart (die : Fin 4)
  /-- SORT_PASS (R235). -/
  | sortPass (die : Fin 4)
  /-- SORT_COMPLETE (R237). -/
  | sortComplete (die : Fin 4)
  /-- COLL_START (R270). -/
  | collStart (die : Fin 4) (peers : List Peer)
  /-- COLL_COMPLETE (R273). -/
  | collComplete (die : Fin 4)
  /-- GRC_EVICT_MERGE (R244). -/
  | grcEvictMerge (die : Fin 4) (addr : Nat)
  /-- POWER_PERIOD (R298). -/
  | powerPeriod
  /-- SPECTROGRAPH_SAMPLE (R299). -/
  | spectrographSample (p : Fin 768)
  /-- SOFT_ERROR (R284). -/
  | softError (e : SoftErr)
  /-- LINK_FAILURE (R267). -/
  | linkFailure (l : LinkId)
  /-- HOST_MEMORY_ACCESS (R171). -/
  | hostMemoryAccess (a : HostAccess)
  /-- ILL (R375). -/
  | ill (w : Word)
  /-- ADD (R332). -/
  | add (o : BaseOp)
  /-- ADD_EXT (R332). -/
  | addExt (x : ExtOp)
  /-- SUB (R332). -/
  | sub (o : BaseOp)
  /-- SUB_EXT (R332). -/
  | subExt (x : ExtOp)
  /-- MUL (R388). -/
  | mul (o : BaseOp)
  /-- MUL_EXT (R388). -/
  | mulExt (x : ExtOp)
  /-- MULH (R388). -/
  | mulh (o : BaseOp)
  /-- MULH_EXT (R388). -/
  | mulhExt (x : ExtOp)
  /-- MAD (R388). -/
  | mad (x : ExtOp)
  /-- AND (R334). -/
  | and (o : BaseOp)
  /-- AND_EXT (R334). -/
  | andExt (x : ExtOp)
  /-- OR (R334). -/
  | or (o : BaseOp)
  /-- OR_EXT (R334). -/
  | orExt (x : ExtOp)
  /-- XOR (R334). -/
  | xor (o : BaseOp)
  /-- XOR_EXT (R334). -/
  | xorExt (x : ExtOp)
  /-- ANDN (R334). -/
  | andn (o : BaseOp)
  /-- ANDN_EXT (R334). -/
  | andnExt (x : ExtOp)
  /-- SHL (R403). -/
  | shl (o : BaseOp)
  /-- SHL_EXT (R403). -/
  | shlExt (x : ExtOp)
  /-- SHR (R403). -/
  | shr (o : BaseOp)
  /-- SHR_EXT (R403). -/
  | shrExt (x : ExtOp)
  /-- SAR (R403). -/
  | sar (o : BaseOp)
  /-- SAR_EXT (R403). -/
  | sarExt (x : ExtOp)
  /-- ROT (R403). -/
  | rot (o : BaseOp)
  /-- ROT_EXT (R403). -/
  | rotExt (x : ExtOp)
  /-- MIN (R389). -/
  | min (o : BaseOp)
  /-- MIN_EXT (R389). -/
  | minExt (x : ExtOp)
  /-- MAX (R389). -/
  | max (o : BaseOp)
  /-- MAX_EXT (R389). -/
  | maxExt (x : ExtOp)
  /-- ABS (R330). -/
  | abs (x : ExtOp)
  /-- CLZ (R345). -/
  | clz (x : ExtOp)
  /-- POPC (R345). -/
  | popc (x : ExtOp)
  /-- BREV (R345). -/
  | brev (x : ExtOp)
  /-- BFX (R340). -/
  | bfx (x : ExtOp)
  /-- BFI (R341). -/
  | bfi (x : ExtOp)
  /-- SEL (R404). -/
  | sel (x : ExtOp)
  /-- CMP (R348). -/
  | cmp (x : ExtOp)
  /-- MOV (R391). -/
  | mov (o : BaseOp)
  /-- MOV_EXT (R391). -/
  | movExt (x : ExtOp)
  /-- MOVI (R392). -/
  | movi (x : ExtOp)
  /-- LEA (R385). -/
  | lea (o : BaseOp)
  /-- LEA_EXT (R385). -/
  | leaExt (x : ExtOp)
  /-- ADDQ (R333). -/
  | addq (o : BaseOp)
  /-- ADDQ_EXT (R333). -/
  | addqExt (x : ExtOp)
  /-- MULW (R388). -/
  | mulw (o : BaseOp)
  /-- MULW_EXT (R388). -/
  | mulwExt (x : ExtOp)
  /-- DIV (R356). -/
  | div (o : BaseOp)
  /-- DIV_EXT (R356). -/
  | divExt (x : ExtOp)
  /-- REM (R356). -/
  | rem (o : BaseOp)
  /-- REM_EXT (R356). -/
  | remExt (x : ExtOp)
  /-- PMOV (R397). -/
  | pmov (x : ExtOp)
  /-- FADD (R361). -/
  | fadd (o : BaseOp)
  /-- FADD_EXT (R361). -/
  | faddExt (x : ExtOp)
  /-- FSUB (R361). -/
  | fsub (o : BaseOp)
  /-- FSUB_EXT (R361). -/
  | fsubExt (x : ExtOp)
  /-- FMUL (R361). -/
  | fmul (o : BaseOp)
  /-- FMUL_EXT (R361). -/
  | fmulExt (x : ExtOp)
  /-- FFMA (R369). -/
  | ffma (x : ExtOp)
  /-- FMIN (R370). -/
  | fmin (o : BaseOp)
  /-- FMIN_EXT (R370). -/
  | fminExt (x : ExtOp)
  /-- FMAX (R370). -/
  | fmax (o : BaseOp)
  /-- FMAX_EXT (R370). -/
  | fmaxExt (x : ExtOp)
  /-- FCMP (R363). -/
  | fcmp (x : ExtOp)
  /-- FRND (R371). -/
  | frnd (x : ExtOp)
  /-- FCVT (R366). -/
  | fcvt (x : ExtOp)
  /-- FRCP (R364). -/
  | frcp (x : ExtOp)
  /-- FRSQ (R364). -/
  | frsq (x : ExtOp)
  /-- FSQRT (R364). -/
  | fsqrt (x : ExtOp)
  /-- FEX2 (R364). -/
  | fex2 (x : ExtOp)
  /-- FLG2 (R364). -/
  | flg2 (x : ExtOp)
  /-- FSIN (R364). -/
  | fsin (x : ExtOp)
  /-- FCOS (R364). -/
  | fcos (x : ExtOp)
  /-- FCLASS (R362). -/
  | fclass (x : ExtOp)
  /-- NMSEL (R394). -/
  | nmsel (x : ExtOp)
  /-- HADD2 (R374). -/
  | hadd2 (o : BaseOp)
  /-- HADD2_EXT (R374). -/
  | hadd2Ext (x : ExtOp)
  /-- HMUL2 (R374). -/
  | hmul2 (o : BaseOp)
  /-- HMUL2_EXT (R374). -/
  | hmul2Ext (x : ExtOp)
  /-- HFMA2 (R374). -/
  | hfma2 (x : ExtOp)
  /-- HDOT2 (R374). -/
  | hdot2 (x : ExtOp)
  /-- RCVT (R118). -/
  | rcvt (x : ExtOp)
  /-- RADD (R400). -/
  | radd (o : BaseOp)
  /-- RADD_EXT (R400). -/
  | raddExt (x : ExtOp)
  /-- RMUL (R400). -/
  | rmul (o : BaseOp)
  /-- RMUL_EXT (R400). -/
  | rmulExt (x : ExtOp)
  /-- BRA (R343). -/
  | bra (off : BitVec 23)
  /-- BRA_EXT (R343). -/
  | braExt (x : ExtOp)
  /-- BRC (R344). -/
  | brc (off : BitVec 19) (neg : Bool) (p : Fin 8)
  /-- BRC_EXT (R344). -/
  | brcExt (x : ExtOp)
  /-- CALL (R343). -/
  | call (off : BitVec 23)
  /-- CALL_EXT (R343). -/
  | callExt (x : ExtOp)
  /-- JMP (R376). -/
  | jmp (x : ExtOp)
  /-- CALLI (R346). -/
  | calli (x : ExtOp)
  /-- RET (R402). -/
  | ret (x : ExtOp)
  /-- LAND (R378). -/
  | land
  /-- REFORM (R401). -/
  | reform (x : ExtOp)
  /-- EXIT (R360). -/
  | exit (x : ExtOp)
  /-- TRAP (R414). -/
  | trap (x : ExtOp)
  /-- NOP (R395). -/
  | nop
  /-- NOP_EXT (R395). -/
  | nopExt (x : ExtOp)
  /-- BBC (R301). -/
  | bbc (x : ExtOp)
  /-- LD (R381). -/
  | ld (d : Dst) (a : Fin 128) (off : BitVec 7)
  /-- LD_EXT (R381). -/
  | ldExt (x : ExtOp)
  /-- ST (R409). -/
  | st (data : Fin 128) (a : Fin 128) (off : BitVec 7)
  /-- ST_EXT (R409). -/
  | stExt (x : ExtOp)
  /-- LDC (R384). -/
  | ldc (x : ExtOp)
  /-- PRF (R398). -/
  | prf (x : ExtOp)
  /-- LOCK (R386). -/
  | lock (x : ExtOp)
  /-- UNLOCK (R386). -/
  | unlock (x : ExtOp)
  /-- KEYEMIT (R231). -/
  | keyemit (x : ExtOp)
  /-- SPAN (R240). -/
  | span (x : ExtOp)
  /-- GRED_ADD (R243). -/
  | gredAdd (x : ExtOp)
  /-- GRED_RES (R243). -/
  | gredRes (x : ExtOp)
  /-- WBACK (R417). -/
  | wback (x : ExtOp)
  /-- ATOM (R336). -/
  | atom (x : ExtOp)
  /-- ABEGIN (R328). -/
  | abegin (x : ExtOp)
  /-- ACOMMIT (R329). -/
  | acommit (x : ExtOp)
  /-- FENCE (R368). -/
  | fence (x : ExtOp)
  /-- FENCEX (R167). -/
  | fencex (x : ExtOp)
  /-- TWAIT (R190). -/
  | twait (x : ExtOp)
  /-- BAREXP (R192). -/
  | barexp (x : ExtOp)
  /-- BARARV (R192). -/
  | bararv (x : ExtOp)
  /-- TLEAVE (R413). -/
  | tleave (x : ExtOp)
  /-- TSYNC (R413). -/
  | tsync (x : ExtOp)
  /-- XCHG (R413). -/
  | xchg (x : ExtOp)
  /-- XSHF (R413). -/
  | xshf (x : ExtOp)
  /-- XVOTE (R413). -/
  | xvote (x : ExtOp)
  /-- XRED (R46). -/
  | xred (x : ExtOp)
  /-- CHCTL (R196). -/
  | chctl (x : ExtOp)
  /-- MMA (R206). -/
  | mma (x : ExtOp)
  /-- NEVAL (R224). -/
  | neval (x : ExtOp)
  /-- COPY (R252). -/
  | copy (x : ExtOp)
  /-- SORT (R405). -/
  | sort (x : ExtOp)
  /-- COLL (R349). -/
  | coll (x : ExtOp)
  /-- EMIT (R358). -/
  | emit (x : ExtOp)
  /-- SPAWN (R188). -/
  | spawn (x : ExtOp)
  /-- CSRR (R352). -/
  | csrr (x : ExtOp)
  /-- CSRW (R353). -/
  | csrw (x : ExtOp)
  /-- ERET (R281). -/
  | eret (x : ExtOp)
  /-- SYSC (R282). -/
  | sysc (x : ExtOp)
  /-- DBG_BRK (R300). -/
  | dbgBrk (x : ExtOp)
  /-- DBG_TAG (R300). -/
  | dbgTag (x : ExtOp)
  /-- PLOGON_REMOTE_ACCESS (R170). -/
  | plogonRemoteAccess (a : RemoteAccess)
  /-- READ_LEASE_EXPIRY (R161). -/
  | readLeaseExpiry (core : Fin 192) (line : Nat)
  /-- HOST_PORT_TRAINING (R261). -/
  | hostPortTraining (rate : Nat) (width : Nat) (flit : Bool)
  deriving DecidableEq, Repr

end Sys2Proof
end

