-- ==== Sys2Proof/Machine/State.lean ====
section
/-! DEFINITION. The state of the CY-9400 as plain data: threads, fused groups and transit bins, tile stores,
device and host memory, tasks, engine commands, the control window, and the model's own bookkeeping
(assumption log 1, 4, 5, 6). -/

namespace Sys2Proof.Machine

/-- Why the model stops. -/
inductive Fault where
  /-- Raised by the meaning of a thread instruction that is called while no issue is under way, so that there is
  no thread to execute it; `step` never calls a meaning so. Safe. -/
  | noIssuingThread
  deriving DecidableEq, Repr

/-- Why the model gives no meaning. -/
inductive Refusal where
  /-- Raised by an arm of `exec` that has no meaning yet, with the table's mnemonic. Safe. -/
  | notModelled (mnemonic : String)
  deriving DecidableEq, Repr

/-! ## Memory -/

/-- A memory: bytes that differ from 0, in strictly rising order of address, and the poisoned 32-byte units,
numbered address div 32, strictly rising (R284; log 2). -/
structure Store where
  bytes : List Host.Cell := []
  bad : List Nat := []
  deriving DecidableEq, Repr

/-- The timestamps of a line at its home slice (R160 and the text before R161). -/
structure Stamp where
  wts : Nat
  rts : Nat
  deriving DecidableEq, Repr

/-- Who made a write (R156): a thread, a command, the host with its write numbered by receipt, or the merge of a partial
sum with addends of some threads. -/
inductive WriteSrc where
  | thread (k : Nat)
  | cmd (c : Nat)
  | host (no : Nat)
  | merge (ks : List Nat)
  deriving DecidableEq, Repr

/-- A line that was written outside the thread path, with the rts it had then (R165, R167). -/
structure EngWrite where
  src : WriteSrc
  line : Nat
  rts : Nat
  deriving DecidableEq, Repr

/-- Bytes of device memory whose last write is the host's write `no` (R167, class h). -/
structure HostExt where
  no : Nat
  pa : Nat
  n : Nat
  deriving DecidableEq, Repr

/-- Bytes of device memory, or with `host` of host memory, that a thread or a command has written, with no `FENCEX` of later
class g since (R245). -/
structure Wrote where
  src : WriteSrc
  host : Bool
  pa : Nat
  n : Nat
  deriving DecidableEq, Repr

/-- A partial sum that the gradient reducing cache of a die holds for the element at a physical address (R244), with the
addends that it counted as non-finite and as overflowing, the threads that added with no `FENCEX` of earlier class g since,
and whether a write unordered against an addend has left the element undefined (R245). An entry that was merged holds zero, and
stays for its threads. -/
structure GrcEntry where
  die : Nat
  addr : Nat
  counter : Nat
  v : BitVec 128
  nf : Nat
  ov : Nat
  bad : Bool
  ks : List Nat
  torn : Bool
  deriving DecidableEq, Repr

/-- Where an address reaches: device physical memory (with the other packages' windows), host physical memory,
or storage of the core's own. -/
inductive Place where
  /-- `cached` is false for a page of host bias (R154) -/
  | dev (pa : Nat) (cached : Bool)
  | host (pa : Nat)
  | tile (alloc : Nat) (off : Nat)
  | stack (k : Nat) (off : Nat)
  deriving DecidableEq, Repr

/-- What an acquire at a location learns (R166): the commands whose completion the releasing thread had observed, or,
for `arrival`, those whose arrivals advanced the barrier there (R190). -/
structure Released where
  pl : Place
  n : Nat
  cmds : List Nat
  arrival : Bool
  deriving DecidableEq, Repr

/-- An element that takes addends at its home, as no device cache keeps its line (R137, R154): its place, and the threads that added
with no `FENCEX` of earlier class g since (R245; log 38). -/
structure DirectAdd where
  pl : Place
  ks : List Nat
  deriving DecidableEq, Repr

/-- A leased copy of a line (R137, R160, R161): the core, or the die in the remote-data cache, that holds it; the wts of its
contents, the rts up to which it is valid, the time from which R161 lets it serve no load, its bytes and poisoned units, what
stood released and host-written in the line when it was fetched, and who has written the line since, so that a load that it serves
may still return a value that those writes replaced (R157). -/
structure Lease where
  core : Nat
  line : Nat
  wts : Nat
  rts : Nat
  till : Nat
  data : List Byte
  bad : List Nat
  rel : List Released
  host : List HostExt
  lacks : List WriteSrc
  deriving DecidableEq, Repr

/-- A barrier on which some thread has parked, and when its bytes were last written (R203). -/
structure Watch where
  pl : Place
  last : Nat
  deriving DecidableEq, Repr

/-- A pin of a task on a line (R141). -/
structure Pin where
  task : Nat
  die : Nat
  line : Nat
  deriving DecidableEq, Repr

/-- Device and host memory with what caches and home slices hold of it. -/
structure Mem where
  /-- Device physical memory by 52-bit address: HBM4E, second tier, other packages (R144, R265). -/
  dev : Store
  /-- Host physical memory (R144, page target 10). -/
  host : Store
  /-- Timestamps by line, absent: 0 and 0. -/
  stamps : List (Nat × Stamp)
  /-- Logical clock by core, absent: 0 (R160). -/
  clocks : List (Nat × Nat)
  /-- L1: leased copies, newest first (R137) -/
  leases : List Lease
  /-- the dies' remote-data caches: leased copies of lines homed elsewhere, `core` being the die (R137) -/
  remote : List Lease
  engWrites : List EngWrite
  grc : List GrcEntry
  /-- elements that take their addends at home (R245) -/
  direct : List DirectAdd
  pins : List Pin
  released : List Released
  /-- host writes received so far, and the bytes that are still theirs, newest first (R167) -/
  hostNo : Nat
  hostAt : List HostExt
  /-- writes that no `FENCEX` has ordered before `GRED` operations (R245) -/
  wrote : List Wrote
  /-- barriers that threads wait on (R203) -/
  watched : List Watch
  deriving DecidableEq, Repr

/-! ## Threads -/

/-- A bypass latch (R36, R37): its value, the instructions of the thread since its producer, whether the producer had N = 1,
and the outstanding result that its value comes with, if any. An entry whose reach has ended by an event of R37 does not stand
in the list. -/
structure Latch where
  val : QWord
  age : Nat
  n1 : Bool
  due : Option Nat
  deriving DecidableEq, Repr

/-- What a trap reports beside the thread's own identity (R275, R276). -/
structure TrapInfo where
  code : Nat
  addr : DWord
  detail : BitVec 32
  aux : BitVec 16
  /-- epc is the address after the instruction (`TRAP`, `DBG.brk`, `SYSC`). -/
  afterPc : Bool
  deriving DecidableEq, Repr

/-- A result that is still outstanding (R288, R304): its registers, source code, value, the trap that a poisoned
read reports later with the read's own pc and length, and whether its data have returned (then only a poisoned
read stays listed). -/
structure Pend where
  first : Nat
  n : Nat
  src : Nat
  val : QWord
  poison : Option TrapInfo
  pc : DWord
  len : Nat
  returned : Bool
  /-- order of issue (R304) -/
  no : Nat
  deriving DecidableEq, Repr

/-- One access of an atomic region (R163). -/
inductive RegionAcc where
  /-- offset in the line, bytes, sign-extended, destination register and its count, expected value of `.cmp` -/
  | load (off : Nat) (n : Nat) (sx : Bool) (dst : Nat) (cnt : Nat) (latchOnly : Bool) (expect : Option QWord)
  | store (off : Nat) (n : Nat) (data : QWord)
  deriving DecidableEq, Repr

/-- An open atomic region: the address of its `ABEGIN`, its line, and its accesses in program order (R163). -/
structure Region where
  abegin : DWord
  line : DWord
  accs : List RegionAcc
  deriving DecidableEq, Repr

/-- What a parked `TWAIT` waits for (R189, R190). -/
structure TWaitRec where
  /-- 0 address, 1 token, 2 barrier -/
  form : Nat
  wide : Bool
  cc : Nat
  addr : DWord
  val : DWord
  hint : Nat
  acq : Bool
  scope : Nat
  dst : Nat
  start : Nat
  /-- the address after the instruction, and the channel that the comparand was popped from with the value's number (log 14) -/
  next : DWord
  popped : Option (Nat × Nat)
  deriving DecidableEq, Repr

/-- What a member brings to a rendezvous (R42, R44, R45). -/
structure Arrival where
  /-- operation code, variant and, for `XCHG`, the mask: what must agree (R44) -/
  key : Nat × Nat × Nat
  supplies : Bool
  pair : Bool
  value : DWord
  fallback : DWord
  index : Nat
  dst : Nat
  len : Nat
  deriving DecidableEq, Repr

/-- Why a thread is parked (R40). -/
inductive Wait where
  /-- operand data of an outstanding result: the instruction issues again -/
  | memory
  /-- a busy token record (R186): the instruction issues again -/
  | record
  /-- a `SPAWN` beyond 65,536 live tasks (R291): the instruction issues again -/
  | taskRoom
  /-- tile-store lines from `lo` on, `n` of them, some with a clear presence bit: the instruction issues again -/
  | presence (lo : Nat) (n : Nat)
  | twait (w : TWaitRec)
  /-- a channel that cannot supply or accept; `push` tells which -/
  | channel (c : Nat) (push : Bool)
  | emit (node : Nat)
  | rendezvous (a : Arrival)
  /-- a row of a Coelostat tile -/
  | neval
  /-- a `WBACK` whose write to the memory device is to be acknowledged (R417); `acked` once it is -/
  | writeBack (acked : Bool)
  /-- an engine command whose destination is a push to channel `c`: the read of its block waits for `w`, and the room for its
  token is held (R420) -/
  | room (c : Nat) (w : Wait)
  /-- an `EMIT` to a node that has taken a free slot of the pool: the read of its record waits for `w`, and the slot is held (R358) -/
  | slot (node : Nat) (w : Wait)
  deriving DecidableEq, Repr

/-- The state of a thread (R34). Ready and Issued are one value here: an issued thread stands in the open issue. -/
inductive ThreadSt where
  | ready
  | parked (w : Wait)
  /-- held under policy 11 (R278) -/
  | trapped
  /-- halted by a partition stop (R302) -/
  | stopped
  /-- `EXIT` executed, accesses not yet performed (R48) -/
  | exiting
  | exited
  /-- its section stands in the save area (R291); `cause` is 0 unless it was Parked -/
  | saved (state : Nat) (cause : Nat)
  deriving DecidableEq, Repr

structure Thread where
  task : Nat
  /-- the node of a node thread (R200) -/
  node : Option Nat
  tid : Word
  ntid : Word
  tsize : Nat
  /-- 48·die + core -/
  core : Nat
  part : Nat
  slot : Nat
  regsN : Nat
  recAddr : DWord
  /-- the pool slot of a node thread's record (R199) -/
  recSlot : Option Nat
  regs : Vector Word 128
  preds : BitVec 7
  pc : DWord
  lk : DWord
  /-- shadow return stack, newest first (R51, R52) -/
  shadow : List DWord
  /-- entries refilled from a poisoned unit of the spill area, by index from the oldest (R402) -/
  shadowBad : List Nat
  latches : List Latch
  fmode : BitVec 3
  fflags : BitVec 5
  stack : Store
  tag : BitVec 16
  sup : Bool
  trec : Vector DWord 8
  epc : DWord
  hact : BitVec 2
  hscr : Vector DWord 4
  region : Option Region
  pend : List Pend
  /-- registers with an uncorrectable error (R284, R287) -/
  badRegs : List Nat
  tcount : Nat
  left : Bool
  /-- commands whose completion the thread has observed (R166) -/
  observed : List Nat
  /-- the latest host write whose value the thread has read (R167) -/
  hostSeen : Nat
  st : ThreadSt
  /-- time and order of the last parking (R195, R199) -/
  parkedAt : Nat
  parkNo : Nat
  /-- a stop request that waits for an instruction boundary outside a latch chain (R35) -/
  stopReq : Bool
  deriving DecidableEq, Repr

/-! ## The front end -/

/-- A thread filed in a transit bin, with its release cycle and whether `REFORM` filed it (R30, R31). -/
structure Filed where
  k : Nat
  filed : Nat
  release : Nat
  reform : Bool
  deriving DecidableEq, Repr

/-- A transit bin that holds members (R28): partition number 4·core + part, key, members; the cycle in which it
became eligible as Full, Complete or Aged; the first cycle of its present idle run; and the first cycle in which its
first instruction was issuable (R26). -/
structure Bin where
  part : Nat
  task : Nat
  pc : DWord
  members : List Filed
  elig : Option Nat
  idle : Option Nat
  since : Option Nat
  deriving DecidableEq, Repr

/-- A running group (R25): its earliest issue cycle and its ready-since cycle (R26). -/
structure Group where
  part : Nat
  members : List Nat
  earliest : Nat
  since : Option Nat
  deriving DecidableEq, Repr

/-- An issue under way: members that have still to execute, in ascending home lane (R159), members that have
executed and go on, whether one took a control transfer (R27), and whether this is the completion of a parked
channel transfer or `EMIT` (R40). -/
structure Issue where
  part : Nat
  left : List Nat
  stay : List Nat
  taken : Bool
  wake : Bool
  /-- for the Spectrograph (R299): the lowest-lane member, the members, the ready-since cycle, and whether the issue
  has been counted -/
  lead : Nat
  size : Nat
  since : Nat
  counted : Bool
  /-- the logical time at which the members' writes stand together (R159) -/
  stamp : Option Nat
  deriving DecidableEq, Repr

/-- What an issue leaves in the operand latches of its members (R39, R81): by source slot a, b, c the registers that its
instruction read and did not write. -/
structure LastIssue where
  members : List Nat
  slots : List (List Nat)
  deriving DecidableEq, Repr

structure Front where
  bins : List Bin
  groups : List Group
  issue : Option Issue
  /-- the partitions below this number have had their arbitration in the present cycle (log 1) -/
  turn : Nat
  /-- partitions that have drawn a bin in the present cycle: it is Drawn, and Empty when the cycle ends (R32) -/
  drawn : List Nat
  /-- by partition, the first cycle after the issue cycles of its last issue (R96) -/
  busy : List (Nat × Nat)
  /-- partitions with a stop request (R302): `stopped` reads 1 once none of their threads is ready -/
  stopReq : List Nat
  /-- partitions resumed for one issue (R303) -/
  step1 : List Nat
  /-- matching issues counted by the Spectrograph, by partition (R299) -/
  spcount : List (Nat × Nat)
  /-- the last issue of each partition, for hold bits (R39) -/
  last : List (Nat × LastIssue)
  deriving DecidableEq, Repr

/-! ## Cores -/

/-- A channel's ring on one core (R193 to R196). -/
structure Chan where
  c : Nat
  width : Nat
  depth : Nat
  ext : Bool
  thresh : Nat
  ring : Nat
  head : Nat
  vals : List QWord
  spill : List QWord
  /-- spill chunks in use, oldest first, and values already moved out of the first -/
  chunks : List Nat
  gone : Nat
  /-- the push under way has waited for the threshold and passes to spill (R195) -/
  due : Bool
  /-- the time at which the ring was last filled (R195) -/
  full : Nat
  /-- the numbers, in the order of pushing, of the next value that has never been popped, of the value popped last, and of those that
  were popped and stand at the head again (log 14) -/
  next : Nat
  last : Nat
  back : List Nat
  deriving DecidableEq, Repr

/-- The allocation of a task in a core's tile store (R131): absent lines are those whose presence bit is clear. -/
structure Tile where
  task : Nat
  core : Nat
  size : Nat
  mem : Store
  absent : List Nat
  chans : List Chan
  live : Bool
  deriving DecidableEq, Repr

/-- The accumulator contents of a task on a core (R216): the words written so far by word number, the rest being free values from
`base` on (log 4), the poisoned 32-byte units, and whether paired commands of the partner core write them (R217). `base` also names
the contents, which keep it when pre-emption takes them to another core. -/
structure Acc where
  task : Nat
  core : Nat
  base : Nat
  words : List (Nat × Word)
  bad : List Nat
  fed : Bool
  deriving DecidableEq, Repr

/-- One row of a Coelostat tile: the thread and its inputs (R224). -/
structure NRow where
  k : Nat
  dst : Nat
  len : Nat
  x : List Word
  deriving DecidableEq, Repr

/-- A Coelostat tile (R224): its descriptor as read, and whether it has closed. -/
structure NTile where
  task : Nat
  core : Nat
  handle : Nat
  opened : Nat
  closed : Bool
  rows : List NRow
  desc : List Byte
  live : Bool
  deriving DecidableEq, Repr

/-- A fetched piece of the weight cache of a core (R224, R226). -/
structure WCache where
  core : Nat
  task : Nat
  addr : DWord
  data : List Byte
  bad : Bool
  deriving DecidableEq, Repr

/-- The power regulator of a core (R294, R298): `deficit` is the charge carried into the present period, `owed` what the
present period has been charged beyond its budget so far (log 40). -/
structure Power where
  budget : Nat
  used : BitVec 64
  wcycles : BitVec 64
  deficit : Nat
  overruns : BitVec 64
  remain : Nat
  owed : Nat
  deriving DecidableEq, Repr

/-! ## Tasks and commands -/

/-- A task descriptor (R177). -/
structure Desc where
  nthreads : Nat
  regs : Nat
  tlog2 : Nat
  prio : Nat
  replay : Bool
  serial : Bool
  msix : Bool
  cscope : Nat
  stack : Nat
  age : Nat
  tile : Nat
  vector : Nat
  entry : DWord
  codebase : Nat
  codesize : Nat
  ptroot : Nat
  tenlist : Nat
  ntenure : Nat
  pinq : Nat
  param : Nat
  nparam : Nat
  chtab : Nat
  ovfbase : Nat
  ovfsize : Nat
  tokpool : Nat
  ntok : Nat
  ccount : Nat
  status : Nat
  handles : Nat
  graph : Nat
  coremask : Nat
  deps : List DWord
  ndep : Nat
  sseq : Nat
  deriving DecidableEq, Repr

/-- A region of a tenure list (R178). -/
structure TenRegion where
  base : Nat
  size : Nat
  rw : Bool
  deriving DecidableEq, Repr

/-- A translation loaded at the tenure grant (R149): the leaf entry's fields (R147). -/
structure Tlb where
  va : Nat
  size : Nat
  pa : Nat
  host : Bool
  bias : Bool
  r : Bool
  w : Bool
  x : Bool
  deriving DecidableEq, Repr

/-- A node of a work graph (R198) and its queue: pool slot and time of each enqueue. -/
structure Node where
  entry : DWord
  recsize : Nat
  batch : Nat
  regs : Nat
  timeout : Nat
  queue : Nat
  recs : List (Nat × Nat)
  deriving DecidableEq, Repr

/-- A graph task's pool and nodes (R197). -/
structure Graph where
  slotsize : Nat
  pool : Nat
  nslots : Nat
  free : List Nat
  nodes : List Node
  deriving DecidableEq, Repr

/-- What a blend task of the Catalogue adds (R238, R248, R249): P, the statistics record, the waves already counted as stopped and
those that have completed, and the sort that launched it. -/
structure Blend where
  pix : Nat
  stats : Nat
  stopped : List Nat
  done : List Nat
  sort : Nat
  deriving DecidableEq, Repr

/-- Where a task stands (R181, R187). -/
inductive Phase where
  /-- begun, its descriptor checks still to be made (they wait for a page in migration) -/
  | check
  | waitDeps
  | waitTenure
  | placing
  | running
  | complete
  deriving DecidableEq, Repr

/-- How a task ends when not by its last `EXIT` (R187): status and detail, and the count of a tenure failure. -/
structure EndCause where
  st : Nat
  detail : Nat
  count : Nat
  deriving DecidableEq, Repr

/-- Where the parts of a saved section stand, as offsets from its header, and its size (R291). -/
structure SaveLayout where
  thr : Nat
  timg : Nat
  pres : Nat
  chan : Nat
  aimg : Nat
  eng : Nat
  hist : Nat
  size : Nat
  deriving DecidableEq, Repr

/-- A section in the save area (R291): its number, the address of its header and its layout, the core that was left, its
allocation, its threads and engine commands, the name of the contents of its accumulator image and whether the partner's paired
commands write them, the contents of the partner core that its own paired commands write (R217), its register count, and the
partitions of the core that were asked to stop while it was being saved (R302). -/
structure Section where
  no : Nat
  header : Nat
  core : Nat
  tile : Nat
  threads : List Nat
  cmds : List Nat
  own : Option (Nat × Bool)
  pair : Option Acc
  regs : Nat
  lay : SaveLayout
  stops : List Nat
  deriving DecidableEq, Repr

structure Task where
  /-- `$task` -/
  num : Word
  queue : Option Nat
  parent : Option Nat
  /-- own priority (R183) -/
  prio : Nat
  desc : Desc
  phase : Phase
  /-- launch copy of the parameter area (R180) -/
  param : Store
  tenure : List TenRegion
  tlb : List Tlb
  chtab : List (Nat × Chan)
  nextTid : Nat
  /-- threads that executed `EXIT` -/
  exits : Nat
  /-- completion token of a spawned task (R188) -/
  tok : Option DWord
  /-- token pool: next index, next sequence number, busy records with the command or task (R186) -/
  tokNext : Nat
  tokSeq : Nat
  tokBusy : List (Nat × Nat)
  graph : Option Graph
  blend : Option Blend
  replayed : Bool
  cause : Option EndCause
  sections : List Section
  lastChange : Nat
  launchNo : Nat
  /-- free chunks of the overflow region (R195) -/
  chunks : List Nat
  /-- the descriptor as its bytes stood, for a replay launch (R292) -/
  raw : List Byte
  /-- the page-table root that the descriptor must name (R179) -/
  tlbRoot : Nat
  deriving DecidableEq, Repr

inductive CmdKind where
  | mma | copy | sort | coll
  deriving DecidableEq, Repr

inductive CmdSt where
  | queued | running | suspended | ended | complete
  deriving DecidableEq, Repr

/-- Status, detail and count of a token (R184). -/
structure Result where
  st : Nat
  detail : Nat
  count : Nat
  deriving DecidableEq, Repr

/-- The progress of a matrix command (R211, R218, R220): the next index vector, whether it is the command's first, iterations
and K-steps made, the estimate E, and what it is measured from: the operands of the last K-step, and the bits toggled of those
compared among the first eight. -/
structure MmaRun where
  vec : List Nat
  first : Bool
  done : Nat
  steps : Nat
  est : Nat
  prev : List Nat
  toggled : Nat
  bits : Nat
  deriving DecidableEq, Repr

/-- The progress of a copy (R255 to R260): entry, loop iteration, bytes of the present execution already written,
bytes in all, start of a COND wait, an arrival due, the tile lines cleared and not yet landed, and the source bytes of the present
run that are read and still to be written. -/
structure CopyRun where
  entry : Nat
  iter : Nat
  boff : Nat
  done : Nat
  wait : Option Nat
  arrive : Bool
  landing : List Nat
  read : List Byte
  deriving DecidableEq, Repr

/-- The progress of a sort (R235). -/
structure SortRun where
  next : Nat
  alt : Bool
  wrote : Bool
  n : Nat
  count : Nat
  hist : List (List Nat)
  /-- counted while the span table was written: pairs beyond the last tile, and empty tiles (R248) -/
  outrange : Nat
  culled : Nat
  /-- a `KEYEMIT` to the frame has left the result undefined (R232) -/
  spoiled : Bool
  deriving DecidableEq, Repr

/-- The progress of a collective (R270): what its completion writes. -/
structure CollRun where
  started : Bool
  deriving DecidableEq, Repr

/-- An engine command (R206, R233, R252, R268): the launching thread's task, index and core, the token, the
block or chain as read, and its progress. -/
structure Cmd where
  kind : CmdKind
  task : Nat
  k : Nat
  core : Nat
  addr : DWord
  tok : DWord
  block : List Byte
  st : CmdSt
  no : Nat
  mma : MmaRun
  copy : CopyRun
  sort : SortRun
  coll : CollRun
  result : Result
  /-- leave has been granted, so that the command has started (R220) -/
  leave : Bool
  /-- it stands at the head of its engine's queue since its section resumed (R293) -/
  head : Bool
  /-- tile allocation that its tile addresses name -/
  tile : Nat
  deriving DecidableEq, Repr

/-! ## The package -/

/-- A submission queue (R174, R175). -/
structure Queue where
  set : Bool
  stopped : Bool
  ring : Nat
  tailaddr : Nat
  headaddr : Nat
  ptroot : Nat
  lgsize : Nat
  pcap : Nat
  head : Word
  tail : Word
  deriving DecidableEq, Repr

/-- An operation on a page, running or queued (R153 to R155): whether it is a migration, its page-table root and
page, the new frame or bias, the management entry's completion record, and whether it has started. -/
structure PageOp where
  mig : Bool
  ptroot : Nat
  va : Nat
  target : Nat
  record : Nat
  seq : Nat
  started : Bool
  deriving DecidableEq, Repr

/-- An addition to a saturating counter of a frame's statistics (R248, R249) that waits for a migration of the counter's page to
end (R153): the page-table root of its task, the counter's address and bytes, and what is added. -/
structure StatAdd where
  ptroot : Nat
  addr : Nat
  n : Nat
  delta : Nat
  deriving DecidableEq, Repr

/-- The control window's own registers (R294). -/
structure Win where
  state : BitVec 3
  fail : Byte
  mqbase : BitVec 64
  mqlg : BitVec 4
  mqtail : Word
  mqhead : Word
  savebase : BitVec 64
  savesize : BitVec 64
  attnonce : BitVec 64
  attout : BitVec 64
  attst : BitVec 2
  ecc : Vector (BitVec 64) 4
  spbase : BitVec 64
  splg : BitVec 5
  spint : BitVec 5
  tagmask : BitVec 16
  tagval : BitVec 16
  sphead : Word
  sptail : Word
  spdrop : Word
  die : BitVec 2
  core : BitVec 6
  part : BitVec 2
  slot : BitVec 9
  refused : Bool
  deriving DecidableEq, Repr

/-- What belongs to the package as a whole. -/
structure Pkg where
  index : BitVec 9
  tpolicy : BitVec 48
  hvec : DWord
  /-- scope table (R266); an absent byte reads 0 -/
  scope : List Byte
  /-- second-tier capacity of each link in bytes (R144) -/
  cap : List Nat
  cxlUp : List Bool
  plogonUp : List Bool
  noRoute : List Nat
  /-- unallocated extents of the second tier: first address and bytes (R263) -/
  unalloc : List (Nat × Nat)
  /-- rate in GT/s, width and flit mode of the host port (R261); rate 0 is untrained -/
  port : Nat × Nat × Bool
  watchdog : Nat
  queues : List (Nat × Queue)
  qerrors : List Nat
  msix : List Nat
  pageOps : List PageOp
  stats : List StatAdd
  /-- basic-block counters by 256·die + i (R301) -/
  bbc : List (Nat × BitVec 64)
  flash : List Byte
  sigidx : Nat
  saveNext : Nat
  hostData : List Byte
  remoteData : List Byte
  deriving DecidableEq, Repr

/-- What the step does next by choice of the outside world or of timing (log 1). -/
inductive Item where
  /-- a device event -/
  | event (i : Instr)
  /-- from now on reads return late (log 5) -/
  | late (b : Bool)
  /-- from now on misses leave a leased copy (log 6) -/
  | fill (b : Bool)
  deriving DecidableEq, Repr

/-- The machine. -/
structure State where
  threads : List Thread
  tasks : List Task
  cmds : List Cmd
  tiles : List Tile
  accs : List Acc
  ntiles : List NTile
  wcache : List WCache
  power : List (Nat × Power)
  mem : Mem
  front : Front
  win : Win
  pkg : Pkg
  time : BitVec 64
  /-- cycles since the last cold or warm reset, `$cycle` (R59) -/
  cycle : BitVec 64
  /-- the power period under way: `$time` div 1,000 when it began (R298) -/
  period : Nat
  agenda : List Item
  late : Bool
  fill : Bool
  /-- index of the next free value (log 4) -/
  freeCtr : Nat
  /-- next launch, command and parking number -/
  serial : Nat
  deriving DecidableEq, Repr

/-- Every control-window field at its Reset value (R294). -/
def Win.reset : Win :=
  { state := 0, fail := 0, mqbase := 0, mqlg := 0, mqtail := 0, mqhead := 0, savebase := 0, savesize := 0,
    attnonce := 0, attout := 0, attst := 0, ecc := Vector.replicate 4 0, spbase := 0, splg := 0, spint := 0,
    tagmask := 0, tagval := 0, sphead := 0, sptail := 0, spdrop := 0, die := 0, core := 0, part := 0, slot := 0,
    refused := false }

/-- The package right after reset, before the boot sequence (R279, R295; log 3). -/
def Pkg.reset : Pkg :=
  { index := 0, tpolicy := 0, hvec := 0, scope := [], cap := [0, 0, 0, 0], cxlUp := [false, false, false, false],
    plogonUp := List.replicate 12 false, noRoute := [], unalloc := [], port := (0, 0, false), watchdog := 1000,
    queues := [], qerrors := [], msix := [], pageOps := [], stats := [], bbc := [], flash := [], sigidx := 0, saveNext := 0,
    hostData := [], remoteData := [] }

def Front.reset : Front :=
  { bins := [], groups := [], issue := none, turn := 0, drawn := [], busy := [], stopReq := [], step1 := [], spcount := [], last := [] }

def Mem.reset : Mem :=
  { dev := {}, host := {}, stamps := [], clocks := [], leases := [], remote := [], engWrites := [], grc := [], direct := [], pins := [],
    released := [], hostNo := 0, hostAt := [], wrote := [], watched := [] }

/-- The machine right after a package reset: window state 0, no thread, no task, nothing listed in memory
(R294, R295; log 1 to 6). -/
def State.reset : State :=
  { threads := [], tasks := [], cmds := [], tiles := [], accs := [], ntiles := [], wcache := [], power := [],
    mem := Mem.reset, front := Front.reset, win := Win.reset, pkg := Pkg.reset, time := 0, cycle := 0, period := 0, agenda := [],
    late := false, fill := false, freeCtr := 0, serial := 0 }

end Sys2Proof.Machine
end

