-- ==== Sys2Proof/Machine/Store.lean ====
section
/-! DEFINITION. Memories and small tables as canonical lists: byte and word access in little-endian order (R2),
poisoned units (R284), and tables keyed by number. -/

namespace Sys2Proof.Machine

/-! ## Tables keyed by number -/

/-- The entry of key `k`. -/
def aget {α : Type} : List (Nat × α) → Nat → Option α
  | [], _ => none
  | (j, v) :: l, k => if j = k then some v else aget l k

/-- The table with the entry of key `k` replaced; keys stay rising. -/
def aset {α : Type} : List (Nat × α) → Nat → α → List (Nat × α)
  | [], k, v => [(k, v)]
  | (j, w) :: l, k, v => if j = k then (k, v) :: l else if k < j then (k, v) :: (j, w) :: l else (j, w) :: aset l k v

/-- The table without key `k`. -/
def adel {α : Type} (l : List (Nat × α)) (k : Nat) : List (Nat × α) := l.filter (fun e => e.1 ≠ k)

/-- The set of numbers with `k` added, rising. -/
def sinsert : List Nat → Nat → List Nat
  | [], k => [k]
  | j :: l, k => if j = k then j :: l else if k < j then k :: j :: l else j :: sinsert l k

/-- The set of numbers without `k`. -/
def serase (l : List Nat) (k : Nat) : List Nat := l.filter (fun j => decide (j ≠ k))

/-! ## Cells -/

/-- The byte of address `a`; an address that is not listed reads 0 (log 2). -/
def cellGet : List Host.Cell → Nat → Byte
  | [], _ => 0
  | (b, v) :: l, a => if a = b then v else if a < b then 0 else cellGet l a

/-- The cells with byte `a` replaced; a zero is not listed. -/
def cellSet : List Host.Cell → Nat → Byte → List Host.Cell
  | [], a, v => if v = 0 then [] else [(a, v)]
  | (b, w) :: l, a, v =>
    if a = b then (if v = 0 then l else (a, v) :: l)
    else if a < b then (if v = 0 then (b, w) :: l else (a, v) :: (b, w) :: l)
    else (b, w) :: cellSet l a v

/-- Bytes written one after another, from address `a` upward. -/
def cellPut : List Host.Cell → Nat → List Byte → List Host.Cell
  | l, _, [] => l
  | l, a, v :: vs => cellPut (cellSet l a v) (a + 1) vs

/-- Bytes read from address `a` upward. -/
def cellRead (l : List Host.Cell) (a : Nat) : Nat → List Byte
  | 0 => []
  | n + 1 => cellGet l a :: cellRead l (a + 1) n

/-- Strictly rising addresses from `lo` and no zero byte. -/
def cellsWf : Nat → List Host.Cell → Bool
  | _, [] => true
  | lo, (a, v) :: l => decide (lo ≤ a) && decide (v ≠ 0) && cellsWf (a + 1) l

/-- Strictly rising numbers from `lo`. -/
def setWf : Nat → List Nat → Bool
  | _, [] => true
  | lo, a :: l => decide (lo ≤ a) && setWf (a + 1) l

/-! ## Little-endian values (R2) -/

/-- The value of bytes, the first lowest. -/
def leNat : List Byte → Nat
  | [] => 0
  | b :: l => b.toNat + 256 * leNat l

/-- The low `n` bytes of a value, the lowest first. -/
def leBytes : Nat → Nat → List Byte
  | 0, _ => []
  | n + 1, v => BitVec.ofNat 8 v :: leBytes n (v / 256)

/-- The value of `n` bytes of a structure at an offset. -/
def fieldAt (bs : List Byte) (off n : Nat) : Nat := leNat ((bs.drop off).take n)

/-! ## Stores -/

/-- The canonical form of a memory. -/
abbrev Store.wf (m : Store) : Prop := cellsWf 0 m.bytes = true ∧ setWf 0 m.bad = true

def Store.get (m : Store) (a : Nat) : Byte := cellGet m.bytes a

def Store.read (m : Store) (a n : Nat) : List Byte := cellRead m.bytes a n

def Store.readNat (m : Store) (a n : Nat) : Nat := leNat (m.read a n)

/-- The 32-byte units that bytes `[a, a + n)` touch. -/
def unitsOf (a n : Nat) : List Nat := if n = 0 then [] else (List.range ((a + n - 1) / 32 + 1 - a / 32)).map (a / 32 + ·)

/-- Some byte of `[a, a + n)` lies in a poisoned unit. -/
def Store.poisoned (m : Store) (a n : Nat) : Bool := (unitsOf a n).any (fun u => u ∈ m.bad)

/-- The first address of `[a, a + n)` in a poisoned unit. -/
def Store.firstBad (m : Store) (a n : Nat) : Option Nat :=
  ((unitsOf a n).find? (fun u => u ∈ m.bad)).map (fun u => max a (32 * u))

/-- Unit `u` lies wholly in `[a, a + n)`. -/
def covers (a n u : Nat) : Bool := decide (a ≤ 32 * u) && decide (32 * u + 32 ≤ a + n)

/-- A write of bytes: a poisoned unit stays poisoned unless this one write covers it whole (R284). -/
def Store.put (m : Store) (a : Nat) (bs : List Byte) : Store :=
  { bytes := cellPut m.bytes a bs, bad := m.bad.filter (fun u => !covers a bs.length u) }

/-- The low `n` bytes of a value at `a`. -/
def Store.putNat (m : Store) (a n v : Nat) : Store := m.put a (leBytes n v)

/-- An uncorrectable error poisons unit `u` (R284). -/
def Store.poison (m : Store) (u : Nat) : Store := { m with bad := sinsert m.bad u }

/-- Poison carried with copied data: every unit of the destination that a poisoned source byte reaches (R284). -/
def Store.taint (m : Store) (a : Nat) (flags : List Bool) : Store :=
  (flags.zipIdx.filter (·.1)).foldl (fun m f => m.poison ((a + f.2) / 32)) m

/-- For each byte of `[a, a + n)` whether it is poisoned. -/
def Store.taints (m : Store) (a n : Nat) : List Bool := (List.range n).map (fun i => decide ((a + i) / 32 ∈ m.bad))

/-- An undefined region: each of its bytes becomes a free value (log 4). -/
def freeBytes (ctr n : Nat) : List Byte := (List.range n).map (fun i => Config.freeByte (ctr + i))

end Sys2Proof.Machine
end

