-- ==== Sys2Proof/WellFormed.lean ====
section
/-! DEFINITION. Which instruction terms are well formed: the decode checks of R22, R56, R74, R77 to R92 and
R94, as one shape per instruction and one checker over shapes. -/

namespace Sys2Proof

/-- Operand classes: single, pair, quad (R55). -/
inductive Cls where
  | v | q | o
  deriving DecidableEq, Repr

/-- Width in bits (R55). -/
def Cls.bits : Cls → Nat
  | .v => 32 | .q => 64 | .o => 128

/-- 32-bit registers covered (R55). -/
def Cls.regs : Cls → Nat
  | .v => 1 | .q => 2 | .o => 4

/-- The class of a W field: 00 single, 01 pair, 10 quad (R83). -/
def Cls.ofW (w : Nat) : Cls := if w = 1 then .q else if w = 2 then .o else .v

/-- The class that a memory size code fixes (R89). -/
def Cls.ofSize (z : Nat) : Cls := if z = 4 then .o else if z = 3 then .q else .v

/-- What a source field may hold. -/
inductive SrcShape where
  /-- unused: zero with its mode and hold bit (R78) -/
  | none
  /-- a data operand in any mode -/
  | data (c : Cls)
  /-- modes 00 and 01 only (R80, R230, R411) -/
  | noChan (c : Cls)
  /-- the first register of a `NEVAL` block: mode 00, checked when it executes (R92, R222) -/
  | first
  /-- a predicate number (R55, R56) -/
  | pred
  /-- a channel number as a plain value (R91) -/
  | num
  deriving DecidableEq, Repr

/-- What the destination field may hold. -/
inductive DstShape where
  | none
  /-- a register destination that takes N and dM (R80, R82) -/
  | data (c : Cls)
  /-- a token pair: dM but not N (R205) -/
  | token
  /-- a register destination without N or dM (R411) -/
  | plain (c : Cls)
  | pred
  /-- predicate and negate bit of the extended `BRC` (R88) -/
  | brc
  /-- the first register of a `NEVAL` output block -/
  | first
  deriving DecidableEq, Repr

/-- The use of imm32 when it is not source b (R77). -/
inductive ImmUse where
  | zero
  | all
  | low (n : Nat)
  deriving DecidableEq, Repr

/-- The shape of an instruction's fields. `ok` gathers the checks on func, mod and the operands that only
this instruction makes; `lit10` allows the base form with a literal (R64, R79). -/
structure Shape where
  d : DstShape := .none
  a : SrcShape := .none
  b : SrcShape := .none
  bImm : Bool := false
  bLit : Bool := false
  c : SrcShape := .none
  ok : Bool := true
  imm : ImmUse := .zero
  lit10 : Bool := false
  deriving DecidableEq, Repr

/-- A pair starts at an even register and a quad at a multiple of 4 (R55, R56). -/
def alignedReg (c : Cls) (n : Fin 128) : Bool := n.val % c.regs = 0

/-- A source operand fits its field's shape. A field that names a register or a block, field a of `NEVAL` among them, takes no hold
bit (R56; of `NEVAL` DEDUCED, log 23). -/
def srcOk : SrcShape → Src → Bool
  | .none, s => s = .reg 0 false
  | .data c, .reg n _ => alignedReg c n
  | .data _, _ => true
  | .noChan c, .reg n _ => alignedReg c n
  | .noChan _, .latch _ => true
  | .noChan _, _ => false
  | .first, .reg _ h => !h
  | .first, _ => false
  | .pred, .reg n h => !h && n.val < 8
  | .pred, _ => false
  | .num, .reg n h => !h && n.val < 32
  | .num, _ => false

def dstOk : DstShape → Dst → Bool
  | .none, d => d = .reg 0
  | .data c, .reg n => alignedReg c n
  | .data _, _ => true
  | .token, .reg n => alignedReg .q n
  | .token, .push _ n1 => !n1
  | .token, .latchOnly => false
  | .plain c, .reg n => alignedReg c n
  | .plain _, _ => false
  | .pred, .reg n => n.val < 8
  | .pred, _ => false
  | .brc, .reg n => n.val < 16
  | .brc, _ => false
  | .first, .reg _ => true
  | .first, _ => false

def srcBOk (s : Shape) : SrcB → Bool
  | .src x => srcOk s.b x
  | .imm => s.bImm
  | .lit _ => s.bLit

def immOk (s : Shape) (x : ExtOp) : Bool :=
  match x.b with
  | .imm => true
  | _ =>
    match s.imm with
    | .zero => x.imm = 0
    | .all => true
    | .low n => x.imm.toNat < 2 ^ n

/-- The unconditional guard (R57). -/
def Guard.always : Guard := ⟨7, false⟩

/-- What L = 10 demands beside the base form's own fields (R74, R79). -/
def lit10Ok (s : Shape) (x : ExtOp) : Bool :=
  !x.baseLit ||
    (s.lit10 && x.guard = .always &&
      (match x.d with | .push _ _ => false | _ => true) &&
      (match x.a with | .reg _ h => !h | _ => false) &&
      (match x.b with | .lit _ => true | _ => false) &&
      (x.c = .reg 0 false) && (x.func = 0) && (x.mod = 0) && (x.imm = 0))

/-- The decode checks of an extended or literal form against its shape. -/
def Shape.check (s : Shape) (x : ExtOp) : Bool :=
  s.ok && dstOk s.d x.d && srcOk s.a x.a && srcBOk s x.b && srcOk s.c x.c && immOk s x && lit10Ok s x

/-- Bits hi:lo of a field. -/
def bitsOf {w : Nat} (v : BitVec w) (hi lo : Nat) : Nat := v.toNat / 2 ^ lo % 2 ^ (hi + 1 - lo)

/-- Rounding codes 000 to 100, with mod[4:3] zero (R85). -/
def modRoundOk (x : ExtOp) : Bool := x.mod.toNat ≤ 4

/-- The CSRs listed for tasks (R59). -/
def csrTask (n : Nat) : Bool :=
  n ≤ 0x00B || n = 0x010 || n = 0x011 || n = 0x020 || n = 0x021 || n = 0x030 || n = 0x031

/-- The supervisor CSRs (R279). -/
def csrSup (n : Nat) : Bool :=
  n = 0x800 || n = 0x801 || (0x810 ≤ n && n ≤ 0x819) || (0x820 ≤ n && n ≤ 0x823)

/-- The wide CSRs of R351. -/
def csrWide (n : Nat) : Bool :=
  n = 0x00B || n = 0x010 || n = 0x011 || n = 0x031 || n = 0x800 || n = 0x801 ||
    (0x810 ≤ n && n ≤ 0x818) || (0x820 ≤ n && n ≤ 0x823)

/-- The operand class of a CSR access: a wide CSR with an even register is a pair, a latch or channel
takes 64 bits of a wide CSR, everything else is a single (R351). -/
def csrCls (n : Nat) (reg : Option (Fin 128)) : Cls :=
  if csrWide n then (match reg with | some r => if r.val % 2 = 0 then .q else .v | none => .q) else .v

/-- An unlisted CSR number below 0x800 is `ILLEGAL_FIELD` at decode (R60). -/
def csrNumOk (n : Nat) : Bool := csrTask n || 0x800 ≤ n

def Dst.reg? : Dst → Option (Fin 128)
  | .reg n => some n
  | _ => none

def Src.reg? : Src → Option (Fin 128)
  | .reg n _ => some n
  | _ => none

def SrcB.isLit : SrcB → Bool
  | .lit _ => true
  | _ => false

def SrcB.isSrc : SrcB → Bool
  | .src _ => true
  | _ => false

/-- The empty operand record: every field zero and the unconditional guard. -/
def ExtOp.zero : ExtOp := ⟨.always, false, .reg 0, .reg 0 false, .src (.reg 0 false), .reg 0 false, 0, 0, 0⟩

/-- A base form as the extended form it stands for (R74). -/
def BaseOp.toExt (o : BaseOp) : ExtOp :=
  { ExtOp.zero with
    d := o.d
    a := .reg o.a false
    b := match o.b with | .reg n => .src (.reg n false) | .imm _ => .imm
    imm := match o.b with | .reg _ => 0 | .imm v => v.signExtend 32 }

/-- The base `LD`: 4 bytes at qa + 4·sext(b), size word, scope package (R74). -/
def ldBase (d : Dst) (a : Fin 128) (off : BitVec 7) : ExtOp :=
  { ExtOp.zero with d := d, a := .reg a false, func := 0b000010#6, mod := 0b00010#5, imm := off.signExtend 32 * 4 }

/-- The base `ST`: its data stand in field d (R74). -/
def stBase (data a : Fin 128) (off : BitVec 7) : ExtOp :=
  { ExtOp.zero with a := .reg a false, b := .src (.reg data false), func := 0b000010#6, mod := 0b00010#5, imm := off.signExtend 32 * 4 }

/-- The base `BRA` and `CALL`: a 23-bit word offset (R75). -/
def braBase (off : BitVec 23) : ExtOp := { ExtOp.zero with imm := off.signExtend 32 }

/-- The base `BRC`: a 19-bit word offset, negate and predicate (R75). -/
def brcBase (off : BitVec 19) (neg : Bool) (p : Fin 8) : ExtOp :=
  { ExtOp.zero with d := .reg ⟨(if neg then 8 else 0) + p.val, by split <;> omega⟩, imm := off.signExtend 32 }

/-! ## Shapes, class by class -/

def intVV (ok : Bool) : Shape :=
  { d := .data .v, a := .data .v, b := .data .v, bImm := true, bLit := true, ok := ok, lit10 := true }

def intVVx (ok : Bool) : Shape := { intVV ok with lit10 := false }

def shpAddSub (x : ExtOp) : Shape :=
  intVV (x.mod = 0 && x.func &&& 0b100111 = 0 && bitsOf x.func 4 3 ≠ 3)
def shpFunc0 (x : ExtOp) : Shape := intVV (x.mod = 0 && x.func = 0)
def shpU (x : ExtOp) : Shape := intVV (x.mod = 0 && x.func &&& 0b111011 = 0)
def shpMad (x : ExtOp) : Shape :=
  { intVVx (x.mod = 0 && x.func &&& 0b100111 = 0 && bitsOf x.func 4 3 ≤ 1) with c := .data .v }
def shpLogic (x : ExtOp) : Shape :=
  let w := Cls.ofW (bitsOf x.func 1 0)
  { d := .data w, a := .data w, b := .data w, bImm := true, bLit := true,
    ok := x.mod = 0 && x.func &&& 0b111100 = 0 && bitsOf x.func 1 0 ≠ 3, lit10 := true }
def shpAbs (x : ExtOp) : Shape :=
  { d := .data .v, a := .data .v, ok := x.mod = 0 && x.func &&& 0b100111 = 0 && bitsOf x.func 4 3 ≤ 1 }
def shpCount (x : ExtOp) : Shape :=
  { d := .data .v, a := .data (Cls.ofW (bitsOf x.func 1 0)),
    ok := x.mod = 0 && x.func &&& 0b111100 = 0 && bitsOf x.func 1 0 ≤ 1 }
def shpBrev (x : ExtOp) : Shape := { shpCount x with d := .data (Cls.ofW (bitsOf x.func 1 0)) }
def shpBfx (x : ExtOp) : Shape := intVVx (x.mod = 0 && x.func &&& 0b111011 = 0)
def shpBfi (x : ExtOp) : Shape := { intVVx (x.mod = 0 && x.func = 0) with c := .data .v }
def shpSel (x : ExtOp) : Shape := { shpLogic x with c := .pred, lit10 := false }
def shpCmp (x : ExtOp) : Shape :=
  let w : Cls := if x.func.getLsbD 4 then .q else .v
  { d := .pred, a := .data w, b := .data w, bImm := true, bLit := true,
    ok := x.mod = 0 && !x.func.getLsbD 5 && bitsOf x.func 2 0 < 6 }
def shpMov (x : ExtOp) : Shape :=
  let w := Cls.ofW (bitsOf x.func 1 0)
  { d := .data w, a := .data w, ok := x.mod = 0 && x.func &&& 0b111100 = 0 && bitsOf x.func 1 0 ≠ 3 }
def shpMovi (x : ExtOp) : Shape :=
  { d := .data (Cls.ofW (bitsOf x.func 1 0)), bImm := true, bLit := true,
    ok := x.mod = 0 && x.func &&& 0b110100 = 0 && bitsOf x.func 1 0 ≠ 3 && !x.b.isSrc &&
      !(x.b.isLit && x.func.getLsbD 3) }
def shpLea (x : ExtOp) : Shape :=
  { d := .data .q, a := .data .q, b := .data .v, bImm := true, bLit := true,
    ok := x.mod = 0 && x.func &&& 0b111000 = 0, lit10 := true }
def shpAddq (x : ExtOp) : Shape :=
  { d := .data .q, a := .data .q, b := .data .q, bImm := true, bLit := true, ok := x.mod = 0 && x.func = 0, lit10 := true }
def shpMulw (x : ExtOp) : Shape := { shpU x with d := .data .q }
def shpPmov (x : ExtOp) : Shape :=
  match bitsOf x.func 5 4 with
  | 0 => { d := .pred, a := .pred, b := .pred, ok := x.mod = 0 }
  | 1 => { d := .data .v, ok := x.mod = 0 && bitsOf x.func 3 0 = 0 }
  | 2 => { a := .data .v, ok := x.mod = 0 && bitsOf x.func 3 0 = 0 }
  | _ => { ok := false }

def shpFloat2 (x : ExtOp) : Shape := intVV (modRoundOk x && bitsOf x.func 5 4 = 0)
def shpFfma (x : ExtOp) : Shape := { intVVx (modRoundOk x) with c := .data .v }
def shpFminmax (x : ExtOp) : Shape := intVV (x.mod = 0 && bitsOf x.func 5 4 = 0)
def shpFcmp (x : ExtOp) : Shape := { intVVx (x.mod = 0 && bitsOf x.func 5 3 = 0) with d := .pred }
def shpFloat1 (x : ExtOp) : Shape :=
  { d := .data .v, a := .data .v, ok := modRoundOk x && bitsOf x.func 5 2 = 0 }
def shpFcvt (x : ExtOp) : Shape :=
  let s := bitsOf x.func 2 0
  let t := bitsOf x.func 5 3
  { d := .data .v, a := .data .v, ok := modRoundOk x && s ≠ 7 && t ≠ 7 && s ≠ t && !(5 ≤ s && 5 ≤ t) }
def shpFclass (x : ExtOp) : Shape := { d := .data .v, a := .data .v, ok := x.mod = 0 && x.func = 0 }
def shpNmsel (x : ExtOp) : Shape := { intVVx (x.mod = 0) with c := .data .v }
def shpHalf2 (x : ExtOp) : Shape := intVV (modRoundOk x && bitsOf x.func 5 3 = 0)
def shpHalf3 (x : ExtOp) : Shape := { intVVx (modRoundOk x && bitsOf x.func 5 4 = 0) with c := .data .v }
def shpRcvt (x : ExtOp) : Shape :=
  { d := .data .v, a := .data .v, ok := x.mod = 0 && x.func.toNat ≤ 2 }

def fm0 (x : ExtOp) : Bool := x.func = 0 && x.mod = 0
def shpNone (x : ExtOp) : Shape := { ok := fm0 x }
def shpImm (x : ExtOp) (u : ImmUse) : Shape := { ok := fm0 x, imm := u }
def shpBrc (x : ExtOp) : Shape := { d := .brc, ok := fm0 x, imm := .all }
def shpJump (x : ExtOp) : Shape := { a := .noChan .q, ok := fm0 x, imm := .all }

/-- Order code of mod (R89). -/
def ordOf (x : ExtOp) : Nat := bitsOf x.mod 4 3
/-- Scope code of mod (R89). -/
def scopeOf (x : ExtOp) : Nat := bitsOf x.mod 2 0
/-- Size code of func (R89). -/
def sizeOf' (x : ExtOp) : Nat := bitsOf x.func 2 0
/-- Hint code of func (R89). -/
def hintOf (x : ExtOp) : Nat := bitsOf x.func 5 4

def shpLd (x : ExtOp) : Shape :=
  let c := Cls.ofSize (sizeOf' x)
  { d := .data c, a := .noChan .q, b := if hintOf x = 3 then .data c else .none, bLit := hintOf x = 3,
    ok := sizeOf' x ≤ 4 && (!x.func.getLsbD 3 || sizeOf' x ≤ 1) && ordOf x ≤ 1, imm := .all }
def shpSt (x : ExtOp) : Shape :=
  { a := .noChan .q, b := .data (Cls.ofSize (sizeOf' x)), bLit := true,
    ok := sizeOf' x ≤ 4 && !x.func.getLsbD 3 && hintOf x ≠ 3 && (ordOf x = 0 || ordOf x = 2), imm := .all }
def shpLdc (x : ExtOp) : Shape :=
  { d := .data (Cls.ofSize (sizeOf' x)), ok := x.mod = 0 && sizeOf' x ≤ 3 && bitsOf x.func 5 3 = 0, imm := .low 12 }
def shpPrf (x : ExtOp) : Shape :=
  { a := .noChan .q, ok := bitsOf x.func 3 0 = 0 && hintOf x ≠ 3 && ordOf x = 0, imm := .all }
def shpLock (x : ExtOp) : Shape := { d := .data .v, a := .noChan .q, ok := fm0 x, imm := .all }
def shpKeyemit (x : ExtOp) : Shape :=
  { a := .noChan .q, b := .noChan .v, bLit := true, ok := fm0 x, imm := .low 12 }
def shpSpan (x : ExtOp) : Shape := { d := .data .q, a := .noChan .v, ok := fm0 x, imm := .low 12 }
def shpGredAdd (x : ExtOp) : Shape :=
  { a := .noChan .q, b := .data .v, bLit := true, ok := x.func = 0 && ordOf x = 0, imm := .all }
def shpGredRes (x : ExtOp) : Shape := { d := .data .v, a := .noChan .q, ok := x.func = 1 && ordOf x = 0, imm := .all }
def shpWback (x : ExtOp) : Shape := { a := .noChan .q, ok := x.func = 0 && ordOf x = 0, imm := .all }
def shpAtom (x : ExtOp) : Shape :=
  let c : Cls := if bitsOf x.func 5 4 = 1 then .q else .v
  let op := bitsOf x.func 3 0
  { d := .data c, a := .noChan .q, b := .data c, bImm := true, bLit := true,
    c := if op = 9 then .data c else .none,
    ok := op ≤ 10 && bitsOf x.func 5 4 ≤ 1 && !(op = 10 && bitsOf x.func 5 4 = 1), imm := .all }
def shpAbegin (x : ExtOp) : Shape := { a := .noChan .q, ok := fm0 x, imm := .all }
def shpAcommit (x : ExtOp) : Shape := { d := .pred, ok := fm0 x }
def shpFence (x : ExtOp) : Shape := { ok := x.func = 0 && ordOf x ≠ 0 }
def shpFencex (x : ExtOp) : Shape :=
  { ok := ordOf x ≠ 0 && bitsOf x.func 2 0 ≠ 7 && bitsOf x.func 5 3 ≠ 7 && x.func ≠ 0 }
def shpTwait (x : ExtOp) : Shape :=
  let form := bitsOf x.func 1 0
  let base : Shape := { d := .pred, a := .noChan .q, imm := .all }
  match form with
  | 0 => { base with b := .data (if x.func.getLsbD 5 then .q else .v), bLit := x.func.getLsbD 5,
                     ok := bitsOf x.func 4 2 ≤ 3 && ordOf x ≤ 1 }
  | 1 => { base with ok := bitsOf x.func 5 2 = 0 && ordOf x ≤ 1 }
  | 2 => { base with b := .data .v, ok := bitsOf x.func 5 2 = 0 && ordOf x ≤ 1 }
  | _ => { base with ok := false }
def shpBarrier (x : ExtOp) : Shape :=
  { a := .noChan .q, b := .data .q, bImm := true, bLit := true, ok := x.func = 0 }
def shpXchg (x : ExtOp) : Shape :=
  let c : Cls := if x.func.getLsbD 0 then .q else .v
  { d := .plain c, a := .noChan c, c := .noChan c, ok := x.mod = 0 && bitsOf x.func 5 1 = 0, imm := .low 6 }
def shpXshf (x : ExtOp) : Shape :=
  { shpXchg x with b := .noChan .v, bImm := true, imm := .zero }
def shpXvote (x : ExtOp) : Shape :=
  { d := if x.func = 2 then .plain .q else .pred, a := .pred, ok := x.mod = 0 && x.func.toNat ≤ 2 }
def shpXred (x : ExtOp) : Shape :=
  { d := .plain .v, a := .noChan .v, c := .noChan .v, ok := x.mod = 0 && x.func.toNat ≤ 10 }
/-- Source b of `CHCTL.ext` is what R347 lists: a single, a latch or imm32; a literal and a channel, which R91's v/imm would let in, are
refused (log 48). -/
def shpChctl (x : ExtOp) : Shape :=
  { d := .data .v, a := .num, b := if x.func = 2 then .noChan .v else .none, bImm := x.func = 2,
    ok := x.mod = 0 && x.func.toNat ≤ 2 }
def shpEngine (x : ExtOp) : Shape := { d := .token, a := .noChan .q, ok := fm0 x }
def shpNeval (x : ExtOp) : Shape := { d := .first, a := .first, ok := fm0 x, imm := .low 6 }
def shpEmit (x : ExtOp) : Shape := { a := .noChan .q, ok := fm0 x, imm := .low 16 }
def shpSpawn (x : ExtOp) : Shape :=
  { d := .data .q, a := .noChan .q, c := if x.func = 0 then .none else .noChan .q,
    ok := x.mod = 0 && x.func.toNat ≤ 4 }
def shpCsrr (x : ExtOp) : Shape :=
  { d := .data (csrCls x.imm.toNat x.d.reg?), ok := fm0 x && csrNumOk x.imm.toNat, imm := .low 12 }
def shpCsrw (x : ExtOp) : Shape :=
  { a := .data (csrCls x.imm.toNat x.a.reg?), ok := fm0 x && csrNumOk x.imm.toNat, imm := .low 12 }
def shpDbgTag (x : ExtOp) : Shape := { ok := x.func = 1 && x.mod = 0, imm := .low 16 }

/-- Every thread instruction as the extended form that it stands for (R74, R75); device events have none. -/
def Instr.ext : Instr → ExtOp
  | .ill _ => .zero
  | .add o => o.toExt
  | .addExt x => x
  | .sub o => o.toExt
  | .subExt x => x
  | .mul o => o.toExt
  | .mulExt x => x
  | .mulh o => o.toExt
  | .mulhExt x => x
  | .mad x => x
  | .and o => o.toExt
  | .andExt x => x
  | .or o => o.toExt
  | .orExt x => x
  | .xor o => o.toExt
  | .xorExt x => x
  | .andn o => o.toExt
  | .andnExt x => x
  | .shl o => o.toExt
  | .shlExt x => x
  | .shr o => o.toExt
  | .shrExt x => x
  | .sar o => o.toExt
  | .sarExt x => x
  | .rot o => o.toExt
  | .rotExt x => x
  | .min o => o.toExt
  | .minExt x => x
  | .max o => o.toExt
  | .maxExt x => x
  | .abs x => x
  | .clz x => x
  | .popc x => x
  | .brev x => x
  | .bfx x => x
  | .bfi x => x
  | .sel x => x
  | .cmp x => x
  | .mov o => o.toExt
  | .movExt x => x
  | .movi x => x
  | .lea o => o.toExt
  | .leaExt x => x
  | .addq o => o.toExt
  | .addqExt x => x
  | .mulw o => o.toExt
  | .mulwExt x => x
  | .div o => o.toExt
  | .divExt x => x
  | .rem o => o.toExt
  | .remExt x => x
  | .pmov x => x
  | .fadd o => o.toExt
  | .faddExt x => x
  | .fsub o => o.toExt
  | .fsubExt x => x
  | .fmul o => o.toExt
  | .fmulExt x => x
  | .ffma x => x
  | .fmin o => o.toExt
  | .fminExt x => x
  | .fmax o => o.toExt
  | .fmaxExt x => x
  | .fcmp x => x
  | .frnd x => x
  | .fcvt x => x
  | .frcp x => x
  | .frsq x => x
  | .fsqrt x => x
  | .fex2 x => x
  | .flg2 x => x
  | .fsin x => x
  | .fcos x => x
  | .fclass x => x
  | .nmsel x => x
  | .hadd2 o => o.toExt
  | .hadd2Ext x => x
  | .hmul2 o => o.toExt
  | .hmul2Ext x => x
  | .hfma2 x => x
  | .hdot2 x => x
  | .rcvt x => x
  | .radd o => o.toExt
  | .raddExt x => x
  | .rmul o => o.toExt
  | .rmulExt x => x
  | .bra off => braBase off
  | .braExt x => x
  | .brc off neg p => brcBase off neg p
  | .brcExt x => x
  | .call off => braBase off
  | .callExt x => x
  | .jmp x => x
  | .calli x => x
  | .ret x => x
  | .land => .zero
  | .reform x => x
  | .exit x => x
  | .trap x => x
  | .nop => .zero
  | .nopExt x => x
  | .bbc x => x
  | .ld d a off => ldBase d a off
  | .ldExt x => x
  | .st data a off => stBase data a off
  | .stExt x => x
  | .ldc x => x
  | .prf x => x
  | .lock x => x
  | .unlock x => x
  | .keyemit x => x
  | .span x => x
  | .gredAdd x => x
  | .gredRes x => x
  | .wback x => x
  | .atom x => x
  | .abegin x => x
  | .acommit x => x
  | .fence x => x
  | .fencex x => x
  | .twait x => x
  | .barexp x => x
  | .bararv x => x
  | .tleave x => x
  | .tsync x => x
  | .xchg x => x
  | .xshf x => x
  | .xvote x => x
  | .xred x => x
  | .chctl x => x
  | .mma x => x
  | .neval x => x
  | .copy x => x
  | .sort x => x
  | .coll x => x
  | .emit x => x
  | .spawn x => x
  | .csrr x => x
  | .csrw x => x
  | .eret x => x
  | .sysc x => x
  | .dbgBrk x => x
  | .dbgTag x => x
  | .powerOn => .zero
  | .coldReset => .zero
  | .warmReset => .zero
  | .boot _ => .zero
  | .attestationStart => .zero
  | .attestationComplete => .zero
  | .partitionStop => .zero
  | .partitionResume => .zero
  | .partitionStep => .zero
  | .endThread => .zero
  | .release => .zero
  | .threadWindowWrite _ _ => .zero
  | .budgetWrite _ => .zero
  | .spectrographRingConfig _ _ => .zero
  | .bbcCounterWrite _ _ => .zero
  | .controlWindowWrite _ _ => .zero
  | .queueSet => .zero
  | .queueStop => .zero
  | .migrate => .zero
  | .migrationComplete => .zero
  | .bias => .zero
  | .biasFlipComplete => .zero
  | .cancel => .zero
  | .watchdog => .zero
  | .mqInvalidCommand => .zero
  | .tailStoreRecall _ => .zero
  | .submissionSlotRead _ => .zero
  | .taskDependencesComplete _ => .zero
  | .tenureGrant _ => .zero
  | .teamPlacement _ _ _ _ => .zero
  | .taskComplete _ => .zero
  | .preemptSection _ => .zero
  | .sectionResume _ _ _ _ => .zero
  | .binAgeExpiry _ _ => .zero
  | .memoryWaitSplit _ _ => .zero
  | .loadDataReturn _ => .zero
  | .copyDataLanding _ _ => .zero
  | .twaitReevaluate _ => .zero
  | .twaitTimeout _ => .zero
  | .channelSpill _ => .zero
  | .exitComplete _ => .zero
  | .nodeBatchLaunch _ _ _ _ _ => .zero
  | .nodeBatchTimeout _ _ _ _ _ => .zero
  | .watchdogExpiry _ => .zero
  | .mmaStart _ => .zero
  | .mmaIteration _ => .zero
  | .mmaComplete _ => .zero
  | .nevalTileTimeout _ => .zero
  | .nevalTileRun _ => .zero
  | .copyStart _ => .zero
  | .copyRun _ => .zero
  | .copyCondReevaluate _ => .zero
  | .copyCondTimeout _ => .zero
  | .copyBarrierArrival _ => .zero
  | .copyComplete _ => .zero
  | .sortStart _ => .zero
  | .sortPass _ => .zero
  | .sortComplete _ => .zero
  | .collStart _ _ => .zero
  | .collComplete _ => .zero
  | .grcEvictMerge _ _ => .zero
  | .powerPeriod => .zero
  | .spectrographSample _ => .zero
  | .softError _ => .zero
  | .linkFailure _ => .zero
  | .hostMemoryAccess _ => .zero
  | .plogonRemoteAccess _ => .zero
  | .readLeaseExpiry _ _ => .zero
  | .hostPortTraining _ _ _ => .zero

/-- The shape of each instruction's fields, taken from its class table and entry. -/
def Instr.shape (i : Instr) : Shape :=
  let x := i.ext
  match i with
  | .ill _ => shpNone x
  | .add _ => shpAddSub x
  | .addExt _ => shpAddSub x
  | .sub _ => shpAddSub x
  | .subExt _ => shpAddSub x
  | .mul _ => shpFunc0 x
  | .mulExt _ => shpFunc0 x
  | .mulh _ => shpU x
  | .mulhExt _ => shpU x
  | .mad _ => shpMad x
  | .and _ => shpLogic x
  | .andExt _ => shpLogic x
  | .or _ => shpLogic x
  | .orExt _ => shpLogic x
  | .xor _ => shpLogic x
  | .xorExt _ => shpLogic x
  | .andn _ => shpLogic x
  | .andnExt _ => shpLogic x
  | .shl _ => shpFunc0 x
  | .shlExt _ => shpFunc0 x
  | .shr _ => shpFunc0 x
  | .shrExt _ => shpFunc0 x
  | .sar _ => shpFunc0 x
  | .sarExt _ => shpFunc0 x
  | .rot _ => shpFunc0 x
  | .rotExt _ => shpFunc0 x
  | .min _ => shpU x
  | .minExt _ => shpU x
  | .max _ => shpU x
  | .maxExt _ => shpU x
  | .abs _ => shpAbs x
  | .clz _ => shpCount x
  | .popc _ => shpCount x
  | .brev _ => shpBrev x
  | .bfx _ => shpBfx x
  | .bfi _ => shpBfi x
  | .sel _ => shpSel x
  | .cmp _ => shpCmp x
  | .mov _ => shpMov x
  | .movExt _ => shpMov x
  | .movi _ => shpMovi x
  | .lea _ => shpLea x
  | .leaExt _ => shpLea x
  | .addq _ => shpAddq x
  | .addqExt _ => shpAddq x
  | .mulw _ => shpMulw x
  | .mulwExt _ => shpMulw x
  | .div _ => shpU x
  | .divExt _ => shpU x
  | .rem _ => shpU x
  | .remExt _ => shpU x
  | .pmov _ => shpPmov x
  | .fadd _ => shpFloat2 x
  | .faddExt _ => shpFloat2 x
  | .fsub _ => shpFloat2 x
  | .fsubExt _ => shpFloat2 x
  | .fmul _ => shpFloat2 x
  | .fmulExt _ => shpFloat2 x
  | .ffma _ => shpFfma x
  | .fmin _ => shpFminmax x
  | .fminExt _ => shpFminmax x
  | .fmax _ => shpFminmax x
  | .fmaxExt _ => shpFminmax x
  | .fcmp _ => shpFcmp x
  | .frnd _ => shpFloat1 x
  | .fcvt _ => shpFcvt x
  | .frcp _ => shpFloat1 x
  | .frsq _ => shpFloat1 x
  | .fsqrt _ => shpFloat1 x
  | .fex2 _ => shpFloat1 x
  | .flg2 _ => shpFloat1 x
  | .fsin _ => shpFloat1 x
  | .fcos _ => shpFloat1 x
  | .fclass _ => shpFclass x
  | .nmsel _ => shpNmsel x
  | .hadd2 _ => shpHalf2 x
  | .hadd2Ext _ => shpHalf2 x
  | .hmul2 _ => shpHalf2 x
  | .hmul2Ext _ => shpHalf2 x
  | .hfma2 _ => shpHalf3 x
  | .hdot2 _ => shpHalf3 x
  | .rcvt _ => shpRcvt x
  | .radd _ => shpFunc0 x
  | .raddExt _ => shpFunc0 x
  | .rmul _ => shpFunc0 x
  | .rmulExt _ => shpFunc0 x
  | .bra _ => shpImm x .all
  | .braExt _ => shpImm x .all
  | .brc _ _ _ => shpBrc x
  | .brcExt _ => shpBrc x
  | .call _ => shpImm x .all
  | .callExt _ => shpImm x .all
  | .jmp _ => shpJump x
  | .calli _ => shpJump x
  | .ret _ => shpNone x
  | .land => shpNone x
  | .reform _ => shpImm x (.low 9)
  | .exit _ => shpNone x
  | .trap _ => shpImm x (.low 16)
  | .nop => shpNone x
  | .nopExt _ => shpNone x
  | .bbc _ => shpImm x (.low 8)
  | .ld _ _ _ => shpLd x
  | .ldExt _ => shpLd x
  | .st _ _ _ => shpSt x
  | .stExt _ => shpSt x
  | .ldc _ => shpLdc x
  | .prf _ => shpPrf x
  | .lock _ => shpLock x
  | .unlock _ => shpLock x
  | .keyemit _ => shpKeyemit x
  | .span _ => shpSpan x
  | .gredAdd _ => shpGredAdd x
  | .gredRes _ => shpGredRes x
  | .wback _ => shpWback x
  | .atom _ => shpAtom x
  | .abegin _ => shpAbegin x
  | .acommit _ => shpAcommit x
  | .fence _ => shpFence x
  | .fencex _ => shpFencex x
  | .twait _ => shpTwait x
  | .barexp _ => shpBarrier x
  | .bararv _ => shpBarrier x
  | .tleave _ => shpNone x
  | .tsync _ => shpNone x
  | .xchg _ => shpXchg x
  | .xshf _ => shpXshf x
  | .xvote _ => shpXvote x
  | .xred _ => shpXred x
  | .chctl _ => shpChctl x
  | .mma _ => shpEngine x
  | .neval _ => shpNeval x
  | .copy _ => shpEngine x
  | .sort _ => shpEngine x
  | .coll _ => shpEngine x
  | .emit _ => shpEmit x
  | .spawn _ => shpSpawn x
  | .csrr _ => shpCsrr x
  | .csrw _ => shpCsrw x
  | .eret _ => shpNone x
  | .sysc _ => shpImm x (.low 16)
  | .dbgBrk _ => shpNone x
  | .dbgTag _ => shpDbgTag x
  | .powerOn => shpNone x
  | .coldReset => shpNone x
  | .warmReset => shpNone x
  | .boot _ => shpNone x
  | .attestationStart => shpNone x
  | .attestationComplete => shpNone x
  | .partitionStop => shpNone x
  | .partitionResume => shpNone x
  | .partitionStep => shpNone x
  | .endThread => shpNone x
  | .release => shpNone x
  | .threadWindowWrite _ _ => shpNone x
  | .budgetWrite _ => shpNone x
  | .spectrographRingConfig _ _ => shpNone x
  | .bbcCounterWrite _ _ => shpNone x
  | .controlWindowWrite _ _ => shpNone x
  | .queueSet => shpNone x
  | .queueStop => shpNone x
  | .migrate => shpNone x
  | .migrationComplete => shpNone x
  | .bias => shpNone x
  | .biasFlipComplete => shpNone x
  | .cancel => shpNone x
  | .watchdog => shpNone x
  | .mqInvalidCommand => shpNone x
  | .tailStoreRecall _ => shpNone x
  | .submissionSlotRead _ => shpNone x
  | .taskDependencesComplete _ => shpNone x
  | .tenureGrant _ => shpNone x
  | .teamPlacement _ _ _ _ => shpNone x
  | .taskComplete _ => shpNone x
  | .preemptSection _ => shpNone x
  | .sectionResume _ _ _ _ => shpNone x
  | .binAgeExpiry _ _ => shpNone x
  | .memoryWaitSplit _ _ => shpNone x
  | .loadDataReturn _ => shpNone x
  | .copyDataLanding _ _ => shpNone x
  | .twaitReevaluate _ => shpNone x
  | .twaitTimeout _ => shpNone x
  | .channelSpill _ => shpNone x
  | .exitComplete _ => shpNone x
  | .nodeBatchLaunch _ _ _ _ _ => shpNone x
  | .nodeBatchTimeout _ _ _ _ _ => shpNone x
  | .watchdogExpiry _ => shpNone x
  | .mmaStart _ => shpNone x
  | .mmaIteration _ => shpNone x
  | .mmaComplete _ => shpNone x
  | .nevalTileTimeout _ => shpNone x
  | .nevalTileRun _ => shpNone x
  | .copyStart _ => shpNone x
  | .copyRun _ => shpNone x
  | .copyCondReevaluate _ => shpNone x
  | .copyCondTimeout _ => shpNone x
  | .copyBarrierArrival _ => shpNone x
  | .copyComplete _ => shpNone x
  | .sortStart _ => shpNone x
  | .sortPass _ => shpNone x
  | .sortComplete _ => shpNone x
  | .collStart _ _ => shpNone x
  | .collComplete _ => shpNone x
  | .grcEvictMerge _ _ => shpNone x
  | .powerPeriod => shpNone x
  | .spectrographSample _ => shpNone x
  | .softError _ => shpNone x
  | .linkFailure _ => shpNone x
  | .hostMemoryAccess _ => shpNone x
  | .plogonRemoteAccess _ => shpNone x
  | .readLeaseExpiry _ _ => shpNone x
  | .hostPortTraining _ _ _ => shpNone x

/-- The rows that are thread instructions, that is, words of the opcode map; the others are events of the device. -/
def Instr.isThread : Instr → Bool
  | .powerOn => false
  | .coldReset => false
  | .warmReset => false
  | .boot _ => false
  | .attestationStart => false
  | .attestationComplete => false
  | .partitionStop => false
  | .partitionResume => false
  | .partitionStep => false
  | .endThread => false
  | .release => false
  | .threadWindowWrite _ _ => false
  | .budgetWrite _ => false
  | .spectrographRingConfig _ _ => false
  | .bbcCounterWrite _ _ => false
  | .controlWindowWrite _ _ => false
  | .queueSet => false
  | .queueStop => false
  | .migrate => false
  | .migrationComplete => false
  | .bias => false
  | .biasFlipComplete => false
  | .cancel => false
  | .watchdog => false
  | .mqInvalidCommand => false
  | .tailStoreRecall _ => false
  | .submissionSlotRead _ => false
  | .taskDependencesComplete _ => false
  | .tenureGrant _ => false
  | .teamPlacement _ _ _ _ => false
  | .taskComplete _ => false
  | .preemptSection _ => false
  | .sectionResume _ _ _ _ => false
  | .binAgeExpiry _ _ => false
  | .memoryWaitSplit _ _ => false
  | .loadDataReturn _ => false
  | .copyDataLanding _ _ => false
  | .twaitReevaluate _ => false
  | .twaitTimeout _ => false
  | .channelSpill _ => false
  | .exitComplete _ => false
  | .nodeBatchLaunch _ _ _ _ _ => false
  | .nodeBatchTimeout _ _ _ _ _ => false
  | .watchdogExpiry _ => false
  | .mmaStart _ => false
  | .mmaIteration _ => false
  | .mmaComplete _ => false
  | .nevalTileTimeout _ => false
  | .nevalTileRun _ => false
  | .copyStart _ => false
  | .copyRun _ => false
  | .copyCondReevaluate _ => false
  | .copyCondTimeout _ => false
  | .copyBarrierArrival _ => false
  | .copyComplete _ => false
  | .sortStart _ => false
  | .sortPass _ => false
  | .sortComplete _ => false
  | .collStart _ _ => false
  | .collComplete _ => false
  | .grcEvictMerge _ _ => false
  | .powerPeriod => false
  | .spectrographSample _ => false
  | .softError _ => false
  | .linkFailure _ => false
  | .hostMemoryAccess _ => false
  | .plogonRemoteAccess _ => false
  | .readLeaseExpiry _ _ => false
  | .hostPortTraining _ _ _ => false
  | _ => true

/-- The extra demands of a base form: no push (R74), and an operand word of opcode 0 for `ILL` (R375). -/
def Instr.formOk : Instr → Bool
  | .ill w => bitsOf w 8 2 = 0
  | .add o => (match o.d with | .push _ _ => false | _ => true)
  | .sub o => (match o.d with | .push _ _ => false | _ => true)
  | .mul o => (match o.d with | .push _ _ => false | _ => true)
  | .mulh o => (match o.d with | .push _ _ => false | _ => true)
  | .and o => (match o.d with | .push _ _ => false | _ => true)
  | .or o => (match o.d with | .push _ _ => false | _ => true)
  | .xor o => (match o.d with | .push _ _ => false | _ => true)
  | .andn o => (match o.d with | .push _ _ => false | _ => true)
  | .shl o => (match o.d with | .push _ _ => false | _ => true)
  | .shr o => (match o.d with | .push _ _ => false | _ => true)
  | .sar o => (match o.d with | .push _ _ => false | _ => true)
  | .rot o => (match o.d with | .push _ _ => false | _ => true)
  | .min o => (match o.d with | .push _ _ => false | _ => true)
  | .max o => (match o.d with | .push _ _ => false | _ => true)
  | .mov o => (match o.d with | .push _ _ => false | _ => true)
  | .lea o => (match o.d with | .push _ _ => false | _ => true)
  | .addq o => (match o.d with | .push _ _ => false | _ => true)
  | .mulw o => (match o.d with | .push _ _ => false | _ => true)
  | .div o => (match o.d with | .push _ _ => false | _ => true)
  | .rem o => (match o.d with | .push _ _ => false | _ => true)
  | .fadd o => (match o.d with | .push _ _ => false | _ => true)
  | .fsub o => (match o.d with | .push _ _ => false | _ => true)
  | .fmul o => (match o.d with | .push _ _ => false | _ => true)
  | .fmin o => (match o.d with | .push _ _ => false | _ => true)
  | .fmax o => (match o.d with | .push _ _ => false | _ => true)
  | .hadd2 o => (match o.d with | .push _ _ => false | _ => true)
  | .hmul2 o => (match o.d with | .push _ _ => false | _ => true)
  | .radd o => (match o.d with | .push _ _ => false | _ => true)
  | .rmul o => (match o.d with | .push _ _ => false | _ => true)
  | .ld d _ _ => (match d with | .push _ _ => false | _ => true)
  | .boot r => r.scope.length = 512 && r.cap.length = 4 && r.cxlUp.length = 4 && r.plogonUp.length = 12 &&
      r.hvec.toNat % 4 = 0 && 4194304 ≤ r.savesize.toNat
  | _ => true

/-- A term that decoding can produce: the checks of R94 all pass. -/
def Instr.wf (i : Instr) : Bool := i.formOk && i.shape.check i.ext

/-! ## Registers named (R22) -/

/-- The registers a source field in mode 00 covers: first and count. -/
def srcRegs : SrcShape → Src → List Nat
  | .data c, .reg n _ => (List.range c.regs).map (n.val + ·)
  | .noChan c, .reg n _ => (List.range c.regs).map (n.val + ·)
  | _, _ => []

/-- The registers read. -/
def Instr.regsRead (i : Instr) : List Nat :=
  let s := i.shape
  let x := i.ext
  srcRegs s.a x.a ++ (match x.b with | .src y => srcRegs s.b y | _ => []) ++ srcRegs s.c x.c

/-- The registers a destination field covers. -/
def dstRegs : DstShape → Dst → List Nat
  | .data c, .reg n => (List.range c.regs).map (n.val + ·)
  | .plain c, .reg n => (List.range c.regs).map (n.val + ·)
  | .token, .reg n => [n.val, n.val + 1]
  | _, _ => []

/-- The registers written by the destination field. -/
def Instr.regsWritten (i : Instr) : List Nat := dstRegs i.shape.d i.ext.d

/-- A thread with register count `n` has register `r`: below the count, or v124 to v127 (R22). -/
def hasReg (n r : Nat) : Bool := (r < n || 124 ≤ r) && r < 128

/-- Every register that the instruction names exists in the thread (R22). -/
def Instr.regsOk (i : Instr) (n : Nat) : Bool :=
  i.regsRead.all (hasReg n) && i.regsWritten.all (hasReg n)

end Sys2Proof
end

