-- ==== Sys2Proof/Machine/Access.lean ====
section
/-! DEFINITION. How an address reaches memory: windows (R127), page tables (R147), tenure (R151), the check order of
R129, thread-path loads and stores with leases (R158 to R161), and engine-path accesses (R128, R165). -/

namespace Sys2Proof.Machine

/-! ## Threads and tasks by index -/

def State.setThread (s : State) (k : Nat) (t : Thread) : State := { s with threads := s.threads.set k t }

def State.modThread (s : State) (k : Nat) (f : Thread → Thread) : State := { s with threads := s.threads.modify k f }

def State.modTask (s : State) (i : Nat) (f : Task → Task) : State := { s with tasks := s.tasks.modify i f }

def State.modCmd (s : State) (i : Nat) (f : Cmd → Cmd) : State := { s with cmds := s.cmds.modify i f }

def State.modTile (s : State) (i : Nat) (f : Tile → Tile) : State := { s with tiles := s.tiles.modify i f }

/-- The state with the next `n` free values used up (log 4). -/
def State.useFree (s : State) (n : Nat) : State := { s with freeCtr := s.freeCtr + n }

/-- The partition number of a thread: 4·core + part. -/
def Thread.pnum (t : Thread) : Nat := 4 * t.core + t.part

/-- Home lane (R24). -/
def Thread.lane (t : Thread) : Nat := t.slot % 64

/-- `$member` (R41). -/
def Thread.member (t : Thread) : Nat := t.tid.toNat % t.tsize

/-- Position of the first entry that satisfies a test. -/
def findIdx {α : Type} (f : α → Bool) : List α → Option Nat
  | [] => none
  | x :: l => if f x then some 0 else (findIdx f l).map (· + 1)

/-- The live tile-store allocation of a task on a core (R131). -/
def State.tileOf (s : State) (task core : Nat) : Option Nat :=
  findIdx (fun a => a.live && a.task = task && a.core = core) s.tiles

/-! ## Page tables (R147, R144, R265) -/

def hbmEnd : Nat := 0xC000000000
def tierBase : Nat := 0x10000000000
def tierEnd : Nat := 0x90000000000
def tierLink : Nat := 0x20000000000
def farBase : Nat := 0x8000000000000

/-- The hop distance to a package (R266). -/
def Pkg.hops (p : Pkg) (i : Nat) : Nat := (p.scope.getD i 0).toNat

/-- A physical extent exists for its target code. -/
def Pkg.paOk (p : Pkg) (target pa size : Nat) : Bool :=
  match target with
  | 0 =>
    if farBase ≤ pa then
      decide ((pa - farBase) / 2 ^ 40 < 512 ∧ pa % 2 ^ 40 + size ≤ hbmEnd) &&
        decide ((pa - farBase) / 2 ^ 40 ≠ p.index.toNat) && decide (p.hops ((pa - farBase) / 2 ^ 40) ≠ 255)
    else decide (pa + size ≤ hbmEnd)
  | 1 => decide (tierBase ≤ pa ∧ pa + size ≤ tierEnd) &&
      decide ((pa - tierBase) % tierLink + size ≤ p.cap.getD ((pa - tierBase) / tierLink) 0)
  | 2 => true
  | _ => false

/-- Bits hi:lo of a number. -/
def fld (v hi lo : Nat) : Nat := v / 2 ^ lo % 2 ^ (hi + 1 - lo)

/-- One entry at a level: `none` when bad, else whether it is a leaf. -/
def entryKind (p : Pkg) (level e : Nat) : Option Bool :=
  let pa := fld e 51 12 * 4096
  let leaf := fld e 1 1 = 1
  if fld e 0 0 = 0 || fld e 63 52 ≠ 0 || fld e 11 9 ≠ 0 || fld e 7 6 = 3 then none
  else if leaf then
    let size := if level = 1 then 2 ^ 30 else if level = 2 then 2 ^ 21 else 2 ^ 16
    if level = 0 || pa % size ≠ 0 || !p.paOk (fld e 7 6) pa size then none else some true
  else
    if level = 3 || fld e 8 2 ≠ 0 || (level = 0 && pa % 65536 ≠ 0) || !p.paOk 0 pa 4096 then none else some false

/-- A leaf with its mig bit, and the physical address of its entry. -/
structure Leaf where
  tlb : Tlb
  mig : Bool
  entry : Nat
  deriving DecidableEq, Repr

def leafOf (va level e entry : Nat) : Leaf :=
  let size := if level = 1 then 2 ^ 30 else if level = 2 then 2 ^ 21 else 2 ^ 16
  { tlb := { va := va / size * size, size := size, pa := fld e 51 12 * 4096, host := fld e 7 6 = 2,
             bias := fld e 5 5 = 1, r := fld e 2 2 = 1, w := fld e 3 3 = 1, x := fld e 4 4 = 1 },
    mig := fld e 8 8 = 1, entry := entry }

/-- The index of a level in a virtual address. -/
def levelIdx (va level : Nat) : Nat :=
  if level = 0 then fld va 55 43 else if level = 1 then fld va 42 30 else if level = 2 then fld va 29 21 else fld va 20 16

/-- The walk from a table of a level; `fuel` is the levels that remain. -/
def walkFrom (p : Pkg) (m : Store) (va table level : Nat) : Nat → Option Leaf
  | 0 => none
  | fuel + 1 =>
    let at' := table + 8 * levelIdx va level
    let e := m.readNat at' 8
    match entryKind p level e with
    | none => none
    | some true => some (leafOf va level e at')
    | some false => walkFrom p m va (fld e 51 12 * 4096) (level + 1) fuel

/-- The page-table walk of R147. -/
def State.walk (s : State) (ptroot va : Nat) : Option Leaf :=
  if 2 ^ 56 ≤ va then none else walkFrom s.pkg s.mem.dev va ptroot 0 4

def Tlb.place (e : Tlb) (va : Nat) : Place :=
  if e.host then .host (e.pa + (va - e.va)) else .dev (e.pa + (va - e.va)) (!e.bias)

/-- The page of the task's TLBs that holds an address (R149). -/
def Task.tlbOf (t : Task) (va : Nat) : Option Tlb := t.tlb.find? (fun e => decide (e.va ≤ va ∧ va < e.va + e.size))

/-! ## Tenure (R149, R151) -/

def TenRegion.has (r : TenRegion) (a : Nat) : Bool := decide (r.base ≤ a ∧ a < r.base + r.size)

/-- The regions of the list and, with rights `r`, the code region (R149). -/
def Task.regions (t : Task) : List TenRegion := t.tenure ++ [⟨t.desc.codebase, t.desc.codesize, false⟩]

/-- Every 64 KiB page of `[a, a + n)` lies in a region, one with rights `rw` when the access writes (R151; log 10). -/
def Task.inTenure (t : Task) (a n : Nat) (w : Bool) : Bool :=
  (List.range ((a + (n - 1)) / 65536 + 1 - a / 65536)).all (fun i =>
    t.regions.any (fun r => r.has (max a ((a / 65536 + i) * 65536)) && (r.rw || !w)))

/-! ## Windows and the checks of R129 -/

def tileBase : Nat := 0xFF00000000000000
def stackBase : Nat := 0xFE00000000000000

/-- Bytes of a channel's ring, rounded up to 128 (R193). -/
def Chan.ringBytes (c : Chan) : Nat := (c.depth * c.width + 127) / 128 * 128

/-- The tile window: `.tile` bytes less the rings (R127). -/
def Task.tileWindow (t : Task) : Nat := t.desc.tile * 128 - (t.chtab.map (fun e => e.2.ringBytes)).sum

/-- S in bytes (R20). -/
def Task.stackBytes (t : Task) : Nat := t.desc.stack * 4096

def mkTrap (code : Nat) (addr : DWord) : TrapInfo := ⟨code, addr, 0, 0, false⟩

/-- Trap codes by name (R275). -/
def trapIllegalOpcode : Nat := 0x01
def trapIllegalField : Nat := 0x02
def trapBadLanding : Nat := 0x03
def trapMisalignedTarget : Nat := 0x04
def trapUnmappedTarget : Nat := 0x05
def trapTenure : Nat := 0x06
def trapMisalignedData : Nat := 0x07
def trapAperture : Nat := 0x08
def trapPrivilege : Nat := 0x09
def trapAtomicRegion : Nat := 0x0A
def trapLatch : Nat := 0x0B
def trapTeam : Nat := 0x0C
def trapChannel : Nat := 0x0D
def trapEngineParam : Nat := 0x0E
def trapEngineFault : Nat := 0x0F
def trapTrapInsn : Nat := 0x10
def trapBreakpoint : Nat := 0x11
def trapDeadlock : Nat := 0x12
def trapStack : Nat := 0x13
def trapRetUnderflow : Nat := 0x14
def trapRetMismatch : Nat := 0x15
def trapUncorrectable : Nat := 0x16
def trapSupervisorCall : Nat := 0x17

/-- The walk of an access or a fetch in supervisor mode: while a page migrates its entry is invalid to it (R153, R280). -/
def State.walkSup (s : State) (ptroot va : Nat) : Option Leaf := (s.walk ptroot va).filter (fun l => !l.mig)

/-- The global part of R129: tenure in task mode, page rights in supervisor mode (R148, R280; log 11). -/
def State.resolveGlobal (s : State) (t : Thread) (ea : DWord) (n : Nat) (w : Bool) : Except TrapInfo Place :=
  match s.tasks[t.task]? with
  | none => .error (mkTrap trapTenure ea)
  | some task =>
    if t.sup then
      match s.walkSup task.desc.ptroot ea.toNat with
      | some l => if l.tlb.r && (l.tlb.w || !w) then .ok (l.tlb.place ea.toNat) else .error (mkTrap trapTenure ea)
      | none => .error (mkTrap trapTenure ea)
    else if task.inTenure ea.toNat n w then
      match task.tlbOf ea.toNat with
      | some e => .ok (e.place ea.toNat)
      | none => .error (mkTrap trapTenure ea)
    else .error (mkTrap trapTenure ea)

/-- The checks of R129 in order, and the place that `n` bytes at `ea` reach. -/
def State.resolve (s : State) (k : Nat) (t : Thread) (ea : DWord) (n align : Nat) (w : Bool) : Except TrapInfo Place :=
  let a := ea.toNat
  match s.tasks[t.task]? with
  | none => .error (mkTrap trapAperture ea)
  | some task =>
    if a < 2 ^ 56 then
      if a % align ≠ 0 then .error (mkTrap trapMisalignedData ea) else s.resolveGlobal t ea n w
    else if tileBase ≤ a ∧ a < tileBase + task.tileWindow then
      match s.tileOf t.task t.core with
      | none => .error (mkTrap trapAperture ea)
      | some i => if a % align ≠ 0 then .error (mkTrap trapMisalignedData ea) else .ok (.tile i (a - tileBase))
    else if stackBase ≤ a ∧ a < stackBase + task.stackBytes then
      if a % align ≠ 0 then .error (mkTrap trapMisalignedData ea)
      else if task.stackBytes < a - stackBase + n + 4096 then .error (mkTrap trapStack ea)
      else .ok (.stack k (a - stackBase))
    else .error (mkTrap trapAperture ea)

/-- A tile-store access touches a line whose presence bit is clear (R133). -/
def State.absentAt (s : State) (pl : Place) (n : Nat) : Bool :=
  match pl with
  | .tile i off =>
    match s.tiles[i]? with
    | none => false
    | some a => (List.range ((off + (n - 1)) / 128 + 1 - off / 128)).any (fun j => decide (off / 128 + j ∈ a.absent))
  | _ => false

/-- What an access that has passed its checks waits for: a tile-store line whose presence bit is clear (R133). -/
def State.accessWait (s : State) (pl : Place) (n : Nat) : Option Wait :=
  if s.absentAt pl n then
    some (match pl with
      | .tile _ off => .presence (off / 128) ((off + (n - 1)) / 128 + 1 - off / 128)
      | _ => .memory)
  else none

/-! ## Thread-path loads and stores -/

/-- Host-path and engine-path contents of a place: the home's own (R165). -/
def State.homeRead (s : State) (pl : Place) (n : Nat) : List Byte :=
  match pl with
  | .dev pa _ => s.mem.dev.read pa n
  | .host pa => s.mem.host.read pa n
  | .tile i off => match s.tiles[i]? with | some a => a.mem.read off n | none => []
  | .stack k off => match s.threads[k]? with | some t => t.stack.read off n | none => []

/-- Poison of a place at its home. -/
def State.homeBad (s : State) (pl : Place) (n : Nat) : Bool :=
  match pl with
  | .dev pa _ => s.mem.dev.poisoned pa n
  | .host pa => s.mem.host.poisoned pa n
  | .tile i off => match s.tiles[i]? with | some a => a.mem.poisoned off n | none => false
  | .stack k off => match s.threads[k]? with | some t => t.stack.poisoned off n | none => false

/-- A write at the home: bytes and nothing else. -/
def State.homeWrite (s : State) (pl : Place) (bs : List Byte) : State :=
  match pl with
  | .dev pa _ => { s with mem := { s.mem with dev := s.mem.dev.put pa bs } }
  | .host pa => { s with mem := { s.mem with host := s.mem.host.put pa bs } }
  | .tile i off => s.modTile i (fun a => { a with mem := a.mem.put off bs })
  | .stack k off => s.modThread k (fun t => { t with stack := t.stack.put off bs })

/-- Poison carried into a place (R284). -/
def State.homeTaint (s : State) (pl : Place) (flags : List Bool) : State :=
  match pl with
  | .dev pa _ => { s with mem := { s.mem with dev := s.mem.dev.taint pa flags } }
  | .host pa => { s with mem := { s.mem with host := s.mem.host.taint pa flags } }
  | .tile i off => s.modTile i (fun a => { a with mem := a.mem.taint off flags })
  | .stack k off => s.modThread k (fun t => { t with stack := t.stack.taint off flags })

/-- For each byte of a place whether it is poisoned. -/
def State.homeTaints (s : State) (pl : Place) (n : Nat) : List Bool :=
  match pl with
  | .dev pa _ => s.mem.dev.taints pa n
  | .host pa => s.mem.host.taints pa n
  | .tile i off => match s.tiles[i]? with | some a => a.mem.taints off n | none => []
  | .stack k off => match s.threads[k]? with | some t => t.stack.taints off n | none => []

/-- The unit number of R287 that a poisoned read of a place reports. -/
def Place.unit : Place → Nat
  | .dev pa _ => if tierBase ≤ pa ∧ pa < tierEnd then 3 else 0
  | .host _ => 5
  | .tile _ _ => 1
  | .stack _ _ => 0

/-- The host port runs CXL.cache: 256-byte flits at 64 GT/s or more (R261). -/
def Pkg.cacheUp (p : Pkg) : Bool := decide (64 ≤ p.port.1) && p.port.2.2

/-- A link that failed or does not run, or an unallocated extent on a write, between the core and a place: the unit of R287
(R263, R267). Host memory and pages of host bias are reached through CXL.cache (R261, R262; log 31). -/
def Pkg.linkFault (p : Pkg) (pl : Place) (n : Nat) (w : Bool) : Option Nat :=
  match pl with
  | .host _ => if p.cacheUp then none else some 5
  | .dev pa cached =>
    if !cached && !p.cacheUp then some 5
    else if farBase ≤ pa then (if (pa - farBase) / 2 ^ 40 ∈ p.noRoute then some 4 else none)
    else if tierBase ≤ pa ∧ pa < tierEnd then
      if !p.cxlUp.getD ((pa - tierBase) / tierLink) false then some 3
      else if w && p.unalloc.any (fun e => decide (e.1 < pa + n ∧ pa < e.1 + e.2)) then some 3 else none
    else none
  | _ => none

/-- Two extents share a byte. -/
def Place.meets (a b : Place) (na nb : Nat) : Bool :=
  match a, b with
  | .dev p _, .dev q _ => decide (p < q + nb ∧ q < p + na)
  | .host p, .host q => decide (p < q + nb ∧ q < p + na)
  | .tile i p, .tile j q => decide (i = j ∧ p < q + nb ∧ q < p + na)
  | .stack i p, .stack j q => decide (i = j ∧ p < q + nb ∧ q < p + na)
  | _, _ => false

/-- An extent of device memory meets a line. -/
def Place.meetsLine (pl : Place) (n line : Nat) : Bool :=
  match pl with
  | .dev p _ => decide (p < 128 * line + 128 ∧ 128 * line < p + n)
  | _ => false

/-- The home die of a line: dies of this package from 0, those of package i from 4·(i + 1) (R136, R265). The manual gives
each die one CXL memory link (R8) and does not say which: link l is taken as die l's (log 37). -/
def homeDie (pa : Nat) : Nat :=
  if farBase ≤ pa then 4 * ((pa - farBase) / 2 ^ 40 + 1) + (pa % 2 ^ 40) / 0x3000000000
  else if tierBase ≤ pa then (pa - tierBase) / tierLink else pa / 0x3000000000

/-- A scope code of other packages holds package `h` (R143, R266). -/
def Pkg.scopeHas (p : Pkg) (scope h : Nat) : Bool :=
  decide (scope = 7) || (decide (3 ≤ scope) && decide (1 ≤ p.hops h ∧ p.hops h ≤ scope - 2))

/-- A core's logical clock: it advances at least one tick each ns (R161). -/
def State.clockOf (s : State) (core : Nat) : Nat := (aget s.mem.clocks core).getD 0 + s.time.toNat

/-- The clock raised to at least `v`. -/
def State.raiseClock (s : State) (core v : Nat) : State :=
  if v ≤ s.clockOf core then s else { s with mem := { s.mem with clocks := aset s.mem.clocks core (v - s.time.toNat) } }

def Mem.stamp (m : Mem) (line : Nat) : Stamp := (aget m.stamps line).getD ⟨0, 0⟩

/-- The leased copy in the core's L1 that its load may use: while the clock is at most rts, and within R161's bound. -/
def State.leaseOf (s : State) (core line : Nat) : Option Lease :=
  s.mem.leases.find? (fun l => l.core = core && l.line = line && decide (s.clockOf core ≤ l.rts ∧ s.time.toNat < l.till))

/-- The leased copy in the remote-data cache of the core's die that its load may use (R137). -/
def State.remoteOf (s : State) (core line : Nat) : Option Lease :=
  s.mem.remote.find? (fun l => l.core = core / Config.coresPerDie && l.line = line && decide (s.clockOf core ≤ l.rts ∧ s.time.toNat < l.till))

/-- The copy that serves a load of the core: L1 first, then the remote-data cache (R137, before R161). -/
def State.copyOf (s : State) (core line : Nat) : Option Lease := (s.leaseOf core line).or (s.remoteOf core line)

/-- A copy joins a cache of `cap` lines, in which the oldest gives way (R14, R137; log 6). -/
def addLease (cap : Nat) (l : Lease) (ls : List Lease) : List Lease :=
  (l :: ls.filter (fun m => m.core = l.core && m.line ≠ l.line)).take cap ++ ls.filter (fun m => m.core ≠ l.core)

/-- An access at the home reads a line: the clock rises to its wts, and its rts to the clock (before R161). -/
def State.readLine (s : State) (core line : Nat) : State :=
  let s := s.raiseClock core (s.mem.stamp line).wts
  let st := s.mem.stamp line
  { s with mem := { s.mem with stamps := aset s.mem.stamps line { st with rts := max st.rts (s.clockOf core) } } }

/-- The extent of device memory meets a line. -/
def HostExt.inLine (h : HostExt) (line : Nat) : Bool := decide (h.pa < 128 * line + 128 ∧ 128 * line < h.pa + h.n)

/-- The copy of a line that a fetch brings, valid for a lease from the clock (R161). -/
def State.freshLease (s : State) (core line : Nat) : Lease :=
  { core := core, line := line, wts := (s.mem.stamp line).wts, rts := max (s.clockOf core) (s.mem.stamp line).wts + Config.leaseTicks,
    till := s.time.toNat + Config.leaseTicks,
    data := s.mem.dev.read (128 * line) 128, bad := s.mem.dev.bad.filter (fun u => u / 4 = line),
    rel := s.mem.released.filter (fun r => r.pl.meetsLine r.n line), host := s.mem.hostAt.filter (fun h => h.inLine line), lacks := [] }

/-- The core keeps a copy in its L1, when the model's `fill` says so (log 6). -/
def State.keepCopy (s : State) (l : Lease) : State :=
  if s.fill then { s with mem := { s.mem with leases := addLease Config.l1Lines l s.mem.leases } } else s

/-- A fetch from the home leaves leased copies in the core, and of a line homed on another die in the die's remote-data
cache, when the model's `fill` says so; the line's rts covers the lease (R137, R161; log 6). -/
def State.fillLease (s : State) (core line : Nat) : State :=
  if !s.fill then s
  else
    let l := s.freshLease core line
    let st := s.mem.stamp line
    let die := core / Config.coresPerDie
    { s with mem := { s.mem with
        stamps := aset s.mem.stamps line { st with rts := max st.rts l.rts }
        leases := addLease Config.l1Lines l s.mem.leases
        remote := if homeDie (128 * line) = die then s.mem.remote else addLease Config.remoteLines { l with core := die } s.mem.remote } }

/-- An acquire at scope 3 to 7, or the acquire half of a fence there, discards the core's and its die's copies of every line homed
outside the package (R170, R381; log 6). -/
def State.dropFar (s : State) (core scope : Nat) : State :=
  let hit := fun (l : Lease) => decide (3 ≤ scope) && decide (farBase ≤ 128 * l.line)
  { s with mem := { s.mem with
      leases := s.mem.leases.filter (fun l => !(l.core = core && hit l))
      remote := s.mem.remote.filter (fun l => !(l.core = core / Config.coresPerDie && hit l)) } }

/-- A scope of a core holds a core (R143). -/
def coreInScope (core scope c : Nat) : Bool :=
  decide (2 ≤ scope) || decide (scope = 1 ∧ c / Config.coresPerDie = core / Config.coresPerDie) || decide (c = core)

/-- Writes that satisfy a test are performed at a scope: no agent within it reads a value that they replaced any more, since the copies
there that lack them have gone. Their end stands for the wait until the reading cores have passed their rts (R157, R167; log 6). -/
def State.performed (s : State) (core scope : Nat) (f : WriteSrc → Bool) : State :=
  let die := core / Config.coresPerDie
  { s with mem := { s.mem with
      leases := s.mem.leases.filter (fun l => !(coreInScope core scope l.core && l.lacks.any f))
      remote := s.mem.remote.filter (fun l => !((decide (2 ≤ scope) || decide (l.core = die)) && l.lacks.any f)) } }

/-- The bytes of a copy, and the unit of R287 when some are poisoned. -/
def Lease.get (l : Lease) (pl : Place) (pa n : Nat) : List Byte × Option Nat :=
  ((l.data.drop (pa % 128)).take n, if (unitsOf pa n).any (fun u => u ∈ l.bad) then some pl.unit else none)

/-- A thread-path load of `n` bytes: the state after it, the bytes, and the unit of R287 when they are poisoned. -/
def State.loadAt (s : State) (core : Nat) (pl : Place) (n : Nat) : State × List Byte × Option Nat :=
  match s.pkg.linkFault pl n false with
  | some u => (s, s.homeRead pl n, some u)
  | none =>
    let bad := if s.homeBad pl n then some pl.unit else none
    match pl with
    | .dev pa true =>
      match s.leaseOf core (pa / 128) with
      | some l => (s.raiseClock core l.wts, l.get pl pa n)
      | none =>
        match s.remoteOf core (pa / 128) with
        | some l => ((s.raiseClock core l.wts).keepCopy { l with core := core }, l.get pl pa n)
        | none => ((s.readLine core (pa / 128)).fillLease core (pa / 128), s.homeRead pl n, bad)
    | .dev pa false => (s.readLine core (pa / 128), s.homeRead pl n, bad)
    | _ => (s, s.homeRead pl n, bad)

/-- The wts of a thread-path store: above the line's rts, its last wts and the core's clock, so that the stores to a line stand in
the order in which they are performed; the members of one issue share theirs (before R161, R158, R159). -/
def State.storeTime (s : State) (core line : Nat) : Nat :=
  let st := s.mem.stamp line
  let w := max (max st.wts st.rts) (s.clockOf core) + 1
  match s.front.issue.bind (·.stamp) with
  | some l => if st.rts ≤ l ∧ st.wts ≤ l ∧ s.clockOf core ≤ l then l else w
  | none => w

/-- A thread-path store at the home: the line takes its wts, and the core's clock rises to it. -/
def State.storeAt (s : State) (core : Nat) (pl : Place) (bs : List Byte) : State :=
  match pl with
  | .dev pa _ =>
    let w := s.storeTime core (pa / 128)
    let st := s.mem.stamp (pa / 128)
    let s := s.raiseClock core w
    { s with mem := { s.mem with dev := s.mem.dev.put pa bs, stamps := aset s.mem.stamps (pa / 128) { st with wts := w } } }
  | _ => s.homeWrite pl bs

/-- An indivisible access's read at the home (R162): no leased copy serves it, and it takes its place in the order of R158. -/
def State.homeLoad (s : State) (core : Nat) (pl : Place) (n : Nat) : State × List Byte × Option Nat :=
  match s.pkg.linkFault pl n false with
  | some u => (s, s.homeRead pl n, some u)
  | none =>
    let bad := if s.homeBad pl n then some pl.unit else none
    match pl with
    | .dev pa _ => (s.readLine core (pa / 128), s.homeRead pl n, bad)
    | _ => (s, s.homeRead pl n, bad)

/-- A logical time above every lease and every write so far. -/
def Mem.top (m : Mem) : Nat := (m.stamps.foldl (fun v e => max v (max e.2.wts e.2.rts)) 0) + 1

/-- The core's clock passes every lease: what comes after stands behind every access made so far (R171, R200, R238, R293). -/
def State.syncCore (s : State) (core : Nat) : State := s.raiseClock core s.mem.top

/-- The offset of the first poisoned byte of a place. -/
def State.firstBadAt (s : State) (pl : Place) (n : Nat) : Nat :=
  (findIdx id (s.homeTaints pl n)).getD 0

/-- What is left of the extent of `m` bytes at `b` beside the `n` bytes at `a`. -/
def cutExtent (a n b m : Nat) : List (Nat × Nat) :=
  if a + n ≤ b ∨ b + m ≤ a then [(b, m)]
  else (if b < a then [(b, a - b)] else []) ++ (if a + n < b + m then [(a + n, b + m - (a + n))] else [])

def HostExt.cut (a n : Nat) (h : HostExt) : List HostExt := (cutExtent a n h.pa h.n).map (fun e => ⟨h.no, e.1, e.2⟩)
def Wrote.cut (host : Bool) (a n : Nat) (h : Wrote) : List Wrote :=
  if h.host = host then (cutExtent a n h.pa h.n).map (fun e => ⟨h.src, h.host, e.1, e.2⟩) else [h]

/-- What stands noted of writes to `n` bytes once `src` has written them (R245). -/
def Mem.nowWrote (m : Mem) (src : Option WriteSrc) (host : Bool) (pa n : Nat) : List Wrote :=
  (match src with | some w => [⟨w, host, pa, n⟩] | none => []) ++ m.wrote.flatMap (Wrote.cut host pa n)

/-- A copy of one of some lines has since been written by `src` (R157). -/
def Lease.without (l : Lease) (src : WriteSrc) (lines : List Nat) : Lease :=
  if l.line ∈ lines then { l with lacks := src :: l.lacks.filter (fun w => w ≠ src) } else l

/-- The copies of some lines have since been written by `src` (R157). -/
def Mem.staleBy (m : Mem) (src : WriteSrc) (lines : List Nat) : Mem :=
  { m with leases := m.leases.map (fun l => l.without src lines), remote := m.remote.map (fun l => l.without src lines) }

/-- The lines of device memory that `n` bytes of a place reach. -/
def Place.lines (pl : Place) (n : Nat) : List Nat :=
  match pl with
  | .dev pa _ => if n = 0 then [] else (List.range ((pa + n - 1) / 128 + 1 - pa / 128)).map (pa / 128 + ·)
  | _ => []

/-- The elements among some bytes to which addends have been made with no `FENCEX` since: those with a partial sum, and those that take
their addends at home (R245). -/
def Mem.elements (m : Mem) (pl : Place) (n : Nat) : List Place :=
  (m.grc.map (fun g => Place.dev g.addr true) ++ m.direct.map (fun d => d.pl)).filter (fun e => e.meets pl 16 n)

/-- Bytes of a place have a new writer: copies are older than they (R157), they are the host's no more (R167), and where a thread or an
engine writes an element against an addend that no `FENCEX` orders before it, its partial sums add to an undefined value (R245; log 38); a
barrier among them has changed (R203). -/
def Mem.overwritten (m : Mem) (now : Nat) (src : Option WriteSrc) (pl : Place) (n : Nat) : Mem :=
  let m := { m with watched := m.watched.map (fun w => if w.pl.meets pl 16 n then { w with last := now } else w) }
  let m := match src with | some w => m.staleBy w (pl.lines n) | none => m
  match pl with
  | .dev pa _ =>
    { m with
      hostAt := m.hostAt.flatMap (HostExt.cut pa n)
      wrote := m.nowWrote src false pa n
      grc := if src.isNone then m.grc else
        m.grc.map (fun g => if g.addr < pa + n ∧ pa < g.addr + 16 then { g with torn := true } else g) }
  | .host pa => { m with wrote := m.nowWrote src true pa n }
  | _ => m

/-- An element is left undefined: it holds free values (R245; log 4). -/
def State.spoilAt (s : State) (el : Place) : State := (s.homeWrite el (freeBytes s.freeCtr 16)).useFree 16

/-- Elements that a write has met against an addend with no order between them are left undefined, whole, and no other (R245). -/
def State.spoil (s : State) (els : List Place) : State := els.foldl State.spoilAt s

/-- A thread's write replaces what had been released at the bytes; a release adds what the thread has observed, and an
indivisible operation (`rmw`) keeps what stood there (R166; log 6). -/
def State.noteStore (s : State) (k : Nat) (t : Thread) (pl : Place) (n : Nat) (release rmw : Bool) : State :=
  let keep := if rmw then s.mem.released else s.mem.released.filter (fun r => !r.pl.meets pl r.n n)
  let new := if release && !t.observed.isEmpty then [⟨pl, n, t.observed, false⟩] else []
  State.spoil { s with mem := { s.mem.overwritten s.time.toNat (some (.thread k)) pl n with released := new ++ keep } } (s.mem.elements pl n)

/-- A write by other than a thread replaces what had been released at the bytes; `src` names a command that made it on its
path. -/
def State.noteOther (s : State) (src : Option WriteSrc) (pl : Place) (n : Nat) : State :=
  State.spoil { s with mem := { s.mem.overwritten s.time.toNat src pl n with released := s.mem.released.filter (fun r => !r.pl.meets pl r.n n) } }
    (if src.isNone then [] else s.mem.elements pl n)

/-- What a thread's read finds released and host-written: the home's own notes, or those of the copy that serves it. -/
def State.notesOf (s : State) (core : Nat) (pl : Place) : List Released × List HostExt :=
  match pl with
  | .dev pa true =>
    match s.copyOf core (pa / 128) with
    | some l => (l.rel, l.host)
    | none => (s.mem.released, s.mem.hostAt)
  | _ => (s.mem.released, s.mem.hostAt)

/-- A thread has observed the completion of commands (R166). -/
def Thread.observe (t : Thread) (cs : List Nat) : Thread := { t with observed := cs.foldl sinsert t.observed }

/-- The latest host write whose value stands in `n` bytes of a place. -/
def lastHost (hs : List HostExt) (pl : Place) (n : Nat) : Nat :=
  match pl with
  | .dev pa _ => (hs.filter (fun h => decide (h.pa < pa + n ∧ pa < h.pa + h.n))).foldl (fun m h => max m h.no) 0
  | _ => 0

/-- A thread has read host-written bytes (R167). -/
def Thread.seeHost (t : Thread) (no : Nat) : Thread := { t with hostSeen := max t.hostSeen no }

/-- An acquire learns what was released at the bytes that it read; `arrival` selects the arrivals on a barrier (R166, R190). -/
def State.noteAcquire (s : State) (k : Nat) (rel : List Released) (pl : Place) (n : Nat) (arrival : Bool) : State :=
  s.modThread k (fun t => t.observe ((rel.filter (fun r => r.arrival == arrival && r.pl.meets pl r.n n)).flatMap (·.cmds)))

/-- A value of `n` bytes loaded by a thread. -/
def State.loadNat (s : State) (core : Nat) (pl : Place) (n : Nat) : State × Nat × Option Nat :=
  let r := s.loadAt core pl n
  (r.1, leNat r.2.1, r.2.2)

/-! ## Engine-path accesses -/

/-- Why an engine's access fails (R218, R259). -/
inductive EngFail where
  | window | tenure | poison | linkDown | full
  deriving DecidableEq, Repr

/-- A piece of an engine's access within one 64 KiB page. -/
structure Piece where
  place : Place
  n : Nat
  deriving DecidableEq, Repr

/-- The pages of a global extent, in ascending order; `fuel` is the pages that remain. -/
def Task.pieces (t : Task) (a n : Nat) : Nat → Except EngFail (List Piece)
  | 0 => .ok []
  | fuel + 1 =>
    if n = 0 then .ok []
    else
      let m := min n (65536 - a % 65536)
      match t.tlbOf a with
      | none => .error .tenure
      | some e =>
        match t.pieces (a + m) (n - m) fuel with
        | .error f => .error f
        | .ok l => .ok (⟨e.place a, m⟩ :: l)

/-- Where an engine's extent lies: the window of its first byte holds it whole (R128), and a global extent lies in tenure (R151).
`host` tells whether the engine may reach host memory. A tile address of a command whose allocation has been freed, since the last
thread of its task on the core exited, lies outside any window; the manual is silent on it (log 45). -/
def State.engPieces (s : State) (task tile a n : Nat) (w host : Bool) : Except EngFail (List Piece) :=
  match s.tasks[task]? with
  | none => .error .window
  | some t =>
    if a < 2 ^ 56 then
      if 2 ^ 56 < a + n then .error .window
      else if !t.inTenure a n w then .error .tenure
      else
        match t.pieces a n (n / 65536 + 2) with
        | .error f => .error f
        | .ok l => if !host && l.any (fun p => match p.place with | .host _ => true | _ => false) then .error .window else .ok l
    else if tileBase ≤ a ∧ a + n ≤ tileBase + t.tileWindow ∧ a < tileBase + t.tileWindow then
      match s.tiles[tile]? with
      | some al => if al.live then .ok [⟨.tile tile (a - tileBase), n⟩] else .error .window
      | none => .error .window
    else .error .window

/-- The failure of a link or of second-tier space on a piece (R263, R267). -/
def Pkg.engLink (p : Pkg) (pc : Piece) (w : Bool) : Option EngFail :=
  match p.linkFault pc.place pc.n false with
  | some _ => some .linkDown
  | none => if w then (match p.linkFault pc.place pc.n true with | some _ => some .full | none => none) else none

def firstFail (l : List (Option EngFail)) : Option EngFail := l.findSome? id

/-- An engine's read of an extent. -/
def State.engRead (s : State) (task tile a n : Nat) (host : Bool) : Except EngFail (List Byte) :=
  match s.engPieces task tile a n false host with
  | .error f => .error f
  | .ok ps =>
    match firstFail (ps.map (fun p => s.pkg.engLink p false)) with
    | some f => .error f
    | none =>
      if ps.any (fun p => s.homeBad p.place p.n) then .error .poison
      else .ok (ps.flatMap (fun p => s.homeRead p.place p.n))

/-- An engine's value of `n` bytes. -/
def State.engNat (s : State) (task tile a n : Nat) (host : Bool) : Except EngFail Nat :=
  match s.engRead task tile a n host with
  | .error f => .error f
  | .ok l => .ok (leNat l)

/-- Writes pieces in order, for a command or, with none, for the device itself. -/
def State.putPieces (s : State) (src : Option WriteSrc) : List Piece → List Byte → State
  | [], _ => s
  | p :: ps, bs => ((s.homeWrite p.place (bs.take p.n)).noteOther src p.place p.n).putPieces src ps (bs.drop p.n)

/-- The device lines of pieces. -/
def Piece.lines (p : Piece) : List Nat := p.place.lines p.n

/-- Remembers the rts that the lines had when a command wrote them (R165, R167). -/
def State.noteWrites (s : State) (cmd : Nat) (ps : List Piece) : State :=
  { s with mem := { s.mem with engWrites :=
      (ps.flatMap Piece.lines).map (fun l => ⟨.cmd cmd, l, (s.mem.stamp l).rts⟩) ++ s.mem.engWrites } }

/-- An engine's write of an extent by command `cmd`: every check is made before any byte is written. -/
def State.engWrite (s : State) (cmd task tile a : Nat) (bs : List Byte) (host : Bool) : Except EngFail State :=
  match s.engPieces task tile a bs.length true host with
  | .error f => .error f
  | .ok ps =>
    match firstFail (ps.map (fun p => s.pkg.engLink p true)) with
    | some f => .error f
    | none => .ok ((s.noteWrites cmd ps).putPieces (some (.cmd cmd)) ps bs)

/-- An engine's extent touches an absent tile line (R133), lines of its own footprint apart. -/
def State.engAbsent (s : State) (tile a n : Nat) (own : List Nat) : Bool :=
  if tileBase ≤ a ∧ n ≠ 0 then
    match s.tiles[tile]? with
    | none => false
    | some al =>
      let off := a - tileBase
      (List.range ((off + n - 1) / 128 + 1 - off / 128)).any (fun j => decide (off / 128 + j ∈ al.absent ∧ off / 128 + j ∉ own))
  else false

end Sys2Proof.Machine
end

