-- ==== Sys2Proof/Machine/Save.lean ====
section
/-! DEFINITION. Physical accesses of the device itself (R294), and the records of the save area (R291): a thread record, where
the parts of a section stand, and the record of a thread whose `TENURE` trap ends its task (R278). -/

namespace Sys2Proof.Machine

/-! ## Addresses of the control window (R294) -/

/-- A line after a store of the home: its write timestamp rises above every lease on it and its last one (before R161). -/
def Stamp.raised (t : Stamp) : Stamp := { t with wts := max t.wts t.rts + 1 }

/-- The write timestamps of device lines rise, as at any store of the home (before R161). -/
def State.bump (s : State) (ps : List Piece) : State :=
  { s with mem := { s.mem with stamps := (ps.flatMap Piece.lines).foldl (fun l n => aset l n ((aget l n).getD ⟨0, 0⟩).raised) s.mem.stamps } }

/-- Where an address field of the window points: host physical memory with bit 63 set, else device physical memory. -/
def physPlace (a : Nat) : Place := if 2 ^ 63 ≤ a then .host (a % 2 ^ 63) else .dev (a % 2 ^ 52) true

def State.physRead (s : State) (a n : Nat) : List Byte := s.homeRead (physPlace a) n

/-- A write of the device itself; a device line's write timestamp rises as at any store of the home. -/
def State.physWrite (s : State) (a : Nat) (bs : List Byte) : State :=
  ((s.bump [⟨physPlace a, bs.length⟩]).homeWrite (physPlace a) bs).noteOther none (physPlace a) bs.length

/-- Exactly `n` bytes of a list. -/
def fixBytes (n : Nat) (bs : List Byte) : List Byte := (List.range n).map (fun i => bs.getD i 0)

/-! ## Thread records (R291) -/

/-- The registers from `n` on, `cls` of them, as one value (R55). -/
def readRegs (regs : Vector Word 128) (n : Nat) : Nat → Nat
  | 0 => 0
  | c + 1 => (regs[n % 128]'(Nat.mod_lt _ (by decide))).toNat + 2 ^ 32 * readRegs regs (n + 1) c

/-- The registers from `n` on take the words of a value, the lowest first. -/
def writeRegs (regs : Vector Word 128) (n v : Nat) : Nat → Vector Word 128
  | 0 => regs
  | c + 1 => writeRegs (regs.set (n % 128) (BitVec.ofNat 32 v) (Nat.mod_lt _ (by decide))) (n + 1) (v / 2 ^ 32) c

/-- The state code of a thread record and its cause. -/
def recordState (st : ThreadSt) : Nat × Nat :=
  match st with
  | .parked (.twait _) => (1, 2)
  | .parked (.channel _ _) => (1, 3)
  | .parked (.emit _) => (1, 4)
  | .parked (.rendezvous _) => (1, 5)
  | .parked (.presence _ _) => (1, 6)
  | .parked (.room _ (.presence _ _)) => (1, 6)
  | .parked (.slot _ (.presence _ _)) => (1, 6)
  | .parked _ => (1, 1)
  | .trapped => (2, 0)
  | .saved a c => (a, c)
  | _ => (0, 0)

/-- The bytes of a thread record of 256 + 4·regs bytes, with the given state and cause; `pad` stands for what the layout
leaves without a value: unused shadow entries, and the trap record of a thread that is not Trapped (log 4). -/
def threadRecord (t : Thread) (sc : Nat × Nat) (pad : List Byte) : List Byte :=
  let b : Bool → Nat := fun x => if x then 1 else 0
  let sh := (t.shadow.take 16).reverse
  let shb := sh.flatMap (fun r => leBytes 8 r.toNat)
  leBytes 8 t.pc.toNat ++
    leBytes 8 (t.tid.toNat + sc.1 * 2 ^ 32 + sc.2 * 2 ^ 40 + t.part * 2 ^ 48 + t.lane * 2 ^ 56) ++
    leBytes 8 (t.tcount % 2 ^ 32 + b t.left * 2 ^ 32) ++ leBytes 8 t.lk.toNat ++
    leBytes 8 (t.shadow.length + (t.preds.toNat + 128) * 2 ^ 16 + t.fmode.toNat * 2 ^ 32 + t.fflags.toNat * 2 ^ 40) ++ leBytes 8 0 ++
    leBytes 16 (if t.regsN = 128 then 0 else readRegs t.regs 124 4) ++
    shb ++ (pad.take 128).drop shb.length ++
    (if sc.1 = 2 then t.trec.toList.flatMap (fun w => leBytes 8 w.toNat) else (pad.drop 128).take 64) ++
    leBytes (4 * t.regsN) (readRegs t.regs 0 t.regsN)

/-! ## The layout of the save area (R291) -/

/-- Bytes of the directory. -/
def dirBytes : Nat := 4194304

/-- Room of a histogram copy: twelve tables of 256 uint32. -/
def histBytes : Nat := 12288

/-- The sizes of a section's parts decide where each stands: thread records, tile image, presence, channels, accumulator,
engine records, histograms. -/
def saveLayout (nthr regs tile neng nhist : Nat) (acc : Bool) : SaveLayout :=
  let thr := 256
  let timg := (thr + nthr * (256 + 4 * regs) + 127) / 128 * 128
  let pres := timg + 128 * tile
  let chan := (pres + (tile + 7) / 8 + 127) / 128 * 128
  let aimg := chan + 512
  let eng := aimg + (if acc then Config.accBytes else 0)
  let hist := eng + 256 * neng
  ⟨thr, timg, pres, chan, aimg, eng, hist, (hist + histBytes * nhist + 127) / 128 * 128⟩

/-- Where the next section's header goes. -/
def State.saveBase (s : State) : Nat := s.win.savebase.toNat + dirBytes + s.pkg.saveNext

/-- The pool has room for a section. -/
def State.saveRoom (s : State) (lay : SaveLayout) : Bool := decide (dirBytes + s.pkg.saveNext + lay.size ≤ s.win.savesize.toNat)

/-- A section header, with no section after it. -/
def sectionHead (core nthr regs tile neng : Nat) (acc : Bool) (lay : SaveLayout) : List Byte :=
  fixBytes 256 (leBytes 8 0 ++ leBytes 8 (core / 48 + core % 48 * 2 ^ 8 + nthr * 2 ^ 16 + regs * 2 ^ 32 + tile * 2 ^ 40 + (if acc then 2 ^ 56 else 0)) ++
    leBytes 8 lay.thr ++ leBytes 8 lay.timg ++ leBytes 8 lay.pres ++ leBytes 8 lay.chan ++ leBytes 8 (if acc then lay.aimg else 0) ++
    leBytes 8 lay.eng ++ leBytes 8 neng)

/-- The directory entry of a task number: its sections and the first one's header. -/
def State.writeDirEntry (s : State) (num nsec first : Nat) : State :=
  s.physWrite (s.win.savebase.toNat + 64 * (num % 65536)) (leBytes 8 (num + nsec * 2 ^ 32) ++ leBytes 8 first ++ leBytes 48 0)

/-- The record of a thread whose `TENURE` trap ends its task can still be read in the save area: it stands there as a section of
that one thread, Trapped (R278; log 9). A pool without room keeps none. -/
def State.saveTrap (s : State) (t : Thread) : State :=
  let lay := saveLayout 1 t.regsN 0 0 0 false
  if !s.saveRoom lay then s
  else
    let base := s.saveBase
    let num := (s.tasks[t.task]?.map (fun x => x.num.toNat)).getD 0
    let s' := s.physWrite base (sectionHead t.core 1 t.regsN 0 0 false lay)
    let s' := s'.physWrite (base + lay.thr) (threadRecord t (2, 0) (freeBytes s.freeCtr 128))
    let s' := (s'.writeDirEntry num 1 base).useFree 128
    { s' with pkg := { s'.pkg with saveNext := s'.pkg.saveNext + lay.size } }

end Sys2Proof.Machine
end

