-- ==== Sys2Proof/Machine/Hash.lean ====
section
/-! DEFINITION. SHAKE256 and the verification of an XMSS-SHAKE_10_512 signature (R296), by the standard and the RFC that the rule
names (log 8). -/

namespace Sys2Proof.Machine

/-! ## SHAKE256 -/

/-- Rotations of the 25 lanes, lane x of row y at 5y + x. -/
def keccakTurns : List Nat := [0, 1, 62, 28, 27, 36, 44, 6, 55, 20, 3, 10, 43, 25, 39, 41, 45, 15, 21, 8, 18, 2, 61, 56, 14]

/-- The constants of the 24 rounds. -/
def keccakRounds : List Nat :=
  [0x0000000000000001, 0x0000000000008082, 0x800000000000808A, 0x8000000080008000, 0x000000000000808B, 0x0000000080000001,
   0x8000000080008081, 0x8000000000008009, 0x000000000000008A, 0x0000000000000088, 0x0000000080008009, 0x000000008000000A] ++
  [0x000000008000808B, 0x800000000000008B, 0x8000000000008089, 0x8000000000008003, 0x8000000000008002, 0x8000000000000080,
   0x000000000000800A, 0x800000008000000A, 0x8000000080008081, 0x8000000000008080, 0x0000000080000001, 0x8000000080008008]

/-- A 64-bit lane turned left. -/
def laneTurn (v n : Nat) : Nat := v * 2 ^ n % 2 ^ 64 + v / 2 ^ (64 - n)

/-- The lane of a column and row, each modulo 5. -/
def laneAt (a : List Nat) (x y : Nat) : Nat := a.getD (x % 5 + 5 * (y % 5)) 0

/-- One round: each column's parity joins its neighbours, lanes turn and change places, rows mix, and the constant joins lane 0. -/
def keccakRound (a : List Nat) (c : Nat) : List Nat :=
  let par := (List.range 5).map (fun x => (List.range 5).foldl (fun v y => Nat.xor v (laneAt a x y)) 0)
  let d := (List.range 5).map (fun x => Nat.xor (par.getD ((x + 4) % 5) 0) (laneTurn (par.getD ((x + 1) % 5) 0) 1))
  let a := (List.range 25).map (fun i => laneTurn (Nat.xor (a.getD i 0) (d.getD (i % 5) 0)) (keccakTurns.getD i 0))
  let b := (List.range 25).map (fun i => laneAt a (i % 5 + 3 * (i / 5)) (i % 5))
  (List.range 25).map (fun i =>
    let x := i % 5
    let y := i / 5
    let v := Nat.xor (laneAt b x y) (Nat.land (2 ^ 64 - 1 - laneAt b (x + 1) y) (laneAt b (x + 2) y))
    if i = 0 then Nat.xor v c else v)

def keccak (a : List Nat) : List Nat := keccakRounds.foldl keccakRound a

/-- A block of 136 bytes joins the first 17 lanes, and the state is permuted. -/
def keccakTake (a : List Nat) (bs : List Byte) : List Nat :=
  keccak (a.zipIdx.map (fun e => if e.2 < 17 then Nat.xor e.1 (fieldAt bs (8 * e.2) 8) else e.1))

/-- `n` blocks of 136 bytes are taken in. -/
def keccakAbsorb : Nat → List Nat → List Byte → List Nat
  | 0, a, _ => a
  | n + 1, a, bs => keccakAbsorb n (keccakTake a (bs.take 136)) (bs.drop 136)

/-- The message with SHAKE's suffix and padding, a whole number of blocks. -/
def shakePad (bs : List Byte) : List Byte :=
  let n := bs.length % 136
  bs ++ (if n = 135 then [0x9F] else 0x1F :: List.replicate (134 - n) 0 ++ [0x80])

/-- SHAKE256 with 64 bytes of output (R296, R297). -/
def shake256 (bs : List Byte) : List Byte :=
  ((keccakAbsorb (bs.length / 136 + 1) (List.replicate 25 0) (shakePad bs)).take 8).flatMap (leBytes 8)

/-! ## XMSS-SHAKE_10_512 (RFC 8391) -/

/-- The low `n` bytes of a value, the highest first. -/
def beBytes (n v : Nat) : List Byte := (leBytes n v).reverse

def xorBytes (a b : List Byte) : List Byte := (a.zip b).map (fun e => e.1 ^^^ e.2)

/-- The four keyed functions: 0 for chains, 1 for nodes, 2 for the message, 3 for keys and masks. -/
def xmssHash (kind : Nat) (key m : List Byte) : List Byte := shake256 (beBytes 64 kind ++ key ++ m)

/-- A hash address of layer 0 and tree 0: its type, three words of that type, and the last word, which tells key from mask. -/
def xmssAdrs (type a b c last : Nat) : List Byte := leBytes 12 0 ++ [type, a, b, c, last].flatMap (beBytes 4)

/-- The key, or mask, of an address. -/
def xmssKey (seed : List Byte) (adrs : Nat → List Byte) (i : Nat) : List Byte := xmssHash 3 seed (adrs i)

/-- `n` steps of a chain from step `i` on. -/
def xmssChain (seed : List Byte) (ots chain : Nat) : Nat → Nat → List Byte → List Byte
  | 0, _, x => x
  | n + 1, i, x =>
    let k := xmssKey seed (xmssAdrs 0 ots chain i)
    xmssChain seed ots chain n (i + 1) (xmssHash 0 (k 0) (xorBytes x (k 1)))

/-- Two nodes joined at an address. -/
def xmssJoin (seed : List Byte) (adrs : Nat → List Byte) (l r : List Byte) : List Byte :=
  let k := xmssKey seed adrs
  xmssHash 1 (k 0) (xorBytes l (k 1) ++ xorBytes r (k 2))

/-- The base-16 digits of a 64-byte value, and the three of their checksum. -/
def xmssDigits (m : List Byte) : List Nat :=
  let d := m.flatMap (fun b => [b.toNat / 16, b.toNat % 16])
  let c := (d.map (fun v => 15 - v)).sum
  d ++ [c / 256 % 16, c / 16 % 16, c % 16]

/-- One level of an L-tree: neighbours join, and a last one alone goes up. -/
def xmssLevel (seed : List Byte) (leaf h : Nat) : List (List Byte) → Nat → List (List Byte)
  | l :: r :: rest, i => xmssJoin seed (xmssAdrs 1 leaf h i) l r :: xmssLevel seed leaf h rest (i + 1)
  | l, _ => l

/-- The root of an L-tree; `fuel` is the levels that remain, eight for 131 nodes. -/
def xmssLtree (seed : List Byte) (leaf : Nat) : Nat → Nat → List (List Byte) → List Byte
  | 0, _, l => l.headD []
  | fuel + 1, h, l => xmssLtree seed leaf fuel (h + 1) (xmssLevel seed leaf h l 0)

/-- From a leaf up its authentication path. -/
def xmssPath (seed : List Byte) (idx : Nat) : List (List Byte) → Nat → List Byte → List Byte
  | [], _, node => node
  | a :: l, k, node =>
    let adrs := xmssAdrs 2 0 k (idx / 2 ^ (k + 1))
    xmssPath seed idx l (k + 1) (if idx / 2 ^ k % 2 = 0 then xmssJoin seed adrs node a else xmssJoin seed adrs a node)

/-- `n` parts of 64 bytes. -/
def parts64 (bs : List Byte) (n : Nat) : List (List Byte) := (List.range n).map (fun i => (bs.drop (64 * i)).take 64)

/-- The signature of 9,092 bytes (index, randomizer, 131 chain values, ten nodes) verifies the message under a public key of 132
bytes (identifier, root, seed). -/
def xmssVerifies (key m sig : List Byte) : Bool :=
  let root := (key.drop 4).take 64
  let seed := (key.drop 68).take 64
  let idx := leNat ((sig.take 4).reverse)
  let r := (sig.drop 4).take 64
  let digest := xmssHash 2 (r ++ root ++ beBytes 64 idx) m
  let ends := ((parts64 (sig.drop 68) 131).zip (xmssDigits digest)).zipIdx.map (fun e => xmssChain seed idx e.2 (15 - e.1.2) e.1.2 e.1.1)
  xmssPath seed idx (parts64 (sig.drop 8452) 10) 0 (xmssLtree seed idx 8 0 ends) == root

/-- The root public key that is fused into the ROM. -/
def rootKey : List Byte := (List.range 132).map Config.rootKey

end Sys2Proof.Machine
end

