-- ==== Sys2Proof/Decode.lean ====
section
/-! DEFINITION. The decoder from instruction words to instructions (R71 to R94), total and rejecting by name,
and after it the encoder written from the same tables. -/

namespace Sys2Proof

/-- What decoding a pattern gives (R94). -/
inductive Decoded where
  | ok (i : Instr)
  | illegalOpcode
  | illegalField
  deriving DecidableEq, Repr

/-- Length in words from L: 1, 3, 3 or 5 (R71). -/
def lenWords (l : Nat) : Nat := if l = 0 then 1 else if l = 3 then 5 else 3

/-- A register number from a 7-bit field. -/
def regField (n : Nat) : Fin 128 := ⟨n % 128, Nat.mod_lt _ (by decide)⟩

/-- A source field from its mode, hold bit and 7-bit value (R55, R56). -/
def parseSrc (mode : Nat) (hold : Bool) (f : Nat) : Option Src :=
  if mode = 0 then some (.reg (regField f) hold)
  else if hold then none
  else if mode = 1 then (if h : f < 4 then some (.latch ⟨f, h⟩) else none)
  else if h : f < 32 then (if mode = 2 then some (.pop ⟨f, h⟩) else some (.peek ⟨f, h⟩))
  else none

/-- The destination field from N, dM and its 7-bit value (R55, R82). -/
def parseDst (n1 dM : Bool) (f : Nat) : Option Dst :=
  if dM then (if h : f < 32 then some (.push ⟨f, h⟩ n1) else none)
  else if n1 then (if f = 0 then some .latchOnly else none)
  else some (.reg (regField f))

/-- One bit of a word as a Bool. -/
def bitAt (w : Word) (i : Nat) : Bool := w.getLsbD i

/-- The extended form, L = 01 or 11 (R76, R77, R79). -/
def parseExt (w0 w1 imm : Word) (lit : BitVec 64) (hasLit : Bool) : Option ExtOp :=
  let b := bitsOf w0 29 23
  let bM := bitsOf w1 10 9
  let bH := bitAt w1 14
  let srcB : Option SrcB :=
    if hasLit || bitAt w0 31 then
      if b = 0 && bM = 0 && !bH && !(hasLit && bitAt w0 31) then
        some (if hasLit then .lit lit else .imm)
      else none
    else (parseSrc bM bH b).map .src
  match parseDst (bitAt w0 30) (bitAt w1 16) (bitsOf w0 15 9), parseSrc (bitsOf w1 8 7) (bitAt w1 13) (bitsOf w0 22 16),
    srcB, parseSrc (bitsOf w1 12 11) (bitAt w1 15) (bitsOf w1 6 0) with
  | some d, some a, some sb, some c =>
    some { guard := ⟨⟨bitsOf w1 19 17, Nat.mod_lt _ (by decide)⟩, bitAt w1 20⟩, baseLit := false, d := d, a := a, b := sb, c := c,
           func := BitVec.ofNat 6 (bitsOf w1 26 21), mod := BitVec.ofNat 5 (bitsOf w1 31 27), imm := imm }
  | _, _, _, _ => none

/-- The base form with a literal, L = 10 (R71, R79). -/
def parseBaseLit (w0 : Word) (lit : BitVec 64) : Option ExtOp :=
  match parseDst (bitAt w0 30) false (bitsOf w0 15 9) with
  | some d =>
    if bitAt w0 31 || bitsOf w0 29 23 ≠ 0 then none
    else some { ExtOp.zero with baseLit := true, d := d, a := .reg (regField (bitsOf w0 22 16)) false, b := .lit lit }
  | none => none

/-- The base form, L = 00 (R73). -/
def parseBase (w0 : Word) : Option BaseOp :=
  match parseDst (bitAt w0 30) false (bitsOf w0 15 9) with
  | some d =>
    some { d := d, a := regField (bitsOf w0 22 16),
           b := if bitAt w0 31 then .imm (BitVec.ofNat 7 (bitsOf w0 29 23)) else .reg (regField (bitsOf w0 29 23)) }
  | none => none

/-- The opcodes of the map of R93 that are assigned. -/
def opAssigned (op : Nat) : Bool :=
  op ≤ 0x38 || (0x40 ≤ op && op ≤ 0x4B) || (0x50 ≤ op && op ≤ 0x59) || (0x60 ≤ op && op ≤ 0x6E) || (0x70 ≤ op && op ≤ 0x7B)

/-- The base-form instruction of an opcode marked `*` in the map of R93 (but for branches, `LD`, `ST`, `LAND` and `NOP`). -/
def baseInstr (op : Nat) (o : BaseOp) : Option Instr :=
  match op with
  | 0x01 => some (.add o)
  | 0x02 => some (.sub o)
  | 0x03 => some (.mul o)
  | 0x04 => some (.mulh o)
  | 0x06 => some (.and o)
  | 0x07 => some (.or o)
  | 0x08 => some (.xor o)
  | 0x09 => some (.andn o)
  | 0x0A => some (.shl o)
  | 0x0B => some (.shr o)
  | 0x0C => some (.sar o)
  | 0x0D => some (.rot o)
  | 0x0E => some (.min o)
  | 0x0F => some (.max o)
  | 0x18 => some (.mov o)
  | 0x1A => some (.lea o)
  | 0x1B => some (.addq o)
  | 0x1C => some (.mulw o)
  | 0x1D => some (.div o)
  | 0x1E => some (.rem o)
  | 0x20 => some (.fadd o)
  | 0x21 => some (.fsub o)
  | 0x22 => some (.fmul o)
  | 0x24 => some (.fmin o)
  | 0x25 => some (.fmax o)
  | 0x30 => some (.hadd2 o)
  | 0x31 => some (.hmul2 o)
  | 0x36 => some (.radd o)
  | 0x37 => some (.rmul o)
  | _ => none

/-- The extended-form instruction of an opcode; `GRED` and `DBG` split by func (R89, R92). -/
def extInstr (op : Nat) (x : ExtOp) : Option Instr :=
  match op with
  | 0x01 => some (.addExt x)
  | 0x02 => some (.subExt x)
  | 0x03 => some (.mulExt x)
  | 0x04 => some (.mulhExt x)
  | 0x05 => some (.mad x)
  | 0x06 => some (.andExt x)
  | 0x07 => some (.orExt x)
  | 0x08 => some (.xorExt x)
  | 0x09 => some (.andnExt x)
  | 0x0A => some (.shlExt x)
  | 0x0B => some (.shrExt x)
  | 0x0C => some (.sarExt x)
  | 0x0D => some (.rotExt x)
  | 0x0E => some (.minExt x)
  | 0x0F => some (.maxExt x)
  | 0x10 => some (.abs x)
  | 0x11 => some (.clz x)
  | 0x12 => some (.popc x)
  | 0x13 => some (.brev x)
  | 0x14 => some (.bfx x)
  | 0x15 => some (.bfi x)
  | 0x16 => some (.sel x)
  | 0x17 => some (.cmp x)
  | 0x18 => some (.movExt x)
  | 0x19 => some (.movi x)
  | 0x1A => some (.leaExt x)
  | 0x1B => some (.addqExt x)
  | 0x1C => some (.mulwExt x)
  | 0x1D => some (.divExt x)
  | 0x1E => some (.remExt x)
  | 0x1F => some (.pmov x)
  | 0x20 => some (.faddExt x)
  | 0x21 => some (.fsubExt x)
  | 0x22 => some (.fmulExt x)
  | 0x23 => some (.ffma x)
  | 0x24 => some (.fminExt x)
  | 0x25 => some (.fmaxExt x)
  | 0x26 => some (.fcmp x)
  | 0x27 => some (.frnd x)
  | 0x28 => some (.fcvt x)
  | 0x29 => some (.frcp x)
  | 0x2A => some (.frsq x)
  | 0x2B => some (.fsqrt x)
  | 0x2C => some (.fex2 x)
  | 0x2D => some (.flg2 x)
  | 0x2E => some (.fsin x)
  | 0x2F => some (.fcos x)
  | 0x33 => some (.fclass x)
  | 0x38 => some (.nmsel x)
  | 0x30 => some (.hadd2Ext x)
  | 0x31 => some (.hmul2Ext x)
  | 0x32 => some (.hfma2 x)
  | 0x34 => some (.hdot2 x)
  | 0x35 => some (.rcvt x)
  | 0x36 => some (.raddExt x)
  | 0x37 => some (.rmulExt x)
  | 0x40 => some (.braExt x)
  | 0x41 => some (.brcExt x)
  | 0x43 => some (.callExt x)
  | 0x42 => some (.jmp x)
  | 0x44 => some (.calli x)
  | 0x45 => some (.ret x)
  | 0x47 => some (.reform x)
  | 0x48 => some (.exit x)
  | 0x49 => some (.trap x)
  | 0x4A => some (.nopExt x)
  | 0x4B => some (.bbc x)
  | 0x50 => some (.ldExt x)
  | 0x51 => some (.stExt x)
  | 0x52 => some (.ldc x)
  | 0x53 => some (.prf x)
  | 0x54 => some (.lock x)
  | 0x55 => some (.unlock x)
  | 0x56 => some (.keyemit x)
  | 0x57 => some (.span x)
  | 0x58 => some (if x.func = 1 then .gredRes x else .gredAdd x)
  | 0x59 => some (.wback x)
  | 0x60 => some (.atom x)
  | 0x61 => some (.abegin x)
  | 0x62 => some (.acommit x)
  | 0x63 => some (.fence x)
  | 0x64 => some (.fencex x)
  | 0x65 => some (.twait x)
  | 0x66 => some (.barexp x)
  | 0x67 => some (.bararv x)
  | 0x68 => some (.tleave x)
  | 0x69 => some (.tsync x)
  | 0x6A => some (.xchg x)
  | 0x6B => some (.xshf x)
  | 0x6C => some (.xvote x)
  | 0x6D => some (.xred x)
  | 0x6E => some (.chctl x)
  | 0x70 => some (.mma x)
  | 0x71 => some (.neval x)
  | 0x72 => some (.copy x)
  | 0x73 => some (.sort x)
  | 0x74 => some (.coll x)
  | 0x75 => some (.emit x)
  | 0x76 => some (.spawn x)
  | 0x77 => some (.csrr x)
  | 0x78 => some (.csrw x)
  | 0x79 => some (.eret x)
  | 0x7A => some (.sysc x)
  | 0x7B => some (if x.func = 1 then .dbgTag x else .dbgBrk x)
  | _ => none

/-- The base form of an opcode (R73, R74, R75, R88). -/
def decodeBase (op : Nat) (w0 : Word) : Option Instr :=
  match op with
  | 0x40 => some (.bra (BitVec.ofNat 23 (bitsOf w0 31 9)))
  | 0x43 => some (.call (BitVec.ofNat 23 (bitsOf w0 31 9)))
  | 0x41 => some (.brc (BitVec.ofNat 19 (bitsOf w0 31 13)) (bitAt w0 12) ⟨bitsOf w0 11 9, Nat.mod_lt _ (by decide)⟩)
  | 0x46 => if w0 = 0x00000118 then some .land else none
  | 0x4A => if w0 = 0x00000128 then some .nop else none
  | 0x50 =>
    match parseDst (bitAt w0 30) false (bitsOf w0 15 9) with
    | some d => if bitAt w0 31 then some (.ld d (regField (bitsOf w0 22 16)) (BitVec.ofNat 7 (bitsOf w0 29 23))) else none
    | none => none
  | 0x51 =>
    if bitAt w0 31 && !bitAt w0 30 then
      some (.st (regField (bitsOf w0 15 9)) (regField (bitsOf w0 22 16)) (BitVec.ofNat 7 (bitsOf w0 29 23)))
    else none
  | _ => (parseBase w0).bind (baseInstr op)

/-- The instruction before the checks of its shape. -/
def decodeRaw (w0 w1 w2 w3 w4 : Word) : Option Instr :=
  let op := bitsOf w0 8 2
  match bitsOf w0 1 0 with
  | 0 => decodeBase op w0
  | 1 => (parseExt w0 w1 w2 0 false).bind (extInstr op)
  | 2 => (parseBaseLit w0 (w2 ++ w1)).bind (extInstr op)
  | _ => (parseExt w0 w1 w2 (w4 ++ w3) true).bind (extInstr op)

/-- Decode up to five words; words beyond the length are not looked at (R71, R94, R95). -/
def decodeWords (w0 w1 w2 w3 w4 : Word) : Decoded :=
  let op := bitsOf w0 8 2
  if op = 0 then .ok (.ill w0)
  else if opAssigned op then
    match decodeRaw w0 w1 w2 w3 w4 with
    | some i => if i.wf then .ok i else .illegalField
    | none => .illegalField
  else .illegalOpcode

/-- Word `k` of a list of words, zero beyond its end. -/
def wordAt (ws : List Word) (k : Nat) : Word := ws.getD k 0

/-- Decode a list of words. -/
def decode (ws : List Word) : Decoded :=
  decodeWords (wordAt ws 0) (wordAt ws 1) (wordAt ws 2) (wordAt ws 3) (wordAt ws 4)

/-- The five words of an instruction whose bits are `w`, bit 0 first (opcode_table.json's numbering). -/
def tableWords (w : Nat) : List Word :=
  [BitVec.ofNat 32 w, BitVec.ofNat 32 (w / 2 ^ 32), BitVec.ofNat 32 (w / 2 ^ 64), BitVec.ofNat 32 (w / 2 ^ 96),
   BitVec.ofNat 32 (w / 2 ^ 128)]

/-- The instruction the decoder reads from a table row's word: the bits above `nbits` are zero. -/
def decodeTableWord (nbits w : Nat) : Option Instr :=
  match decode (tableWords (w % 2 ^ nbits)) with
  | .ok i => some i
  | _ => none

/-! ## The encoder -/

/-- The major opcode of each instruction (R93); 0 for a device event, which has no word. -/
def Instr.opc : Instr → Nat
  | .ill _ => 0x00
  | .add _ => 0x01
  | .addExt _ => 0x01
  | .sub _ => 0x02
  | .subExt _ => 0x02
  | .mul _ => 0x03
  | .mulExt _ => 0x03
  | .mulh _ => 0x04
  | .mulhExt _ => 0x04
  | .mad _ => 0x05
  | .and _ => 0x06
  | .andExt _ => 0x06
  | .or _ => 0x07
  | .orExt _ => 0x07
  | .xor _ => 0x08
  | .xorExt _ => 0x08
  | .andn _ => 0x09
  | .andnExt _ => 0x09
  | .shl _ => 0x0A
  | .shlExt _ => 0x0A
  | .shr _ => 0x0B
  | .shrExt _ => 0x0B
  | .sar _ => 0x0C
  | .sarExt _ => 0x0C
  | .rot _ => 0x0D
  | .rotExt _ => 0x0D
  | .min _ => 0x0E
  | .minExt _ => 0x0E
  | .max _ => 0x0F
  | .maxExt _ => 0x0F
  | .abs _ => 0x10
  | .clz _ => 0x11
  | .popc _ => 0x12
  | .brev _ => 0x13
  | .bfx _ => 0x14
  | .bfi _ => 0x15
  | .sel _ => 0x16
  | .cmp _ => 0x17
  | .mov _ => 0x18
  | .movExt _ => 0x18
  | .movi _ => 0x19
  | .lea _ => 0x1A
  | .leaExt _ => 0x1A
  | .addq _ => 0x1B
  | .addqExt _ => 0x1B
  | .mulw _ => 0x1C
  | .mulwExt _ => 0x1C
  | .div _ => 0x1D
  | .divExt _ => 0x1D
  | .rem _ => 0x1E
  | .remExt _ => 0x1E
  | .pmov _ => 0x1F
  | .fadd _ => 0x20
  | .faddExt _ => 0x20
  | .fsub _ => 0x21
  | .fsubExt _ => 0x21
  | .fmul _ => 0x22
  | .fmulExt _ => 0x22
  | .ffma _ => 0x23
  | .fmin _ => 0x24
  | .fminExt _ => 0x24
  | .fmax _ => 0x25
  | .fmaxExt _ => 0x25
  | .fcmp _ => 0x26
  | .frnd _ => 0x27
  | .fcvt _ => 0x28
  | .frcp _ => 0x29
  | .frsq _ => 0x2A
  | .fsqrt _ => 0x2B
  | .fex2 _ => 0x2C
  | .flg2 _ => 0x2D
  | .fsin _ => 0x2E
  | .fcos _ => 0x2F
  | .fclass _ => 0x33
  | .nmsel _ => 0x38
  | .hadd2 _ => 0x30
  | .hadd2Ext _ => 0x30
  | .hmul2 _ => 0x31
  | .hmul2Ext _ => 0x31
  | .hfma2 _ => 0x32
  | .hdot2 _ => 0x34
  | .rcvt _ => 0x35
  | .radd _ => 0x36
  | .raddExt _ => 0x36
  | .rmul _ => 0x37
  | .rmulExt _ => 0x37
  | .bra _ => 0x40
  | .braExt _ => 0x40
  | .brc _ _ _ => 0x41
  | .brcExt _ => 0x41
  | .call _ => 0x43
  | .callExt _ => 0x43
  | .jmp _ => 0x42
  | .calli _ => 0x44
  | .ret _ => 0x45
  | .land => 0x46
  | .reform _ => 0x47
  | .exit _ => 0x48
  | .trap _ => 0x49
  | .nop => 0x4A
  | .nopExt _ => 0x4A
  | .bbc _ => 0x4B
  | .ld _ _ _ => 0x50
  | .ldExt _ => 0x50
  | .st _ _ _ => 0x51
  | .stExt _ => 0x51
  | .ldc _ => 0x52
  | .prf _ => 0x53
  | .lock _ => 0x54
  | .unlock _ => 0x55
  | .keyemit _ => 0x56
  | .span _ => 0x57
  | .gredAdd _ => 0x58
  | .gredRes _ => 0x58
  | .wback _ => 0x59
  | .atom _ => 0x60
  | .abegin _ => 0x61
  | .acommit _ => 0x62
  | .fence _ => 0x63
  | .fencex _ => 0x64
  | .twait _ => 0x65
  | .barexp _ => 0x66
  | .bararv _ => 0x67
  | .tleave _ => 0x68
  | .tsync _ => 0x69
  | .xchg _ => 0x6A
  | .xshf _ => 0x6B
  | .xvote _ => 0x6C
  | .xred _ => 0x6D
  | .chctl _ => 0x6E
  | .mma _ => 0x70
  | .neval _ => 0x71
  | .copy _ => 0x72
  | .sort _ => 0x73
  | .coll _ => 0x74
  | .emit _ => 0x75
  | .spawn _ => 0x76
  | .csrr _ => 0x77
  | .csrw _ => 0x78
  | .eret _ => 0x79
  | .sysc _ => 0x7A
  | .dbgBrk _ => 0x7B
  | .dbgTag _ => 0x7B
  | .powerOn => 0
  | .coldReset => 0
  | .warmReset => 0
  | .boot _ => 0
  | .attestationStart => 0
  | .attestationComplete => 0
  | .partitionStop => 0
  | .partitionResume => 0
  | .partitionStep => 0
  | .endThread => 0
  | .release => 0
  | .threadWindowWrite _ _ => 0
  | .budgetWrite _ => 0
  | .spectrographRingConfig _ _ => 0
  | .bbcCounterWrite _ _ => 0
  | .controlWindowWrite _ _ => 0
  | .queueSet => 0
  | .queueStop => 0
  | .migrate => 0
  | .migrationComplete => 0
  | .bias => 0
  | .biasFlipComplete => 0
  | .cancel => 0
  | .watchdog => 0
  | .mqInvalidCommand => 0
  | .tailStoreRecall _ => 0
  | .submissionSlotRead _ => 0
  | .taskDependencesComplete _ => 0
  | .tenureGrant _ => 0
  | .teamPlacement _ _ _ _ => 0
  | .taskComplete _ => 0
  | .preemptSection _ => 0
  | .sectionResume _ _ _ _ => 0
  | .binAgeExpiry _ _ => 0
  | .memoryWaitSplit _ _ => 0
  | .loadDataReturn _ => 0
  | .copyDataLanding _ _ => 0
  | .twaitReevaluate _ => 0
  | .twaitTimeout _ => 0
  | .channelSpill _ => 0
  | .exitComplete _ => 0
  | .nodeBatchLaunch _ _ _ _ _ => 0
  | .nodeBatchTimeout _ _ _ _ _ => 0
  | .watchdogExpiry _ => 0
  | .mmaStart _ => 0
  | .mmaIteration _ => 0
  | .mmaComplete _ => 0
  | .nevalTileTimeout _ => 0
  | .nevalTileRun _ => 0
  | .copyStart _ => 0
  | .copyRun _ => 0
  | .copyCondReevaluate _ => 0
  | .copyCondTimeout _ => 0
  | .copyBarrierArrival _ => 0
  | .copyComplete _ => 0
  | .sortStart _ => 0
  | .sortPass _ => 0
  | .sortComplete _ => 0
  | .collStart _ _ => 0
  | .collComplete _ => 0
  | .grcEvictMerge _ _ => 0
  | .powerPeriod => 0
  | .spectrographSample _ => 0
  | .softError _ => 0
  | .linkFailure _ => 0
  | .hostMemoryAccess _ => 0
  | .plogonRemoteAccess _ => 0
  | .readLeaseExpiry _ _ => 0
  | .hostPortTraining _ _ _ => 0

def Src.mode : Src → Nat
  | .reg _ _ => 0
  | .latch _ => 1
  | .pop _ => 2
  | .peek _ => 3

def Src.field : Src → Nat
  | .reg n _ => n.val
  | .latch k => k.val
  | .pop c => c.val
  | .peek c => c.val

def Src.hold : Src → Bool
  | .reg _ h => h
  | _ => false

def Dst.field : Dst → Nat
  | .reg n => n.val
  | .latchOnly => 0
  | .push c _ => c.val

def Dst.n1 : Dst → Bool
  | .reg _ => false
  | .latchOnly => true
  | .push _ n => n

def Dst.isPush : Dst → Bool
  | .push _ _ => true
  | _ => false

/-- The field, mode and hold bit that source b leaves in words 0 and 1. -/
def SrcB.parts : SrcB → Nat × Nat × Bool
  | .src s => (s.field, s.mode, s.hold)
  | _ => (0, 0, false)

/-- Word 0 from its fields (R73). -/
def mkWord0 (i n1 : Bool) (b a d op l : Nat) : Word :=
  BitVec.ofNat 32 (i.toNat * 2 ^ 31 + n1.toNat * 2 ^ 30 + b * 2 ^ 23 + a * 2 ^ 16 + d * 2 ^ 9 + op * 4 + l)

/-- Word 1 from its fields (R76). -/
def mkWord1 (x : ExtOp) : Word :=
  BitVec.ofNat 32 (x.mod.toNat * 2 ^ 27 + x.func.toNat * 2 ^ 21 + x.guard.neg.toNat * 2 ^ 20 + x.guard.p.val * 2 ^ 17 +
    x.d.isPush.toNat * 2 ^ 16 + x.c.hold.toNat * 2 ^ 15 + x.b.parts.2.2.toNat * 2 ^ 14 + x.a.hold.toNat * 2 ^ 13 +
    x.c.mode * 2 ^ 11 + x.b.parts.2.1 * 2 ^ 9 + x.a.mode * 2 ^ 7 + x.c.field)

/-- L of an extended or literal form (R71). -/
def ExtOp.len (x : ExtOp) : Nat := if x.baseLit then 2 else if x.b.isLit then 3 else 1

def SrcB.isImm : SrcB → Bool
  | .imm => true
  | _ => false

def SrcB.litVal : SrcB → BitVec 64
  | .lit v => v
  | _ => 0

/-- The words of an extended or literal form. -/
def encodeExt (op : Nat) (x : ExtOp) : List Word :=
  let w0 := mkWord0 x.b.isImm x.d.n1 x.b.parts.1 x.a.field x.d.field op x.len
  let lo : Word := x.b.litVal.setWidth 32
  let hi : Word := (x.b.litVal >>> 32).setWidth 32
  if x.baseLit then [w0, lo, hi]
  else if x.b.isLit then [w0, mkWord1 x, x.imm, lo, hi]
  else [w0, mkWord1 x, x.imm]

/-- The word of a base form (R73). -/
def encodeBase (op : Nat) (o : BaseOp) : Word :=
  mkWord0 (match o.b with | .imm _ => true | _ => false) o.d.n1 (match o.b with | .imm v => v.toNat | .reg n => n.val) o.a.val
    o.d.field op 0

/-- The words of an instruction (R71 to R79); a device event has none. -/
def encode (i : Instr) : List Word :=
  match i with
  | .ill w => [w]
  | .bra off => [BitVec.ofNat 32 (off.toNat * 2 ^ 9 + 0x40 * 4)]
  | .call off => [BitVec.ofNat 32 (off.toNat * 2 ^ 9 + 0x43 * 4)]
  | .brc off neg p => [BitVec.ofNat 32 (off.toNat * 2 ^ 13 + neg.toNat * 2 ^ 12 + p.val * 2 ^ 9 + 0x41 * 4)]
  | .land => [0x00000118]
  | .nop => [0x00000128]
  | .ld d a off => [mkWord0 true d.n1 off.toNat a.val d.field 0x50 0]
  | .st data a off => [mkWord0 true false off.toNat a.val data.val 0x51 0]
  | .add o => [encodeBase 0x01 o]
  | .sub o => [encodeBase 0x02 o]
  | .mul o => [encodeBase 0x03 o]
  | .mulh o => [encodeBase 0x04 o]
  | .and o => [encodeBase 0x06 o]
  | .or o => [encodeBase 0x07 o]
  | .xor o => [encodeBase 0x08 o]
  | .andn o => [encodeBase 0x09 o]
  | .shl o => [encodeBase 0x0A o]
  | .shr o => [encodeBase 0x0B o]
  | .sar o => [encodeBase 0x0C o]
  | .rot o => [encodeBase 0x0D o]
  | .min o => [encodeBase 0x0E o]
  | .max o => [encodeBase 0x0F o]
  | .mov o => [encodeBase 0x18 o]
  | .lea o => [encodeBase 0x1A o]
  | .addq o => [encodeBase 0x1B o]
  | .mulw o => [encodeBase 0x1C o]
  | .div o => [encodeBase 0x1D o]
  | .rem o => [encodeBase 0x1E o]
  | .fadd o => [encodeBase 0x20 o]
  | .fsub o => [encodeBase 0x21 o]
  | .fmul o => [encodeBase 0x22 o]
  | .fmin o => [encodeBase 0x24 o]
  | .fmax o => [encodeBase 0x25 o]
  | .hadd2 o => [encodeBase 0x30 o]
  | .hmul2 o => [encodeBase 0x31 o]
  | .radd o => [encodeBase 0x36 o]
  | .rmul o => [encodeBase 0x37 o]
  | .addExt x => encodeExt 0x01 x
  | .subExt x => encodeExt 0x02 x
  | .mulExt x => encodeExt 0x03 x
  | .mulhExt x => encodeExt 0x04 x
  | .mad x => encodeExt 0x05 x
  | .andExt x => encodeExt 0x06 x
  | .orExt x => encodeExt 0x07 x
  | .xorExt x => encodeExt 0x08 x
  | .andnExt x => encodeExt 0x09 x
  | .shlExt x => encodeExt 0x0A x
  | .shrExt x => encodeExt 0x0B x
  | .sarExt x => encodeExt 0x0C x
  | .rotExt x => encodeExt 0x0D x
  | .minExt x => encodeExt 0x0E x
  | .maxExt x => encodeExt 0x0F x
  | .abs x => encodeExt 0x10 x
  | .clz x => encodeExt 0x11 x
  | .popc x => encodeExt 0x12 x
  | .brev x => encodeExt 0x13 x
  | .bfx x => encodeExt 0x14 x
  | .bfi x => encodeExt 0x15 x
  | .sel x => encodeExt 0x16 x
  | .cmp x => encodeExt 0x17 x
  | .movExt x => encodeExt 0x18 x
  | .movi x => encodeExt 0x19 x
  | .leaExt x => encodeExt 0x1A x
  | .addqExt x => encodeExt 0x1B x
  | .mulwExt x => encodeExt 0x1C x
  | .divExt x => encodeExt 0x1D x
  | .remExt x => encodeExt 0x1E x
  | .pmov x => encodeExt 0x1F x
  | .faddExt x => encodeExt 0x20 x
  | .fsubExt x => encodeExt 0x21 x
  | .fmulExt x => encodeExt 0x22 x
  | .ffma x => encodeExt 0x23 x
  | .fminExt x => encodeExt 0x24 x
  | .fmaxExt x => encodeExt 0x25 x
  | .fcmp x => encodeExt 0x26 x
  | .frnd x => encodeExt 0x27 x
  | .fcvt x => encodeExt 0x28 x
  | .frcp x => encodeExt 0x29 x
  | .frsq x => encodeExt 0x2A x
  | .fsqrt x => encodeExt 0x2B x
  | .fex2 x => encodeExt 0x2C x
  | .flg2 x => encodeExt 0x2D x
  | .fsin x => encodeExt 0x2E x
  | .fcos x => encodeExt 0x2F x
  | .fclass x => encodeExt 0x33 x
  | .nmsel x => encodeExt 0x38 x
  | .hadd2Ext x => encodeExt 0x30 x
  | .hmul2Ext x => encodeExt 0x31 x
  | .hfma2 x => encodeExt 0x32 x
  | .hdot2 x => encodeExt 0x34 x
  | .rcvt x => encodeExt 0x35 x
  | .raddExt x => encodeExt 0x36 x
  | .rmulExt x => encodeExt 0x37 x
  | .braExt x => encodeExt 0x40 x
  | .brcExt x => encodeExt 0x41 x
  | .callExt x => encodeExt 0x43 x
  | .jmp x => encodeExt 0x42 x
  | .calli x => encodeExt 0x44 x
  | .ret x => encodeExt 0x45 x
  | .reform x => encodeExt 0x47 x
  | .exit x => encodeExt 0x48 x
  | .trap x => encodeExt 0x49 x
  | .nopExt x => encodeExt 0x4A x
  | .bbc x => encodeExt 0x4B x
  | .ldExt x => encodeExt 0x50 x
  | .stExt x => encodeExt 0x51 x
  | .ldc x => encodeExt 0x52 x
  | .prf x => encodeExt 0x53 x
  | .lock x => encodeExt 0x54 x
  | .unlock x => encodeExt 0x55 x
  | .keyemit x => encodeExt 0x56 x
  | .span x => encodeExt 0x57 x
  | .gredAdd x => encodeExt 0x58 x
  | .gredRes x => encodeExt 0x58 x
  | .wback x => encodeExt 0x59 x
  | .atom x => encodeExt 0x60 x
  | .abegin x => encodeExt 0x61 x
  | .acommit x => encodeExt 0x62 x
  | .fence x => encodeExt 0x63 x
  | .fencex x => encodeExt 0x64 x
  | .twait x => encodeExt 0x65 x
  | .barexp x => encodeExt 0x66 x
  | .bararv x => encodeExt 0x67 x
  | .tleave x => encodeExt 0x68 x
  | .tsync x => encodeExt 0x69 x
  | .xchg x => encodeExt 0x6A x
  | .xshf x => encodeExt 0x6B x
  | .xvote x => encodeExt 0x6C x
  | .xred x => encodeExt 0x6D x
  | .chctl x => encodeExt 0x6E x
  | .mma x => encodeExt 0x70 x
  | .neval x => encodeExt 0x71 x
  | .copy x => encodeExt 0x72 x
  | .sort x => encodeExt 0x73 x
  | .coll x => encodeExt 0x74 x
  | .emit x => encodeExt 0x75 x
  | .spawn x => encodeExt 0x76 x
  | .csrr x => encodeExt 0x77 x
  | .csrw x => encodeExt 0x78 x
  | .eret x => encodeExt 0x79 x
  | .sysc x => encodeExt 0x7A x
  | .dbgBrk x => encodeExt 0x7B x
  | .dbgTag x => encodeExt 0x7B x
  | .powerOn => []
  | .coldReset => []
  | .warmReset => []
  | .boot _ => []
  | .attestationStart => []
  | .attestationComplete => []
  | .partitionStop => []
  | .partitionResume => []
  | .partitionStep => []
  | .endThread => []
  | .release => []
  | .threadWindowWrite _ _ => []
  | .budgetWrite _ => []
  | .spectrographRingConfig _ _ => []
  | .bbcCounterWrite _ _ => []
  | .controlWindowWrite _ _ => []
  | .queueSet => []
  | .queueStop => []
  | .migrate => []
  | .migrationComplete => []
  | .bias => []
  | .biasFlipComplete => []
  | .cancel => []
  | .watchdog => []
  | .mqInvalidCommand => []
  | .tailStoreRecall _ => []
  | .submissionSlotRead _ => []
  | .taskDependencesComplete _ => []
  | .tenureGrant _ => []
  | .teamPlacement _ _ _ _ => []
  | .taskComplete _ => []
  | .preemptSection _ => []
  | .sectionResume _ _ _ _ => []
  | .binAgeExpiry _ _ => []
  | .memoryWaitSplit _ _ => []
  | .loadDataReturn _ => []
  | .copyDataLanding _ _ => []
  | .twaitReevaluate _ => []
  | .twaitTimeout _ => []
  | .channelSpill _ => []
  | .exitComplete _ => []
  | .nodeBatchLaunch _ _ _ _ _ => []
  | .nodeBatchTimeout _ _ _ _ _ => []
  | .watchdogExpiry _ => []
  | .mmaStart _ => []
  | .mmaIteration _ => []
  | .mmaComplete _ => []
  | .nevalTileTimeout _ => []
  | .nevalTileRun _ => []
  | .copyStart _ => []
  | .copyRun _ => []
  | .copyCondReevaluate _ => []
  | .copyCondTimeout _ => []
  | .copyBarrierArrival _ => []
  | .copyComplete _ => []
  | .sortStart _ => []
  | .sortPass _ => []
  | .sortComplete _ => []
  | .collStart _ _ => []
  | .collComplete _ => []
  | .grcEvictMerge _ _ => []
  | .powerPeriod => []
  | .spectrographSample _ => []
  | .softError _ => []
  | .linkFailure _ => []
  | .hostMemoryAccess _ => []
  | .plogonRemoteAccess _ => []
  | .readLeaseExpiry _ _ => []
  | .hostPortTraining _ _ _ => []

/-- Length in bytes: 4, 12 or 20 by L (R71, R327). -/
def Instr.len (i : Instr) : Nat :=
  match i with
  | .ill w => 4 * lenWords (bitsOf w 1 0)
  | .addExt x => 4 * lenWords x.len
  | .subExt x => 4 * lenWords x.len
  | .mulExt x => 4 * lenWords x.len
  | .mulhExt x => 4 * lenWords x.len
  | .mad x => 4 * lenWords x.len
  | .andExt x => 4 * lenWords x.len
  | .orExt x => 4 * lenWords x.len
  | .xorExt x => 4 * lenWords x.len
  | .andnExt x => 4 * lenWords x.len
  | .shlExt x => 4 * lenWords x.len
  | .shrExt x => 4 * lenWords x.len
  | .sarExt x => 4 * lenWords x.len
  | .rotExt x => 4 * lenWords x.len
  | .minExt x => 4 * lenWords x.len
  | .maxExt x => 4 * lenWords x.len
  | .abs x => 4 * lenWords x.len
  | .clz x => 4 * lenWords x.len
  | .popc x => 4 * lenWords x.len
  | .brev x => 4 * lenWords x.len
  | .bfx x => 4 * lenWords x.len
  | .bfi x => 4 * lenWords x.len
  | .sel x => 4 * lenWords x.len
  | .cmp x => 4 * lenWords x.len
  | .movExt x => 4 * lenWords x.len
  | .movi x => 4 * lenWords x.len
  | .leaExt x => 4 * lenWords x.len
  | .addqExt x => 4 * lenWords x.len
  | .mulwExt x => 4 * lenWords x.len
  | .divExt x => 4 * lenWords x.len
  | .remExt x => 4 * lenWords x.len
  | .pmov x => 4 * lenWords x.len
  | .faddExt x => 4 * lenWords x.len
  | .fsubExt x => 4 * lenWords x.len
  | .fmulExt x => 4 * lenWords x.len
  | .ffma x => 4 * lenWords x.len
  | .fminExt x => 4 * lenWords x.len
  | .fmaxExt x => 4 * lenWords x.len
  | .fcmp x => 4 * lenWords x.len
  | .frnd x => 4 * lenWords x.len
  | .fcvt x => 4 * lenWords x.len
  | .frcp x => 4 * lenWords x.len
  | .frsq x => 4 * lenWords x.len
  | .fsqrt x => 4 * lenWords x.len
  | .fex2 x => 4 * lenWords x.len
  | .flg2 x => 4 * lenWords x.len
  | .fsin x => 4 * lenWords x.len
  | .fcos x => 4 * lenWords x.len
  | .fclass x => 4 * lenWords x.len
  | .nmsel x => 4 * lenWords x.len
  | .hadd2Ext x => 4 * lenWords x.len
  | .hmul2Ext x => 4 * lenWords x.len
  | .hfma2 x => 4 * lenWords x.len
  | .hdot2 x => 4 * lenWords x.len
  | .rcvt x => 4 * lenWords x.len
  | .raddExt x => 4 * lenWords x.len
  | .rmulExt x => 4 * lenWords x.len
  | .braExt x => 4 * lenWords x.len
  | .brcExt x => 4 * lenWords x.len
  | .callExt x => 4 * lenWords x.len
  | .jmp x => 4 * lenWords x.len
  | .calli x => 4 * lenWords x.len
  | .ret x => 4 * lenWords x.len
  | .reform x => 4 * lenWords x.len
  | .exit x => 4 * lenWords x.len
  | .trap x => 4 * lenWords x.len
  | .nopExt x => 4 * lenWords x.len
  | .bbc x => 4 * lenWords x.len
  | .ldExt x => 4 * lenWords x.len
  | .stExt x => 4 * lenWords x.len
  | .ldc x => 4 * lenWords x.len
  | .prf x => 4 * lenWords x.len
  | .lock x => 4 * lenWords x.len
  | .unlock x => 4 * lenWords x.len
  | .keyemit x => 4 * lenWords x.len
  | .span x => 4 * lenWords x.len
  | .gredAdd x => 4 * lenWords x.len
  | .gredRes x => 4 * lenWords x.len
  | .wback x => 4 * lenWords x.len
  | .atom x => 4 * lenWords x.len
  | .abegin x => 4 * lenWords x.len
  | .acommit x => 4 * lenWords x.len
  | .fence x => 4 * lenWords x.len
  | .fencex x => 4 * lenWords x.len
  | .twait x => 4 * lenWords x.len
  | .barexp x => 4 * lenWords x.len
  | .bararv x => 4 * lenWords x.len
  | .tleave x => 4 * lenWords x.len
  | .tsync x => 4 * lenWords x.len
  | .xchg x => 4 * lenWords x.len
  | .xshf x => 4 * lenWords x.len
  | .xvote x => 4 * lenWords x.len
  | .xred x => 4 * lenWords x.len
  | .chctl x => 4 * lenWords x.len
  | .mma x => 4 * lenWords x.len
  | .neval x => 4 * lenWords x.len
  | .copy x => 4 * lenWords x.len
  | .sort x => 4 * lenWords x.len
  | .coll x => 4 * lenWords x.len
  | .emit x => 4 * lenWords x.len
  | .spawn x => 4 * lenWords x.len
  | .csrr x => 4 * lenWords x.len
  | .csrw x => 4 * lenWords x.len
  | .eret x => 4 * lenWords x.len
  | .sysc x => 4 * lenWords x.len
  | .dbgBrk x => 4 * lenWords x.len
  | .dbgTag x => 4 * lenWords x.len
  | .add _ => 4
  | .sub _ => 4
  | .mul _ => 4
  | .mulh _ => 4
  | .and _ => 4
  | .or _ => 4
  | .xor _ => 4
  | .andn _ => 4
  | .shl _ => 4
  | .shr _ => 4
  | .sar _ => 4
  | .rot _ => 4
  | .min _ => 4
  | .max _ => 4
  | .mov _ => 4
  | .lea _ => 4
  | .addq _ => 4
  | .mulw _ => 4
  | .div _ => 4
  | .rem _ => 4
  | .fadd _ => 4
  | .fsub _ => 4
  | .fmul _ => 4
  | .fmin _ => 4
  | .fmax _ => 4
  | .hadd2 _ => 4
  | .hmul2 _ => 4
  | .radd _ => 4
  | .rmul _ => 4
  | .bra _ => 4
  | .brc _ _ _ => 4
  | .call _ => 4
  | .land => 4
  | .nop => 4
  | .ld _ _ _ => 4
  | .st _ _ _ => 4
  | .powerOn => 0
  | .coldReset => 0
  | .warmReset => 0
  | .boot _ => 0
  | .attestationStart => 0
  | .attestationComplete => 0
  | .partitionStop => 0
  | .partitionResume => 0
  | .partitionStep => 0
  | .endThread => 0
  | .release => 0
  | .threadWindowWrite _ _ => 0
  | .budgetWrite _ => 0
  | .spectrographRingConfig _ _ => 0
  | .bbcCounterWrite _ _ => 0
  | .controlWindowWrite _ _ => 0
  | .queueSet => 0
  | .queueStop => 0
  | .migrate => 0
  | .migrationComplete => 0
  | .bias => 0
  | .biasFlipComplete => 0
  | .cancel => 0
  | .watchdog => 0
  | .mqInvalidCommand => 0
  | .tailStoreRecall _ => 0
  | .submissionSlotRead _ => 0
  | .taskDependencesComplete _ => 0
  | .tenureGrant _ => 0
  | .teamPlacement _ _ _ _ => 0
  | .taskComplete _ => 0
  | .preemptSection _ => 0
  | .sectionResume _ _ _ _ => 0
  | .binAgeExpiry _ _ => 0
  | .memoryWaitSplit _ _ => 0
  | .loadDataReturn _ => 0
  | .copyDataLanding _ _ => 0
  | .twaitReevaluate _ => 0
  | .twaitTimeout _ => 0
  | .channelSpill _ => 0
  | .exitComplete _ => 0
  | .nodeBatchLaunch _ _ _ _ _ => 0
  | .nodeBatchTimeout _ _ _ _ _ => 0
  | .watchdogExpiry _ => 0
  | .mmaStart _ => 0
  | .mmaIteration _ => 0
  | .mmaComplete _ => 0
  | .nevalTileTimeout _ => 0
  | .nevalTileRun _ => 0
  | .copyStart _ => 0
  | .copyRun _ => 0
  | .copyCondReevaluate _ => 0
  | .copyCondTimeout _ => 0
  | .copyBarrierArrival _ => 0
  | .copyComplete _ => 0
  | .sortStart _ => 0
  | .sortPass _ => 0
  | .sortComplete _ => 0
  | .collStart _ _ => 0
  | .collComplete _ => 0
  | .grcEvictMerge _ _ => 0
  | .powerPeriod => 0
  | .spectrographSample _ => 0
  | .softError _ => 0
  | .linkFailure _ => 0
  | .hostMemoryAccess _ => 0
  | .plogonRemoteAccess _ => 0
  | .readLeaseExpiry _ _ => 0
  | .hostPortTraining _ _ _ => 0

end Sys2Proof
end

