-- ==== Sys2Proof/Machine/Ops.lean ====
section
/-! DEFINITION. The shared operations: filing in transit bins (R29), latches (R36), device accesses on a task's
behalf, tokens (R184), the end of a thread and of a task (R278, R187), taking a trap (R275 to R280) and the return
from one (R281). -/

namespace Sys2Proof.Machine

/-! ## Device accesses through a page-table root, outside tenure (R178, R179) -/

/-- A page of an extent is in migration, so that the device's access to it waits (R153); `fuel` is the pages left. -/
def State.migAt (s : State) (ptroot a n : Nat) : Nat → Bool
  | 0 => false
  | fuel + 1 =>
    if n = 0 then false
    else
      let m := min n (65536 - a % 65536)
      ((s.walk ptroot a).map (·.mig)).getD false || s.migAt ptroot (a + m) (n - m) fuel

/-- The pages of an extent by a walk, each readable, and writable for a write; `fuel` is the pages that remain. What calls
this waits first for a migration of the pages (R153; log 18). -/
def State.walkPieces (s : State) (ptroot a n : Nat) (w : Bool) : Nat → Option (List Piece)
  | 0 => some []
  | fuel + 1 =>
    if n = 0 then some []
    else
      let m := min n (65536 - a % 65536)
      match s.walk ptroot a with
      | none => none
      | some l =>
        if l.tlb.r && (l.tlb.w || !w) then
          match s.walkPieces ptroot (a + m) (n - m) w fuel with
          | none => none
          | some ps => some (⟨l.tlb.place a, m⟩ :: ps)
        else none

/-- The bytes of an extent and which of them are poisoned; `none` when a page cannot be read. -/
def State.devRead (s : State) (ptroot a n : Nat) : Option (List Byte × List Bool) :=
  match s.walkPieces ptroot a n false (n / 65536 + 2) with
  | none => none
  | some ps => some (ps.flatMap (fun p => s.homeRead p.place p.n), ps.flatMap (fun p => s.homeTaints p.place p.n))

/-- A write of bytes on a task's behalf; nothing happens when a page cannot be written. -/
def State.devWrite (s : State) (ptroot a : Nat) (bs : List Byte) : State :=
  match s.walkPieces ptroot a bs.length true (bs.length / 65536 + 2) with
  | none => s
  | some ps => (s.bump ps).putPieces none ps bs

def State.devNat (s : State) (ptroot a n : Nat) : Option Nat :=
  (s.devRead ptroot a n).map (fun r => leNat r.1)

/-! ## Tokens (R184, R186) -/

/-- The record address of a token. -/
def tokAddr (tok : DWord) : Nat := tok.toNat % 2 ^ 48

/-- The sequence number of a token. -/
def tokSeq (tok : DWord) : Nat := tok.toNat / 2 ^ 48

/-- The bytes of a completion record (R184). -/
def recordBytes (st detail seq count : Nat) : List Byte :=
  leBytes 8 (st % 256 + detail % 2 ^ 32 * 2 ^ 16 + seq % 2 ^ 16 * 2 ^ 48) ++ leBytes 8 count

/-- Writes the completion record of a token through a page-table root. -/
def State.writeToken (s : State) (ptroot : Nat) (tok : DWord) (r : Result) : State :=
  s.devWrite ptroot (tokAddr tok) (recordBytes r.st r.detail (tokSeq tok) r.count)

/-- A token is complete given its record's first word: st not PENDING and the sequence equal or later (R184). -/
def tokenDone (tok : DWord) (word : Nat) : Bool :=
  let d := (word / 2 ^ 48 + 2 ^ 16 - tokSeq tok) % 2 ^ 16
  decide (word % 256 ≠ 0 ∧ d ≤ 32767)

/-- Status codes (R185). -/
def stDone : Nat := 0x01
def stTargetFull : Nat := 0x02
def stLinkDown : Nat := 0x03
def stTenure : Nat := 0x04
def stPoison : Nat := 0x05
def stBadParam : Nat := 0x06
def stEngineFault : Nat := 0x07
def stCancelled : Nat := 0x08
def stDepFailed : Nat := 0x09
def stTenureLaunch : Nat := 0x0A
def stEnded : Nat := 0x0B
def stDeadlock : Nat := 0x0C
def stTenureHeld : Nat := 0x0D
def stQueueError : Nat := 0x0E

/-- The next token of a task's pool: record and sequence (R186). -/
def Task.nextTok (t : Task) : DWord :=
  BitVec.ofNat 64 (t.desc.tokpool + 16 * t.tokNext + t.tokSeq % 2 ^ 16 * 2 ^ 48)

/-- The next record is free (R186). -/
def Task.tokFree (t : Task) : Bool := (aget t.tokBusy t.tokNext).isNone

/-- Takes the next record for owner `o`: it is written with PENDING, and index and sequence advance (R186). -/
def State.takeRecord (s : State) (ti o : Nat) : State × DWord :=
  match s.tasks[ti]? with
  | none => (s, 0)
  | some t =>
    let tok := t.nextTok
    let s := s.writeToken t.desc.ptroot tok ⟨0, 0, 0⟩
    (s.modTask ti (fun t => { t with
        tokBusy := aset t.tokBusy t.tokNext o
        tokNext := (t.tokNext + 1) % t.desc.ntok
        tokSeq := if t.tokSeq = 65535 then 1 else t.tokSeq + 1 }), tok)

/-- The records that an owner held become free. -/
def State.freeRecord (s : State) (ti o : Nat) : State :=
  s.modTask ti (fun t => { t with tokBusy := t.tokBusy.filter (fun e => e.2 ≠ o) })

/-- Owner numbers of the token pool: commands even, spawned tasks odd. -/
def cmdOwner (c : Nat) : Nat := 2 * c
def taskOwner (t : Nat) : Nat := 2 * t + 1

/-! ## Latches and results (R36, R37) -/

/-- One instruction more since every producer. -/
def Thread.ageLatches (t : Thread) : Thread :=
  { t with latches := t.latches.map (fun l => { l with age := l.age + 1 }) }

/-- The shift of R36: y0 takes the result. -/
def Thread.pushLatch (t : Thread) (v : QWord) (n1 : Bool) : Thread :=
  { t with latches := ⟨v, 0, n1, none⟩ :: t.latches.take 3 }

/-- The same for a result whose data are still outstanding, as number `no`. -/
def Thread.pushDue (t : Thread) (v : QWord) (no : Nat) : Thread :=
  { t with latches := ⟨v, 0, false, some no⟩ :: t.latches.take 3 }

/-- A latch that an instruction can still read: its producer stands at most seven instructions back (R37). -/
def Thread.latch? (t : Thread) (k : Nat) : Option QWord :=
  match t.latches[k]? with
  | some l => if l.age ≤ 7 then some l.val else none
  | none => none

/-- Latch `k` takes its value from the outstanding result `no`. -/
def Thread.latchDue (t : Thread) (k no : Nat) : Bool := (t.latches[k]?).any (fun l => l.due == some no)

/-- Inside a latch chain: an entry produced with N = 1 can still be read by the next instruction (R35, R38). -/
def Thread.inChain (t : Thread) : Bool := t.latches.any (fun l => l.n1 && decide (l.age + 1 ≤ 7))

/-- A register write clears the registers' errors. -/
def Thread.setRegs (t : Thread) (n cnt : Nat) (v : QWord) : Thread :=
  { t with
    regs := writeRegs t.regs n v.toNat cnt
    badRegs := t.badRegs.filter (fun r => !(decide (n ≤ r) && decide (r < n + cnt))) }

/-- Predicate `p`; p7 reads true (R57). -/
def Thread.pred (t : Thread) (p : Nat) : Bool := if p = 7 then true else t.preds.getLsbD p

/-- A write to p7 is discarded (R57). -/
def Thread.setPred (t : Thread) (p : Nat) (b : Bool) : Thread :=
  if 7 ≤ p then t
  else { t with preds := if b then t.preds ||| (1#7 <<< p) else t.preds &&& ~~~(1#7 <<< p) }

def Thread.setPc (t : Thread) (pc : DWord) : Thread := { t with pc := pc }

/-- A thread in the state in which it starts (R21): registers zero but q124, which points S − 4,096 into the stack
window. -/
def newThread (task : Nat) (node : Option Nat) (tid ntid : Word) (tsize core part slot regsN : Nat) (pc : DWord) (stackBytes : Nat) : Thread :=
  { task := task, node := node, tid := tid, ntid := ntid, tsize := tsize, core := core, part := part, slot := slot, regsN := regsN,
    recAddr := 0, recSlot := none, regs := writeRegs (Vector.replicate 128 0) 124 (stackBase + stackBytes - 4096) 2,
    preds := 0, pc := pc, lk := 0, shadow := [], shadowBad := [], latches := [], fmode := 0, fflags := 0, stack := ⟨[], []⟩, tag := 0,
    sup := false, trec := Vector.replicate 8 0, epc := 0, hact := 0, hscr := Vector.replicate 4 0, region := none,
    pend := [], badRegs := [], tcount := 0, left := false, observed := [], hostSeen := 0, st := .ready, parkedAt := 0, parkNo := 0,
    stopReq := false }

/-! ## Filing (R28 to R30) -/

/-- The lane of a thread. -/
def State.laneOf (s : State) (k : Nat) : Nat := (s.threads[k]?.map Thread.lane).getD 0

def State.pnumOf (s : State) (k : Nat) : Nat := (s.threads[k]?.map Thread.pnum).getD 0

/-- A bin takes a thread: same key and the home-lane position free (R29). -/
def State.binTakes (s : State) (k : Nat) (t : Thread) (pc : DWord) (b : Bin) : Bool :=
  b.part = t.pnum && b.task = t.task && b.pc = pc && b.members.all (fun m => s.laneOf m.k ≠ s.laneOf k)

/-- Adds a member to the first bin that takes it: of several, the one filled first (log 39). -/
def addToBin (f : Bin → Bool) (m : Filed) : List Bin → List Bin
  | [] => []
  | b :: l => if f b then { b with members := b.members ++ [m], since := none } :: l else b :: addToBin f m l

/-- Puts a thread where R29 says: a bin with its key, else an empty bin, else a running group of its own. A bin drawn in this
cycle is not empty yet (R32). -/
def State.place (s : State) (k : Nat) (t : Thread) (pc : DWord) (release : Nat) (reform : Bool) : Front :=
  let now := s.time.toNat
  let m : Filed := ⟨k, now, release, reform⟩
  if s.front.bins.any (s.binTakes k t pc) then { s.front with bins := addToBin (s.binTakes k t pc) m s.front.bins }
  else if (s.front.bins.filter (fun b => b.part = t.pnum)).length + (s.front.drawn.filter (· = t.pnum)).length < Config.binsPerPart then
    { s.front with bins := s.front.bins ++ [⟨t.pnum, t.task, pc, [m], none, none, none⟩] }
  else { s.front with groups := s.front.groups ++ [⟨t.pnum, [k], now + 2, none⟩] }

/-- A stop request waits for the thread (R35, R302). -/
def State.stopPending (s : State) (t : Thread) : Bool := decide (t.pnum ∈ s.front.stopReq) || t.stopReq

/-- A stop request reaches the thread at this boundary: outside a latch chain, outside supervisor mode, and not
between `ABEGIN` and `ACOMMIT` without going back to the `ABEGIN` (R35, R164, R283). -/
def State.stopsNow (s : State) (t : Thread) : Bool :=
  s.stopPending t && !t.inChain && !t.sup

/-- Latches die and an open region is abandoned, the pc going back to its `ABEGIN` (R37, R164). -/
def Thread.interrupted (t : Thread) : Thread :=
  { t with latches := [], pc := (t.region.map (·.abegin)).getD t.pc, region := none }

/-- A thread is filed by a pc with a release cycle, or stops where a stop request waits for it. -/
def State.fileAt (s : State) (k : Nat) (pc : DWord) (release : Nat) (reform : Bool) : State :=
  match s.threads[k]? with
  | none => s
  | some t =>
    let t := { t with pc := pc, st := .ready }
    if s.stopsNow t then s.setThread k { t.interrupted with st := .stopped }
    else
      let f := s.place k t pc release reform
      let drop := fun (e : Nat × LastIssue) => (e.1, { e.2 with members := e.2.members.filter (· ≠ k) })
      { (s.setThread k t) with front := { f with last := f.last.map drop } }

/-- The age limit of the thread's task (R30). -/
def State.ageLimit (s : State) (k : Nat) : Nat :=
  match s.threads[k]? with
  | none => 0
  | some t => (s.tasks[t.task]?.map (fun x => x.desc.age)).getD 0

/-- A filing that is not by `REFORM` (R30). -/
def State.file (s : State) (k : Nat) (pc : DWord) : State := s.fileAt k pc (s.time.toNat + s.ageLimit k) false

/-- A thread leaves its bin or group; emptied ones vanish (R32). -/
def State.unfile (s : State) (k : Nat) : State :=
  { s with front := { s.front with
      bins := (s.front.bins.map (fun b => { b with members := b.members.filter (fun m => m.k ≠ k) })).filter (fun b => !b.members.isEmpty)
      groups := (s.front.groups.map (fun g => { g with members := g.members.filter (· ≠ k) })).filter (fun g => !g.members.isEmpty)
      issue := s.front.issue.map (fun i => { i with
        left := i.left.filter (· ≠ k), stay := i.stay.filter (· ≠ k) }) } }

/-! ## The end of threads and tasks -/

/-- The thread stands in a slot: not exited and not in the save area. -/
def Thread.resident (t : Thread) : Bool :=
  match t.st with
  | .exited => false
  | .saved _ _ => false
  | _ => true

def Thread.exitedB (t : Thread) : Bool := match t.st with | .exited => true | _ => false

/-- Something of the task's channels, pool, barriers or rendezvous has changed (R203). -/
def State.touch (s : State) (ti : Nat) : State := s.modTask ti (fun t => { t with lastChange := s.time.toNat })

/-- The task's allocation on a core is freed when no thread of the task is resident there (R131). -/
def State.freeTile (s : State) (ti core : Nat) : State :=
  if s.threads.any (fun t => t.task = ti && t.core = core && t.resident) then s
  else
    { s with
      tiles := s.tiles.map (fun (a : Tile) => if a.live && a.task = ti && a.core = core then
        { a with live := false, mem := {}, absent := [], chans := [] } else a) }

/-- Adds to a saturating counter of a statistics record; a poisoned unit is left alone (R227, R248). While the counter's page is
in migration the addition waits for its end (R153; log 18). -/
def State.statAdd (s : State) (ptroot addr n delta : Nat) : State :=
  if s.migAt ptroot addr n 2 then { s with pkg := { s.pkg with stats := s.pkg.stats ++ [⟨ptroot, addr, n, delta⟩] } } else
  match s.devRead ptroot (addr / 32 * 32) 32, s.devNat ptroot addr n with
  | some (_, bad), some v => if bad.any id then s else s.devWrite ptroot addr (leBytes n (min (v + delta) (2 ^ (8 * n) - 1)))
  | _, _ => s

/-- The additions that waited are made, but for those whose page is still in migration (R153). -/
def State.runStats (s : State) : State :=
  s.pkg.stats.foldl (fun s a => s.statAdd a.ptroot a.addr a.n a.delta) { s with pkg := { s.pkg with stats := [] } }

/-- The threads of a blend wave have all exited: the wave completes and is counted (R249). -/
def State.waveDone (s : State) (t : Thread) : State :=
  match s.tasks[t.task]? with
  | none => s
  | some task =>
    match task.blend with
    | none => s
    | some b =>
      let w := t.tid.toNat / b.pix
      let ours := s.threads.filter (fun u => u.task = t.task && u.node.isNone && u.tid.toNat / b.pix = w)
      if w ∈ b.done || !ours.all Thread.exitedB || ours.length < b.pix then s
      else
        let s := s.modTask t.task (fun x => { x with blend := some { b with done := sinsert b.done w } })
        if b.stats = 0 then s
        else s.statAdd task.desc.ptroot (b.stats + (if task.replayed then 0x34 else 0x30)) 4 1

/-- A thread is gone: its slot is free, its record slot returns to the pool, and the task's allocation on the core may be
freed (R131, R199). -/
def State.dropThread (s : State) (k : Nat) : State :=
  match s.threads[k]? with
  | none => s
  | some t =>
    let s := (s.unfile k).setThread k
      { t with st := .exited, latches := [], shadow := [], region := none, pend := [], stopReq := false }
    let s := match t.recSlot with
      | none => s
      | some n => s.modTask t.task (fun x => { x with graph := x.graph.map (fun (g : Graph) => { g with free := g.free ++ [n] }) })
    (s.freeTile t.task t.core).touch t.task

/-- A thread enters Exited: it is gone, and its wave may complete (R48, R249). -/
def State.exitThread (s : State) (k : Nat) : State :=
  match s.threads[k]? with
  | none => s
  | some t => (s.dropThread k).waveDone t

/-- The presence bits that an ending copy had cleared and no other outstanding copy still waits for are set (R132). -/
def State.setLanding (s : State) (c : Nat) : State :=
  match s.cmds[c]? with
  | none => s
  | some cmd =>
    let others := s.cmds.zipIdx.filter (fun e => e.2 ≠ c && e.1.tile = cmd.tile && e.1.kind = .copy)
    let keep := fun l => others.any (fun e => decide (l ∈ e.1.copy.landing))
    let s := s.modTile cmd.tile (fun a => { a with absent := a.absent.filter (fun l => decide (l ∉ cmd.copy.landing) || keep l) })
    s.modCmd c (fun x => { x with copy := { x.copy with landing := [] } })

/-- The next pass index of a sort: the last stage follows the digit passes (R235). -/
def SortRun.passIndex (r : SortRun) : Nat := if r.next < 13 then r.next else if r.alt then 13 else 14

/-- The result that a cancelled command reports: its count so far, and the index of the pass that a sort has under way (R239). -/
def Cmd.cancelled (c : Cmd) : Result :=
  if c.st = .ended && !(c.kind = .sort && c.result.st = stDone) then c.result
  else match c.kind with
  | .mma => ⟨stCancelled, 0, c.mma.done⟩
  | .copy => ⟨stCancelled, 0, c.copy.done⟩
  | .coll => ⟨stCancelled, 0, 0⟩
  | .sort =>
    let i := if c.st = .running then c.sort.passIndex else 15
    ⟨stCancelled, i * 256 + (if c.sort.alt then 4096 else 0), i⟩

/-- A command ends with a result: its token is written and its record is free (R166, R186). -/
def State.completeCmd (s : State) (c : Nat) (r : Result) : State :=
  match s.cmds[c]? with
  | none => s
  | some cmd =>
    let pt := (s.tasks[cmd.task]?.map (fun t => t.desc.ptroot)).getD 0
    let s := ((s.setLanding c).writeToken pt cmd.tok r).touch cmd.task
    (s.freeRecord cmd.task (cmdOwner c)).modCmd c (fun x => { x with st := .complete, result := r })

def Cmd.inFlight (c : Cmd) : Bool := match c.st with | .complete => false | _ => true

/-- An extent that a command leaves without defined contents: free values in each page that it can write, the others unchanged
(log 4); `fuel` is the pages that remain. -/
def State.scribblePages (s : State) (c : Nat) (cmd : Cmd) (a n : Nat) : Nat → State
  | 0 => s
  | fuel + 1 =>
    if n = 0 then s
    else
      let m := if a < tileBase then min n (65536 - a % 65536) else n
      let t := match s.engWrite c cmd.task cmd.tile a (freeBytes s.freeCtr m) false with
        | .ok t => t.useFree m
        | .error _ => s
      t.scribblePages c cmd (a + m) (n - m) fuel

def State.scribble (s : State) (c : Nat) (cmd : Cmd) (a n : Nat) : State := s.scribblePages c cmd a n (n / 65536 + 2)

/-- The extents that a collective's dst names (R269, R271). -/
def State.collExtents (s : State) (cmd : Cmd) : List (Nat × Nat) :=
  let b := cmd.block
  let dst := fieldAt b 0x20 8
  let n := fieldAt b 0x28 8
  match fieldAt b 0 1 % 8 with
  | 2 => [(dst, fieldAt b 0x10 2 * n)]
  | 4 =>
    (match s.engRead cmd.task cmd.tile dst 128 false with
      | .ok d => [(fieldAt d 0 8, 8 * fieldAt d 0x20 4), (fieldAt d 8 8, 4 * fieldAt d 0x20 4), (dst + 0x24, 8)]
      | .error _ => [])
  | 5 => if dst = 0 then [] else [(dst, n)]
  | _ => [(dst, n)]

/-- A member of a collective that ends early leaves its dst without defined contents (R270); one that is done has ended. -/
def State.collSpoil (s : State) (c : Nat) (cmd : Cmd) : State :=
  if cmd.kind = .coll && !(cmd.st = .ended && cmd.result.st = stDone) then (s.collExtents cmd).foldl (fun s e => s.scribble c cmd e.1 e.2) s else s

/-- Every command of a task still in flight is cancelled with its token written (R151, R278). -/
def State.cancelCmds (s : State) (ti : Nat) : State :=
  (List.range s.cmds.length).foldl (fun s c =>
    match s.cmds[c]? with
    | some cmd => if cmd.task = ti && cmd.inFlight then (s.collSpoil c cmd).completeCmd c cmd.cancelled else s
    | none => s) s

/-- Ends a task: its threads are stopped and discarded without an end of their waves, its commands cancelled, and the first
cause is kept (R151, R187, R204, R249, R278). Its completion follows with the event TASK_COMPLETE. -/
def State.endTask (s : State) (ti : Nat) (c : EndCause) : State :=
  match s.tasks[ti]? with
  | none => s
  | some t =>
    if t.phase = .complete then s
    else
      let s := s.modTask ti (fun t => { t with cause := (match t.cause with | some d => some d | none => some c), phase := .running, sections := [],
                                               graph := t.graph.map (fun (g : Graph) => { g with nodes := g.nodes.map (fun (n : Node) => { n with recs := [] }) }) })
      let s := (List.range s.threads.length).foldl (fun s k =>
        match s.threads[k]? with
        | some u => if u.task = ti && !u.exitedB then s.dropThread k else s
        | none => s) s
      let s := { s with ntiles := s.ntiles.map (fun (n : NTile) => if n.task = ti then { n with live := false, rows := [] } else n) }
      s.cancelCmds ti

/-! ## Traps (R275 to R280) -/

/-- The words of a trap record (R276). -/
def trapRecord (s : State) (t : Thread) (i : TrapInfo) (len : Nat) (pc epc : DWord) (deferred : Bool) : Vector DWord 8 :=
  let b : Bool → Nat := fun x => if x then 1 else 0
  let task := ((s.tasks[t.task]?.map (fun x => x.num.toNat)).getD 0)
  #v[BitVec.ofNat 64 (i.code + len * 2 ^ 8 + b t.sup * 2 ^ 11 + b deferred * 2 ^ 12 + i.aux.toNat * 2 ^ 16 + i.detail.toNat * 2 ^ 32),
     pc, i.addr, epc,
     BitVec.ofNat 64 (t.tid.toNat + task * 2 ^ 32),
     BitVec.ofNat 64 (t.slot + t.part * 2 ^ 16 + t.core % 48 * 2 ^ 24 + t.core / 48 * 2 ^ 32 + s.pkg.index.toNat * 2 ^ 40),
     s.time, 0]

/-- The policy of a code (R278). -/
def Pkg.policy (p : Pkg) (code : Nat) : Nat := p.tpolicy.toNat / 2 ^ (2 * code) % 4

/-- Handler entry in one step (R280). -/
def State.enterHandler (s : State) (k : Nat) (r : Vector DWord 8) : State :=
  (s.modThread k (fun t => { t with trec := r, epc := r[3], hact := 0, sup := true })).file k s.pkg.hvec

/-- The policy of a trap's code, for a thread whose record is written (R151, R278, R280). A handler is not entered while a stop
request waits: the thread is stopped in Trapped (R283). -/
def State.applyPolicy (s : State) (k : Nat) (t : Thread) (code : Nat) (r : Vector DWord 8) : State :=
  let s := if code = trapTenure then s.saveTrap t else s
  if t.sup then s.endTask t.task ⟨stEnded, 0x100 + code, 0⟩
  else if code = trapTenure then s.endTask t.task ⟨stTenure, 0, 0⟩
  else
    match s.pkg.policy code with
    | 0 => s.endTask t.task (if code = trapDeadlock then ⟨stDeadlock, 0, 0⟩ else ⟨stEnded, code, 0⟩)
    | 1 => s.exitThread k
    | 2 => if s.stopPending t then s.modThread k (fun t => { t with st := .trapped, pc := r[3] }) else s.enterHandler k r
    | _ => s.modThread k (fun t => { t with st := .trapped, pc := r[3] })

/-- A thread stopped in Trapped goes on: the policy of its record is applied again, so that it stays held or enters its handler,
with its saved pc as epc (R283). -/
def State.resumeTrapped (s : State) (k : Nat) : State :=
  match s.threads[k]? with
  | none => s
  | some t =>
    if decide (t.st = .trapped) && s.pkg.policy (t.trec[0].toNat % 256) = 2 && !s.stopPending t then s.enterHandler k (t.trec.set 3 t.pc) else s

/-- Every read that is outstanding returns: its value reaches the registers, a poisoned one stays to be reported (R288). -/
def Thread.landAll (t : Thread) : Thread :=
  t.pend.foldl (fun t p => if p.returned || p.poison.isSome then t else t.setRegs p.first p.n p.val)
    { t with pend := (t.pend.filter (fun p => p.poison.isSome)).map (fun p => { p with returned := true }) }

/-- TAKING A TRAP (R275 to R278): every earlier instruction has completed, its reads among them, the record is written, every
latch becomes invalid, an open region is abandoned, and the code's policy is applied. `pc` and `len` are those of the instruction that the record names; `epc` is where
the thread resumes when no region is open. -/
def State.takeTrap (s : State) (k : Nat) (i : TrapInfo) (len : Nat) (pc epc : DWord) (deferred : Bool) : State :=
  match s.threads[k]? with
  | none => s
  | some t =>
    let t := t.landAll
    let e := (t.region.map (·.abegin)).getD epc
    let r := trapRecord s t i len pc e deferred
    let t' := { t with trec := r, latches := [], region := none }
    ((s.unfile k).setThread k t').applyPolicy k t' i.code r

/-- RETURN FROM A TRAP: `ERET` in supervisor mode with its guard true (R281). -/
def State.returnFromTrap (s : State) (k : Nat) : State :=
  match s.threads[k]? with
  | none => s
  | some t =>
    match t.hact.toNat with
    | 0 => (s.modThread k (fun t => { t with sup := false, latches := [] })).file k t.epc
    | 1 => s.exitThread k
    | 2 =>
      let code := t.trec[0].toNat % 256
      s.endTask t.task ⟨if code = trapDeadlock then stDeadlock else stEnded, code, 0⟩
    | _ => s.endTask t.task ⟨stEnded, 0x1FF, 0⟩

/-! ## Parking (R40) -/

/-- A wait in which the instruction has read its sources and completes at the wake (R40, R58, R420; log 43). -/
def Wait.keepsLatches : Wait → Bool
  | .channel _ _ => true
  | .emit _ => true
  | .record => true
  | .room _ _ => true
  | .slot _ _ => true
  | _ => false

/-- What is left of the latches of a thread that parks: the waiting instruction alone still reads them, so that they hold the
thread in no chain (R37, R38). -/
def Thread.parkLatches (t : Thread) (w : Wait) : List Latch :=
  if w.keepsLatches then t.latches.map (fun l => { l with n1 := false }) else []

/-- A thread parks with its pc at the parking instruction. -/
def State.park (s : State) (k : Nat) (w : Wait) : State :=
  let s' := (s.unfile k).modThread k (fun t => { t with st := .parked w, latches := t.parkLatches w, parkedAt := s.time.toNat, parkNo := s.serial })
  { s' with serial := s.serial + 1 }

/-- A thread leaves Parked and is filed by a pc (R40). -/
def State.wake (s : State) (k : Nat) (pc : DWord) : State := s.file k pc

end Sys2Proof.Machine
end

