-- ==== Sys2Proof/Machine/Flags.lean ====
section
/-! DEFINITION. The exception flags of `$fflags` (R59, R106) and the rounding mode of an instruction (R85, R101). -/

namespace Sys2Proof.Machine

/-- A set of flags, bits as in `$fflags`. -/
abbrev FFlags := BitVec 5

def fNv : FFlags := 0b00001
def fDz : FFlags := 0b00010
def fOf : FFlags := 0b00100
def fUf : FFlags := 0b01000
def fNx : FFlags := 0b10000

/-- The flag `f` when `b` holds. -/
def flagIf (b : Bool) (f : FFlags) : FFlags := if b then f else 0

/-- Flags are sticky: an instruction sets them and never clears one (R106). -/
def Thread.raise (t : Thread) (f : FFlags) : Thread := { t with fflags := t.fflags ||| f }

def State.raise (s : State) (k : Nat) (f : FFlags) : State := s.modThread k (fun t => t.raise f)

/-- Rounding modes (R101). -/
inductive RMode where
  | rne | rtz | rup | rdn
  deriving DecidableEq, Repr

def RMode.ofCode (n : Nat) : RMode := if n = 1 then .rtz else if n = 2 then .rup else if n = 3 then .rdn else .rne

/-- The mode of an instruction: mod[2:0] = 000 takes `$fmode`, 001 to 100 name RNE, RTZ, RUP and RDN (R85, R101). -/
def modeOf (t : Thread) (x : ExtOp) : RMode :=
  if bitsOf x.mod 2 0 = 0 then RMode.ofCode (bitsOf t.fmode 1 0) else RMode.ofCode (bitsOf x.mod 2 0 - 1)

/-- ftz of the thread (R59, R105). -/
def Thread.ftz (t : Thread) : Bool := t.fmode.getLsbD 2

end Sys2Proof.Machine
end

