-- ==== Sys2Proof/Machine/Float.lean ====
section
/-! DEFINITION. Float values and their one rounding (R99 to R103, R105, R106), the formats F8A and F8B (R112, R113),
conversions (R110, R111), comparisons (R107), and residues (R115 to R119). Values are exact dyadic numbers
until they are rounded. -/

namespace Sys2Proof.Machine

/-- A binary format of R99: exponent and fraction bits. -/
structure Fmt where
  ebits : Nat
  fbits : Nat
  deriving DecidableEq, Repr

def fp32 : Fmt := ⟨8, 23⟩
def fp16 : Fmt := ⟨5, 10⟩
def bf16 : Fmt := ⟨8, 7⟩

def Fmt.bias (f : Fmt) : Int := 2 ^ (f.ebits - 1) - 1
def Fmt.signBit (f : Fmt) : Nat := f.ebits + f.fbits
/-- The infinity code without its sign. -/
def Fmt.infCode (f : Fmt) : Nat := (2 ^ f.ebits - 1) * 2 ^ f.fbits
/-- The canonical NaN (R99). -/
def Fmt.nanCode (f : Fmt) : Nat := f.infCode + 2 ^ (f.fbits - 1)
/-- The exponent of the unit of the subnormals. -/
def Fmt.eunit (f : Fmt) : Int := 1 - f.bias - f.fbits

/-- A value: NaN (whether signalling), infinity, or (−1)^neg · mag · 2^e. -/
inductive FVal where
  | nan (sig : Bool)
  | inf (neg : Bool)
  | fin (neg : Bool) (mag : Nat) (e : Int)
  deriving DecidableEq, Repr

/-- The value of a code; with `ftz` a subnormal reads as a zero of its sign (R99, R105). -/
def Fmt.unpack (f : Fmt) (ftz : Bool) (c : Nat) : FVal :=
  let neg := c / 2 ^ f.signBit % 2 = 1
  let ex := c / 2 ^ f.fbits % 2 ^ f.ebits
  let fr := c % 2 ^ f.fbits
  if ex = 2 ^ f.ebits - 1 then
    if fr = 0 then .inf neg else .nan (fr / 2 ^ (f.fbits - 1) = 0)
  else if ex = 0 then .fin neg (if ftz then 0 else fr) f.eunit
  else .fin neg (2 ^ f.fbits + fr) (f.eunit + (ex - 1 : Nat))

def FVal.isNan : FVal → Bool
  | .nan _ => true
  | _ => false

def FVal.isSnan : FVal → Bool
  | .nan s => s
  | _ => false

def FVal.negate : FVal → FVal
  | .nan s => .nan s
  | .inf n => .inf (!n)
  | .fin n m e => .fin (!n) m e

/-- A magnitude `mag` · 2^(−sh) rounded to an integer under a mode, and whether it was inexact (R101). -/
def roundShift (mode : RMode) (neg : Bool) (mag sh : Nat) : Nat × Bool :=
  let q := mag / 2 ^ sh
  let r := mag % 2 ^ sh
  let up := match mode with
    | .rne => decide (2 ^ sh < 2 * r) || (decide (2 * r = 2 ^ sh) && decide (q % 2 = 1) && decide (r ≠ 0))
    | .rtz => false
    | .rup => decide (r ≠ 0) && !neg
    | .rdn => decide (r ≠ 0) && neg
  (if up then q + 1 else q, decide (r ≠ 0))

/-- `mag` · 2^e as an integer multiple of 2^u, rounded. -/
def roundTo (mode : RMode) (neg : Bool) (mag : Nat) (e u : Int) : Nat × Bool :=
  if u ≤ e then (mag * 2 ^ (e - u).toNat, false) else roundShift mode neg mag (u - e).toNat

/-- The sign bit of a format. -/
def Fmt.sign (f : Fmt) (neg : Bool) : Nat := if neg then 2 ^ f.signBit else 0

/-- What an overflow delivers (R102). -/
def Fmt.overflow (f : Fmt) (mode : RMode) (neg : Bool) : Nat :=
  let toInf := match mode with | .rne => true | .rtz => false | .rup => !neg | .rdn => neg
  f.sign neg + (if toInf then f.infCode else f.infCode - 1)

/-- The code of an exact finite value rounded once, with its flags (R101, R102, R106). Overflow is raised when the
magnitude rounded in the mode or to nearest exceeds the largest finite value (log 12). -/
def Fmt.pack (f : Fmt) (mode : RMode) (neg : Bool) (mag : Nat) (e : Int) : Nat × FFlags :=
  if mag = 0 then (f.sign neg, 0)
  else
    let top : Int := (Nat.log2 mag : Int) + e
    let u := max (top - f.fbits) f.eunit
    let r := roundTo mode neg mag e u
    let n := roundTo .rne neg mag e u
    -- the biased exponent of the unit; a carry out of the fraction moves to the next exponent
    let code := (u - f.eunit).toNat * 2 ^ f.fbits + r.1
    let near := (u - f.eunit).toNat * 2 ^ f.fbits + n.1
    if f.infCode ≤ code ∨ f.infCode ≤ near then
      (if f.infCode ≤ code then f.overflow mode neg else f.sign neg + code, fOf ||| fNx)
    else
      -- tiny after rounding: the magnitude rounded as if the exponent range were unbounded (R106)
      let t := roundTo mode neg mag e (top - f.fbits)
      let tiny := decide (top - f.fbits < f.eunit) &&
        !(decide (t.1 = 2 ^ (f.fbits + 1)) && decide (top - f.fbits + 1 = f.eunit))
      (f.sign neg + code, flagIf r.2 fNx ||| flagIf (tiny && r.2) fUf)

/-- The flush of a subnormal result under ftz (R105). -/
def Fmt.flush (f : Fmt) (ftz : Bool) (r : Nat × FFlags) : Nat × FFlags :=
  let m := r.1 % 2 ^ f.signBit
  if ftz && decide (m ≠ 0) && decide (m < 2 ^ f.fbits) then (r.1 - m, r.2 ||| fUf ||| fNx) else r

/-- The code of a value, rounded once, with its flags: a NaN is canonical (R100). -/
def Fmt.code (f : Fmt) (mode : RMode) (ftz : Bool) : FVal → Nat × FFlags
  | .nan _ => (f.nanCode, 0)
  | .inf n => (f.sign n + f.infCode, 0)
  | .fin n m e => f.flush ftz (f.pack mode n m e)

/-! ## Exact operations -/

/-- Signed numerator of a finite value over 2^u, for u at or below its exponent. -/
def scaled (neg : Bool) (mag : Nat) (e u : Int) : Int :=
  let m : Int := (mag * 2 ^ (e - u).toNat : Nat)
  if neg then -m else m

/-- The exact sum of two values, and whether it is invalid (∞ − ∞). The sign of a zero follows R103. -/
def FVal.add (mode : RMode) (x y : FVal) : FVal × Bool :=
  match x, y with
  | .nan _, _ => (.nan false, false)
  | _, .nan _ => (.nan false, false)
  | .inf a, .inf b => if a = b then (.inf a, false) else (.nan false, true)
  | .inf a, _ => (.inf a, false)
  | _, .inf b => (.inf b, false)
  | .fin a m e, .fin b n g =>
    let u := min e g
    let v := scaled a m e u + scaled b n g u
    if v = 0 then (.fin (if m = 0 ∧ n = 0 ∧ a = b then a else decide (mode = .rdn)) 0 0, false)
    else (.fin (decide (v < 0)) v.natAbs u, false)

/-- The exact product, and whether it is invalid (0 · ∞). -/
def FVal.mul (x y : FVal) : FVal × Bool :=
  match x, y with
  | .nan _, _ => (.nan false, false)
  | _, .nan _ => (.nan false, false)
  | .inf a, .inf b => (.inf (a != b), false)
  | .inf a, .fin b n _ => if n = 0 then (.nan false, true) else (.inf (a != b), false)
  | .fin a m _, .inf b => if m = 0 then (.nan false, true) else (.inf (a != b), false)
  | .fin a m e, .fin b n g => (.fin (a != b) (m * n) (e + g), false)

/-- nv from signalling operands (R100). -/
def snanFlag (l : List FVal) : FFlags := flagIf (l.any FVal.isSnan) fNv

/-- x + y rounded once. -/
def fAdd (f : Fmt) (mode : RMode) (ftz : Bool) (x y : FVal) : Nat × FFlags :=
  let s := FVal.add mode x y
  let r := f.code mode ftz s.1
  (r.1, r.2 ||| flagIf s.2 fNv ||| snanFlag [x, y])

/-- x · y rounded once. -/
def fMul (f : Fmt) (mode : RMode) (ftz : Bool) (x y : FVal) : Nat × FFlags :=
  let s := FVal.mul x y
  let r := f.code mode ftz s.1
  (r.1, r.2 ||| flagIf s.2 fNv ||| snanFlag [x, y])

/-- x · y + z rounded once (R104). -/
def fFma (f : Fmt) (mode : RMode) (ftz : Bool) (x y z : FVal) : Nat × FFlags :=
  let p := FVal.mul x y
  let s := FVal.add mode p.1 z
  let r := f.code mode ftz s.1
  (r.1, r.2 ||| flagIf (p.2 || s.2) fNv ||| snanFlag [x, y, z])

/-- The exact sum of a list of values from the left, with one rounding to follow; NaN and infinities as R122. A zero
sum is negative only when every term is a negative zero (or as R103 says in RDN). -/
def sumTerms (mode : RMode) : List FVal → FVal
  | [] => .fin false 0 0
  | [x] => x
  | x :: l => (FVal.add mode x (sumTerms mode l)).1

/-- Infinity of a sign. -/
def FVal.isInf (neg : Bool) : FVal → Bool
  | .inf a => a == neg
  | _ => false

/-- The exact sum, and whether it is invalid: infinities of opposite signs among its terms, wherever they stand (R106, R374). -/
def sumExact (mode : RMode) (l : List FVal) : FVal × Bool := (sumTerms mode l, l.any (FVal.isInf true) && l.any (FVal.isInf false))

/-- FP32 value of a word, subnormals kept. -/
def f32 (c : Nat) : FVal := fp32.unpack false c

/-- The rounding that engines use: RNE to FP32, subnormals kept, no flag (R105, R106). -/
def rne32 (v : FVal) : Nat := (fp32.code .rne false v).1

/-! ## Order (R107) -/

/-- x < y for finite or infinite values, with −0 equal to +0. -/
def FVal.lt (x y : FVal) : Bool :=
  match x, y with
  | .nan _, _ => false
  | _, .nan _ => false
  | .inf a, .inf b => a && !b
  | .inf a, .fin _ _ _ => a
  | .fin _ _ _, .inf b => !b
  | .fin a m e, .fin b n g => decide (scaled a m e (min e g) < scaled b n g (min e g))

def FVal.feq (x y : FVal) : Bool := !x.isNan && !y.isNan && !x.lt y && !y.lt x

def FVal.sign : FVal → Bool
  | .nan _ => false
  | .inf n => n
  | .fin n _ _ => n

/-- `FMIN` and `FMAX` on codes: −0 below +0, a NaN yields to the other operand, no rounding (R107). -/
def fMinMax (f : Fmt) (isMax : Bool) (x y : FVal) : Nat × FFlags :=
  let fl := snanFlag [x, y]
  let out := fun v => ((f.code .rne false v).1, fl)
  if x.isNan && y.isNan then (f.nanCode, fl)
  else if x.isNan then out y
  else if y.isNan then out x
  else
    let less := x.lt y || (x.feq y && x.sign && !y.sign)
    out (if less != isMax then x else y)

/-- `FCMP` by condition code (R85, R107). -/
def fCmp (cc : Nat) (x y : FVal) : Bool × FFlags :=
  let un := x.isNan || y.isNan
  let nv := flagIf ((decide (2 ≤ cc ∧ cc ≤ 5) && un)) fNv ||| snanFlag [x, y]
  let b := match cc with
    | 0 => x.feq y
    | 1 => !x.feq y
    | 2 => x.lt y
    | 3 => !un && !y.lt x
    | 4 => y.lt x
    | 5 => !un && !x.lt y
    | 6 => un
    | _ => !un
  (b, nv)

/-- The class bit number of an FP32 value (R85). -/
def fClass : FVal → Nat
  | .nan _ => 0
  | .inf true => 1
  | .inf false => 5
  | .fin n m _ => if m = 0 then 3 else if n then 2 else 4

/-! ## F8A and F8B (R112, R113) -/

/-- An F8 format: exponent and fraction bits, and bias. -/
structure F8 where
  ebits : Nat
  fbits : Nat
  bias : Int
  deriving DecidableEq, Repr

def f8a : F8 := ⟨4, 3, 7⟩
def f8b : F8 := ⟨5, 2, 15⟩

def F8.unpack (f : F8) (c : Nat) : FVal :=
  if c % 256 = 0 then .fin false 0 0
  else if c % 256 = 0x80 then .nan false
  else .fin (c / 128 % 2 = 1) (2 ^ f.fbits + c % 2 ^ f.fbits) ((c / 2 ^ f.fbits % 2 ^ f.ebits : Nat) - f.bias - f.fbits)

/-- The conversion of R113, RNE whatever the mode, with its flags. -/
def F8.code (f : F8) (v : FVal) : Nat × FFlags :=
  match v with
  | .nan _ => (0x80, fNv)
  | .inf n => ((if n then 0xFF else 0x7F), fNx)
  | .fin n m e =>
    if m = 0 then (0, 0)
    else
      let sg := if n then 0x80 else 0
      let top : Int := (Nat.log2 m : Int) + e
      let emin : Int := -f.bias
      let emax : Int := (2 ^ f.ebits - 1 : Nat) - f.bias
      -- twice the value in units of the smallest positive code's unit
      let small := roundTo .rdn false m e (emin - f.fbits)
      if emax < top then (sg + 0x7F, fOf ||| fNx)
      else if top < emin ∨ (top = emin ∧ small.1 = 2 ^ f.fbits) then
        -- below the smallest positive value (2^f + 1) units: nearer of 0 and it, a tie gives 0
        let d := decide ((scaled false (2 ^ f.fbits + 1) (emin - f.fbits) (min e (emin - f.fbits))) <
          2 * scaled false m e (min e (emin - f.fbits)))
        (if d then sg + 1 else 0, fUf ||| fNx)
      else
        let r := roundTo .rne false m e (top - f.fbits)
        let code := (top - emin).toNat * 2 ^ f.fbits + (r.1 - 2 ^ f.fbits)
        let largest := roundTo .rup false m e (emax - f.fbits)
        if top = emax ∧ 2 ^ (f.fbits + 1) ≤ largest.1 then (sg + 0x7F, fOf ||| fNx)
        else (sg + code, flagIf r.2 fNx)

/-! ## Integers (R111) -/

/-- A value rounded to an integer in a mode, and whether that was inexact; `none` for NaN and infinities. -/
def FVal.toInt (mode : RMode) : FVal → Option (Int × Bool)
  | .fin n m e =>
    let r := roundTo mode n m e 0
    some (if n then -(r.1 : Int) else r.1, r.2)
  | _ => none

/-- A conversion to S32 or U32 (R111). -/
def toInt32 (signed : Bool) (mode : RMode) (v : FVal) : Nat × FFlags :=
  let lo : Int := if signed then -(2 ^ 31) else 0
  let hi : Int := if signed then 2 ^ 31 - 1 else 2 ^ 32 - 1
  let code := fun (i : Int) => (i % 2 ^ 32).toNat
  match v with
  | .nan _ => (0, fNv)
  | .inf n => (code (if n then lo else hi), fNv)
  | .fin _ _ _ =>
    match v.toInt mode with
    | none => (0, fNv)
    | some (i, ix) => if i < lo then (code lo, fNv) else if hi < i then (code hi, fNv) else (code i, flagIf ix fNx)

/-- An integer as a value. -/
def ofInt (i : Int) : FVal := .fin (decide (i < 0)) i.natAbs 0

/-- `FRND`: the integral value in a mode; nv only for a signalling NaN, never nx (R107). -/
def fRnd (mode : RMode) (ftz : Bool) (v : FVal) : Nat × FFlags :=
  match v with
  | .fin n m e =>
    if 0 ≤ e then fp32.code .rne ftz v
    else let r := roundTo mode n m e 0; ((fp32.pack .rne n r.1 0).1, 0)
  | v => ((fp32.code .rne ftz v).1, snanFlag [v])

/-- The value that a format code reads: 0 FP32 to 6 U32 (R85, R110). -/
def cvtRead (code : Nat) (ftz : Bool) (w : Word) : FVal :=
  match code with
  | 0 => fp32.unpack ftz w.toNat
  | 1 => fp16.unpack ftz (w.toNat % 65536)
  | 2 => bf16.unpack ftz (w.toNat % 65536)
  | 3 => f8a.unpack w.toNat
  | 4 => f8b.unpack w.toNat
  | 5 => ofInt w.toInt
  | _ => ofInt w.toNat

/-- `FCVT`: one rounding from the source's exact value to the destination format (R110, R111, R113). -/
def fCvt (src dst : Nat) (mode : RMode) (ftz : Bool) (w : Word) : Nat × FFlags :=
  let v := cvtRead src ftz w
  let sn := snanFlag [v]
  let r := match dst with
    | 0 => fp32.code mode ftz v
    | 1 => fp16.code mode ftz v
    | 2 => bf16.code mode ftz v
    | 3 => f8a.code v
    | 4 => f8b.code v
    | 5 => toInt32 true mode v
    | _ => toInt32 false mode v
  (r.1, r.2 ||| sn)

/-! ## Residues (R115 to R119) -/

def resM : Nat := 16776960

/-- The code of an integer's residues. -/
def resCode (i : Int) : Nat := (i % 257).toNat * 65536 + (i % 255).toNat * 256 + (i % 256).toNat

/-- A canonical code (R116). -/
def resOk (c : Nat) : Bool := decide (c < 2 ^ 25 ∧ c / 256 % 256 ≠ 255 ∧ c / 65536 < 257)

/-- `RCVT.s2r` with its flags (R118). -/
def resOfInt (i : Int) : Nat × FFlags :=
  (resCode i, if -8388480 ≤ i ∧ i ≤ 8388479 then 0 else fOf ||| fNx)

/-- Reconstruction (R119). -/
def resVal (c : Nat) : Int :=
  let t := (c / 256 % 256 * 8421376 + c % 256 * 16711425 + c / 65536 * 8421120) % resM
  if 8388480 ≤ t then (t : Int) - resM else t

/-- Field by field under each modulus (R117). -/
def resOp (f : Nat → Nat → Nat) (a b : Nat) : Nat × FFlags :=
  if resOk a && resOk b then
    (f (a / 65536) (b / 65536) % 257 * 65536 + f (a / 256 % 256) (b / 256 % 256) % 255 * 256 + f (a % 256) (b % 256) % 256, 0)
  else (0xFFFFFFFF, fNv)

/-! ## AFX (R123 to R126) -/

/-- The addend of R124: quantised value, counted as non-finite, counted as overflowing. -/
def afxQuant (anchor : Int) (x : FVal) : Int × Bool × Bool :=
  match x with
  | .fin n m e =>
    let r := roundTo .rne n m (e + 64 - anchor) 0
    if 2 ^ 100 ≤ r.1 then (0, false, true) else (if n then -(r.1 : Int) else r.1, false, false)
  | _ => (0, true, false)

/-- An element's value as FP32 (R126). -/
def afxToF32 (anchor : Int) (v : BitVec 128) : Nat × FFlags :=
  fp32.code .rne false (.fin (decide (v.toInt < 0)) v.toInt.natAbs (anchor - 64))

end Sys2Proof.Machine
end

