-- ==== Sys2Proof/Machine/FloatFunc.lean ====
section
/-! DEFINITION. The correctly rounded functions (R108, R109): each value is enclosed far more closely than any
rounding boundary of FP32 lies to it, its lowest bit stands for what is left, and it is rounded once. -/

namespace Sys2Proof.Machine

/-- Integer square root by bits, from bit `b − 1` down. -/
def isqrtBits (n : Nat) : Nat → Nat → Nat
  | 0, r => r
  | b + 1, r => isqrtBits n b (if (r + 2 ^ b) * (r + 2 ^ b) ≤ n then r + 2 ^ b else r)

/-- The integer square root. -/
def isqrt (n : Nat) : Nat := isqrtBits n (Nat.log2 n / 2 + 1) 0

/-- A magnitude with one more low bit, 1 when the true value lies above it. -/
def withSticky (q : Nat) (more : Bool) : Nat := 2 * q + (if more then 1 else 0)

/-- 1 / (m · 2^e), m > 0: a 65-bit quotient with its sticky bit. -/
def recipVal (neg : Bool) (m : Nat) (e : Int) : FVal :=
  let k := Nat.log2 m + 64
  .fin neg (withSticky (2 ^ k / m) (decide (2 ^ k % m ≠ 0))) (-e - k - 1)

/-- √(m · 2^e), m > 0. -/
def sqrtVal (m : Nat) (e : Int) : FVal :=
  let odd := decide (e % 2 = 1)
  let n := (if odd then 2 * m else m) * 2 ^ 128
  let e' := (if odd then e - 1 else e) - 128
  let r := isqrt n
  .fin false (withSticky r (decide (r * r ≠ n))) (e' / 2 - 1)

/-- 1 / √(m · 2^e), m > 0: the root of the quotient, exact only when r² · m is the power of two. -/
def rsqrtVal (m : Nat) (e : Int) : FVal :=
  let odd := decide (e % 2 = 1)
  let d := if odd then 2 * m else m
  let e' := if odd then e - 1 else e
  let k := 2 * (Nat.log2 d + 64)
  let r := isqrt (2 ^ k / d)
  .fin false (withSticky r (decide (r * r * d ≠ 2 ^ k))) (-e' / 2 - (k / 2 : Nat) - 1)

/-- Bits of fixed-point fractions used for 2^x. -/
def exBits : Nat := 192

/-- ∏ of 2^(2^−i) over the set bits of a fraction of `n` bits, the first bit worth one half; `root` is the factor of
the present bit and `acc` the product, both over 2^exBits. -/
def exp2Bits (frac : Nat) : Nat → Nat → Nat → Nat
  | 0, _, acc => acc
  | n + 1, root, acc =>
    exp2Bits frac n (isqrt (root * 2 ^ exBits)) (if frac / 2 ^ n % 2 = 1 then acc * root / 2 ^ exBits else acc)

/-- 2^x. -/
def exp2Val (neg : Bool) (m : Nat) (e : Int) : FVal :=
  if m = 0 then .fin false 1 0
  else if 8 ≤ (Nat.log2 m : Int) + e then .fin false 1 (if neg then -1024 else 1024)
  else if 0 ≤ e then .fin false 1 (if neg then -(m * 2 ^ e.toNat : Nat) else (m * 2 ^ e.toNat : Nat))
  else if (Nat.log2 m : Int) + e < -40 then
    -- 2^x lies strictly between 1 and its neighbours in FP32
    (if neg then .fin false (2 ^ 64 - 1) (-64) else .fin false (2 ^ 64 + 1) (-64))
  else
    let fb := (-e).toNat
    let fl : Int := if neg then -(((m + 2 ^ fb - 1) / 2 ^ fb : Nat) : Int) else (m / 2 ^ fb : Nat)
    let frac : Nat := if neg then (2 ^ fb - m % 2 ^ fb) % 2 ^ fb else m % 2 ^ fb
    if frac = 0 then .fin false 1 fl
    else .fin false (withSticky (exp2Bits frac fb (isqrt (2 * 2 ^ (2 * exBits))) (2 ^ exBits)) true) (fl - exBits - 1)

/-- Working and result bits of the binary logarithm. -/
def lgWork : Nat := 320
def lgBits : Nat := 104

/-- The bits of log2 y, 1 ≤ y < 2, by repeated squaring; y over 2^lgWork. -/
def log2Bits : Nat → Nat → Nat → Nat
  | 0, _, acc => acc
  | n + 1, y, acc =>
    let z := y * y / 2 ^ lgWork
    if 2 ^ (lgWork + 1) ≤ z then log2Bits n (z / 2) (2 * acc + 1) else log2Bits n z (2 * acc)

/-- log2 (m · 2^e), m > 0. -/
def log2Val (m : Nat) (e : Int) : FVal :=
  let l := Nat.log2 m
  let k : Int := l + e
  if m = 2 ^ l then .fin (decide (k < 0)) k.natAbs 0
  else
    let v : Int := k * 2 ^ lgBits + log2Bits lgBits (m * 2 ^ lgWork / 2 ^ l) 0
    if v < 0 then .fin true (withSticky (v.natAbs - 1) true) (-(lgBits : Int) - 1)
    else .fin false (withSticky v.toNat true) (-(lgBits : Int) - 1)

/-- π · 2^420, rounded down. -/
def piBits : Nat := 0x3243f6a8885a308d313198a2e03707344a4093822299f31d0082efa98ec4e6c89452821e638d01377be5466cf34e90c6cc0ac29b7c

/-- Bits of the fixed-point fractions used for sin πx. -/
def trBits : Nat := 420

/-- The Taylor series of the sine from term `n` on: the term t^n/n!, t² and the sum, over 2^trBits. -/
def sinTerms (t2 : Nat) : Nat → Nat → Nat → Bool → Int → Int
  | 0, _, _, _, acc => acc
  | fuel + 1, n, term, minus, acc =>
    sinTerms t2 fuel (n + 2) (term * t2 / 2 ^ trBits / ((n + 1) * (n + 2))) (!minus)
      (if minus then acc - term else acc + term)

/-- sin πr for 0 < r ≤ 1/2, r over 2^trBits; 1 at one half. -/
def sinPi (neg : Bool) (r : Nat) : FVal :=
  if 2 * r = 2 ^ trBits then .fin neg 1 0
  else
    let t := r * piBits / 2 ^ trBits
    .fin neg (withSticky (sinTerms (t * t / 2 ^ trBits) 60 1 t false 0).toNat true) (-(trBits : Int) - 1)

/-- |x| modulo 2 over 2^trBits: exact, since no FP32 value has a bit below 2^−149. -/
def modTwo (m : Nat) (e : Int) : Nat := m * 2 ^ (e + trBits).toNat % 2 ^ (trBits + 1)

/-- sin πx; the zeros have the sign of x (R109). -/
def sinPiVal (neg : Bool) (m : Nat) (e : Int) : FVal :=
  let r := modTwo m e
  let one := 2 ^ trBits
  let flip := decide (one ≤ r)
  let r := r % one
  if r = 0 then .fin neg 0 0 else sinPi (neg != flip) (if one < 2 * r then one - r else r)

/-- cos πx; the zeros are +0 (R109). -/
def cosPiVal (m : Nat) (e : Int) : FVal :=
  let one := 2 ^ trBits
  let r := modTwo m e
  let r := if one < r then 2 * one - r else r
  if 2 * r = one then .fin false 0 0
  else if 2 * r < one then sinPi false (one / 2 - r) else sinPi true (r - one / 2)

/-- Rounds a function's value to FP32 with the flags of R106. -/
def fnOut (mode : RMode) (ftz : Bool) (v : FVal) : Nat × FFlags := fp32.code mode ftz v

/-- Common NaN case of R109. -/
def fnNan (s : Bool) : Nat × FFlags := (fp32.nanCode, flagIf s fNv)

/-- `FRCP`. -/
def fRcp (mode : RMode) (ftz : Bool) : FVal → Nat × FFlags
  | .nan s => fnNan s
  | .inf n => (fp32.sign n, 0)
  | .fin n m e => if m = 0 then (fp32.sign n + fp32.infCode, fDz) else fnOut mode ftz (recipVal n m e)

/-- `FRSQ`. -/
def fRsq (mode : RMode) (ftz : Bool) : FVal → Nat × FFlags
  | .nan s => fnNan s
  | .inf n => if n then (fp32.nanCode, fNv) else (0, 0)
  | .fin n m e =>
    if m = 0 then (fp32.sign n + fp32.infCode, fDz)
    else if n then (fp32.nanCode, fNv) else fnOut mode ftz (rsqrtVal m e)

/-- `FSQRT`. -/
def fSqrt (mode : RMode) (ftz : Bool) : FVal → Nat × FFlags
  | .nan s => fnNan s
  | .inf n => if n then (fp32.nanCode, fNv) else (fp32.infCode, 0)
  | .fin n m e =>
    if m = 0 then (fp32.sign n, 0) else if n then (fp32.nanCode, fNv) else fnOut mode ftz (sqrtVal m e)

/-- `FEX2`. -/
def fEx2 (mode : RMode) (ftz : Bool) : FVal → Nat × FFlags
  | .nan s => fnNan s
  | .inf n => (if n then 0 else fp32.infCode, 0)
  | .fin n m e => fnOut mode ftz (exp2Val n m e)

/-- `FLG2`. -/
def fLg2 (mode : RMode) (ftz : Bool) : FVal → Nat × FFlags
  | .nan s => fnNan s
  | .inf n => if n then (fp32.nanCode, fNv) else (fp32.infCode, 0)
  | .fin n m e =>
    if m = 0 then (fp32.sign true + fp32.infCode, fDz)
    else if n then (fp32.nanCode, fNv) else fnOut mode ftz (log2Val m e)

/-- `FSIN`: sin πx. -/
def fSin (mode : RMode) (ftz : Bool) : FVal → Nat × FFlags
  | .nan s => fnNan s
  | .inf _ => (fp32.nanCode, fNv)
  | .fin n m e => fnOut mode ftz (sinPiVal n m e)

/-- `FCOS`: cos πx. -/
def fCos (mode : RMode) (ftz : Bool) : FVal → Nat × FFlags
  | .nan s => fnNan s
  | .inf _ => (fp32.nanCode, fNv)
  | .fin _ m e => fnOut mode ftz (cosPiVal m e)

end Sys2Proof.Machine
end

