-- ==== Sys2Proof/Machine/Operands.lean ====
section
/-! DEFINITION. Operands: registers, latches, channels, immediates and literals (R55, R58, R77, R79, R80), channel
rings and their spill (R193 to R196), and what an instruction delivers (R36, R288). -/

namespace Sys2Proof

/-- The class that a data field reads. -/
def SrcShape.cls : SrcShape → Cls
  | .data c => c
  | .noChan c => c
  | _ => .v

def DstShape.cls : DstShape → Cls
  | .data c => c
  | .plain c => c
  | .token => .q
  | _ => .v

/-- Source b when it is a field. -/
def SrcB.src? : SrcB → Option Src
  | .src y => some y
  | _ => none

end Sys2Proof

namespace Sys2Proof.Machine

/-- What a meaning knows of the instruction under way: the thread as it stood, the instruction in its extended form,
its shape, whether its guard holds, and the values of its sources (R58). -/
structure Ctx where
  k : Nat
  t : Thread
  i : Instr
  x : ExtOp
  sh : Shape
  g : Bool
  va : QWord
  vb : QWord
  vc : QWord

/-- Bytes of the instruction (R327). -/
def Ctx.len (cx : Ctx) : Nat := cx.i.len

/-- The address after the instruction. -/
def Ctx.nextPc (cx : Ctx) : DWord := cx.t.pc + BitVec.ofNat 64 cx.len

/-! ## Channels -/

/-- The thread's channel `c`: the tile allocation and the ring (R194). -/
def State.chanAt (s : State) (t : Thread) (c : Nat) : Option (Nat × Chan) :=
  match s.tileOf t.task t.core with
  | none => none
  | some i =>
    match s.tiles[i]? with
    | none => none
    | some a => (a.chans.find? (fun h => h.c = c)).map (fun h => (i, h))

/-- Entries and room (R194). -/
def Chan.entries (h : Chan) : Nat := h.vals.length + h.spill.length
def Chan.room (h : Chan) : Nat := h.depth - h.vals.length

/-- A ring as it stands behind the ring `g`: one that has become full is so from now on (R195). -/
def Chan.behind (h g : Chan) (now : Nat) : Chan := { h with full := if h.room = 0 ∧ g.room ≠ 0 then now else h.full }

/-- Replaces a ring. -/
def State.setChan (s : State) (i : Nat) (h : Chan) : State :=
  s.modTile i (fun a => { a with chans := a.chans.map (fun g => if g.c = h.c then h.behind g s.time.toNat else g) })

/-- Spill values of one 4 KiB chunk (R195). -/
def Chan.perChunk (h : Chan) : Nat := 4032 / h.width

/-- Values move from the head of spill into free ring slots, oldest first; emptied chunks are given back (R194, R195). -/
def Chan.refill (h : Chan) : Nat → Chan × List Nat
  | 0 => (h, [])
  | fuel + 1 =>
    match h.spill with
    | [] => (h, [])
    | v :: rest =>
      if h.room = 0 then (h, [])
      else
        let h := { h with vals := h.vals ++ [v], spill := rest, gone := h.gone + 1 }
        let r : Chan × List Nat :=
          if rest.isEmpty then ({ h with chunks := [], gone := 0 }, h.chunks)
          else if h.gone = h.perChunk then ({ h with chunks := h.chunks.drop 1, gone := 0 }, h.chunks.take 1)
          else (h, [])
        let q := r.1.refill fuel
        (q.1, r.2 ++ q.2)

/-- The head entry is taken and spill moves up (R58, R194). -/
def Chan.pop (h : Chan) : Option (QWord × Chan × List Nat) :=
  match h.vals with
  | [] => none
  | v :: rest =>
    let r := ({ h with
      vals := rest, head := (h.head + 1) % h.depth, last := h.back.headD h.next, next := if h.back.isEmpty then h.next + 1 else h.next,
      back := h.back.drop 1 }).refill 1
    some (v, r.1, r.2)

/-- Value number `no`, which was popped, stands at the head again, behind those put back that were pushed before it. Where a spill
value had taken its slot, that one goes back to the head of spill, into its chunk or, when that was emptied and given back, into one
that is free. -/
def Chan.unpop (h : Chan) (no : Nat) (free : List Nat) (v : QWord) : Chan × List Nat :=
  let j := (h.back.takeWhile (fun i => decide (i < no))).length
  let all := (h.vals ++ h.spill).take j ++ v :: (h.vals ++ h.spill).drop j
  let n := min (h.vals.length + 1) h.depth
  let g := { h with
    head := (h.head + h.depth - 1) % h.depth, vals := all.take n, spill := all.drop n, back := h.back.take j ++ no :: h.back.drop j }
  if g.spill.length = h.spill.length then (g, free)
  else
    if h.gone ≠ 0 then ({ g with gone := h.gone - 1 }, free)
    else match free.reverse with
      | c :: rest => ({ g with chunks := c :: h.chunks, gone := h.perChunk - 1 }, rest.reverse)
      | [] => (g, free)

/-- A spill value needs a new chunk (R195). -/
def Chan.needsChunk (h : Chan) : Bool := decide (h.chunks.length * h.perChunk ≤ h.gone + h.spill.length)

/-- A value appended to spill, with the task's free chunks; `none` when no chunk is free. -/
def Chan.spillPush (h : Chan) (free : List Nat) (v : QWord) : Option (Chan × List Nat) :=
  if h.needsChunk then
    match free with
    | [] => none
    | c :: rest => some ({ h with spill := h.spill ++ [v], chunks := h.chunks ++ [c] }, rest)
  else some ({ h with spill := h.spill ++ [v] }, free)

/-- A push: to the tail of spill while any value stands there, else into the ring (R194); a push that has waited for
the threshold passes to spill (R195). -/
def Chan.push (h : Chan) (free : List Nat) (v : QWord) : Option (Chan × List Nat) :=
  if h.spill.isEmpty && h.room ≠ 0 then some ({ h with vals := h.vals ++ [v] }, free)
  else if h.spill.isEmpty && !h.due then none
  else h.spillPush free v

def State.freeChunks (s : State) (ti : Nat) : List Nat := (s.tasks[ti]?.map (·.chunks)).getD []

/-- Takes the head entry of the thread's channel `c`. -/
def State.popChan (s : State) (t : Thread) (c : Nat) : Option (QWord × State) :=
  match s.chanAt t c with
  | none => none
  | some (i, h) =>
    match h.pop with
    | none => none
    | some (v, h', back) =>
      some (v, (((s.setChan i h').modTask t.task (fun x => { x with chunks := x.chunks ++ back })).touch t.task))

/-- Room that engine commands of other threads hold in the thread's channel `c` while they read (R420). -/
def State.heldRoom (s : State) (t : Thread) (c : Nat) : Nat :=
  (s.threads.filter (fun u => u.task = t.task && u.core = t.core && (match u.st with | .parked (.room d _) => decide (d = c) | _ => false))).length

/-- A push to a ring of which `held` slots are kept for others. -/
def Chan.pushBeside (h : Chan) (held : Nat) (free : List Nat) (v : QWord) : Option (Chan × List Nat) :=
  if h.spill.isEmpty && decide (h.room ≤ held) then (if h.due then h.spillPush free v else none) else h.push free v

/-- Pushes a value to the thread's channel `c`. -/
def State.pushChan (s : State) (t : Thread) (c : Nat) (v : QWord) : Option State :=
  match s.chanAt t c with
  | none => none
  | some (i, h) =>
    match h.pushBeside (s.heldRoom t c) (s.freeChunks t.task) v with
    | none => none
    | some (h', free) => some (((s.setChan i h').modTask t.task (fun x => { x with chunks := free })).touch t.task)

/-! ## Sources -/

def chanTrap (c : Nat) : TrapInfo := ⟨trapChannel, 0, BitVec.ofNat 32 c, 0, false⟩
def latchTrap (k : Nat) : TrapInfo := ⟨trapLatch, 0, BitVec.ofNat 32 k, 0, false⟩

/-- The low bits of a class, zero-extended. -/
def lowCls (c : Cls) (v : QWord) : QWord := BitVec.ofNat 128 (v.toNat % 2 ^ c.bits)

/-- A source that is no channel: register, latch, or predicate; a channel reads 0 here. -/
def srcVal (t : Thread) (sh : SrcShape) (src : Src) : Except TrapInfo QWord :=
  match sh with
  | .none => .ok 0
  | .first => .ok 0
  | .num => .ok 0
  | .pred => .ok (match src with | .reg n _ => if t.pred n.val then 1 else 0 | _ => 0)
  | .data c => go c
  | .noChan c => go c
where
  go (c : Cls) : Except TrapInfo QWord :=
    match src with
    | .reg n _ => .ok (BitVec.ofNat 128 (readRegs t.regs n.val c.regs))
    | .latch k => match t.latch? k.val with | some v => .ok (lowCls c v) | none => .error (latchTrap k.val)
    | .pop _ => .ok 0
    | .peek _ => .ok 0

/-- Source b: a field, the immediate sign-extended to the operand width, or the literal (R77, R79). -/
def srcBVal (t : Thread) (sh : SrcShape) (x : ExtOp) : Except TrapInfo QWord :=
  match x.b with
  | .src y => srcVal t sh y
  | .imm => .ok (lowCls sh.cls (x.imm.signExtend 128))
  | .lit v => .ok (lowCls sh.cls (v.signExtend 128))

/-- Register, latch, immediate and literal sources, in field order; the first latch that cannot be read traps. -/
def Ctx.fetch (cx : Ctx) : Except TrapInfo Ctx :=
  match srcVal cx.t cx.sh.a cx.x.a with
  | .error e => .error e
  | .ok a =>
    match srcBVal cx.t cx.sh.b cx.x with
    | .error e => .error e
    | .ok b =>
      match srcVal cx.t cx.sh.c cx.x.c with
      | .error e => .error e
      | .ok c => .ok { cx with va := a, vb := b, vc := c }

/-- The channel of a data field in mode 10 or 11. -/
def srcChan (sh : SrcShape) (src : Src) : Option Nat :=
  match sh, src with
  | .data _, .pop c => some c.val
  | .data _, .peek c => some c.val
  | _, _ => none

/-- Channel operands with their operand class: a, b, c, then the push. -/
def Ctx.channels (cx : Ctx) : List (Nat × Cls) :=
  let one := fun (sh : SrcShape) (y : Option Src) => match y with
    | some y => (match srcChan sh y with | some c => [(c, sh.cls)] | none => [])
    | none => []
  one cx.sh.a (some cx.x.a) ++ one cx.sh.b cx.x.b.src? ++ one cx.sh.c (some cx.x.c) ++
    (match cx.x.d with | .push c _ => [(c.val, cx.sh.d.cls)] | _ => [])

/-- An undeclared channel or one of another width raises `CHANNEL` (R80). -/
def Ctx.chanCheck (cx : Ctx) (s : State) : Option TrapInfo :=
  (cx.channels.find? (fun e => match s.chanAt cx.t e.1 with
    | none => true
    | some (_, h) => decide (h.width * 8 ≠ e.2.bits))).map (fun e => chanTrap e.1)

/-- One channel source at its place in the order: the value and the state after it, or the wait (R58, R194). -/
def State.takeSrc (s : State) (t : Thread) (sh : SrcShape) (src : Src) (v : QWord) : Except Wait (QWord × State) :=
  match sh, src with
  | .data _, .pop c =>
    match s.popChan t c.val with
    | some r => .ok r
    | none => .error (emptyWait c.val)
  | .data _, .peek c =>
    match s.chanAt t c.val with
    | some (_, h) => (match h.vals with | w :: _ => .ok (w, s) | [] => .error (emptyWait c.val))
    | none => .error (emptyWait c.val)
  | _, _ => .ok (v, s)
where
  /-- a ring that is empty while spill is not waits as a memory wait (R194) -/
  emptyWait (c : Nat) : Wait :=
    match s.chanAt t c with
    | some (_, h) => if h.spill.isEmpty then .channel c false else .memory
    | none => .channel c false

/-- A push destination has room after the pops (R58). -/
def Ctx.pushReady (cx : Ctx) (s : State) : Option Wait :=
  match cx.x.d with
  | .push c _ => (match s.pushChan cx.t c.val 0 with | some _ => none | none => some (.channel c.val true))
  | _ => none

/-- Every channel source in field order, then room for the push: all or nothing (R58). -/
def Ctx.take (cx : Ctx) (s : State) : Except Wait (Ctx × State) :=
  match s.takeSrc cx.t cx.sh.a cx.x.a cx.va with
  | .error w => .error w
  | .ok (a, s) =>
    match s.takeSrc cx.t cx.sh.b (cx.x.b.src?.getD (.reg 0 false)) cx.vb with
    | .error w => .error w
    | .ok (b, s) =>
      match s.takeSrc cx.t cx.sh.c cx.x.c cx.vc with
      | .error w => .error w
      | .ok (c, s) =>
        match cx.pushReady s with
        | some w => .error w
        | none => .ok ({ cx with va := a, vb := b, vc := c }, s)

/-! ## Results -/

/-- `dst(v)`: the register, the latch alone, or the push, with the shift of the latches (R36, R327). -/
def Ctx.dst (cx : Ctx) (s : State) (v : QWord) : State :=
  let v := lowCls cx.sh.d.cls v
  match cx.x.d with
  | .reg n => s.modThread cx.k (fun t => (t.setRegs n.val cx.sh.d.cls.regs v).pushLatch v false)
  | .latchOnly => s.modThread cx.k (fun t => t.pushLatch v true)
  | .push c n1 => ((s.pushChan cx.t c.val v).getD s).modThread cx.k (fun t => t.pushLatch v n1)

/-- A predicate destination: bits 2:0 of field d; p7 discards (R57). -/
def Ctx.dstPred (cx : Ctx) (s : State) (b : Bool) : State :=
  match cx.x.d with
  | .reg n => s.modThread cx.k (fun t => t.setPred n.val b)
  | _ => s

/-- How a member's instruction ends. -/
inductive Eff where
  /-- the thread goes on behind the instruction, in its group -/
  | next
  /-- a taken control transfer (R27) -/
  | jump (pc : DWord)
  /-- `REFORM`: filed behind the instruction with a release cycle (R33) -/
  | refile (release : Nat)
  /-- a precise trap: nothing of the instruction has happened (R277) -/
  | trap (i : TrapInfo)
  /-- parks with nothing done -/
  | park (w : Wait)
  /-- the meaning has already parked, ended or retired the thread: it leaves the issue -/
  | held
  /-- the thread left the issue before the meaning filed it or ended its task -/
  | gone

/-- Data that the instruction reads reach its destination: at once, with a precise trap when poisoned (R287), or late
when the model says so, as an outstanding result (R288; log 5). `src` is the code of R304. -/
def Ctx.deliver (cx : Ctx) (s : State) (src : Nat) (v : QWord) (bad : Option TrapInfo) : State × Eff :=
  match cx.x.d with
  | .reg n =>
    if s.late then
      let v := lowCls cx.sh.d.cls v
      let no := s.serial
      let s := { s with serial := no + 1 }
      (s.modThread cx.k (fun t => { (t.pushDue v no) with
        pend := t.pend ++ [⟨n.val, cx.sh.d.cls.regs, src, v, bad, cx.t.pc, cx.len, false, no⟩] }), .next)
    else match bad with
      | some b => (s, .trap b)
      | none => (cx.dst s v, .next)
  | _ => match bad with
      | some b => (s, .trap b)
      | none => (cx.dst s v, .next)

end Sys2Proof.Machine
end

