-- ==== Sys2Proof/Machine/Run.lean ====
section
/-! DEFINITION. The execution of one member's instruction: the check order of R95, the guard (R57), deferred reports
(R288), atomic regions (R163, R164), operands (R58), the meaning, and what becomes of the issue (R27). -/

namespace Sys2Proof.Machine

/-! ## Effective addresses -/

/-- qa + sext(imm32) (R89). -/
def memEa (cx : Ctx) : DWord := BitVec.ofNat 64 cx.va.toNat + cx.x.imm.signExtend 64

/-- Bytes of a load or store (R89). -/
def memBytes (cx : Ctx) : Nat := 2 ^ sizeOf' cx.x

/-- The address of `ATOM`: with I = 1 the immediate is the operand and the offset is 0 (R335). -/
def atomEa (cx : Ctx) : DWord := match cx.x.b with | .imm => BitVec.ofNat 64 cx.va.toNat | _ => memEa cx

def atomBytes (cx : Ctx) : Nat := if bitsOf cx.x.func 5 4 = 1 then 8 else 4

/-- The address of a barrier (R192). -/
def barEa (cx : Ctx) : DWord := BitVec.ofNat 64 cx.va.toNat

/-- The address and bytes that `TWAIT` reads: a token's record at its bits 47:0 (R416). -/
def twaitEa (cx : Ctx) : DWord :=
  if bitsOf cx.x.func 1 0 = 1 then BitVec.ofNat 64 (tokAddr (BitVec.ofNat 64 cx.va.toNat)) else BitVec.ofNat 64 cx.va.toNat

def twaitBytes (cx : Ctx) : Nat := if bitsOf cx.x.func 1 0 = 0 then (if cx.x.func.getLsbD 5 then 8 else 4) else 16

/-! ## Kinds of instructions -/

/-- A channel-mode operand or a push (R37, R163). -/
def hasChannel (x : ExtOp) : Bool :=
  let ch := fun (y : Src) => match y with | .pop _ => true | .peek _ => true | _ => false
  ch x.a || (match x.b with | .src y => ch y | _ => false) || ch x.c || (match x.d with | .push _ _ => true | _ => false)

/-- Memory instructions in the sense of R37: memory, atomic and synchronisation classes. -/
def isMemory (op : Nat) : Bool := decide (0x50 ≤ op ∧ op ≤ 0x59) || decide (0x60 ≤ op ∧ op ≤ 0x67)

/-- Team operations that count in a rendezvous (R42). -/
def isTeam (op : Nat) : Bool := decide (0x69 ≤ op ∧ op ≤ 0x6D)

/-- The team operations with `TLEAVE`, whose checks come before their sources are read (R413). -/
def isTeamOp (op : Nat) : Bool := decide (0x68 ≤ op ∧ op ≤ 0x6D)

/-- Engine commands (R37). -/
def isEngine (op : Nat) : Bool := decide (0x70 ≤ op ∧ op ≤ 0x76)

/-- The kinds of R37 that end the reach of earlier latch entries; taken transfers, traps and parking end it where
they happen. -/
def endsReach (op : Nat) (x : ExtOp) : Bool :=
  isMemory op || isTeam op || decide (op = 0x68) || isEngine op || decide (op = 0x47) || decide (op = 0x7A) || hasChannel x

/-- The instructions at which a deferred report is taken at the latest (R288, R410, R414). -/
def reportsLate (op : Nat) (x : ExtOp) : Bool :=
  decide (op = 0x48) || decide (op = 0x49) || decide (op = 0x7A) || decide (0x62 ≤ op ∧ op ≤ 0x65) || decide (0x68 ≤ op ∧ op ≤ 0x6D) || isEngine op ||
    ((decide (op = 0x50) || decide (op = 0x51) || decide (op = 0x60) || decide (op = 0x66) || decide (op = 0x67)) &&
      decide (ordOf x ≠ 0))

/-- The instructions that an open atomic region allows with their guard true (R163); a taken branch is stopped where
it is taken. -/
def regionAllows (op : Nat) (x : ExtOp) : Bool :=
  (decide (1 ≤ op ∧ op ≤ 0x38) || decide (op = 0x40) || decide (op = 0x41) || decide (op = 0x46) || decide (op = 0x49) ||
    decide (op = 0x4A) || decide (op = 0x4B) || decide (op = 0x50) || decide (op = 0x51) || decide (op = 0x62) || decide (op = 0x77)) && !hasChannel x

/-- The bypass latches that the instruction reads. -/
def latchesRead (x : ExtOp) : List Nat :=
  let l := fun (y : Src) => match y with | .latch k => [k.val] | _ => []
  l x.a ++ (match x.b with | .src y => l y | _ => []) ++ l x.c

def overlaps (r : List Nat) (p : Pend) : Bool := r.any (fun n => decide (p.first ≤ n ∧ n < p.first + p.n))

/-- The instruction takes its value from an outstanding result: from one of its registers, or from the latch that it shifted in
(R36, R288). -/
def Thread.takesFrom (t : Thread) (i : Instr) (p : Pend) : Bool :=
  overlaps i.regsRead p || (latchesRead i.ext).any (fun k => t.latchDue k p.no)

/-- The operands of the instruction are pending: it takes its value from a result that is still outstanding, or writes one of its
registers (R27). -/
def Thread.operandsPending (t : Thread) (i : Instr) : Bool :=
  t.pend.any (fun p => !p.returned && (overlaps i.regsWritten p || t.takesFrom i p))

/-- `CSRR` of `$fflags`, which waits for every earlier instruction that can raise a flag (R352). -/
def readsFlags (i : Instr) : Bool := match i with | .csrr x => x.imm.toNat == 0x021 | _ => false

/-- What earlier reads the instruction waits for beside its operands: all of them where a deferred report is taken at the latest,
but `TLEAVE` completes at once (R47, R288), and a `GRED.res` before the flags are read (R352). -/
def awaits (i : Instr) (p : Pend) : Bool :=
  (reportsLate i.opc i.ext && decide (i.opc ≠ 0x68)) || (readsFlags i && decide (p.src = 6))

/-- Outstanding results keep the instruction from issuing (R27, R288, R352; log 5). -/
def Thread.blocked (t : Thread) (i : Instr) : Bool := t.operandsPending i || t.pend.any (fun p => !p.returned && awaits i p)

/-- A read that returned poison is reported at this instruction (R288). -/
def Thread.reports (t : Thread) (i : Instr) : Bool :=
  t.pend.any (fun p => p.returned && p.poison.isSome && (t.takesFrom i p || reportsLate i.opc i.ext))

/-- The registers that the open region's loads have made pending (R163). -/
def Region.pending (r : Region) : List Nat :=
  r.accs.flatMap (fun a => match a with
    | .load _ _ _ dst cnt lo _ => if lo then [] else (List.range cnt).map (dst + ·)
    | .store _ _ _ => [])

/-! ## Checks in the order of R95 -/

/-- Step 5: `PRIVILEGE` for `ERET` and the CSR cases of R60 and R279. -/
def privCheck (i : Instr) (t : Thread) : Option TrapInfo :=
  let priv := fun (n : Nat) => some (⟨trapPrivilege, 0, BitVec.ofNat 32 n, 0, false⟩ : TrapInfo)
  match i with
  | .eret _ => if t.sup then none else priv 0
  | .csrr x =>
    let n := x.imm.toNat
    if n < 0x800 then none
    else if !t.sup then priv n
    else if csrSup n then none else some (mkTrap trapIllegalField 0)
  | .csrw x =>
    let n := x.imm.toNat
    if n = 0x020 ∨ n = 0x021 ∨ n = 0x031 then none
    else if n < 0x800 then priv n
    else if !t.sup then priv n
    else if !csrSup n then some (mkTrap trapIllegalField 0)
    else if n < 0x818 then priv n else none
  | _ => none

/-- The guard of the instruction (R76). -/
def guardOf (t : Thread) (x : ExtOp) : Bool := t.pred x.guard.p.val != x.guard.neg

/-- `LD.cmp` with no region open, which traps before it reads anything (R381, R383). -/
def cmpOutside (i : Instr) (t : Thread) : Bool := decide (i.opc = 0x50) && decide (hintOf i.ext = 3) && t.region.isNone

/-- Takes a deferred report: every earlier read has its data by then, the record names the earliest that returns poison, and the
rest are counted and forgotten (R288). -/
def State.reportDeferred (s : State) (k : Nat) (t : Thread) : State :=
  let bad := t.pend.filter (fun p => p.poison.isSome)
  match bad with
  | [] => s
  | p :: rest =>
    match p.poison with
    | none => s
    | some i =>
      let s := s.setThread k { t with pend := t.pend.filter (fun p => p.poison.isNone) }
      s.takeTrap k { i with aux := BitVec.ofNat 16 (min rest.length 0xFFFF) } (p.len / 4) p.pc t.pc true

/-- What one member's instruction comes to. -/
inductive Fate where
  | eff (s : State) (e : Eff)
  /-- a report of R288 is due -/
  | deferred

/-- `PRF` never traps after decode but in an open region: what it cannot read it ignores (R398). -/
def isPrefetch (op : Nat) : Bool := op == 0x53

/-- Steps 4 to 7 of R95 for one member: decode checks against the thread, privilege, guard, reports and operands, then
`pre` (the execution checks that come before any transfer) and the meaning's body. The checks of a team operation come before its
sources are read (R413). -/
def runMember (i : Instr) (pre : Ctx → State → Option TrapInfo) (body : Ctx → State → State × Eff)
    (s : State) (k : Nat) (t0 : Thread) : Fate :=
  let t := t0.ageLatches
  let x := i.ext
  let op := i.opc
  let g := guardOf t x
  let lost := g && i.regsRead.any (fun r => decide (r ∈ t.badRegs))
  let lostTrap : TrapInfo := ⟨trapUncorrectable, t.pc, 2, 0, false⟩
  if !i.wf || !i.regsOk t.regsN then .eff s (.trap (mkTrap trapIllegalField 0))
  else match privCheck i t with
  | some e => .eff s (.trap e)
  | none =>
    if !g && !isTeam op then .eff (s.setThread k t) .next
    else if g && cmpOutside i t && !(reportsLate op x && t.reports i) then .eff s (.trap (mkTrap trapAtomicRegion 0))
    else if (g || isTeam op) && t.reports i then .deferred
    else if t.blocked i then .eff s (.park .memory)
    else if lost && !isTeamOp op && !isPrefetch op then .eff s (.trap lostTrap)
    else if g && !isTeamOp op && (match t.region with | some r => !regionAllows op x || i.regsRead.any (fun n => decide (n ∈ r.pending)) | none => false) then
      .eff s (.trap (mkTrap trapAtomicRegion 0))
    else
      let cx : Ctx := ⟨k, t, i, x, i.shape, g, 0, 0, 0⟩
      let s := s.setThread k (if g && endsReach op x then { t with latches := [] } else t)
      match (if isTeamOp op then pre cx s else none) with
      | some e => .eff s (.trap e)
      | none =>
      if lost then .eff s (if isPrefetch op then .next else .trap lostTrap)
      else match (if g then cx.fetch else .ok cx) with
      | .error e => .eff s (if isPrefetch op then .next else .trap e)
      | .ok cx =>
        match (if isTeamOp op then none else pre cx s) with
        | some e => .eff s (.trap e)
        | none =>
          match cx.chanCheck s with
          | some e => .eff s (.trap e)
          | none =>
            match cx.take s with
            | .error w => .eff s (.park w)
            | .ok (cx, s) => let r := body cx s; .eff r.1 r.2

/-! ## The issue -/

/-- The member has executed and goes on in the issue. -/
def State.stays (s : State) (k : Nat) (taken : Bool) : State :=
  { s with front := { s.front with issue := s.front.issue.map (fun (i : Issue) =>
      { i with left := i.left.filter (· ≠ k), stay := i.stay ++ [k], taken := i.taken || taken }) } }

/-- Threads filed one after another, each by its pc: those of one cycle in the order of the list, which for a group is that of its home
lanes. R27 and R29 name no order, and it decides which key takes the last empty bin (log 48). -/
def State.fileAll (s : State) (ks : List Nat) : State :=
  ks.foldl (fun s k => s.file k ((s.threads[k]?.map (·.pc)).getD 0)) s

/-- Members that a stop request halts at this boundary (R302). -/
def State.stopOne (s : State) (k : Nat) : State :=
  match s.threads[k]? with
  | none => s
  | some t => if decide (t.st = .ready) && s.stopsNow t then s.setThread k { t.interrupted with st := .stopped } else s

/-- A member that has arrived at a rendezvous which is still incomplete parks (R43). -/
def State.parkOne (s : State) (k : Nat) : State :=
  match s.threads[k]? with
  | none => s
  | some t => match t.st with
    | .parked w => s.park k w
    | _ => s

/-- No push is under way. -/
def State.endDue (s : State) : State :=
  { s with tiles := s.tiles.map (fun (a : Tile) => { a with chans := a.chans.map (fun (h : Chan) => { h with due := false }) }) }

/-- The end of an issue: after a taken transfer every member is filed by its pc, one inside a latch chain too (R27; log 39);
otherwise the group goes on with the members that stay, when its issue cycles are over (R96). -/
def State.closeIssue (s : State) : State :=
  match s.front.issue with
  | none => s
  | some i =>
    if !i.left.isEmpty then s
    else
      let s := { s with front := { s.front with issue := none } }
      let s := if i.wake then s.endDue else s
      let s := i.stay.foldl State.parkOne s
      if i.taken || i.wake then s.fileAll i.stay
      else
        let s := i.stay.foldl State.stopOne s
        let go := i.stay.filter (fun k => (s.threads[k]?.map (fun t => decide (t.st = .ready))).getD false)
        if go.isEmpty then s
        else { s with front := { s.front with groups := s.front.groups ++ [⟨i.part, go, max (s.time.toNat + 1) ((aget s.front.busy i.part).getD 0), none⟩] } }

/-- The member's end: `s0` is the state before its instruction, to which a trap or a park returns (R277, R58). -/
def finishMember (s0 : State) (k : Nat) (len : Nat) (pc : DWord) (s : State) (e : Eff) : State :=
  let next := pc + BitVec.ofNat 64 len
  State.closeIssue (match e with
    | .next => (s.modThread k (fun t => { t with pc := next })).stays k false
    | .jump p => (s.modThread k (fun t => { t with pc := p, latches := [] })).stays k true
    | .refile r => ((s.unfile k).modThread k (fun t => { t with latches := [] })).fileAt k next r true
    | .trap i => s0.takeTrap k i (len / 4) pc (if i.afterPc then next else pc) false
    | .park w => s0.park k w
    | .held => s.unfile k
    | .gone => s)

/-- A thread instruction's meaning: the first member that has still to execute does so (R159). Without an issue under
way there is no thread to execute it. -/
def runThread (i : Instr) (pre : Ctx → State → Option TrapInfo) (body : Ctx → State → State × Eff) (s : State) :
    Host.Outcome State Fault Refusal :=
  match s.front.issue with
  | none => .fault .noIssuingThread
  | some is =>
    match is.left with
    | [] => .fault .noIssuingThread
    | k :: _ =>
      match s.threads[k]? with
      | none => .fault .noIssuingThread
      | some t =>
        match runMember i pre body s k t with
        | .eff s' e => .next (finishMember s k i.len t.pc s' e)
        | .deferred => .next (State.closeIssue (s.reportDeferred k t))

/-- No check before the transfers. -/
def noPre : Ctx → State → Option TrapInfo := fun _ _ => none

/-- A meaning that only computes a value for its destination. -/
def pureBody (f : Ctx → QWord) : Ctx → State → State × Eff := fun cx s => (cx.dst s (f cx), .next)

/-- A meaning that computes a value and raises flags (R106). -/
def floatBody (f : Ctx → Nat × FFlags) : Ctx → State → State × Eff :=
  fun cx s => let r := f cx; ((cx.dst s (BitVec.ofNat 128 r.1)).raise cx.k r.2, .next)

end Sys2Proof.Machine
end

