-- ==== Sys2Proof/Machine/Power.lean ====
section
/-! DEFINITION. Power regulation (R220, R298), and the closing of Coelostat tiles, which it charges (R224). -/

namespace Sys2Proof.Machine

/-- The regulator of a core; one that nothing has charged is as at reset (R294). -/
def State.powerOf (s : State) (core : Nat) : Power :=
  (aget s.power core).getD ⟨Config.defaultBudget, 0, 0, 0, 0, Config.defaultBudget, 0⟩

/-- The remaining budget of the present period covers a charge, so that leave is granted (R220). -/
def State.hasBudget (s : State) (core units : Nat) : Bool := decide (units ≤ (s.powerOf core).remain)

/-- Units charged to a regulator: what the remaining budget does not cover is carried into later periods (R220, R298). -/
def Power.charge (p : Power) (units : Nat) : Power :=
  { p with used := p.used + BitVec.ofNat 64 units, remain := p.remain - units, owed := p.owed + (units - p.remain) }

/-- Charges units to a core. -/
def State.charge (s : State) (core units : Nat) : State := { s with power := aset s.power core ((s.powerOf core).charge units) }

/-! ## Coelostat tiles (R223, R224) -/

/-- Fields of a handle descriptor (R223). -/
def nevLayers (d : List Byte) : Nat := fieldAt d 0 1 % 8
def nevIn (d : List Byte) : Nat := fieldAt d 1 1 % 64
def nevOut (d : List Byte) : Nat := fieldAt d 2 1 % 32
def nevWidth (d : List Byte) (l : Nat) : Nat := fieldAt d (0x10 + 24 * l) 1 % 128

/-- Charge of a closing tile: 64·e·Σ inputs × width (R298). -/
def nevCharge (d : List Byte) : Nat :=
  let e := fun l => if fieldAt d (0x10 + 24 * l + 1) 1 % 2 = 1 then 4 else 8
  ((List.range (nevLayers d)).map (fun l => 64 * e l * (if l = 0 then nevIn d else nevWidth d (l - 1)) * nevWidth d l)).sum

/-- A tile closes (R224, R298). -/
def State.closeTile (s : State) (i : Nat) : State :=
  match s.ntiles[i]? with
  | none => s
  | some n =>
    if n.closed || !n.live then s
    else
      ({ s with ntiles := s.ntiles.modify i (fun (n : NTile) => { n with closed := true }) } : State).charge n.core (nevCharge n.desc)

/-- A member of a Coelostat tile stands in the partition. -/
def State.tileMeets (s : State) (p : Nat) (n : NTile) : Bool := n.live && n.rows.any (fun r => (s.threads[r.k]?).any (fun t => t.pnum = p))

/-- A stop request to a member closes its open tile (R224, R393). -/
def State.stopTiles (s : State) (p : Nat) : State :=
  (List.range s.ntiles.length).foldl (fun s i => if (s.ntiles[i]?).any (s.tileMeets p) then s.closeTile i else s) s

/-! ## Periods -/

/-- A cycle in which a command of the core waits for leave (R294). -/
def State.countWait (s : State) (core : Nat) : State :=
  { s with power := aset s.power core { s.powerOf core with wcycles := (s.powerOf core).wcycles + 1 } }

/-- A new period of a regulator: what the last one carried is its deficit, and what the budget does not cover of that is
carried further (R298; log 40). -/
def Power.period (p : Power) : Power :=
  { p with
    remain := p.budget - p.owed
    deficit := if p.owed < p.budget then p.owed else p.owed - p.budget
    owed := p.owed - p.budget
    overruns := if p.owed = 0 then p.overruns else p.overruns + 1 }

/-- A power period is due: `$time` is a multiple of 1,000 whose period has not begun (R298). -/
def State.periodDue (s : State) : Bool := decide (s.time.toNat % 1000 = 0) && decide (s.period ≠ s.time.toNat / 1000)

/-- Every core's period begins, when it is due (R298). -/
def State.powerPeriod (s : State) : State :=
  if s.periodDue then { s with power := s.power.map (fun e => (e.1, e.2.period)), period := s.time.toNat / 1000 } else s

/-- POWER_PERIOD (R298). -/
def execPowerPeriod (s : State) : Host.Outcome State Fault Refusal := .next s.powerPeriod

end Sys2Proof.Machine
end

