-- ==== Sys2Proof/Machine/Frontend.lean ====
section
/-! DEFINITION. The front end: instruction fetch (R72, R148, R286), what is issuable, and transit bins and the arbiter
(R25 to R32). -/

namespace Sys2Proof.Machine

/-! ## Fetch -/

/-- What a fetch gives: an instruction, or a trap with the length in words that its record holds (R95). -/
inductive Fetched where
  | instr (i : Instr)
  | trap (t : TrapInfo) (len : Nat)
  deriving DecidableEq, Repr

/-- Where the word at `a` stands when its page is mapped executable for the thread: the code region of the task's TLBs
in task mode, the page table in supervisor mode, in which a page in migration is not mapped (R148, R153, R280). -/
def State.codePlace (s : State) (t : Thread) (a : Nat) : Option Place :=
  match s.tasks[t.task]? with
  | none => none
  | some task =>
    if t.sup then
      match s.walkSup task.desc.ptroot a with
      | some l => if l.tlb.x then some (l.tlb.place a) else none
      | none => none
    else if task.desc.codebase ≤ a ∧ a < task.desc.codebase + task.desc.codesize then
      match task.tlbOf a with
      | some e => if e.x then some (e.place a) else none
      | none => none
    else none

/-- The instruction word at a place. -/
def State.wordAt (s : State) (pl : Place) : Word := BitVec.ofNat 32 (leNat (s.homeRead pl 4))

/-- A fetch of the word fails, with the unit that its trap names: no link reaches it (R263, R267, R287), or it is poisoned, which is
unit 0 wherever it stands (R49, R286). -/
def State.wordFail (s : State) (pl : Place) : Option Nat := (s.pkg.linkFault pl 4 false).or (if s.homeBad pl 4 then some 0 else none)

/-- The trap of a word that cannot be fetched (R275). -/
def wordTrap (a : DWord) (unit : Nat) : TrapInfo := ⟨trapUncorrectable, a, BitVec.ofNat 32 unit, 0, false⟩

/-- The addresses of the words of an instruction. -/
def wordAddrs (pc : DWord) (n : Nat) : List DWord := (List.range n).map (fun i => pc + BitVec.ofNat 64 (4 * i))

/-- The fetch at a thread's pc: alignment, mapping, poison, then decode (R72, R95, R286). R95 gives a length for a first word that is
unmapped or poisoned; one at a misaligned pc is given the same, 1 (log 44). -/
def State.fetchAt (s : State) (t : Thread) (pc : DWord) : Fetched :=
  if pc.toNat % 4 ≠ 0 then .trap (mkTrap trapMisalignedTarget pc) 1
  else
    match s.codePlace t pc.toNat with
    | none => .trap (mkTrap trapUnmappedTarget pc) 1
    | some pl =>
      match s.wordFail pl with
      | some u => .trap (wordTrap pc u) 1
      | none =>
        let n := lenWords ((s.wordAt pl).toNat % 4)
        let as := wordAddrs pc n
        match as.find? (fun a => (s.codePlace t a.toNat).isNone) with
        | some a => .trap (mkTrap trapUnmappedTarget a) n
        | none =>
          match as.findSome? (fun a => ((s.codePlace t a.toNat).bind s.wordFail).map (wordTrap a)) with
          | some e => .trap e n
          | none =>
            match decode (as.map (fun a => ((s.codePlace t a.toNat).map s.wordAt).getD 0)) with
            | .ok i => .instr i
            | .illegalOpcode => .trap (mkTrap trapIllegalOpcode 0) n
            | .illegalField => .trap (mkTrap trapIllegalField 0) n

/-- The fetch of a thread at its own pc. -/
def State.fetchOf (s : State) (t : Thread) : Fetched := s.fetchAt t t.pc

/-! ## What can issue -/

/-- No outstanding result keeps the thread's next instruction back (R26, R27). -/
def State.issuable (s : State) (k : Nat) : Bool :=
  match s.threads[k]? with
  | none => false
  | some t =>
    decide (t.st = .ready) && (match s.fetchOf t with | .instr i => !t.blocked i | .trap _ _ => true)

/-- The lowest slot number among threads. -/
def State.lowSlot (s : State) (ks : List Nat) : Nat :=
  ks.foldl (fun m k => Nat.min m ((s.threads[k]?.map (·.slot)).getD m)) 384

/-- A thread's place among members in ascending home lane. -/
def State.insertLane (s : State) (k : Nat) : List Nat → List Nat
  | [] => [k]
  | j :: l => if s.laneOf k < s.laneOf j then k :: j :: l else j :: s.insertLane k l

/-- Members in ascending home lane (R159). -/
def State.byLane (s : State) (ks : List Nat) : List Nat := ks.foldl (fun l k => s.insertLane k l) []

/-- The ready-since cycle of a running group (R26). -/
def State.scanGroup (s : State) (p now : Nat) (g : Group) : Group :=
  if g.part = p && g.since.isNone && decide (g.earliest ≤ now) && g.members.all s.issuable then { g with since := some now } else g

/-- A group that is a candidate now. -/
def State.groupReady (s : State) (p now : Nat) (g : Group) : Bool :=
  decide (g.part = p) && g.since.isSome && decide (g.earliest ≤ now) && g.members.all s.issuable

/-- Every thread of the task in this partition that is not Parked, Trapped, Stopped or Exited stands in the bin (R31). -/
def State.binComplete (s : State) (b : Bin) : Bool :=
  s.threads.zipIdx.all (fun e =>
    !(e.1.task = b.task && e.1.pnum = b.part && (decide (e.1.st = .ready) || decide (e.1.st = .exiting))) || b.members.any (fun m => m.k = e.2))

/-- A bin is eligible as Full, Complete or Aged (R31). -/
def State.binStrong (s : State) (now : Nat) (b : Bin) : Bool :=
  decide (b.members.length = 64) || s.binComplete b || b.members.any (fun m => decide (m.release ≤ now))

/-- A bin's first instruction is issuable for all its members: filed at least two cycles ago (R26, R27). -/
def State.binIssuable (s : State) (now : Nat) (b : Bin) : Bool :=
  b.members.all (fun m => decide (m.filed + 2 ≤ now) && s.issuable m.k)

def State.scanBin (s : State) (p now : Nat) (b : Bin) : Bin :=
  if b.part ≠ p then b
  else
    let b := if b.elig.isNone && s.binStrong now b then { b with elig := some now } else b
    if b.since.isNone && s.binIssuable now b then { b with since := some now } else b

def State.binReady (s : State) (p now : Nat) (b : Bin) : Bool :=
  decide (b.part = p) && b.elig.isSome && b.since.isSome && s.binIssuable now b

/-- The clause of the idle rule on `REFORM` (R31). -/
def idleMeets (p now : Nat) (b : Bin) : Bool :=
  decide (b.part = p) && b.members.all (fun m => !(m.reform && decide (now < m.release)))

def scanIdle (p now : Nat) (strong : Bool) (b : Bin) : Bin :=
  if b.part ≠ p then b
  else if !strong && idleMeets p now b then (if b.idle.isNone then { b with idle := some now } else b)
  else { b with idle := none }

def State.idleReady (s : State) (p now : Nat) (b : Bin) : Bool :=
  decide (b.part = p) && b.idle.isSome && b.since.isSome && s.binIssuable now b

/-- A candidate: ready-since, lowest slot, members, and whether it is a bin. -/
structure Cand where
  since : Nat
  slot : Nat
  members : List Nat
  bin : Bool
  deriving DecidableEq, Repr

def Cand.before (a b : Cand) : Bool := decide (a.since < b.since) || (decide (a.since = b.since) && decide (a.slot < b.slot))

/-- The earliest ready-since, ties to the lowest slot (R26). -/
def bestCand : List Cand → Option Cand
  | [] => none
  | c :: l => match bestCand l with
    | none => some c
    | some d => if d.before c then some d else some c

def State.groupCand (s : State) (g : Group) : Cand := ⟨g.since.getD 0, s.lowSlot g.members, g.members, false⟩

def State.binCand (s : State) (b : Bin) (since : Nat) : Cand :=
  let ks := b.members.map (·.k)
  ⟨max since (b.since.getD 0), s.lowSlot ks, ks, true⟩

/-- The state with the groups and bins of partition `p` brought up to the present cycle, and the candidate that the
arbiter selects (R26, R31), none in the further issue cycles of the partition's last issue (R96). -/
def State.arbitrate (s : State) (p : Nat) : State × Option Cand :=
  let now := s.time.toNat
  let groups := s.front.groups.map (s.scanGroup p now)
  let bins := s.front.bins.map (s.scanBin p now)
  let strong := (groups.filter (s.groupReady p now)).map s.groupCand ++
    (bins.filter (s.binReady p now)).map (fun b => s.binCand b (b.elig.getD 0))
  let bins := bins.map (scanIdle p now (!strong.isEmpty))
  let cands := if strong.isEmpty then (bins.filter (s.idleReady p now)).map (fun b => s.binCand b (b.idle.getD 0)) else strong
  ({ s with front := { s.front with groups := groups, bins := bins } }, if now < (aget s.front.busy p).getD 0 then none else bestCand cands)

/-- The ready threads of a partition, those of a list apart, halt at this boundary where a stop request reaches them
(R302). -/
def State.stopPart (s : State) (p : Nat) (keep : List Nat) : State :=
  (List.range s.threads.length).foldl (fun s k =>
    match s.threads[k]? with
    | none => s
    | some t =>
      if t.pnum = p && decide (t.st = .ready) && decide (k ∉ keep) && s.stopsNow t then (s.unfile k).setThread k { t.interrupted with st := .stopped }
      else s) s

/-! ## The place of an issue's accesses in the order of R158 (R159) -/

/-- The extent that a member's access touches, and whether it may be served by a copy and whether it may write; `none` for an
instruction with several accesses, or whose address comes from a channel. -/
def accessOf (cx : Ctx) : Option (DWord × Nat × Bool × Bool) :=
  let op := cx.i.opc
  if hasChannel { cx.x with d := .latchOnly } then none
  else if op = 0x50 then some (memEa cx, memBytes cx, true, false)
  else if op = 0x51 then some (memEa cx, memBytes cx, false, true)
  else if op = 0x60 then some (atomEa cx, atomBytes cx, false, true)
  else if op = 0x62 then (cx.t.region.map (fun r => (r.line, 128, false, r.accs.any (fun a => match a with | .store _ _ _ => true | _ => false))))
  else if op = 0x65 then some (twaitEa cx, twaitBytes cx, decide (bitsOf cx.x.func 1 0 = 0), false)
  else if op = 0x66 ∨ op = 0x67 then some (barEa cx, 16, false, true)
  else none

/-- Device lines that an issue touches, with whether copies serve them, whether it writes, and whether some member's accesses
are not of this kind. -/
structure Touched where
  lines : List (Nat × Bool)
  writes : Bool
  many : Bool

/-- What the members whose guard is true touch. -/
def State.touched (s : State) (ks : List Nat) : Touched :=
  ks.foldl (fun (a : Touched) k =>
    match s.threads[k]? with
    | none => a
    | some t =>
      match s.fetchOf t with
      | .trap _ _ => a
      | .instr i =>
        let t := t.ageLatches
        let x := i.ext
        if !guardOf t x || !(isMemory i.opc || isEngine i.opc) then a
        else match (⟨k, t, i, x, i.shape, true, 0, 0, 0⟩ : Ctx).fetch with
          | .error _ => a
          | .ok cx =>
            match accessOf cx with
            | none => { a with many := true }
            | some (ea, n, copies, w) =>
              match s.resolve k t ea n n w with
              | .ok (.dev pa c) => { a with lines := a.lines ++ [(pa / 128, copies && c)], writes := a.writes || w }
              | _ => { a with writes := a.writes || w }) ⟨[], false, false⟩

/-- The logical time at which reads of lines stand together: every line's contents at that time are those of a copy that is
still valid then, or those of the home; `fuel` bounds the rises. -/
def State.readLevel (s : State) (core : Nat) (ls : List (Nat × Bool)) : Nat → Nat → Nat
  | 0, v => v
  | fuel + 1, v =>
    let rise := fun (v : Nat) (e : Nat × Bool) =>
      match (if e.2 then s.copyOf core e.1 else none) with
      | some l => if v ≤ l.rts then max v l.wts else max v (s.mem.stamp e.1).wts
      | none => max v (s.mem.stamp e.1).wts
    let w := ls.foldl rise v
    if w = v then v else s.readLevel core ls fuel w

/-- The copies that serve the lines become the newest ones, so that no fetch of the issue takes their place. -/
def State.keepCopies (s : State) (core : Nat) (ls : List (Nat × Bool)) : State :=
  let front := fun (c : Nat) (l : List Lease) =>
    let hit := fun (e : Lease) => decide (e.core = c) && ls.any (fun x => x.1 = e.line)
    l.filter hit ++ l.filter (fun e => !hit e)
  { s with mem := { s.mem with leases := front core s.mem.leases, remote := front (core / Config.coresPerDie) s.mem.remote } }

/-- The core's clock rises to the logical time at which the accesses of a fused issue stand, one after another (R159); its
writes carry that time. -/
def State.stampIssue (s : State) (core : Nat) (ks : List Nat) : State × Option Nat :=
  if ks.length ≤ 1 then (s, none)
  else
    let a := s.touched ks
    if a.many then (s.raiseClock core s.mem.top, some s.mem.top)
    else if a.writes then
      let v := a.lines.foldl (fun v e => max v (max (s.mem.stamp e.1).wts (s.mem.stamp e.1).rts)) (s.clockOf core) + 1
      (s.raiseClock core v, some v)
    else ((s.keepCopies core a.lines).raiseClock core (s.readLevel core a.lines (a.lines.length + 1) (s.clockOf core)), none)

/-- The issue of a candidate: it leaves its bin or group, its members stand in ascending home lane, and a single step
of the partition is used up (R26, R159, R303). -/
def State.openIssue (s : State) (p : Nat) (c : Cand) : State :=
  let ks := s.byLane c.members
  let step := decide (p ∈ s.front.step1)
  let st := s.stampIssue (p / 4) ks
  let s := st.1
  let s := { s with front := { s.front with
      groups := s.front.groups.filter (fun g => !(g.part = p && !c.bin && g.members = c.members))
      bins := s.front.bins.filter (fun b => !(b.part = p && c.bin && b.members.map (·.k) = c.members))
      issue := some ⟨p, ks, [], false, false, ks.headD 0, ks.length, c.since, false, st.2⟩
      turn := p + 1
      drawn := if c.bin then p :: s.front.drawn else s.front.drawn
      stopReq := if step then sinsert s.front.stopReq p else s.front.stopReq
      step1 := serase s.front.step1 p } }
  if step then (s.stopTiles p).stopPart p ks else s

/-- The partitions that hold bins or groups, from a number on, rising. -/
def State.busyParts (s : State) (lo : Nat) : List Nat :=
  ((s.front.groups.map (·.part)) ++ (s.front.bins.map (·.part))).foldl (fun l p => if lo ≤ p then sinsert l p else l) []

/-- Each partition in turn, until one has a candidate. -/
def State.arbitrateFrom (s : State) : List Nat → State × Bool
  | [] => (s, false)
  | p :: ps =>
    match s.arbitrate p with
    | (s, some c) => (s.openIssue p c, true)
    | (s, none) => s.arbitrateFrom ps

end Sys2Proof.Machine
end

