-- ==== Sys2Proof/Machine/MemoryInstr.lean ====
section
/-! DEFINITION. The memory instructions (R89, 0x50 to 0x59): loads and stores, the parameter area, pins, `KEYEMIT` and
`SPAN`, gradient reduction, and `WBACK`. -/

namespace Sys2Proof.Machine

/-! ## Shared parts -/

/-- A release or acq_rel order; an acquire or acq_rel order (R89). -/
def isRelease (cx : Ctx) : Bool := decide (2 ≤ ordOf cx.x)
def isAcquire (cx : Ctx) : Bool := decide (ordOf cx.x % 2 = 1)

/-- The trap of R129 for an access, if any. -/
def State.accessCheck (s : State) (cx : Ctx) (ea : DWord) (n align : Nat) (w : Bool) : Option TrapInfo :=
  match s.resolve cx.k cx.t ea n align w with
  | .error e => some e
  | .ok _ => none

/-- The trap of a read that fails: the address of its first poisoned byte, or its own where no link reaches it, and the unit (R267,
R287). -/
def State.badTrap (s : State) (pl : Place) (ea : DWord) (n unit : Nat) : TrapInfo :=
  let off := if (s.pkg.linkFault pl n false).isSome then 0 else s.firstBadAt pl n
  ⟨trapUncorrectable, ea + BitVec.ofNat 64 off, BitVec.ofNat 32 unit, 0, false⟩

/-- The same for a thread-path load, which may be served from a leased copy. -/
def State.badLoadTrap (s : State) (core : Nat) (pl : Place) (ea : DWord) (n unit : Nat) : TrapInfo :=
  if (s.pkg.linkFault pl n false).isSome then s.badTrap pl ea n unit
  else match pl with
  | .dev pa true =>
    match s.copyOf core (pa / 128) with
    | some l => ⟨trapUncorrectable, ea + BitVec.ofNat 64 ((findIdx (fun j => decide ((pa + j) / 32 ∈ l.bad)) (List.range n)).getD 0),
        BitVec.ofNat 32 unit, 0, false⟩
    | none => s.badTrap pl ea n unit
  | _ => s.badTrap pl ea n unit

/-- Where the `m` bytes of a place stand among the `n` bytes of another. -/
def Place.offsetIn (pl q : Place) (n m : Nat) : Option Nat :=
  let at' := fun (p r : Nat) => if p ≤ r ∧ r + m ≤ p + n then some (r - p) else none
  match pl, q with
  | .dev p _, .dev r _ => at' p r
  | .host p, .host r => at' p r
  | _, _ => none

/-- Where the record of a command's token stands. -/
def State.tokPlace (s : State) (c : Cmd) : Option Place :=
  match s.tasks[c.task]? with
  | none => none
  | some t => (s.walk t.desc.ptroot (tokAddr c.tok)).map (fun l => l.tlb.place (tokAddr c.tok))

/-- The bytes hold the first word of a command's record, and it is complete. -/
def State.showsDone (s : State) (pl : Place) (bs : List Byte) (c : Cmd) : Bool :=
  ((s.tokPlace c).bind (fun q => pl.offsetIn q bs.length 8)).any (fun o => tokenDone c.tok (leNat ((bs.drop o).take 8)))

/-- A load that returns the completed token value of a command, of whichever task, observes the command (R166). -/
def State.observeLoad (s : State) (k : Nat) (pl : Place) (bs : List Byte) : State :=
  let hit := (s.cmds.zipIdx.filter (fun e => s.showsDone pl bs e.1)).map (·.2)
  s.modThread k (fun t => t.observe hit)

/-- The scope at which an acquire at a place acts: none, where its scope leaves out the home of the place, or the place is the
core's own (R89, R170, R171). -/
def Pkg.acquireScope (p : Pkg) (pl : Place) (scope : Nat) : Nat :=
  match pl with
  | .dev pa _ => if farBase ≤ pa && !p.scopeHas scope ((pa - farBase) / 2 ^ 40) then 0 else scope
  | .host _ => if scope = 7 then scope else 0
  | _ => 0

/-- What a read learns beside its value: the commands whose completed tokens it returned, the host writes whose values it
returned (R167), and, of an acquire, what stood released in what it read, whereupon copies of other packages' lines go (R166,
R170). `notes` is what the read found noted. -/
def State.learned (s : State) (k core : Nat) (pl : Place) (bs : List Byte) (notes : List Released × List HostExt) (acq : Bool) (scope : Nat) : State :=
  let s := (s.observeLoad k pl bs).modThread k (fun t => t.seeHost (lastHost notes.2 pl bs.length))
  if acq then (s.noteAcquire k notes.1 pl bs.length false).dropFar core (s.pkg.acquireScope pl scope) else s

/-- A release at scope 3 to 7 performs the thread's earlier stores at that scope first; one whose scope leaves out the home of its
place is plain (R170). -/
def State.releases (s : State) (cx : Ctx) (pl : Place) : State :=
  let scope := s.pkg.acquireScope pl (scopeOf cx.x)
  if isRelease cx && decide (3 ≤ scope) then s.performed cx.t.core scope (fun w => w == .thread cx.k) else s

/-- A loaded value, extended to the class's width (R381). -/
def extendTo (sx : Bool) (n w v : Nat) : QWord :=
  if sx then lowCls (if w = 64 then .q else .v) ((BitVec.ofNat (8 * n) v).signExtend 128) else BitVec.ofNat 128 v

/-! ## Accesses of an open region (R163, R382) -/

/-- The region checks in the order of R382, then those of R129. -/
def State.regionCheck (s : State) (cx : Ctx) (r : Region) (w : Bool) : Option TrapInfo :=
  let ea := memEa cx
  let n := memBytes cx
  let bad := some (mkTrap trapAtomicRegion 0)
  if 8 ≤ r.accs.length then bad
  else if cx.x.mod ≠ 0 then bad
  else if ea.toNat < r.line.toNat || r.line.toNat + 128 < ea.toNat + n then bad
  else if !w && (cx.i.regsWritten.any (fun d => decide (d ∈ r.pending))) then bad
  else s.accessCheck cx ea n n w

/-- The access joins the region. -/
def State.addAccess (s : State) (k : Nat) (a : RegionAcc) : State :=
  s.modThread k (fun t => { t with region := t.region.map (fun (r : Region) => { r with accs := r.accs ++ [a] }) })

/-! ## `LD` and `ST` (R381, R382, R409) -/

def ldPre (cx : Ctx) (s : State) : Option TrapInfo :=
  match cx.t.region with
  | some r => s.regionCheck cx r false
  | none => s.accessCheck cx (memEa cx) (memBytes cx) (memBytes cx) false

def ldRegion (cx : Ctx) (r : Region) (s : State) : State :=
  let c := Cls.ofSize (sizeOf' cx.x)
  let expect := if hintOf cx.x = 3 then some (BitVec.ofNat 128 (cx.vb.toNat % 2 ^ (8 * memBytes cx))) else none
  let d : Nat × Bool := match cx.x.d with | .reg n => (n.val, false) | _ => (0, true)
  s.addAccess cx.k (.load ((memEa cx).toNat - r.line.toNat) (memBytes cx) (cx.x.func.getLsbD 3) d.1 c.regs d.2 expect)

def ldBody (cx : Ctx) (s : State) : State × Eff :=
  match cx.t.region with
  | some r => (ldRegion cx r s, .next)
  | none =>
    let ea := memEa cx
    let n := memBytes cx
    match s.resolve cx.k cx.t ea n n false with
    | .error e => (s, .trap e)
    | .ok pl =>
      match s.accessWait pl n with
      | some w => (s, .park w)
      | none =>
        let r := s.loadAt cx.t.core pl n
        let v := extendTo (cx.x.func.getLsbD 3) n (Cls.ofSize (sizeOf' cx.x)).bits (leNat r.2.1)
        let bad := r.2.2.map (fun u => s.badLoadTrap cx.t.core pl ea n u)
        cx.deliver (r.1.learned cx.k cx.t.core pl r.2.1 (s.notesOf cx.t.core pl) (isAcquire cx) (scopeOf cx.x)) 1 v bad

def stPre (cx : Ctx) (s : State) : Option TrapInfo :=
  match cx.t.region with
  | some r => s.regionCheck cx r true
  | none => s.accessCheck cx (memEa cx) (memBytes cx) (memBytes cx) true

def stBody (cx : Ctx) (s : State) : State × Eff :=
  let ea := memEa cx
  let n := memBytes cx
  match cx.t.region with
  | some r => (s.addAccess cx.k (.store (ea.toNat - r.line.toNat) n (BitVec.ofNat 128 (cx.vb.toNat % 2 ^ (8 * n)))), .next)
  | none =>
    match s.resolve cx.k cx.t ea n n true with
    | .error e => (s, .trap e)
    | .ok pl =>
      match s.accessWait pl n with
      | some w => (s, .park w)
      | none =>
        match s.pkg.linkFault pl n true with
        | some u => (s, .trap ⟨trapUncorrectable, ea, BitVec.ofNat 32 u, 0, false⟩)
        | none =>
          (((s.releases cx pl).storeAt cx.t.core pl (leBytes n cx.vb.toNat)).noteStore cx.k cx.t pl n (isRelease cx) false, .next)

/-! ## `LDC` (R384) -/

/-- Offset of a parameter operand (R384, R230). -/
def paramOff (cx : Ctx) : Nat := bitsOf cx.x.imm 11 0

def State.paramOf (s : State) (t : Thread) : Store := (s.tasks[t.task]?.map (fun (x : Task) => x.param)).getD ⟨[], []⟩

/-- The copy is kept at the area's own addresses. -/
def State.paramAt (s : State) (t : Thread) : Nat := (s.tasks[t.task]?.map (fun x => x.desc.param)).getD 0

def State.nparamOf (s : State) (t : Thread) : Nat := (s.tasks[t.task]?.map (fun x => x.desc.nparam)).getD 0

def ldcPre (cx : Ctx) (s : State) : Option TrapInfo :=
  let off := paramOff cx
  let n := memBytes cx
  if s.nparamOf cx.t < off + n then some (mkTrap trapAperture (BitVec.ofNat 64 off))
  else if off % n ≠ 0 then some (mkTrap trapMisalignedData (BitVec.ofNat 64 off)) else none

def ldcBody (cx : Ctx) (s : State) : State × Eff :=
  let off := paramOff cx
  let n := memBytes cx
  let p := s.paramOf cx.t
  cx.deliver s 7 (BitVec.ofNat 128 (p.readNat (s.paramAt cx.t + off) n))
    (if p.poisoned (s.paramAt cx.t + off) n then some (mkTrap trapUncorrectable (BitVec.ofNat 64 off)) else none)

/-! ## `PRF` (R398) and `WBACK` (R417) -/

/-- A die lies within a scope of a core: scope codes 0 and 1 reach its own die (R143; log 6). -/
def dieInScope (core die scope : Nat) : Bool := decide (2 ≤ scope) || decide (die = core / 48)

/-- The home of a device address lies within a scope of a core (R143, R266). -/
def State.homeInScope (s : State) (core pa scope : Nat) : Bool :=
  if farBase ≤ pa then s.pkg.scopeHas scope ((pa - farBase) / 2 ^ 40) else dieInScope core (homeDie pa) scope

/-- A prefetch changes no value: it brings a copy of the line into L1, and of a line homed on another die into the die's
remote-data cache, when the model's `fill` says so. An address that fails a check, a tile-store or stack address, a host line
and a poisoned line are ignored, and so is a line of another package whose home the scope leaves out (R398; log 6). -/
def prfBody (cx : Ctx) (s : State) : State × Eff :=
  match s.resolve cx.k cx.t (memEa cx) 1 1 false with
  | .ok (.dev pa true) =>
    let line := pa / 128
    let pl := Place.dev (128 * line) true
    if s.homeBad pl 128 || (s.pkg.linkFault pl 128 false).isSome ||
        (decide (farBase ≤ pa) && !s.homeInScope cx.t.core pa (scopeOf cx.x)) || (s.leaseOf cx.t.core line).isSome then (s, .next)
    else match s.remoteOf cx.t.core line with
      | some l => (s.keepCopy { l with core := cx.t.core }, .next)
      | none => (s.fillLease cx.t.core line, .next)
  | _ => (s, .next)

def wbackPre (cx : Ctx) (s : State) : Option TrapInfo := s.accessCheck cx (memEa cx) 1 1 false

/-- A write-back changes no value. For a global device line whose home the scope holds, the thread waits until the memory device
has acknowledged the write, at once, or while `late` is true at its LOAD_DATA_RETURN, and then goes on behind the instruction; a
line homed outside the scope is left as it stands, whatever link leads to it (R289, R417; log 5). -/
def wbackBody (cx : Ctx) (s : State) : State × Eff :=
  match s.resolve cx.k cx.t (memEa cx) 1 1 false with
  | .error e => (s, .trap e)
  | .ok pl =>
    match pl with
      | .dev pa _ =>
        if !s.homeInScope cx.t.core pa (scopeOf cx.x) then (s, .next)
        else match s.pkg.linkFault pl 1 true with
          | some u => (s, .trap ⟨trapUncorrectable, memEa cx, BitVec.ofNat 32 u, 0, false⟩)
          | none => (s.park cx.k (.writeBack (!s.late)), .held)
      | _ => (s, .next)

/-! ## Pins: `LOCK` and `UNLOCK` (R141, R142, R386) -/

/-- Lines that are pinned in the set of a line, of the same slice of the same home die (R138, R141). -/
def Mem.pinnedWays (m : Mem) (line : Nat) : Nat :=
  (((m.pins.filter (fun p => homeDie (128 * p.line) = homeDie (128 * line) && Config.l2Slice p.line = Config.l2Slice line &&
    Config.l2Set p.line = Config.l2Set line)).map (·.line)).foldl sinsert []).length

/-- The status of `LOCK` (R141). Its code 4 names host memory only: a line of device memory on a page of host bias is pinned like
any other (log 8). -/
def State.lockStatus (s : State) (t : Thread) (pl : Place) : Nat :=
  match pl with
  | .dev pa _ =>
    let line := pa / 128
    let mine := s.mem.pins.filter (fun p => p.task = t.task)
    if mine.any (fun p => p.line = line) then 1
    else if (s.tasks[t.task]?.map (fun x => x.desc.pinq)).getD 0 ≤ (mine.filter (fun p => p.die = homeDie pa)).length then 2
    else if 8 ≤ s.mem.pinnedWays line then 3 else 0
  | _ => 4

/-- The status of `UNLOCK` (R141). -/
def State.unlockStatus (s : State) (t : Thread) (pl : Place) : Nat :=
  match pl with
  | .dev pa _ => if s.mem.pins.any (fun p => p.task = t.task && p.line = pa / 128) then 0 else 1
  | _ => 4

/-- The pins after a `LOCK` or `UNLOCK` whose status is 0. -/
def State.setPin (s : State) (t : Thread) (pl : Place) (lock : Bool) : State :=
  match pl with
  | .dev pa _ =>
    let rest := s.mem.pins.filter (fun p => !(p.task = t.task && p.line = pa / 128))
    { s with mem := { s.mem with pins := if lock then ⟨t.task, homeDie pa, pa / 128⟩ :: rest else rest } }
  | _ => s

def lockPre (cx : Ctx) (s : State) : Option TrapInfo := s.accessCheck cx (memEa cx) 1 1 false

def lockBody (cx : Ctx) (s : State) : State × Eff :=
  match s.resolve cx.k cx.t (memEa cx) 1 1 false with
  | .error e => (s, .trap e)
  | .ok pl =>
    let st := s.lockStatus cx.t pl
    cx.deliver (if st = 0 then s.setPin cx.t pl true else s) 8 (BitVec.ofNat 128 st) none

def unlockBody (cx : Ctx) (s : State) : State × Eff :=
  match s.resolve cx.k cx.t (memEa cx) 1 1 false with
  | .error e => (s, .trap e)
  | .ok pl =>
    let st := s.unlockStatus cx.t pl
    cx.deliver (if st = 0 then s.setPin cx.t pl false else s) 8 (BitVec.ofNat 128 st) none

/-! ## Frame descriptors (R227), `KEYEMIT` (R231, R377) and `SPAN` (R240, R406) -/

/-- Steps 2 to 4 of R377: the descriptor's address and place. -/
def State.frameAt (s : State) (cx : Ctx) : Except TrapInfo (DWord × Place) :=
  let off := paramOff cx
  let p := s.paramOf cx.t
  if s.nparamOf cx.t < off + 8 then .error (mkTrap trapAperture (BitVec.ofNat 64 off))
  else if off % 8 ≠ 0 then .error (mkTrap trapMisalignedData (BitVec.ofNat 64 off))
  else if p.poisoned (s.paramAt cx.t + off) 8 then .error (mkTrap trapUncorrectable (BitVec.ofNat 64 off))
  else
    let fa := BitVec.ofNat 64 (p.readNat (s.paramAt cx.t + off) 8)
    if 2 ^ 56 ≤ fa.toNat then .error (mkTrap trapAperture fa)
    else match s.resolve cx.k cx.t fa 128 128 false with
      | .error e => .error e
      | .ok pl => .ok (fa, pl)

/-- Steps 2 to 5 of R377: the descriptor's address, place and bytes. -/
def State.frameOf (s : State) (cx : Ctx) : Except TrapInfo (DWord × Place × List Byte) :=
  match s.frameAt cx with
  | .error e => .error e
  | .ok (fa, pl) =>
    let r := s.homeLoad cx.t.core pl 128
    match r.2.2 with
    | some u => .error (s.badTrap pl fa 128 u)
    | none => .ok (fa, pl, r.2.1)

/-- Every reserved bit of a frame descriptor is zero (R227). -/
def frameReserved (d : List Byte) : Bool :=
  decide (fieldAt d 0x28 8 / 2 % 2 ^ 15 = 0) && decide (fieldAt d 0x2C 4 = 0) && decide (fieldAt d 0x30 8 / 2 ^ 27 = 0) &&
    (d.drop 0x48).all (fun b => b = 0)

/-- A buffer lies within tenure with rights `rw`, or, in supervisor mode, on writable pages of which none is in migration (R151, R153,
R280). -/
def State.bufferOk (s : State) (t : Thread) (a n : Nat) : Bool :=
  match s.tasks[t.task]? with
  | none => false
  | some task => if t.sup then (s.walkPieces task.desc.ptroot a n true (n / 65536 + 2)).isSome && !s.migAt task.desc.ptroot a n (n / 65536 + 2) else task.inTenure a n true

/-- A store of `n` bytes at a global address has no link that reaches it, or no space there (R263, R267). -/
def State.storeFault (s : State) (cx : Ctx) (a n : Nat) : Option TrapInfo :=
  match s.resolve cx.k cx.t (BitVec.ofNat 64 a) n n true with
  | .error e => some e
  | .ok pl => (s.pkg.linkFault pl n true).map (fun u => ⟨trapUncorrectable, BitVec.ofNat 64 a, BitVec.ofNat 32 u, 0, false⟩)

/-- The checks of R377, in order, and then those of R263 and R267 on the update and the stores, which so never trap after it
(log 38). -/
def keyemitPre (cx : Ctx) (s : State) : Option TrapInfo :=
  match s.frameOf cx with
  | .error e => some e
  | .ok (fa, pl, d) =>
    let kbuf := fieldAt d 0 8
    let pbuf := fieldAt d 8 8
    let cap := fieldAt d 0x20 4
    if !frameReserved d || cap = 0 || kbuf % 8 ≠ 0 || pbuf % 4 ≠ 0 then some (mkTrap trapEngineParam fa)
    else if 2 ^ 56 < kbuf + 8 * cap then some (mkTrap trapAperture (BitVec.ofNat 64 kbuf))
    else if 2 ^ 56 < pbuf + 4 * cap then some (mkTrap trapAperture (BitVec.ofNat 64 pbuf))
    else if !s.bufferOk cx.t kbuf (8 * cap) then some (mkTrap trapTenure (BitVec.ofNat 64 kbuf))
    else if !s.bufferOk cx.t pbuf (4 * cap) then some (mkTrap trapTenure (BitVec.ofNat 64 pbuf))
    else
      let c := fieldAt d 0x24 4
      ((s.pkg.linkFault pl 128 true).map (fun u => (⟨trapUncorrectable, fa, BitVec.ofNat 32 u, 0, false⟩ : TrapInfo))).or
        (if c < cap then (s.storeFault cx (kbuf + 8 * c) 8).or (s.storeFault cx (pbuf + 4 * c) 4)
         else none)

/-- A plain store of the thread path at an address whose checks have passed. -/
def State.threadStore (s : State) (cx : Ctx) (a n v : Nat) : State :=
  match s.resolve cx.k cx.t (BitVec.ofNat 64 a) n n true with
  | .error _ => s
  | .ok pl =>
    (s.storeAt cx.t.core pl (leBytes n v)).noteStore cx.k cx.t pl n false false

/-- Where the frame descriptor of a sort stands. -/
def State.sortingFrame (s : State) (c : Cmd) : Option Place :=
  (s.tasks[c.task]?.bind (fun t => t.tlbOf (fieldAt c.block 8 8))).map (fun e => e.place (fieldAt c.block 8 8))

/-- The command has begun, be it suspended or queued again since (R293), and its token is not written. -/
def Cmd.begun (c : Cmd) : Bool :=
  match c.st with
  | .queued => c.leave
  | .complete => false
  | _ => true

/-- A `KEYEMIT` into a frame at a place while a sort of the same frame, of any task, has begun and has not written its token
leaves that sort's result undefined (R232). -/
def State.spoilSorts (s : State) (pl : Place) : State :=
  { s with cmds := s.cmds.map (fun (c : Cmd) =>
      if c.kind = .sort && c.begun && (s.sortingFrame c).any (fun q => q.meets pl 1 1) then
        { c with sort := { c.sort with spoiled := true } } else c) }

def keyemitBody (cx : Ctx) (s : State) : State × Eff :=
  match s.frameOf cx with
  | .error e => (s, .trap e)
  | .ok (_, pl, d) =>
    let c := fieldAt d 0x24 4
    let cap := fieldAt d 0x20 4
    let flags := fieldAt d 0x28 4
    let new := leBytes 4 (Nat.min (c + 1) 0xFFFFFFFF) ++ leBytes 4 (if cap ≤ c then flags / 2 * 2 + 1 else flags)
    let s := ((s.homeLoad cx.t.core pl 128).1.learned cx.k cx.t.core pl d (s.mem.released, s.mem.hostAt) false 0).spoilSorts pl
    let at24 : Place := match pl with | .dev pa b => .dev (pa + 0x24) b | .host pa => .host (pa + 0x24) | p => p
    let s := (s.storeAt cx.t.core at24 new).noteStore cx.k cx.t at24 8 false true
    if c < cap then
      ((s.threadStore cx (fieldAt d 0 8 + 8 * c) 8 cx.va.toNat).threadStore cx (fieldAt d 8 8 + 4 * c) 4 cx.vb.toNat, .next)
    else (s, .next)

/-- Tiles of a frame (R228). -/
def frameTiles (d : List Byte) : Nat := fieldAt d 0x30 8 % 4096 * (fieldAt d 0x30 8 / 4096 % 4096)

/-- The address of the entry that `SPAN` reads. -/
def spanEntry (cx : Ctx) (d : List Byte) : DWord := BitVec.ofNat 64 (fieldAt d 0x38 8 + 8 * (cx.va.toNat % 2 ^ 32))

/-- The checks of R406, in order. -/
def spanPre (cx : Ctx) (s : State) : Option TrapInfo :=
  match s.frameOf cx with
  | .error e => some e
  | .ok (fa, _, d) =>
    if !frameReserved d then some (mkTrap trapEngineParam fa)
    else if cx.va.toNat % 2 ^ 32 < frameTiles d then s.accessCheck cx (spanEntry cx d) 8 8 false else none

def spanBody (cx : Ctx) (s : State) : State × Eff :=
  match s.frameOf cx with
  | .error e => (s, .trap e)
  | .ok (_, de, d) =>
    let s := (s.homeLoad cx.t.core de 128).1.learned cx.k cx.t.core de d (s.mem.released, s.mem.hostAt) false 0
    if cx.va.toNat % 2 ^ 32 < frameTiles d then
      match s.resolve cx.k cx.t (spanEntry cx d) 8 8 false with
      | .error e => (s, .trap e)
      | .ok pl =>
        match s.accessWait pl 8 with
        | some w => (s, .park w)
        | none =>
          let r := s.loadAt cx.t.core pl 8
          let s1 := r.1.learned cx.k cx.t.core pl r.2.1 (s.notesOf cx.t.core pl) false 0
          cx.deliver s1 7 (BitVec.ofNat 128 (leNat r.2.1)) (r.2.2.map (fun u => s.badLoadTrap cx.t.core pl (spanEntry cx d) 8 u))
    else cx.deliver s 7 0 none

/-! ## Gradient reduction (R241 to R245, R372) -/

/-- The size code, global address and region base of a `GRED` address (R241). -/
def gredLgz (ea : DWord) : Nat := ea.toNat / 2 ^ 56
def gredAddr (ea : DWord) : Nat := ea.toNat % 2 ^ 56
def gredBase (ea : DWord) : Nat := gredAddr ea / 2 ^ gredLgz ea * 2 ^ gredLgz ea

/-- Descriptor rules of R241. -/
def gredDescOk (lgz : Nat) (d : List Byte) : Bool :=
  decide (fieldAt d 0 8 / 256 = 1) && decide (1 ≤ fieldAt d 8 8 ∧ fieldAt d 8 8 ≤ (2 ^ lgz - 128) / 16) && (d.drop 0x18).all (fun b => b = 0)

/-- The anchor of a region (R123, R241). -/
def gredAnchor (d : List Byte) : Int := (BitVec.ofNat 8 (fieldAt d 0 1)).toInt

/-- Steps 1 to 3 of R243: the places of the element and of the descriptor. -/
def State.gredAt (s : State) (cx : Ctx) : Except TrapInfo (Place × Place) :=
  let ea := memEa cx
  let lgz := gredLgz ea
  if lgz < 16 || 40 < lgz then .error (mkTrap trapAperture ea)
  else if ea.toNat % 16 ≠ 0 then .error (mkTrap trapMisalignedData ea)
  else
    match s.resolveGlobal cx.t (BitVec.ofNat 64 (gredAddr ea)) 16 true, s.resolveGlobal cx.t (BitVec.ofNat 64 (gredBase ea)) 128 true with
    | .ok el, .ok de => .ok (el, de)
    | _, _ => .error (mkTrap trapTenure (BitVec.ofNat 64 (gredAddr ea)))

/-- The checks of R243 in order: the places of the element and of the descriptor, and the descriptor's bytes. -/
def State.gredPlaces (s : State) (cx : Ctx) : Except TrapInfo (Place × Place × List Byte) :=
  match s.gredAt cx with
  | .error e => .error e
  | .ok (el, de) =>
    let ea := memEa cx
    let base := BitVec.ofNat 64 (gredBase ea)
    let d := s.homeRead de 128
    if (s.pkg.linkFault de 128 false).isSome then .error ⟨trapUncorrectable, base, BitVec.ofNat 32 ((s.pkg.linkFault de 128 false).getD 0), 0, false⟩
    else if s.homeBad de 128 then .error ⟨trapUncorrectable, base, BitVec.ofNat 32 de.unit, 0, false⟩
    else if !gredDescOk (gredLgz ea) d then .error (mkTrap trapEngineParam base)
    else if gredAddr ea < gredBase ea + 128 || fieldAt d 8 8 ≤ (gredAddr ea - gredBase ea - 128) / 16 then .error (mkTrap trapAperture ea)
    else .ok (el, de, d)

def gredPre (cx : Ctx) (s : State) : Option TrapInfo :=
  match s.gredPlaces cx with
  | .error e => some e
  | .ok _ => none

/-- A partial sum joins its element and its region's counters: the sum, the exceptions, and, where an unordered write has left
the element undefined, free values (R244, R245; log 4). -/
def State.mergeAt (s : State) (el cnt : Place) (e : GrcEntry) : State :=
  let old := BitVec.ofNat 128 (leNat (s.homeRead el 16))
  let c := s.homeRead cnt 8
  let bs := if e.torn then freeBytes s.freeCtr 16 else leBytes 16 (old + e.v).toNat
  let counts := leBytes 4 (Nat.min (fieldAt c 0 4 + e.nf) 0xFFFFFFFF) ++ leBytes 4 (Nat.min (fieldAt c 4 4 + e.ov) 0xFFFFFFFF)
  let s := (s.homeWrite el bs).useFree (if e.torn then 16 else 0)
  if e.nf = 0 && e.ov = 0 then s else s.homeWrite cnt counts

/-- The device lines that a merge writes: the element's, and, with exceptions to count, the counter's (R241). -/
def GrcEntry.lines (e : GrcEntry) (el cnt : Place) : List Nat :=
  Piece.lines ⟨el, 16⟩ ++ (if e.nf = 0 && e.ov = 0 then [] else Piece.lines ⟨cnt, 8⟩)

/-- What a merge is about to write is remembered for `FENCEX`, and copies are older than it (R157, R167). -/
def State.noteMerge (s : State) (el cnt : Place) (e : GrcEntry) : State :=
  let notes := (e.lines el cnt).map (fun l => (⟨.merge e.ks, l, (s.mem.stamp l).rts⟩ : EngWrite))
  { s with mem := { s.mem.staleBy (.merge e.ks) (e.lines el cnt) with engWrites := notes ++ s.mem.engWrites } }

/-- A partial sum leaves its cache for its home line, which is poisoned when the cache's unit was (R284). -/
def State.mergeEntry (s : State) (e : GrcEntry) : State :=
  let line := e.addr / 128
  let el : Place := .dev e.addr true
  let cnt : Place := .dev e.counter true
  let s := (s.noteMerge el cnt e).mergeAt el cnt e
  let d := if e.bad then ((List.range 4).map (4 * line + ·)).foldl Store.poison s.mem.dev else s.mem.dev
  { s with mem := { s.mem with dev := d } }

/-- The entry once merged: its sum is zero, and it stays for the threads whose addends no `FENCEX` has ordered (R245). -/
def GrcEntry.spent (e : GrcEntry) : GrcEntry := { e with v := 0, nf := 0, ov := 0, bad := false, torn := false }

/-- The entry holds something to merge. -/
def GrcEntry.full (e : GrcEntry) : Bool := decide (e.v ≠ 0) || decide (e.nf ≠ 0) || decide (e.ov ≠ 0) || e.bad || e.torn

/-- The entries that satisfy a test are merged (R244). -/
def State.mergeWhere (s : State) (f : GrcEntry → Bool) : State :=
  let s' := (s.mem.grc.filter (fun e => f e && e.full)).foldl State.mergeEntry s
  { s' with mem := { s'.mem with grc := s'.mem.grc.map (fun e => if f e then e.spent else e) } }

/-- A thread's earlier `GRED` operations are ordered before what follows (R167). -/
def State.fenceAddends (s : State) (k : Nat) (f : GrcEntry → Bool) : State :=
  let drop := fun (e : GrcEntry) => if f e then { e with ks := serase e.ks k } else e
  let gone := fun (d : DirectAdd) => { d with ks := serase d.ks k }
  { s with mem := { s.mem with
      grc := (s.mem.grc.map drop).filter (fun e => e.full || !e.ks.isEmpty)
      direct := (s.mem.direct.map gone).filter (fun d => !d.ks.isEmpty) } }

/-- An addend reaches its home at once, as no device cache keeps the line (R137, R154). -/
def State.addDirect (s : State) (k : Nat) (el cnt : Place) (e : GrcEntry) : State :=
  let hit := fun (d : DirectAdd) => decide (d.pl = el)
  let s := (s.noteMerge el cnt e).mergeAt el cnt e
  let ks := ((s.mem.direct.find? hit).map (·.ks)).getD []
  { s with mem := { s.mem with direct := ⟨el, sinsert ks k⟩ :: s.mem.direct.filter (fun d => !hit d) } }

/-- Adds to an entry of a table of partial sums, or begins one: regions that overlap keep their exceptions apart (R124, R241). -/
def addPartial (new : GrcEntry) : List GrcEntry → List GrcEntry
  | [] => [new]
  | e :: l =>
    if e.die = new.die && e.addr = new.addr && e.counter = new.counter then
      { e with v := e.v + new.v, nf := e.nf + new.nf, ov := e.ov + new.ov, ks := new.ks.foldl sinsert e.ks, torn := e.torn || new.torn } :: l
    else e :: addPartial new l

/-- A die's cache holds the sums of R14's 16 MiB: beyond them the oldest is merged (log 37). -/
def State.trimGrc (s : State) (die : Nat) : State :=
  let full := s.mem.grc.filter (fun e => e.die = die && e.full)
  if full.length ≤ Config.grcEntries then s
  else match full with
    | e :: _ => s.mergeWhere (fun g => g.die = die && g.addr = e.addr)
    | [] => s

/-- The sort that a blend task's accesses all stand behind (R238). -/
def State.sortBefore (s : State) (task : Nat) : Option WriteSrc := (s.tasks[task]?.bind (·.blend)).map (fun b => .cmd b.sort)

/-- Bytes of a place hold a write that no `FENCEX` has ordered before `GRED` operations (R245); those of `sort` stand before them. -/
def Mem.unordered (m : Mem) (sort : Option WriteSrc) (pl : Place) (n : Nat) : Bool :=
  m.wrote.any (fun w => !(sort == some w.src) && (if w.host then Place.host w.pa else .dev w.pa true).meets pl w.n n)

/-- An accepted addend (R124, R243). An element that an unordered write has reached is undefined from now on (R245). -/
def gredAddBody (cx : Ctx) (s : State) : State × Eff :=
  match s.gredPlaces cx with
  | .error e => (s, .trap e)
  | .ok (el, de, d) =>
    match s.pkg.linkFault el 16 true with
    | some u => (s, .trap ⟨trapUncorrectable, BitVec.ofNat 64 (gredAddr (memEa cx)), BitVec.ofNat 32 u, 0, false⟩)
    | none =>
      let q := afxQuant (gredAnchor d) (fp32.unpack false (cx.vb.toNat % 2 ^ 32))
      let b : Bool → Nat := fun x => if x then 1 else 0
      let die := cx.t.core / Config.coresPerDie
      let sort := s.sortBefore cx.t.task
      let torn := s.mem.unordered sort el 16
      let entry : Nat → Nat → GrcEntry := fun a c => ⟨die, a, c, BitVec.ofInt 128 q.1, b q.2.1, b q.2.2, false, [cx.k], torn⟩
      match el, de with
      | .dev a true, .dev c _ =>
        let s := if torn then s.spoilAt el else s
        (({ s with mem := { s.mem with grc := addPartial (entry a (c + 0x10)) s.mem.grc } } : State).trimGrc die, .next)
      | _, _ =>
        let cnt : Place := match de with | .dev p f => .dev (p + 0x10) f | .host p => .host (p + 0x10) | p => p
        (s.addDirect cx.k el cnt (entry 0 0), .next)

def gredResBody (cx : Ctx) (s : State) : State × Eff :=
  match s.gredPlaces cx with
  | .error e => (s, .trap e)
  | .ok (el, _, d) =>
    let s := match el with
      | .dev a _ => s.mergeWhere (fun e => decide (e.addr = a) && dieInScope cx.t.core e.die (scopeOf cx.x))
      | _ => s
    let v := BitVec.ofNat 128 (leNat (s.homeRead el 16))
    let r := afxToF32 (gredAnchor d) v
    let g := BitVec.ofNat 64 (gredAddr (memEa cx))
    let bad : Option TrapInfo :=
      match s.pkg.linkFault el 16 false with
      | some u => some ⟨trapUncorrectable, g, BitVec.ofNat 32 u, 0, false⟩
      | none => if s.homeBad el 16 then some (s.badTrap el g 16 el.unit) else none
    cx.deliver (if bad.isSome then s else s.raise cx.k r.2) 6 (BitVec.ofNat 128 r.1) bad

/-- LD (R381). -/
def execLd (d : Dst) (a : Fin 128) (off : BitVec 7) (s : State) : Host.Outcome State Fault Refusal := runThread (.ld d a off) ldPre ldBody s

/-- LD_EXT (R381). -/
def execLdExt (x : ExtOp) (s : State) : Host.Outcome State Fault Refusal := runThread (.ldExt x) ldPre ldBody s

/-- ST (R409). -/
def execSt (data : Fin 128) (a : Fin 128) (off : BitVec 7) (s : State) : Host.Outcome State Fault Refusal := runThread (.st data a off) stPre stBody s

/-- ST_EXT (R409). -/
def execStExt (x : ExtOp) (s : State) : Host.Outcome State Fault Refusal := runThread (.stExt x) stPre stBody s

/-- LDC (R384). -/
def execLdc (x : ExtOp) (s : State) : Host.Outcome State Fault Refusal := runThread (.ldc x) ldcPre ldcBody s

/-- PRF (R398). -/
def execPrf (x : ExtOp) (s : State) : Host.Outcome State Fault Refusal := runThread (.prf x) noPre prfBody s

/-- LOCK (R386). -/
def execLock (x : ExtOp) (s : State) : Host.Outcome State Fault Refusal := runThread (.lock x) lockPre lockBody s

/-- UNLOCK (R386). -/
def execUnlock (x : ExtOp) (s : State) : Host.Outcome State Fault Refusal := runThread (.unlock x) lockPre unlockBody s

/-- KEYEMIT (R231). -/
def execKeyemit (x : ExtOp) (s : State) : Host.Outcome State Fault Refusal := runThread (.keyemit x) keyemitPre keyemitBody s

/-- SPAN (R240). -/
def execSpan (x : ExtOp) (s : State) : Host.Outcome State Fault Refusal := runThread (.span x) spanPre spanBody s

/-- GRED_ADD (R243). -/
def execGredAdd (x : ExtOp) (s : State) : Host.Outcome State Fault Refusal := runThread (.gredAdd x) gredPre gredAddBody s

/-- GRED_RES (R243). -/
def execGredRes (x : ExtOp) (s : State) : Host.Outcome State Fault Refusal := runThread (.gredRes x) gredPre gredResBody s

/-- WBACK (R417). -/
def execWback (x : ExtOp) (s : State) : Host.Outcome State Fault Refusal := runThread (.wback x) wbackPre wbackBody s

end Sys2Proof.Machine
end

