-- ==== Sys2Proof/Machine/Boot.lean ====
section
/-! DEFINITION. Resets (R295), the boot sequence (R296) and attestation (R297). -/

namespace Sys2Proof.Machine

/-! ## Resets (R295) -/

/-- What no reset reaches: the module's non-volatile storage, the memory devices' extents, and what the host has
received. -/
def Pkg.kept (p : Pkg) : Pkg :=
  { Pkg.reset with flash := p.flash, sigidx := p.sigidx, unalloc := p.unalloc, msix := p.msix, qerrors := p.qerrors,
                   hostData := p.hostData, remoteData := p.remoteData }

/-- The package after a reset of either kind, its boot sequence about to run, with the memory that it keeps. -/
def State.afterReset (s : State) (p : Pkg) (m : Mem) : State :=
  { State.reset with
    mem := m, pkg := p, win := { Win.reset with state := 1 }, agenda := s.agenda, late := s.late, fill := s.fill,
    freeCtr := s.freeCtr, serial := s.serial }

/-- What stands in a memory from an address on, which begins a poison unit. -/
def Store.above (m : Store) (lo : Nat) : Store := ⟨m.bytes.filter (fun c => decide (lo ≤ c.1)), m.bad.filter (fun u => decide (lo ≤ 32 * u))⟩

/-- All device state is cleared; host memory and the memory of other packages (R265) are no part of the device. The contents of
its own memory are then as of memory that nothing has written (log 2). -/
def State.coldReset (s : State) : State :=
  s.afterReset s.pkg.kept { Mem.reset with dev := s.mem.dev.above farBase, host := s.mem.host }

/-- Partial sums in the gradient reducing caches: no rule says whether a warm reset merges one or drops it, so that a
free choice decides each (log 4). -/
def State.warmSums (s : State) : State :=
  let c := s.freeCtr
  let e := s.mem.grc.zipIdx
  let s := (e.filter (fun x => Config.freeBit (c + x.2))).foldl (fun s x => s.mergeWhere (fun y => y = x.1)) s
  s.useFree e.length

/-- Live tasks are discarded without status writes; memory contents are kept (R295). -/
def State.warmReset (s : State) : State :=
  let s := s.warmSums
  s.afterReset { s.pkg.kept with port := s.pkg.port } { Mem.reset with dev := s.mem.dev, host := s.mem.host }

/-- A reset write while state is 1 is ignored (R295). -/
def State.resetWrite (s : State) (cold : Bool) : State :=
  if s.win.state = 1 then s else if cold then s.coldReset else s.warmReset

/-- POWER_ON (R295). -/
def execPowerOn (s : State) : Host.Outcome State Fault Refusal := .next s.coldReset

/-- COLD_RESET (R295). -/
def execColdReset (s : State) : Host.Outcome State Fault Refusal := .next (s.resetWrite true)

/-- WARM_RESET (R295). -/
def execWarmReset (s : State) : Host.Outcome State Fault Refusal := .next (s.resetWrite false)

/-! ## The boot sequence (R296) -/

/-- A field of `n` bytes at an offset of an image. -/
def imageNat (bs : List Byte) (off n : Nat) : Nat := leNat ((bs.drop off).take n)

/-- Bytes of the header and the body. -/
def imageBody (bs : List Byte) : Nat := 0x40 + imageNat bs 8 4

/-- The image is there: a header, and behind it the body and the signature that it announces. Header bytes 0x0C to
0x3F that are not zero hinder no boot, since R296 gives no failure code for them and R4 does not name images (log 48). -/
def imagePresent (bs : List Byte) : Bool :=
  decide (0x40 ≤ bs.length) && decide (imageNat bs 0 4 = 0x4D484E47) && decide (imageBody bs + 9092 ≤ bs.length)

/-- The image's signature verifies its header and body under the fused root key (R296). -/
def imageVerifies (bs : List Byte) : Bool := xmssVerifies rootKey (bs.take (imageBody bs)) ((bs.drop (imageBody bs)).take 9092)

/-- The failure code of the sequence, 0 for none (R296). -/
def bootFail (r : BootReport) : Nat :=
  if !imagePresent r.image then 1
  else if !imageVerifies r.image then 2
  else if imageNat r.image 4 4 < Config.minVersion then 3
  else if !r.hbmOk then 4 else 0

/-- The scope table of a package: 512 bytes, 0 for its own, 1 to 4 for one that hops reach, else 0xFF (R266). -/
def scopeTable (own : Nat) (bs : List Byte) : List Byte :=
  (List.range 512).map (fun p => if p = own then 0 else if 1 ≤ (bs.getD p 0).toNat ∧ (bs.getD p 0).toNat ≤ 4 then bs.getD p 0 else 0xFF)

/-- Every package but one: what no route reaches when none of its Plogon links works (R267). -/
def othersOf (own : Nat) : List Nat := (List.range 512).filter (fun p => p ≠ own)

/-- What the firmware finds on its links and writes for the package: a CXL memory link that did not train has no capacity (R144). -/
def Pkg.booted (p : Pkg) (r : BootReport) : Pkg :=
  let cxl := (List.range 4).map (fun l => r.cxlUp.getD l false)
  let plogon := (List.range 12).map (fun l => r.plogonUp.getD l false)
  { p with
    index := r.pkg, tpolicy := r.tpolicy, hvec := r.hvec, scope := scopeTable r.pkg.toNat r.scope,
    cap := cxl.zipIdx.map (fun e => if e.1 then r.cap.getD e.2 0 else 0), cxlUp := cxl, plogonUp := plogon,
    noRoute := if plogon.any id then [] else othersOf r.pkg.toNat, unalloc := r.unalloc, flash := r.image }

/-- The boot sequence of a package in state 1. -/
def State.boot (s : State) (r : BootReport) : State :=
  if s.win.state ≠ 1 then s
  else if bootFail r ≠ 0 then { s with win := { s.win with state := 3, fail := BitVec.ofNat 8 (bootFail r) } }
  else
    { s with
      win := { s.win with state := 2, savebase := r.savebase, savesize := r.savesize }
      pkg := s.pkg.booted r }

/-- BOOT (R296). -/
def execBoot (r : BootReport) (s : State) : Host.Outcome State Fault Refusal := .next (s.boot r)

/-! ## Attestation (R297) -/

/-- Signature indices in all. -/
def sigMax : Nat := 2 ^ 20

/-- A write of 1 to attgo (R297). -/
def State.attStart (s : State) : State :=
  if s.win.attst = 1 then s
  else { s with win := { s.win with attst := if s.pkg.sigidx < sigMax then 1 else 3 } }

/-- What the cfg field is taken over (R297; log 8). -/
def State.attCfg (s : State) : List Byte :=
  s.pkg.scope ++ leBytes 8 s.pkg.tpolicy.toNat ++ leBytes 8 s.pkg.hvec.toNat ++ leBytes 8 s.win.savebase.toNat ++
    leBytes 8 s.win.savesize.toNat

/-- The first 256 bytes of a report. -/
def State.attHead (s : State) : List Byte :=
  leBytes 4 1 ++ leBytes 4 0 ++ leBytes 8 Config.serial.toNat ++ leBytes 4 s.pkg.sigidx ++ leBytes 44 0 ++
    s.physRead s.win.attnonce.toNat 64 ++
    shake256 (s.pkg.flash.take (imageBody s.pkg.flash)) ++ shake256 s.attCfg

/-- The report is built, the next index stored, and the report signed and written (R297). -/
def State.attComplete (s : State) : State :=
  if s.win.attst ≠ 1 then s
  else
    let h := s.attHead
    let s' := s.physWrite s.win.attout.toNat (h ++ fixBytes 9732 (Config.reportSignature s.pkg.sigidx h))
    { s' with win := { s'.win with attst := 2 }, pkg := { s'.pkg with sigidx := s'.pkg.sigidx + 1 } }

/-- ATTESTATION_START (R297). -/
def execAttestationStart (s : State) : Host.Outcome State Fault Refusal := .next s.attStart

/-- ATTESTATION_COMPLETE (R297). -/
def execAttestationComplete (s : State) : Host.Outcome State Fault Refusal := .next s.attComplete

end Sys2Proof.Machine
end

