-- ==== Sys2Proof/Machine/Atomic.lean ====
section
/-! DEFINITION. Atomic and synchronisation instructions (R90, 0x60 to 0x67): `ATOM`, single-line regions, fences,
`TWAIT` and barriers. -/

namespace Sys2Proof.Machine

/-! ## `ATOM` (R335 to R337) -/

/-- The new value of an operation on `n` bytes (R336); `none` when nothing is written. -/
def atomNew (op n old y c : Nat) : Option Nat :=
  let w := 8 * n
  let si := fun (v : Nat) => (BitVec.ofNat w v).toInt
  match op with
  | 0 => some y
  | 1 => some ((old + y) % 2 ^ w)
  | 2 => some (Nat.land old y)
  | 3 => some (Nat.lor old y)
  | 4 => some (Nat.xor old y)
  | 5 => some (if si y < si old then y else old)
  | 6 => some (if si old < si y then y else old)
  | 7 => some (Nat.min old y)
  | 8 => some (Nat.max old y)
  | 9 => if old = c then some y else none
  | _ => some (fAdd fp32 .rne false (fp32.unpack false old) (fp32.unpack false y)).1

def atomPre (cx : Ctx) (s : State) : Option TrapInfo := s.accessCheck cx (atomEa cx) (atomBytes cx) (atomBytes cx) true

/-- The line of a place. -/
def Place.line : Place → Place
  | .dev pa b => .dev (pa / 128 * 128) b
  | .host pa => .host (pa / 128 * 128)
  | .tile i o => .tile i (o / 128 * 128)
  | .stack k o => .stack k (o / 128 * 128)

/-- The trap of an `ATOM` on a line that holds poison (R337): its address is that of the first poisoned byte that it accesses, and where
it accesses none, of the first one of the line (R275; log 32). -/
def State.atomTrap (s : State) (pl : Place) (ea : DWord) (n unit : Nat) : TrapInfo :=
  if s.homeBad pl n || (s.pkg.linkFault pl n false).isSome || (s.pkg.linkFault pl n true).isSome then s.badTrap pl ea n unit
  else s.badTrap pl.line (BitVec.ofNat 64 (ea.toNat / 128 * 128)) 128 unit

def atomBody (cx : Ctx) (s : State) : State × Eff :=
  let ea := atomEa cx
  let n := atomBytes cx
  match s.resolve cx.k cx.t ea n n true with
  | .error e => (s, .trap e)
  | .ok pl =>
    match s.accessWait pl n with
    | some w => (s, .park w)
    | none =>
      let r := s.homeLoad cx.t.core pl n
      match (r.2.2.or (s.pkg.linkFault pl n true)).or (if s.homeBad pl.line 128 then some pl.unit else none) with
      | some u => cx.deliver s 2 0 (some (s.atomTrap pl ea n u))
      | none =>
        let old := leNat r.2.1
        let lo := fun (v : QWord) => v.toNat % 2 ^ (8 * n)
        let s := r.1.learned cx.k cx.t.core pl r.2.1 (s.mem.released, s.mem.hostAt) (isAcquire cx) (scopeOf cx.x)
        let s := match atomNew (bitsOf cx.x.func 3 0) n old (lo cx.vb) (lo cx.vc) with
          | some v => ((s.releases cx pl).storeAt cx.t.core pl (leBytes n v)).noteStore cx.k cx.t pl n (isRelease cx) true
          | none => s
        cx.deliver s 2 (BitVec.ofNat 128 old) none

/-! ## Single-line regions (R163, R328, R329) -/

/-- The address lies in a window (R127). -/
def State.inWindow (s : State) (t : Thread) (a : Nat) : Bool :=
  match s.tasks[t.task]? with
  | none => false
  | some task =>
    decide (a < 2 ^ 56) || (decide (tileBase ≤ a ∧ a < tileBase + task.tileWindow) && (s.tileOf t.task t.core).isSome) ||
      decide (stackBase ≤ a ∧ a < stackBase + task.stackBytes)

/-- A global address is mapped to host memory. -/
def State.inHost (s : State) (t : Thread) (a : Nat) : Bool :=
  decide (a < 2 ^ 56) &&
    match s.tasks[t.task]? with
    | none => false
    | some task => (match (task.tlbOf a).or ((s.walkSup task.desc.ptroot a).map (·.tlb)) with | some e => e.host | none => false)

def abeginPre (cx : Ctx) (s : State) : Option TrapInfo :=
  let ea := memEa cx
  if !s.inWindow cx.t ea.toNat then some (mkTrap trapAperture ea)
  else if ea.toNat % 128 ≠ 0 then some (mkTrap trapMisalignedData ea)
  else if s.inHost cx.t ea.toNat then some (mkTrap trapAtomicRegion 0) else none

def abeginBody (cx : Ctx) (s : State) : State × Eff :=
  (s.modThread cx.k (fun t => { t with region := some ⟨cx.t.pc, memEa cx, []⟩ }), .next)

/-- Offset and bytes of an access, and whether it writes. -/
def RegionAcc.span : RegionAcc → Nat × Nat × Bool
  | .load off n _ _ _ _ _ => (off, n, false)
  | .store off n _ => (off, n, true)

/-- The bytes of a place from an offset on, and back. -/
def Place.shift (pl : Place) (d : Int) : Place :=
  match pl with
  | .dev pa b => .dev ((pa : Int) + d).toNat b
  | .host pa => .host ((pa : Int) + d).toNat
  | .tile i o => .tile i ((o : Int) + d).toNat
  | .stack k o => .stack k ((o : Int) + d).toNat

/-- The place of the region's line, by its first access. -/
def State.regionPlace (s : State) (cx : Ctx) (r : Region) : Except TrapInfo Place :=
  match r.accs with
  | [] => .error (mkTrap trapAtomicRegion 0)
  | a :: _ =>
    match s.resolve cx.k cx.t (r.line + BitVec.ofNat 64 a.span.1) a.span.2.1 a.span.2.1 false with
    | .error e => .error e
    | .ok pl => .ok (pl.shift (-(a.span.1 : Int)))

/-- The bytes of a line at an offset. -/
def lineGet (line : List Byte) (off n : Nat) : List Byte := (line.drop off).take n

def linePut (line : List Byte) (off : Nat) (bs : List Byte) : List Byte := line.take off ++ bs ++ line.drop (off + bs.length)

/-- Every `.cmp` load finds what it expects, before any store of the region (R163). -/
def regionMatched (line : List Byte) (accs : List RegionAcc) : Bool :=
  accs.all (fun a => match a with
    | .load off n _ _ _ _ (some e) => decide (leNat (lineGet line off n) = e.toNat)
    | _ => true)

/-- The accesses in program order: the line after them, and each load's destination and value (R163). -/
def regionRun (matched : Bool) : List Byte → List RegionAcc → List Byte × List (Nat × Nat × QWord)
  | line, [] => (line, [])
  | line, .store off n v :: l => regionRun matched (if matched then linePut line off (leBytes n v.toNat) else line) l
  | line, .load off n sx dst cnt lo _ :: l =>
    let v := extendTo sx n (32 * cnt) (leNat (lineGet line off n))
    let r := regionRun matched line l
    (r.1, if lo then r.2 else (dst, cnt, v) :: r.2)

/-- The region's stores reach the line. -/
def State.regionStore (s : State) (cx : Ctx) (pl : Place) : List RegionAcc → State
  | [] => s
  | .store off n v :: l =>
    let q := pl.shift off
    ((s.storeAt cx.t.core q (leBytes n v.toNat)).noteStore cx.k cx.t q n false false).regionStore cx pl l
  | .load _ _ _ _ _ _ _ :: l => s.regionStore cx pl l

/-- Why a region is not performed: no link reaches its line, or the line holds poison, wherever it stands (R329, R263, R267). The
offset of the first poisoned byte, and the unit (R287). -/
def State.regionBad (s : State) (pl : Place) (accs : List RegionAcc) : Option (Nat × Nat) :=
  match s.pkg.linkFault pl 128 (accs.any (fun a => a.span.2.2)) with
  | some u => some (0, u)
  | none =>
    (findIdx id (s.homeTaints pl 128)).map (fun o => (o, pl.unit))

/-- The loads' values reach their registers, at once or, late, as outstanding results of the `ACOMMIT` (R304). -/
def State.regionLoads (s : State) (cx : Ctx) (vs : List (Nat × Nat × QWord)) : State :=
  State.modThread { s with serial := s.serial + 1 } cx.k (fun t =>
    if s.late then { t with pend := t.pend ++ vs.map (fun v => (⟨v.1, v.2.1, 3, v.2.2, none, cx.t.pc, cx.len, false, s.serial⟩ : Pend)) }
    else vs.foldl (fun (t : Thread) v => t.setRegs v.1 v.2.1 v.2.2) t)

def acommitPre (cx : Ctx) (_ : State) : Option TrapInfo := if cx.t.region.isNone then some (mkTrap trapAtomicRegion 0) else none

def acommitBody (cx : Ctx) (s : State) : State × Eff :=
  match cx.t.region with
  | none => (s, .trap (mkTrap trapAtomicRegion 0))
  | some r =>
    let close := fun (s : State) => s.modThread cx.k (fun t => { t with region := none })
    if r.accs.isEmpty then (cx.dstPred (close s) true, .next)
    else match s.regionPlace cx r with
      | .error e => (s, .trap e)
      | .ok pl =>
        match s.accessWait pl 128 with
        | some w => (s, .park w)
        | none =>
          let q := s.homeLoad cx.t.core pl 128
          match s.regionBad pl r.accs with
          | some (o, u) => (s, .trap ⟨trapUncorrectable, r.line + BitVec.ofNat 64 o, BitVec.ofNat 32 u, 0, false⟩)
          | none =>
            let m := regionMatched q.2.1 r.accs
            let run := regionRun m q.2.1 r.accs
            -- what each load read counts as read by the thread (R166, R167)
            let s1 := r.accs.foldl (fun (s1 : State) a => if a.span.2.2 then s1 else
              s1.learned cx.k cx.t.core (pl.shift a.span.1) (lineGet q.2.1 a.span.1 a.span.2.1) (s.mem.released, s.mem.hostAt) false 0) q.1
            let s := if m then s1.regionStore cx pl r.accs else s1
            (cx.dstPred (close (s.regionLoads cx run.2)) m, .next)

/-! ## Fences (R167, R168, R368) -/

/-- An acquire half of a fence discards leased copies of other packages' lines (R170; log 6). -/
def State.fenceAcquire (s : State) (cx : Ctx) : State :=
  if isAcquire cx then s.dropFar cx.t.core (scopeOf cx.x) else s

/-- `FENCE` (R168): `FENCEX.t.t`. A release half performs the thread's own stores at its scope, whereupon no agent there reads what they
replaced (R157); every other access of this model is performed when it is made. -/
def fenceBody (cx : Ctx) (s : State) : State × Eff :=
  let s := if isRelease cx then s.performed cx.t.core (scopeOf cx.x) (fun w => w == .thread cx.k) else s
  (s.fenceAcquire cx, .next)

/-- The command kind of a class code (R156). -/
def classKind (c : Nat) : Option CmdKind :=
  if c = 1 then some .copy else if c = 2 then some .mma else if c = 3 then some .sort else if c = 5 then some .coll else none

/-- A write is one of the earlier class's: the thread's own store, a write of a command of the class that the thread has observed, a
merge with addends of its own `GRED` operations, or a write of the host up to the latest one whose value it has read (R167; log 6). -/
def State.earlierWrite (s : State) (k : Nat) (t : Thread) (e : Nat) (w : WriteSrc) : Bool :=
  match w with
  | .thread j => decide (e = 0 ∧ j = k)
  | .cmd c => decide (c ∈ t.observed) && (s.cmds[c]?.map (fun x => decide (some x.kind = classKind e))).getD false
  | .merge ks => decide (e = 4 ∧ k ∈ ks)
  | .host no => decide (e = 6 ∧ no ≤ t.hostSeen)

/-- The lines that the earlier class wrote, with the rts that they had then (R167). -/
def State.earlierWrites (s : State) (k : Nat) (t : Thread) (e : Nat) : List EngWrite :=
  s.mem.engWrites.filter (fun w => s.earlierWrite k t e w.src)

/-- `FENCEX` (R167): merges of the thread's gradient sums, the earlier class's writes performed at the scope where the order has a release
half (R157), the clock above every rts, writes that a release orders before `GRED` operations (R245), the weight cache (R226). -/
def fencexBody (cx : Ctx) (s : State) : State × Eff :=
  let e := bitsOf cx.x.func 2 0
  let l := bitsOf cx.x.func 5 3
  let core := cx.t.core
  let own := fun (g : GrcEntry) => decide (cx.k ∈ g.ks) && dieInScope core g.die (scopeOf cx.x)
  let s := if e = 4 then (s.mergeWhere own).fenceAddends cx.k own else s
  let s := if isRelease cx then s.performed core (scopeOf cx.x) (s.earlierWrite cx.k cx.t e) else s
  let s := if e ≠ 0 ∧ l = 0 then
      (s.earlierWrites cx.k cx.t e).foldl (fun (s : State) w => s.raiseClock core (w.rts + 1)) s else s
  let s := if l = 4 && isRelease cx then
      { s with mem := { s.mem with wrote := s.mem.wrote.filter (fun w => !s.earlierWrite cx.k cx.t e w.src) } } else s
  let s := if l = 2 then { s with wcache := s.wcache.filter (fun w => w.core ≠ core) } else s
  (s.fenceAcquire cx, .next)

/-! ## Barriers (R191, R192, R338) -/

/-- The count: an immediate is zero-extended (R338). -/
def barCount (cx : Ctx) : Nat := match cx.x.b with | .imm => cx.x.imm.toNat | _ => cx.vb.toNat % 2 ^ 64

/-- The bytes of a barrier after an expectation. -/
def barExpect (b : List Byte) (n : Nat) : List Byte :=
  let p := fieldAt b 0 8
  if 2 ^ 64 ≤ p + n then leBytes 8 (2 ^ 64 - 1) ++ leBytes 4 (fieldAt b 8 4) ++ leBytes 4 (Nat.lor (fieldAt b 12 4) 2)
  else leBytes 8 (p + n) ++ leBytes 4 (fieldAt b 8 4) ++ leBytes 4 (fieldAt b 12 4)

/-- The bytes of a barrier after an arrival. -/
def barArrive (b : List Byte) (n : Nat) : List Byte :=
  let p := fieldAt b 0 8
  let fl := fieldAt b 12 4
  let q := if p < n then 0 else p - n
  let ph := if q = 0 then (fieldAt b 8 4 + 1) % 2 ^ 32 else fieldAt b 8 4
  leBytes 8 q ++ leBytes 4 ph ++ leBytes 4 (if p < n then Nat.lor fl 1 else fl)

/-- The place of a barrier: a stack address is outside every window (R338). -/
def State.barPlace (s : State) (cx : Ctx) (ea : DWord) (w : Bool) : Except TrapInfo Place :=
  if stackBase ≤ ea.toNat ∧ ea.toNat < tileBase then .error (mkTrap trapAperture ea) else s.resolve cx.k cx.t ea 16 16 w

def barPre (cx : Ctx) (s : State) : Option TrapInfo :=
  match s.barPlace cx (barEa cx) true with
  | .error e => some e
  | .ok _ => none

/-- One barrier step: a poisoned barrier reads as poison, a reserved flag is `ENGINE_PARAM` (R192, R287). -/
def barStep (f : List Byte → Nat → List Byte) (cx : Ctx) (s : State) : State × Eff :=
  match s.barPlace cx (barEa cx) true with
  | .error e => (s, .trap e)
  | .ok pl =>
    match s.accessWait pl 16 with
    | some w => (s, .park w)
    | none =>
      let r := s.homeLoad cx.t.core pl 16
      match r.2.2.or (s.pkg.linkFault pl 16 true) with
      | some u => (s, .trap (s.badTrap pl (barEa cx) 16 u))
      | none =>
        if fieldAt r.2.1 12 4 / 8 ≠ 0 then (s, .trap (mkTrap trapEngineParam (barEa cx)))
        else
          let s1 := r.1.learned cx.k cx.t.core pl r.2.1 (s.mem.released, s.mem.hostAt) (isAcquire cx) (scopeOf cx.x)
          let s := ((s1.releases cx pl).storeAt cx.t.core pl (f r.2.1 (barCount cx))).noteStore cx.k cx.t pl 16 (isRelease cx) true
          (s.touch cx.t.task, .next)

def barexpBody (cx : Ctx) (s : State) : State × Eff := barStep barExpect cx s
def bararvBody (cx : Ctx) (s : State) : State × Eff := barStep barArrive cx s

/-! ## `TWAIT` (R189, R190, R415, R416) -/

/-- What a `TWAIT` waits for; the destination predicate is 7 when field d names none. -/
def twaitRec (cx : Ctx) (s : State) : TWaitRec :=
  { form := bitsOf cx.x.func 1 0, wide := cx.x.func.getLsbD 5, cc := bitsOf cx.x.func 3 2, addr := BitVec.ofNat 64 cx.va.toNat,
    val := BitVec.ofNat 64 cx.vb.toNat, hint := cx.x.imm.toNat, acq := isAcquire cx, scope := scopeOf cx.x,
    dst := match cx.x.d with | .reg n => n.val | _ => 7, start := s.time.toNat, next := cx.nextPc,
    popped := match cx.x.b with | .src (.pop c) => (s.chanAt cx.t c.val).map (fun h => (c.val, h.2.last)) | _ => none }

/-- The address that is read: a token's bits 47:0 (R416). -/
def TWaitRec.ea (w : TWaitRec) : DWord := if w.form = 1 then BitVec.ofNat 64 (tokAddr w.addr) else w.addr

/-- Bytes that the condition reads. -/
def TWaitRec.bytes (w : TWaitRec) : Nat := if w.form = 0 then (if w.wide then 8 else 4) else 16

/-- The checks of R416, step 3. -/
def State.twaitPlace (s : State) (k : Nat) (t : Thread) (w : TWaitRec) : Except TrapInfo Place :=
  if w.form = 2 ∧ stackBase ≤ w.ea.toNat ∧ w.ea.toNat < tileBase then .error (mkTrap trapAperture w.ea)
  else s.resolve k t w.ea w.bytes w.bytes false

/-- The null token waits for nothing (R184). -/
def TWaitRec.null (w : TWaitRec) : Bool := decide (w.form = 1 ∧ w.addr = 0)

/-- The condition on the bytes read. -/
def TWaitRec.holds (w : TWaitRec) (bs : List Byte) : Bool :=
  match w.form with
  | 0 =>
    let m := leNat bs
    let v := w.val.toNat % 2 ^ (8 * w.bytes)
    match w.cc with
    | 0 => decide (m = v)
    | 1 => decide (m ≠ v)
    | 2 => decide (v ≤ m)
    | _ => decide (m < v)
  | 1 => tokenDone w.addr (leNat (bs.take 8))
  | _ => decide (fieldAt bs 8 4 ≠ w.val.toNat % 2 ^ 32)

/-- What an evaluation comes to. -/
inductive TWaitEnd where
  | yes (s : State)
  | no (s : State)
  | trap (i : TrapInfo)
  | wait (w : Wait)

/-- The read of an evaluation: a thread-path load for an address condition; a token's record and a barrier, whose every write makes
the device evaluate again, are read at the home (R190). What the read finds noted is beside it. -/
def State.twaitRead (s : State) (core : Nat) (pl : Place) (w : TWaitRec) :
    (State × List Byte × Option Nat) × (List Released × List HostExt) :=
  if w.form = 0 then (s.loadAt core pl w.bytes, s.notesOf core pl) else (s.homeLoad core pl w.bytes, (s.mem.released, s.mem.hostAt))

/-- One evaluation, with the order and scope of mod; a true condition observes the command, or the arrivals, that it waited for
(R166, R190). -/
def State.twaitEval (s : State) (k : Nat) (t : Thread) (w : TWaitRec) : TWaitEnd :=
  if w.null then .yes s
  else match s.twaitPlace k t w with
    | .error e => .trap e
    | .ok pl =>
      match s.accessWait pl w.bytes with
      | some p => .wait p
      | none =>
        let r := s.twaitRead t.core pl w
        match r.1.2.2 with
        | some u => .trap (if w.form = 0 then s.badLoadTrap t.core pl w.ea w.bytes u else s.badTrap pl w.ea w.bytes u)
        | none =>
          let s := r.1.1.learned k t.core pl r.1.2.1 r.2 w.acq w.scope
          if w.holds r.1.2.1 then .yes (if w.form = 2 then s.noteAcquire k r.2.1 pl 16 true else s) else .no s

/-- The barrier of a `TWAIT` that parks is watched for changes (R203). -/
def State.watchBarrier (s : State) (k : Nat) (t : Thread) (w : TWaitRec) : State :=
  if w.form ≠ 2 then s
  else match s.twaitPlace k t w with
    | .error _ => s
    | .ok pl =>
      if s.mem.watched.any (fun v => v.pl.meets pl 1 1) then s
      else { s with mem := { s.mem with watched := ⟨pl, s.time.toNat⟩ :: s.mem.watched } }

def twaitPre (cx : Ctx) (s : State) : Option TrapInfo :=
  let w := twaitRec cx s
  if w.null then none
  else match s.twaitPlace cx.k cx.t w with
    | .error e => some e
    | .ok _ => none

def twaitBody (cx : Ctx) (s : State) : State × Eff :=
  let w := twaitRec cx s
  match s.twaitEval cx.k cx.t w with
  | .yes s => (cx.dstPred s true, .next)
  | .trap i => (s, .trap i)
  | .wait p => (s, .park p)
  | .no s => if w.hint = 0 then (cx.dstPred s false, .next) else ((s.watchBarrier cx.k cx.t w).park cx.k (.twait w), .held)

/-- A parked `TWAIT` ends with a value of its predicate (R40). -/
def State.twaitWake (s : State) (k : Nat) (w : TWaitRec) (b : Bool) : State :=
  (s.modThread k (fun t => t.setPred w.dst b)).wake k w.next

/-- A comparand that a parked `TWAIT` popped stands at the head of its channel again, in its place in the order of R194, as the
instruction has changed nothing (R58, R277, R416; log 14). -/
def State.unpop (s : State) (t : Thread) : State :=
  match t.st with
  | .parked (.twait w) =>
    (match w.popped with
      | none => s
      | some (c, no) => match s.chanAt t c with
        | none => s
        | some (i, h) =>
          let r := h.unpop no (s.freeChunks t.task) (BitVec.ofNat 128 w.val.toNat)
          (s.setChan i r.1).modTask t.task (fun x => { x with chunks := r.2 }))
  | _ => s

/-- A re-evaluation of a parked `TWAIT` (R190, R416); `last` when its time has run out. -/
def State.twaitAgain (s : State) (k : Nat) (t : Thread) (w : TWaitRec) (last : Bool) : State :=
  match s.twaitEval k t w with
  | .yes s => s.twaitWake k w true
  | .trap i => (s.unpop t).takeTrap k i ((w.next - t.pc).toNat / 4) t.pc t.pc false
  | .wait _ => if last then s.twaitWake k w false else s
  | .no s' => if last then s'.twaitWake k w false else s'

/-- ATOM (R336). -/
def execAtom (x : ExtOp) (s : State) : Host.Outcome State Fault Refusal := runThread (.atom x) atomPre atomBody s

/-- ABEGIN (R328). -/
def execAbegin (x : ExtOp) (s : State) : Host.Outcome State Fault Refusal := runThread (.abegin x) abeginPre abeginBody s

/-- ACOMMIT (R329). -/
def execAcommit (x : ExtOp) (s : State) : Host.Outcome State Fault Refusal := runThread (.acommit x) acommitPre acommitBody s

/-- FENCE (R368). -/
def execFence (x : ExtOp) (s : State) : Host.Outcome State Fault Refusal := runThread (.fence x) noPre fenceBody s

/-- FENCEX (R167). -/
def execFencex (x : ExtOp) (s : State) : Host.Outcome State Fault Refusal := runThread (.fencex x) noPre fencexBody s

/-- TWAIT (R190). -/
def execTwait (x : ExtOp) (s : State) : Host.Outcome State Fault Refusal := runThread (.twait x) twaitPre twaitBody s

/-- BAREXP (R192). -/
def execBarexp (x : ExtOp) (s : State) : Host.Outcome State Fault Refusal := runThread (.barexp x) barPre barexpBody s

/-- BARARV (R192). -/
def execBararv (x : ExtOp) (s : State) : Host.Outcome State Fault Refusal := runThread (.bararv x) barPre bararvBody s

end Sys2Proof.Machine
end

