-- ==== Sys2Proof/Machine/Launch.lean ====
section
/-! DEFINITION. Submission queues (R174 to R176), descriptor checks (R177 to R179, R419), launch (R149, R180 to R183)
and the completion of tasks (R187). -/

namespace Sys2Proof.Machine

/-! ## Checks that name a byte (R418) -/

/-- A check that fails with a detail. -/
def chk (ok : Bool) (d : Nat) : Option Nat := if ok then none else some d

/-- A reserved field, `n` bits from bit `b` of the byte at `off`: when it is not zero, the byte of its lowest bit (R418; log 15). -/
def resv (bs : List Byte) (off b n : Nat) : Option Nat :=
  chk (decide (fieldAt bs off (b / 8 + n / 8 + 2) / 2 ^ b % 2 ^ n = 0)) (off + b / 8)

/-- A power of two from 2^lo to 2^hi. -/
def isPow2 (v lo hi : Nat) : Bool := (List.range (hi + 1 - lo)).any (fun i => decide (v = 2 ^ (lo + i)))

/-! ## The descriptor (R177) -/

/-- The descriptor's fields. -/
def parseDesc (b : List Byte) : Desc :=
  { nthreads := fieldAt b 0 4, regs := fieldAt b 4 1, tlog2 := fieldAt b 5 1 % 8, prio := fieldAt b 6 1 % 16,
    replay := decide (fieldAt b 6 1 / 16 % 2 = 1), serial := decide (fieldAt b 6 1 / 32 % 2 = 1),
    msix := decide (fieldAt b 6 1 / 64 % 2 = 1), cscope := fieldAt b 7 1 % 8, stack := fieldAt b 8 2, age := fieldAt b 0xA 2,
    tile := fieldAt b 0xC 2, vector := fieldAt b 0xE 2, entry := BitVec.ofNat 64 (fieldAt b 0x10 8), codebase := fieldAt b 0x18 8,
    codesize := fieldAt b 0x20 8, ptroot := fieldAt b 0x28 8, tenlist := fieldAt b 0x30 8, ntenure := fieldAt b 0x38 2,
    pinq := fieldAt b 0x3A 2, param := fieldAt b 0x40 8, nparam := fieldAt b 0x48 4, chtab := fieldAt b 0x50 8,
    ovfbase := fieldAt b 0x58 8, ovfsize := fieldAt b 0x60 8, tokpool := fieldAt b 0x68 8, ntok := fieldAt b 0x70 4,
    ccount := fieldAt b 0x78 8, status := fieldAt b 0x80 8, handles := fieldAt b 0x88 8, graph := fieldAt b 0x90 8,
    coremask := fieldAt b 0x98 24, deps := (List.range 4).map (fun i => BitVec.ofNat 64 (fieldAt b (0xB0 + 8 * i) 8)),
    ndep := fieldAt b 0xD0 1 % 8, sseq := fieldAt b 0xD2 2 }

/-- A register count (R20). -/
def regsOkB (n : Nat) : Bool := decide (16 ≤ n ∧ n ≤ 128 ∧ n % 8 = 0)

/-- The checks of the descriptor's own fields in ascending offset; `ptroot` is the root that it must name (R179). -/
def descFail (b : List Byte) (ptroot : Nat) : Option Nat :=
  let d := parseDesc b
  [chk (decide (1 ≤ d.nthreads)) 0, chk (regsOkB d.regs) 4, chk (decide (d.tlog2 ≤ 6)) 5, resv b 5 3 5, resv b 6 7 1, resv b 7 3 5,
   chk (decide (2 ≤ d.stack ∧ d.stack ≤ 256)) 8, chk (decide (8 ≤ d.age ∧ d.age ≤ 512)) 0xA, chk (decide (d.tile ≤ 8192)) 0xC,
   chk (!d.msix || decide (d.vector ≤ 2047)) 0xE, chk (decide (d.entry.toNat % 4 = 0)) 0x10, chk (decide (d.codebase % 65536 = 0)) 0x18,
   chk (decide (d.codesize ≠ 0 ∧ d.codesize % 65536 = 0)) 0x20, chk (decide (d.ptroot % 65536 = 0 ∧ d.ptroot = ptroot)) 0x28,
   chk (decide (d.tenlist % 16 = 0)) 0x30, chk (decide (d.ntenure ≤ 1024)) 0x38, resv b 0x3C 0 32, chk (decide (d.param % 8 = 0)) 0x40,
   chk (decide (d.nparam % 8 = 0 ∧ d.nparam ≤ 4096)) 0x48, resv b 0x4C 0 32, chk (decide (d.ovfbase % 65536 = 0)) 0x58,
   chk (decide (d.ovfsize % 65536 = 0)) 0x60, chk (decide (d.tokpool % 16 = 0 ∧ d.tokpool < 2 ^ 48)) 0x68,
   chk (d.ntok = 0 || isPow2 d.ntok 6 16) 0x70, resv b 0x74 0 32, chk (decide (d.ccount % 8 = 0)) 0x78,
   chk (decide (d.status % 16 = 0 ∧ d.status < 2 ^ 48)) 0x80, chk (decide (d.ndep ≤ 4)) 0xD0, resv b 0xD0 3 13, resv b 0xD4 0 352].findSome? id

/-! ## The structures that it names (R419) -/

/-- How a check before launch fails. -/
structure LaunchFail where
  poison : Bool
  detail : Nat
  deriving DecidableEq, Repr

/-- A field of a structure: poisoned bytes come first. -/
def fieldFail (taints : List Bool) (off n : Nat) (f : Option Nat) (base at' : Nat) : Option LaunchFail :=
  if ((taints.drop off).take n).any id then some ⟨true, base + at'⟩
  else f.map (fun d => ⟨false, base + d⟩)

/-- Row 1: the tenure list. -/
def tenlistFail (bs : List Byte) (ts : List Bool) : Nat → Nat → Option LaunchFail
  | _, 0 => none
  | i, n + 1 =>
    let sz := fieldAt bs (16 * i + 8) 8 / 2 * 2
    ((fieldFail ts (16 * i) 8 (chk (decide (fieldAt bs (16 * i) 8 % 65536 = 0)) 0) (0x10000 + 16 * i) 0).or
      (fieldFail ts (16 * i + 8) 8 (chk (decide (sz ≠ 0 ∧ sz % 65536 = 0)) 8) (0x10000 + 16 * i) 8)).or
      (tenlistFail bs ts (i + 1) n)

/-- The regions of a tenure list (R178). -/
def parseTenure (bs : List Byte) (n : Nat) : List TenRegion :=
  (List.range n).map (fun i => ⟨fieldAt bs (16 * i) 8, fieldAt bs (16 * i + 8) 8 / 2 * 2, decide (fieldAt bs (16 * i + 8) 8 % 2 = 1)⟩)

/-- Row 2: one dependence token. -/
def State.depFail (s : State) (ptroot i : Nat) (tok : DWord) : Option LaunchFail :=
  let d := 0xB0 + 8 * i
  if tok = 0 then none
  else if tok.toNat % 16 ≠ 0 then some ⟨false, d⟩
  else match s.devRead ptroot (tokAddr tok) 16 with
    | none => some ⟨false, d⟩
    | some (_, ts) => if ts.any id then some ⟨true, d⟩ else none

/-- Ring bytes of a channel entry, rounded (R193). -/
def entryRing (bs : List Byte) (n : Nat) : Nat :=
  let e := fieldAt bs (8 * n) 8
  (2 ^ (e / 8 % 16) * (4 * 2 ^ (e / 2 % 4)) + 127) / 128 * 128

/-- Row 4: channel entries from `n` on, with the ring bytes of the lower-numbered ones (R193). -/
def chtabFail (bs : List Byte) (ts : List Bool) (tile : Nat) : Nat → Nat → Nat → Option LaunchFail
  | _, _, 0 => none
  | n, sum, k + 1 =>
    let e := fieldAt bs (8 * n) 8
    let base := 0x100 + 8 * n
    let f := fun (off len : Nat) (r : Option Nat) => fieldFail ts (8 * n + off) len r base off
    let zero := fun (off len : Nat) => f off len (chk (decide (fieldAt bs (8 * n + off) len = 0)) off)
    if e % 2 = 0 then
      (((((zero 0 1).or (zero 1 2)).or (zero 3 1)).or (zero 4 2)).or (zero 6 2)).or (chtabFail bs ts tile (n + 1) sum k)
    else
      let sum' := sum + entryRing bs n
      let ring := e / 256 % 65536
      (((((f 0 1 (chk (decide (e / 2 % 4 ≠ 3) && decide (1 ≤ e / 8 % 16 ∧ e / 8 % 16 ≤ 12)) 0)).or
        (f 1 2 (chk (decide (sum' ≤ tile) && decide (128 * ring = tile - sum')) 1))).or
        (zero 3 1)).or
        (f 4 2 (chk (decide (e / 2 ^ 32 % 65536 ≠ 0)) 4))).or
        (zero 6 2)).or (chtabFail bs ts tile (n + 1) sum' k)

/-- The declared channels (R193, R194). -/
def parseChtab (bs : List Byte) : List (Nat × Chan) :=
  (List.range 32).filterMap (fun n =>
    let e := fieldAt bs (8 * n) 8
    if e % 2 = 0 then none
    else some (n, { c := n, width := 4 * 2 ^ (e / 2 % 4), depth := 2 ^ (e / 8 % 16), ext := decide (e / 128 % 2 = 1),
                    thresh := e / 2 ^ 32 % 65536, ring := 128 * (e / 256 % 65536), head := 0, vals := [], spill := [],
                    chunks := [], gone := 0, due := false, full := 0, next := 0, last := 0, back := [] }))

/-- Row 5: the graph descriptor (R197, R4). -/
def graphFail (b : List Byte) (ts : List Bool) : Option LaunchFail :=
  let f := fun (off len : Nat) (r : Option Nat) => fieldFail ts off len r 0x200 off
  let sz := fieldAt b 0xC 4
  [f 0 8 (chk (decide (fieldAt b 0 8 % 64 = 0)) 0), f 8 4 (chk (decide (1 ≤ fieldAt b 8 4 ∧ fieldAt b 8 4 ≤ 65536)) 8),
   f 0xC 4 (chk (decide (sz = 64 ∨ sz = 128 ∨ sz = 192 ∨ sz = 256)) 0xC), f 0x10 8 (chk (decide (fieldAt b 0x10 8 % 256 = 0)) 0x10),
   f 0x18 4 (chk (decide (1 ≤ fieldAt b 0x18 4 ∧ fieldAt b 0x18 4 ≤ 2 ^ 20)) 0x18), f 0x1C 4 (resv b 0x1C 0 32)].findSome? id

/-- Row 6: node entries from `i` on (R198). -/
def nodesFail (bs : List Byte) (ts : List Bool) (slotsize : Nat) : Nat → Nat → Option LaunchFail
  | _, 0 => none
  | i, n + 1 =>
    let b := (bs.drop (64 * i)).take 64
    let t := (ts.drop (64 * i)).take 64
    let f := fun (off len : Nat) (r : Option Nat) => fieldFail t off len r (0x100000 + 64 * i) off
    let rs := fieldAt b 8 2
    (([f 0 8 (chk (decide (fieldAt b 0 8 % 4 = 0)) 0), f 8 2 (chk (decide (4 ≤ rs ∧ rs ≤ slotsize ∧ rs % 4 = 0)) 8),
       f 0xA 1 (chk (decide (1 ≤ fieldAt b 0xA 1 ∧ fieldAt b 0xA 1 ≤ 64)) 0xA), f 0xB 1 (chk (regsOkB (fieldAt b 0xB 1)) 0xB),
       f 0xC 2 (chk (decide (1 ≤ fieldAt b 0xC 2)) 0xC), f 0xE 2 (resv b 0xE 0 16), f 0x10 8 none, f 0x18 40 (resv b 0x18 0 320)].findSome? id).or
      (nodesFail bs ts slotsize (i + 1) n))

/-- The nodes of a graph. -/
def parseNodes (bs : List Byte) (n : Nat) : List Node :=
  (List.range n).map (fun i =>
    let b := (bs.drop (64 * i)).take 64
    { entry := BitVec.ofNat 64 (fieldAt b 0 8), recsize := fieldAt b 8 2, batch := fieldAt b 0xA 1, regs := fieldAt b 0xB 1,
      timeout := fieldAt b 0xC 2, queue := fieldAt b 0x10 8, recs := [] })

/-- `n` bytes at `a` lie wholly within regions of the list with rights `rw` (R419, row 7). -/
def inRw (rs : List TenRegion) (a n : Nat) : Bool :=
  (List.range ((a + n - 1) / 65536 + 1 - a / 65536)).all (fun i => rs.any (fun r => r.rw && r.has (max a ((a / 65536 + i) * 65536))))

/-- Row 7: the regions that must lie in tenure with rights `rw`. -/
def regionsFail (d : Desc) (rs : List TenRegion) (g : Option (Nat × Nat × Nat × List Node)) : Option LaunchFail :=
  let need := fun (a n detail : Nat) => if n = 0 || inRw rs a n then none else some (⟨false, detail⟩ : LaunchFail)
  ((need d.tokpool (16 * d.ntok) 0x68).or (need d.ovfbase d.ovfsize 0x58)).or
    (match g with
      | none => none
      | some (slotsize, pool, nslots, nodes) =>
        (need pool (slotsize * nslots) 0x210).or
          (nodes.zipIdx.findSome? (fun e => need e.1.queue (4 * nslots) (0x100000 + 64 * e.2 + 0x10))))

/-- What the launch reads of the structures. -/
structure Loaded where
  tenure : List TenRegion
  param : Store
  chtab : List (Nat × Chan)
  graph : Option Graph
  deriving DecidableEq, Repr

/-- A parameter copy, kept at the area's own addresses with its poison (R180, R284). -/
def copyParam (a : Nat) (bs : List Byte) (ts : List Bool) : Store := ((⟨[], []⟩ : Store).put a bs).taint a ts

/-- The structures in the order of R419. -/
def State.loadStructs (s : State) (ptroot : Nat) (d : Desc) : Except LaunchFail Loaded :=
  match s.devRead ptroot d.tenlist (16 * d.ntenure) with
  | none => .error ⟨false, 0x30⟩
  | some (tb, tt) =>
    match tenlistFail tb tt 0 d.ntenure with
    | some f => .error f
    | none =>
      match (d.deps.take d.ndep).zipIdx.findSome? (fun e => s.depFail ptroot e.2 e.1) with
      | some f => .error f
      | none =>
        match s.devRead ptroot d.param d.nparam with
        | none => .error ⟨false, 0x40⟩
        | some (pb, pt) =>
          match (if d.chtab = 0 then some ([], []) else s.devRead ptroot d.chtab 256) with
          | none => .error ⟨false, 0x50⟩
          | some (cb, ct) =>
            match (if d.chtab = 0 then none else chtabFail cb ct (128 * d.tile) 0 0 32) with
            | some f => .error f
            | none =>
              let rs := parseTenure tb d.ntenure
              let ok := fun (g : Option Graph) => Loaded.mk rs (copyParam d.param pb pt) (if d.chtab = 0 then [] else parseChtab cb) g
              if d.graph = 0 then
                match regionsFail d rs none with
                | some f => .error f
                | none => .ok (ok none)
              else
                match s.devRead ptroot d.graph 32 with
                | none => .error ⟨false, 0x90⟩
                | some (gb, gt) =>
                  match graphFail gb gt with
                  | some f => .error f
                  | none =>
                    let nn := fieldAt gb 8 4
                    let sz := fieldAt gb 0xC 4
                    match s.devRead ptroot (fieldAt gb 0 8) (64 * nn) with
                    | none => .error ⟨false, 0x200⟩
                    | some (nb, nt) =>
                      match nodesFail nb nt sz 0 nn with
                      | some f => .error f
                      | none =>
                        let nodes := parseNodes nb nn
                        let slots := fieldAt gb 0x18 4
                        match regionsFail d rs (some (sz, fieldAt gb 0x10 8, slots, nodes)) with
                        | some f => .error f
                        | none => .ok (ok (some ⟨sz, fieldAt gb 0x10 8, slots, List.range slots, nodes⟩))

/-! ## Status and completion (R184, R187) -/

/-- The device-held status token of a status record (R184). -/
def statusTok (d : Desc) : DWord := BitVec.ofNat 64 (d.status + d.sseq * 2 ^ 48)

/-- Writes a task's status where it belongs: a spawned task's token record, and its status record when it names one
(R187, R188). Where the status address itself is what R179 rejects, no record is written there (log 41). -/
def State.writeStatus (s : State) (ptroot : Nat) (t : Task) (r : Result) : State :=
  let s := match t.tok with | some k => s.writeToken ptroot k r | none => s
  if t.desc.status = 0 || t.desc.status % 16 ≠ 0 || 2 ^ 48 ≤ t.desc.status then s else s.writeToken ptroot (statusTok t.desc) r

/-- A page that the device's write of a status or token record meets is in migration, so that it waits (R153). -/
def State.statusWait (s : State) (ptroot : Nat) (t : Task) : Bool :=
  (match t.tok with | some k => s.migAt ptroot (tokAddr k) 16 2 | none => false) || (t.desc.status ≠ 0 && s.migAt ptroot t.desc.status 16 2)

/-- The queue areas of a graph task that is over hold no defined contents (R198): free values (log 4). -/
def State.graphGone (s : State) (ptroot : Nat) (g : Graph) : State :=
  g.nodes.foldl (fun (s : State) n => (s.devWrite ptroot n.queue (freeBytes s.freeCtr (4 * g.nslots))).useFree (4 * g.nslots)) s

/-- The task is over: pins, tile allocations, accumulators and tenure holds are released, its status is written, and
its MSI-X interrupt is sent, in the order of R187. -/
def State.retire (s : State) (ti ptroot : Nat) (r : Result) (msix : Bool) : State :=
  match s.tasks[ti]? with
  | none => s
  | some t =>
    let s := { s with
      mem := { s.mem with pins := s.mem.pins.filter (fun p => p.task ≠ ti) }
      tiles := s.tiles.map (fun (a : Tile) => if a.task = ti then { a with live := false, mem := ⟨[], []⟩, absent := [], chans := [] } else a)
      accs := s.accs.filter (fun a => a.task ≠ ti)
      wcache := s.wcache.filter (fun w => w.task ≠ ti) }
    let s := match t.graph with | some g => s.graphGone ptroot g | none => s
    let s := s.modTask ti (fun t => { t with phase := .complete, tlb := [], graph := none, sections := [] })
    let s := s.writeStatus ptroot t r
    let s := match t.parent with | some p => s.freeRecord p (taskOwner ti) | none => s
    if msix && t.desc.msix then { s with pkg := { s.pkg with msix := s.pkg.msix ++ [t.desc.vector] } } else s

/-- Live: begun and not complete (R150). -/
def Task.live (t : Task) : Bool := t.phase ≠ .complete

def State.liveTasks (s : State) : Nat := (s.tasks.filter Task.live).length

/-- The smallest number whose low 16 bits no live task uses (R291). -/
def State.freshNum (s : State) : Nat :=
  ((List.range 65536).find? (fun n => !s.tasks.any (fun t => t.live && t.num.toNat % 65536 = n))).getD 0

/-! ## Beginning a launch (R181) -/

/-- Some structure that R419 reads stands on a page in migration. -/
def State.structsWait (s : State) (ptroot : Nat) (d : Desc) : Bool :=
  let w := fun (a n : Nat) => s.migAt ptroot a n (n / 65536 + 2)
  w d.tenlist (16 * d.ntenure) || (d.deps.take d.ndep).any (fun t => t ≠ 0 && w (tokAddr t) 16) || w d.param d.nparam ||
    (d.chtab ≠ 0 && w d.chtab 256) || (d.graph ≠ 0 && (w d.graph 32 ||
      (match s.devRead ptroot d.graph 32 with
        | some (b, _) => w (fieldAt b 0 8) (64 * fieldAt b 8 4)
        | none => false)))

/-- The checks of R179 and R419 of a task that has begun launch: it waits for its dependences, or is rejected. -/
def State.checkLaunch (s : State) (ti : Nat) : State :=
  match s.tasks[ti]? with
  | none => s
  | some t =>
    -- the root that the descriptor must name (R179)
    let root := t.tlbRoot
    if s.statusWait root t then s
    else match descFail t.raw root with
    | some d => s.retire ti root ⟨stBadParam, d, 0⟩ false
    | none =>
      if s.structsWait root t.desc then s
      else match s.loadStructs root t.desc with
        | .error f => s.retire ti root ⟨if f.poison then stPoison else stBadParam, f.detail, 0⟩ false
        | .ok l =>
          s.modTask ti (fun t => { t with
            phase := .waitDeps, tenure := l.tenure, param := l.param, chtab := l.chtab, graph := l.graph,
            chunks := (List.range (t.desc.ovfsize / 4096)).map (fun i => t.desc.ovfbase + 4096 * i) })

/-- A new task from a descriptor's bytes. -/
def newTask (num serial : Nat) (queue parent : Option Nat) (root cap : Nat) (raw : List Byte) (tok : Option DWord) (blend : Option Blend) : Task :=
  let d := parseDesc raw
  { num := BitVec.ofNat 32 num, queue := queue, parent := parent, prio := min d.prio cap, desc := d, phase := .check,
    param := ⟨[], []⟩, tenure := [], tlb := [], chtab := [], nextTid := 0, exits := 0, tok := tok, tokNext := 0, tokSeq := 1,
    tokBusy := [], graph := none, blend := blend, replayed := false, cause := none, sections := [], lastChange := 0,
    launchNo := serial, chunks := [], raw := raw, tlbRoot := root }

/-- A task begins launch: its descriptor has been read (R176, R181). -/
def State.beginLaunch (s : State) (queue parent : Option Nat) (root cap : Nat) (raw : List Byte) (tok : Option DWord) (blend : Option Blend) : State :=
  let s := { s with tasks := s.tasks ++ [newTask s.freshNum s.serial queue parent root cap raw tok blend], serial := s.serial + 1 }
  s.checkLaunch (s.tasks.length - 1)

/-! ## Submission queues (R174 to R176) -/

def State.queue? (s : State) (q : Nat) : Option Queue := aget s.pkg.queues q

def State.setQueue (s : State) (q : Nat) (x : Queue) : State := { s with pkg := { s.pkg with queues := aset s.pkg.queues q x } }

/-- TAIL_STORE_RECALL (R175): the device reads the tail word again. -/
def State.rereadTail (s : State) (q : Nat) : State :=
  match s.queue? q with
  | none => s
  | some x =>
    if !s.pkg.cacheUp || s.migAt x.ptroot x.tailaddr 4 1 then s
    else match s.devNat x.ptroot x.tailaddr 4 with
      | some v => s.setQueue q { x with tail := BitVec.ofNat 32 v }
      | none => s

/-- The queue stops with `QUEUE_ERROR` (R175). In what form the management queue reports it is open: here the queue's number joins
a list (log 41). -/
def State.queueError (s : State) (q : Nat) (x : Queue) : State :=
  let s := s.setQueue q { x with stopped := true }
  { s with pkg := { s.pkg with qerrors := s.pkg.qerrors ++ [q] } }

/-- SUBMISSION_SLOT_READ (R175, R176). No queue works while the host port runs CXL.io only (R261). -/
def State.readSlot (s : State) (q : Nat) : State :=
  match s.queue? q with
  | none => s
  | some x =>
    if x.stopped || x.head = x.tail || s.win.state ≠ 2 || !s.pkg.cacheUp then s
    else if 2 ^ x.lgsize < (x.tail - x.head).toNat then s.queueError q x
    else
      let a := x.ring + 256 * (x.head.toNat % 2 ^ x.lgsize)
      if s.migAt x.ptroot a 256 2 || s.migAt x.ptroot x.headaddr 4 1 || decide (Config.maxTasks ≤ s.liveTasks) then s
      else match s.devRead x.ptroot a 256 with
        | none => s.queueError q x
        | some (bs, ts) =>
          if ts.any id then s.queueError q x
          else if (parseDesc bs).serial && s.tasks.any (fun t => t.queue = some q && t.live) then s
          else
            let h := x.head + 1
            let s := s.beginLaunch (some q) none x.ptroot x.pcap bs none none
            (s.setQueue q { x with head := h }).devWrite x.ptroot x.headaddr (leBytes 4 h.toNat)

/-! ## Dependences (R181) -/

/-- The first word of a dependence token's record, none while its page is in migration (R153). One that becomes poisoned or unreadable
after the checks at launch, on which the manual is silent, gives none either, so that the launch waits (log 45). -/
def State.depWord (s : State) (ptroot : Nat) (tok : DWord) : Option Nat :=
  if tok = 0 then some 1
  else if s.migAt ptroot (tokAddr tok) 16 2 then none
  else match s.devRead ptroot (tokAddr tok) 16 with
    | none => none
    | some (bs, ts) => if ts.any id then none else some (fieldAt bs 0 8)

/-- A dependence is complete; a null token always is (R184). -/
def State.depDone (s : State) (ptroot : Nat) (tok : DWord) : Bool :=
  tok = 0 || (s.depWord ptroot tok).any (fun w => tokenDone tok w)

/-- A dependence completed with another status than `DONE`. -/
def State.depBad (s : State) (ptroot : Nat) (tok : DWord) : Bool :=
  tok ≠ 0 && (s.depWord ptroot tok).any (fun w => tokenDone tok w && decide (w % 256 ≠ stDone))

/-- TASK_DEPENDENCES_COMPLETE (R181): a launch whose checks waited for a migration makes them first. -/
def State.depsComplete (s : State) (ti : Nat) : State :=
  match s.tasks[ti]? with
  | none => s
  | some t =>
    match t.phase with
    | .check => s.checkLaunch ti
    | .waitDeps =>
      let ds := t.desc.deps.take t.desc.ndep
      match findIdx (s.depBad t.tlbRoot) ds with
      | some i => if s.statusWait t.tlbRoot t then s else s.retire ti t.tlbRoot ⟨stDepFailed, i, 0⟩ true
      | none => if ds.all (s.depDone t.tlbRoot) then s.modTask ti (fun t => { t with phase := .waitTenure }) else s
    | _ => s

/-! ## Tenure (R149) -/

/-- The address of the page-table entry of a page, by which operations and holds on it are compared whatever the root. -/
def State.entryOf (s : State) (root va : Nat) : Option Nat := (s.walk root va).map (·.entry)

/-- A bias flip of the page is in progress (R154). -/
def State.flipping (s : State) (entry : Nat) : Bool :=
  s.pkg.pageOps.any (fun o => !o.mig && o.started && s.entryOf o.ptroot o.va == some entry)

/-- What the walk of a region gives. -/
inductive Grant where
  | ok (l : List Tlb)
  | wait
  | fail (va : Nat)

/-- The pages of a region from `a` to `hi`: step 2 for all of them, then step 3; `fuel` is the leaves that remain. -/
def State.grantRegion (s : State) (root hi : Nat) (w x : Bool) (a : Nat) : Nat → Grant
  | 0 => .ok []
  | fuel + 1 =>
    if hi ≤ a then .ok []
    else match s.walk root a with
      | none => .fail a
      | some l =>
        if !l.tlb.r || (w && !l.tlb.w) || (x && !l.tlb.x) then .fail a
        else
          let busy := l.mig || s.flipping l.entry
          match s.grantRegion root hi w x (l.tlb.va + l.tlb.size) fuel with
          | .fail v => .fail v
          | .wait => .wait
          | .ok ls => if busy then .wait else .ok (l.tlb :: ls)

/-- What the regions in list order give: every translation, or those held so far when a region waits, or the first failure. -/
inductive Granted where
  | ok (l : List Tlb)
  | wait (held : List Tlb)
  | fail (i va : Nat)

/-- The regions in list order, each with whether it needs x: the steps of one are over before the next begins (R149). -/
def State.grantAll (s : State) (root : Nat) (held : List Tlb) : Nat → List (TenRegion × Bool) → Granted
  | _, [] => .ok held
  | i, (r, x) :: l =>
    match s.grantRegion root (r.base + r.size) r.rw x r.base (r.size / 65536 + 2) with
    | .fail v => .fail i v
    | .wait => .wait held
    | .ok ls => s.grantAll root (held ++ ls) (i + 1) l

/-- The regions of a task: its tenure list, and the code region, which needs x. -/
def Task.grantList (t : Task) : List (TenRegion × Bool) :=
  t.tenure.map (fun r => (r, false)) ++ [(⟨t.desc.codebase, t.desc.codesize, false⟩, true)]

/-- TENURE_GRANT (R149): every page is held, or those of the regions before one that waits, or the task completes with
`TENURE_LAUNCH` and holds none. -/
def State.tenureGrant (s : State) (ti : Nat) : State :=
  match s.tasks[ti]? with
  | none => s
  | some t =>
    if t.phase ≠ .waitTenure then s
    else match s.grantAll t.tlbRoot [] 0 t.grantList with
      | .ok ls => s.modTask ti (fun t => { t with phase := .placing, tlb := ls })
      | .wait ls => s.modTask ti (fun t => { t with tlb := ls })
      | .fail i v => if s.statusWait t.tlbRoot t then s else s.retire ti t.tlbRoot ⟨stTenureLaunch, i, v⟩ true

/-! ## Priority (R183) -/

/-- Where the record of a token stands. -/
def State.recordPlace (s : State) (root : Nat) (tok : DWord) : Option Place := (s.walk root (tokAddr tok)).map (fun l => l.tlb.place (tokAddr tok))

/-- Two tokens, each in the address space of its page-table root, are one: the same sequence number in the same record (R184; log 47). -/
def State.sameToken (s : State) (a b : Nat × DWord) : Bool :=
  if a.1 = b.1 ∧ a.2 = b.2 then true
  else a.2 ≠ 0 && b.2 ≠ 0 && decide (tokSeq a.2 = tokSeq b.2) &&
    (match s.recordPlace a.1 a.2, s.recordPlace b.1 b.2 with
      | some p, some q => p = q
      | _, _ => false)

/-- The root of a task's address space. -/
def State.rootOf (s : State) (ti : Nat) : Nat := (s.tasks[ti]?.map (·.tlbRoot)).getD 0

/-- The tokens that a task will complete. -/
def State.willComplete (s : State) (ti : Nat) : List DWord :=
  (s.cmds.filter (fun c => c.task = ti && c.inFlight)).map (·.tok) ++
    (s.tasks.filter (fun t => t.parent = some ti && t.live)).filterMap (·.tok) ++
    ((s.tasks[ti]?.bind (fun t => if t.live then t.tok else none)).toList)

/-- A task waits on one of the tokens of an address space: by a dependence, or by a thread in `TWAIT.tok`. -/
def State.waitsOn (s : State) (u root : Nat) (toks : List DWord) : Bool :=
  match s.tasks[u]? with
  | none => false
  | some t =>
    let on := fun (d : DWord) => d ≠ 0 && toks.any (fun k => s.sameToken (t.tlbRoot, d) (root, k))
    t.live && ((t.desc.deps.take t.desc.ndep).any on ||
      s.threads.any (fun th => th.task = u && (match th.st with | .parked (.twait w) => w.form = 1 && on w.addr | _ => false)))

/-- The greatest own priority among a task and those that wait on it, transitively; `fuel` bounds the chain. -/
def State.effPrioN (s : State) : Nat → Nat → Nat
  | 0, ti => (s.tasks[ti]?.map (·.prio)).getD 0
  | fuel + 1, ti =>
    let toks := s.willComplete ti
    let own := (s.tasks[ti]?.map (·.prio)).getD 0
    if toks.isEmpty then own
    else ((List.range s.tasks.length).filter (fun u => u ≠ ti && s.waitsOn u (s.rootOf ti) toks)).foldl (fun m u => max m (s.effPrioN fuel u)) own

/-- Effective priority (R183). -/
def State.effPrio (s : State) (ti : Nat) : Nat := s.effPrioN s.tasks.length ti

/-- One waiter is served before another: higher effective priority, then earlier launch (R182). -/
def State.servedBefore (s : State) (a b : Nat) : Bool :=
  let no := fun i => (s.tasks[i]?.map (·.launchNo)).getD 0
  decide (s.effPrio b < s.effPrio a) || (decide (s.effPrio a = s.effPrio b) && decide (no a < no b))

/-! ## Placement (R182, R41, R238) -/

/-- The coremask allows a core: all zeros allows every one (R177). -/
def Desc.allows (d : Desc) (core : Nat) : Bool := d.coremask = 0 || decide (d.coremask / 2 ^ core % 2 = 1)

/-- Tile bytes in use on a core. -/
def State.tileUsed (s : State) (core : Nat) : Nat := ((s.tiles.filter (fun a => a.live && a.core = core)).map (·.size)).sum

/-- A task may use a core: allowed, and its allocation stands there or fits (R182). -/
def State.mayUse (s : State) (ti core : Nat) : Bool :=
  match s.tasks[ti]? with
  | none => false
  | some t => t.desc.allows core && ((s.tileOf ti core).isSome || decide (s.tileUsed core + 128 * t.desc.tile ≤ Config.tileStoreBytes))

/-- A task waits to place threads, or to bring a saved section back. -/
def Task.wantsPlace (t : Task) : Bool := t.phase = .placing || (t.live && !t.sections.isEmpty)

/-- No waiter that is served earlier may use the core (R182). -/
def State.mayServe (s : State) (ti core : Nat) : Bool :=
  s.tasks.zipIdx.all (fun e => e.2 = ti || !e.1.wantsPlace || !s.servedBefore e.2 ti || !s.mayUse e.2 core)

def State.slotFree (s : State) (core part slot : Nat) : Bool :=
  decide (slot < Config.slotsPerPart) &&
    !s.threads.any (fun t => t.resident && t.core = core && t.part = part && t.slot = slot)

/-- The task's allocation on a core, made where it does not stand: zeroed, every line present, its rings empty (R131, R194). -/
def State.ensureTile (s : State) (ti core : Nat) : State :=
  match s.tileOf ti core, s.tasks[ti]? with
  | none, some t =>
    { s with tiles := s.tiles ++ [⟨ti, core, 128 * t.desc.tile, ⟨[], []⟩, [], t.chtab.map (·.2), true⟩] }
  | _, _ => s

/-- One thread is placed and filed at its entry (R21), behind every access that comes before its launch: what its core has leased
serves it no more (R171, R200, R238). -/
def State.placeThread (s : State) (t : Thread) : State :=
  let s := { s.syncCore t.core with threads := s.threads ++ [t] }
  s.file (s.threads.length - 1) t.pc

/-- The placement of the next threads of a task: thread number, partition and slot of each. R238 fixes partition and home lane of a wave's
threads: their slots stand in one group of 64 of every partition, in groups that follow one another when P is above 256 (log 49). -/
def nextSpots (t : Task) (part slot : Nat) : List (Nat × Nat × Nat) :=
  match t.blend with
  | none =>
    let n := min (2 ^ t.desc.tlog2) (t.desc.nthreads - t.nextTid)
    (List.range n).map (fun i => (t.nextTid + i, part, slot + i))
  | some b => (List.range b.pix).map (fun p => (t.nextTid + p, p / 64 % 4, 64 * (slot / 64 + p / 256) + p % 64))

/-- TEAM_PLACEMENT: the next team, or the next blend wave, whole or not at all. -/
def State.placeTeam (s : State) (ti core part slot : Nat) : State :=
  match s.tasks[ti]? with
  | none => s
  | some t =>
    let size := 2 ^ t.desc.tlog2
    let spots := nextSpots t part slot
    -- a team of T takes T slots even when its last members are missing (R41)
    let fits := match t.blend with
      | none => decide (slot % size = 0) && (List.range size).all (fun i => s.slotFree core part (slot + i))
      | some _ => spots.all (fun e => s.slotFree core e.2.1 e.2.2)
    if t.phase ≠ .placing || !s.mayUse ti core || !s.mayServe ti core || !fits then s
    else
      let s := s.ensureTile ti core
      let s := spots.foldl (fun s e =>
        s.placeThread (newThread ti none (BitVec.ofNat 32 e.1) (BitVec.ofNat 32 t.desc.nthreads) size core e.2.1 e.2.2 t.desc.regs t.desc.entry (4096 * t.desc.stack))) s
      s.modTask ti (fun t =>
        let n := t.nextTid + spots.length
        { t with nextTid := n, phase := if t.desc.nthreads ≤ n then .running else .placing, lastChange := s.time.toNat })

/-! ## The end (R187, R201) -/

/-- Everything that a task waits for before it completes. -/
def State.finished (s : State) (ti : Nat) (t : Task) : Bool :=
  t.phase = .running && s.threads.all (fun u => u.task ≠ ti || u.exitedB) && s.cmds.all (fun c => c.task ≠ ti || !c.inFlight) &&
    (match t.graph with | some g => g.nodes.all (fun n => n.recs.isEmpty) | none => true)

/-- TASK_COMPLETE (R187). -/
def State.taskComplete (s : State) (ti : Nat) : State :=
  match s.tasks[ti]? with
  | none => s
  | some t =>
    if !s.finished ti t || s.statusWait t.tlbRoot t then s
    else
      let c := t.cause.getD ⟨stDone, 0, 0⟩
      s.retire ti t.tlbRoot ⟨c.st, c.detail, t.exits⟩ true

/-- TAIL_STORE_RECALL (R175). -/
def execTailStoreRecall (q : Fin 64) (s : State) : Host.Outcome State Fault Refusal := .next (s.rereadTail q.val)

/-- SUBMISSION_SLOT_READ (R175). -/
def execSubmissionSlotRead (q : Fin 64) (s : State) : Host.Outcome State Fault Refusal := .next (s.readSlot q.val)

/-- TASK_DEPENDENCES_COMPLETE (R181). -/
def execTaskDependencesComplete (t : Nat) (s : State) : Host.Outcome State Fault Refusal := .next (s.depsComplete t)

/-- TENURE_GRANT (R149). -/
def execTenureGrant (t : Nat) (s : State) : Host.Outcome State Fault Refusal := .next (s.tenureGrant t)

/-- TEAM_PLACEMENT (R182). -/
def execTeamPlacement (t : Nat) (core : Fin 192) (part : Fin 4) (slot : Fin 384) (s : State) : Host.Outcome State Fault Refusal :=
  .next (s.placeTeam t core.val part.val slot.val)

/-- TASK_COMPLETE (R187). -/
def execTaskComplete (t : Nat) (s : State) : Host.Outcome State Fault Refusal := .next (s.taskComplete t)

end Sys2Proof.Machine
end

