-- ==== Sys2Proof/Machine/EngineInstr.lean ====
section
/-! DEFINITION. The engine class (R92, 0x70 to 0x76): launching commands, `EMIT` and `SPAWN`, and joining a Coelostat
tile. -/

namespace Sys2Proof.Machine

/-! ## Shared parts -/

/-- The address operand. -/
def engEa (cx : Ctx) : DWord := BitVec.ofNat 64 cx.va.toNat

def isPush (cx : Ctx) : Bool := match cx.x.d with | .push _ _ => true | _ => false

def State.ntokOf (s : State) (t : Thread) : Nat := (s.tasks[t.task]?.map (fun x => x.desc.ntok)).getD 0

/-- The next record of the task's pool is free (R186). -/
def State.recordFree (s : State) (t : Thread) : Bool := (s.tasks[t.task]?.map Task.tokFree).getD false

/-- Why a thread-path read of several pieces stops. -/
inductive ReadStop where
  | trap (i : TrapInfo)
  | wait (w : Wait)

/-- A thread-path read in pieces of `step` bytes; `n` pieces remain. -/
def State.loadMany (s : State) (k : Nat) (t : Thread) (ea : DWord) (step : Nat) : Nat → Except ReadStop (State × List Byte)
  | 0 => .ok (s, [])
  | n + 1 =>
    match s.resolve k t ea step step false with
    | .error e => .error (.trap e)
    | .ok pl =>
      match s.accessWait pl step with
      | some w => .error (.wait w)
      | none =>
        let r := s.loadAt t.core pl step
        match r.2.2 with
        | some u => .error (.trap (s.badLoadTrap t.core pl ea step u))
        | none =>
          match (r.1.learned k t.core pl r.2.1 (s.notesOf t.core pl) false 0).loadMany k t (ea + BitVec.ofNat 64 step) step n with
          | .error e => .error e
          | .ok (s, bs) => .ok (s, r.2.1 ++ bs)

/-- R129 over a range in pieces: the checks of the whole range at its own address and alignment, then tenure or page
rights of every piece. -/
def State.rangeCheck (s : State) (cx : Ctx) (ea : DWord) (n align step : Nat) : Option TrapInfo :=
  match s.resolve cx.k cx.t ea n align false with
  | .error e => some e
  | .ok _ =>
    (List.range (n / step)).findSome? (fun i =>
      match s.resolve cx.k cx.t (ea + BitVec.ofNat 64 (step * i)) step step false with
      | .error e => some { e with addr := ea }
      | .ok _ => none)

/-- `ntok` = 0 (R186). -/
def State.tokCheck (s : State) (cx : Ctx) : Option TrapInfo :=
  if s.ntokOf cx.t = 0 then some (mkTrap trapEngineParam (engEa cx)) else none

/-- A new command (R206, R233, R252, R268). -/
def newCmd (kind : CmdKind) (cx : Ctx) (tile : Nat) (tok : DWord) (block : List Byte) (no : Nat) : Cmd :=
  { kind := kind, task := cx.t.task, k := cx.k, core := cx.t.core, addr := engEa cx, tok := tok, block := block, st := .queued,
    no := no, mma := ⟨[], true, 0, 0, 256, [], 0, 0⟩, copy := ⟨0, 0, 0, 0, none, false, [], []⟩,
    sort := ⟨0, false, false, 0, 0, [], 0, 0, false⟩, coll := ⟨false⟩, result := ⟨0, 0, 0⟩, leave := false, head := false, tile := tile }

/-- The command takes a record, its token is delivered, and it is queued. -/
def State.queueCmd (s : State) (cx : Ctx) (kind : CmdKind) (block : List Byte) : State :=
  let c := s.cmds.length
  let r := s.takeRecord cx.t.task (cmdOwner c)
  let tile := (s.tileOf cx.t.task cx.t.core).getD s.tiles.length
  let s := { r.1 with cmds := r.1.cmds ++ [newCmd kind cx tile r.2 block r.1.serial], serial := r.1.serial + 1 }
  cx.dst s (BitVec.ofNat 128 r.2.toNat)

/-- The thread side of `MMA`, `SORT` and `COLL` for a block of `n` bytes (R390, R405, R349). -/
def blockPre (n : Nat) (cx : Ctx) (s : State) : Option TrapInfo := (s.accessCheck cx (engEa cx) n n false).or (s.tokCheck cx)

/-- The wait of an engine command's read: with a push, the room for its token is held meanwhile (R420). -/
def holdRoom (cx : Ctx) (w : Wait) : Wait := match cx.x.d with | .push c _ => .room c.val w | _ => w

/-- With a push the record is waited for before the block is read (R420), and otherwise after it (R186). -/
def blockBody (kind : CmdKind) (n : Nat) (cx : Ctx) (s : State) : State × Eff :=
  if isPush cx && !s.recordFree cx.t then (s, .park .record)
  else match s.loadMany cx.k cx.t (engEa cx) n 1 with
    | .error (.trap e) => (s, .trap e)
    | .error (.wait w) => (s, .park (holdRoom cx w))
    | .ok (s, bs) => if !s.recordFree cx.t then (s, .park .record) else (s.queueCmd cx kind bs, .next)

def mmaPre (cx : Ctx) (s : State) : Option TrapInfo := blockPre 128 cx s
def mmaBody (cx : Ctx) (s : State) : State × Eff := blockBody .mma 128 cx s
def sortPre (cx : Ctx) (s : State) : Option TrapInfo := blockPre 64 cx s
def sortBody (cx : Ctx) (s : State) : State × Eff := blockBody .sort 64 cx s
def collPre (cx : Ctx) (s : State) : Option TrapInfo := blockPre 64 cx s
def collBody (cx : Ctx) (s : State) : State × Eff := blockBody .coll 64 cx s

/-! ## Copy chains (R252 to R258) -/

/-- Entry `i` of a chain. -/
def chainEntry (b : List Byte) (i : Nat) : List Byte := (b.drop (128 * i)).take 128

/-- The kind of an entry (R253). -/
def entryKindOf (e : List Byte) : Nat := fieldAt e 0 1 % 16

/-- A signed value of `w` bits. -/
def sint (w v : Nat) : Int := (BitVec.ofNat w v).toInt

/-- MOVE fields (R254): bound, source step and destination step of level `l`. -/
def moveNlev (e : List Byte) : Nat := fieldAt e 0 1 / 16 % 8
def moveRun (e : List Byte) : Nat := fieldAt e 0x18 4
def moveBound (e : List Byte) (l : Nat) : Nat := fieldAt e (0x28 + 16 * l) 4
def moveSstep (e : List Byte) (l : Nat) : Int := sint 32 (fieldAt e (0x30 + 16 * l) 4)
def moveDstep (e : List Byte) (l : Nat) : Int := sint 32 (fieldAt e (0x34 + 16 * l) 4)
/-- Runs of one execution: Πbound. -/
def moveRuns (e : List Byte) : Nat := (List.range (moveNlev e)).foldl (fun p l => p * moveBound e l) 1
/-- Bytes of one execution. -/
def moveTotal (e : List Byte) : Nat := moveRun e * moveRuns e
/-- LOOP fields (R256). -/
def loopTarget (e : List Byte) : Nat := fieldAt e 4 1
def loopCount (e : List Byte) : Nat := fieldAt e 8 4
def loopSoff (e : List Byte) : Int := sint 64 (fieldAt e 0x10 8)
def loopDoff (e : List Byte) : Int := sint 64 (fieldAt e 0x18 8)

/-- Entries of a chain. -/
def chainLen (b : List Byte) : Nat := b.length / 128

/-- The LOOP whose body holds entry `i` (R256). -/
def loopOf (b : List Byte) (i : Nat) : Option Nat :=
  (List.range (chainLen b)).find? (fun j =>
    i < j && entryKindOf (chainEntry b j) = 2 && decide (loopTarget (chainEntry b j) ≤ i))

/-- The sum of the level steps of run `r`, level 0 fastest (R255). -/
def levelSum (step : Nat → Int) (bound : Nat → Nat) : Nat → Nat → Nat → Int
  | _, 0, _ => 0
  | l, n + 1, r => step l * ((r % bound l : Nat) : Int) + levelSum step bound (l + 1) n (r / bound l)

/-- Addresses are modulo 2^64. -/
def wrapAddr (i : Int) : Nat := (BitVec.ofInt 64 i).toNat

/-- Source and destination of run `r` of MOVE `i` in iteration `iter` (R255). -/
def runAddrs (b : List Byte) (i iter r : Nat) : Nat × Nat :=
  let e := chainEntry b i
  let off : Int × Int := match loopOf b i with
    | some j => (loopSoff (chainEntry b j) * iter, loopDoff (chainEntry b j) * iter)
    | none => (0, 0)
  (wrapAddr ((fieldAt e 8 8 : Nat) + off.1 + levelSum (moveSstep e) (moveBound e) 0 (moveNlev e) r),
   wrapAddr ((fieldAt e 0x10 8 : Nat) + off.2 + levelSum (moveDstep e) (moveBound e) 0 (moveNlev e) r))

/-- Executions of an entry: the count of the LOOP that holds it. -/
def itersOf (b : List Byte) (i : Nat) : Nat := match loopOf b i with | some j => loopCount (chainEntry b j) | none => 1

/-- The tile lines that a run writes: none when it crosses the end of its window (R128, R132). -/
def runLines (window d n : Nat) : List Nat :=
  if tileBase ≤ d ∧ d + n ≤ tileBase + window ∧ n ≠ 0 then
    (List.range ((d - tileBase + n - 1) / 128 + 1 - (d - tileBase) / 128)).map ((d - tileBase) / 128 + ·)
  else []

/-- The LOOP that counts the iterations at an entry: the LOOP itself, or the one whose body holds the entry. -/
def loopAt (b : List Byte) (e : Nat) : Option Nat := if entryKindOf (chainEntry b e) = 2 then some e else loopOf b e

/-- The executions after a point in execution order, no COND decided: entry `i` in iteration `k` comes at or after entry
`e` in iteration `it`, where both count within their LOOP. -/
def execAfter (b : List Byte) (e it i k : Nat) : Bool :=
  match loopAt b e, loopOf b i with
  | some p, some q => if p = q then decide (it < k) || (decide (it = k) && decide (e ≤ i)) else decide (e < i)
  | _, _ => decide (e ≤ i)

/-- The footprint of the executions from a point on, the first with its runs from `r0` (R132, R258). -/
def footprint (window : Nat) (b : List Byte) (e it r0 : Nat) : List Nat :=
  (List.range (chainLen b)).foldl (fun l i =>
    if entryKindOf (chainEntry b i) ≠ 1 then l
    else (List.range (itersOf b i)).foldl (fun l k =>
      if !execAfter b e it i k then l
      else (List.range (moveRuns (chainEntry b i))).foldl (fun l r =>
        if i = e ∧ k = it ∧ r < r0 then l
        else (runLines window (runAddrs b i k r).2 (moveRun (chainEntry b i))).foldl sinsert l) l) l) []

/-- The checks of one entry in ascending offset; `n` is the entries of the chain with its END last (R254, R256, R257). A
COND outside a loop body whose skip passes the END fails, and a check that reaches into later entries names the field of its own entry:
skip, eidx, iter or boff (log 50). -/
def entryFail (b : List Byte) (n i : Nat) : Option Nat :=
  let e := chainEntry b i
  let kind := entryKindOf e
  let lv := moveNlev e
  let fs : List (Option Nat) :=
    match kind with
    | 0 => [resv e 0 4 1020]
    | 1 =>
      [chk (decide (lv ≤ 4)) 0, resv e 0 7 57, chk (decide (1 ≤ moveRun e ∧ moveRun e ≤ 2 ^ 24)) 0x18, resv e 0x1C 0 32,
       chk (decide (fieldAt e 0x20 8 % 16 = 0)) 0x20] ++
      (List.range 4).flatMap (fun l =>
        let o := 0x28 + 16 * l
        if l < lv then [chk (decide (1 ≤ moveBound e l ∧ moveBound e l ≤ 2 ^ 24)) o, resv e (o + 4) 0 32] else [resv e o 0 128]) ++
      [resv e 0x68 0 192]
    | 2 =>
      let t := loopTarget e
      let body := (List.range (i - t)).map (t + ·)
      [resv e 0 4 28, chk (decide (t < i) && body.all (fun j => decide (entryKindOf (chainEntry b j) ≠ 2))) 4, resv e 5 0 24,
       chk (decide (1 ≤ loopCount e ∧ loopCount e ≤ 2 ^ 24)) 8, resv e 0xC 0 32, resv e 0x20 0 768]
    | 3 =>
      let sk := fieldAt e 4 1
      let size := if fieldAt e 0 1 / 64 % 2 = 1 then 8 else 4
      let inside := match loopOf b i with | some j => decide (i + sk ≤ j) | none => decide (i + sk < n)
      [resv e 0 8 24, chk (decide (1 ≤ sk) && inside) 4, resv e 5 0 24, chk (decide (fieldAt e 8 8 % size = 0)) 8,
       resv e 0x1C 0 32, resv e 0x20 0 768]
    | 5 => [resv e 0 4 1020]
    | 6 =>
      let x := fieldAt e 4 1
      let m := chainEntry b x
      let cnt := match loopOf b x with | some j => loopCount (chainEntry b j) | none => 1
      [chk (decide (i = 0)) 0, resv e 0 4 28, chk (decide (0 < x ∧ x < n ∧ entryKindOf m = 1)) 4, resv e 5 0 24,
       chk (decide (fieldAt e 8 4 < cnt)) 8, resv e 0xC 0 32, chk (decide (fieldAt e 0x10 8 ≤ moveTotal m)) 0x10, resv e 0x20 0 768]
    | _ => [some 0]
  fs.findSome? id

/-- The detail of a rejected chain. With no END, the kind of entry 255 fails, ahead of that entry's other fields (R258, R418). -/
def chainFail (b : List Byte) : Option Nat :=
  let n := chainLen b
  let one := fun (i : Nat) => (entryFail b n i).map (fun d => 128 * i + d)
  if (List.range n).any (fun i => entryKindOf (chainEntry b i) = 5) then (List.range n).findSome? one
  else ((List.range (n - 1)).findSome? one).or (some 0x7F80)

/-- How the reading of a chain ends. -/
inductive ChainRead where
  | ok (s : State) (b : List Byte)
  | stop (r : ReadStop)

/-- The chain from entry `i` up to the first END or to 256 entries, each entry checked as it is read (R252). -/
def State.readChain (s : State) (k : Nat) (t : Thread) (ea : DWord) : Nat → List Byte → ChainRead
  | 0, b => .ok s b
  | n + 1, b =>
    match s.loadMany k t ea 128 1 with
    | .error r => .stop r
    | .ok (s, e) => if entryKindOf e = 5 then .ok s (b ++ e) else s.readChain k t (ea + 128) n (b ++ e)

/-- The checks of R350, steps 1 to 3, and of `ntok` (R252). R350 puts the checks of the later entries ahead of the wait for room, so
that poison in the chain traps ahead of it too (log 44). -/
def copyPre (cx : Ctx) (s : State) : Option TrapInfo :=
  match s.accessCheck cx (engEa cx) 128 128 false with
  | some e => some e
  | none =>
    if (engEa cx).toNat < tileBase then some (mkTrap trapEngineParam (engEa cx))
    else if s.ntokOf cx.t = 0 then some (mkTrap trapEngineParam (engEa cx))
    else match s.readChain cx.k cx.t (engEa cx) 256 [] with
      | .stop (.trap e) => some e
      | _ => none

/-- Bytes of the task's tile window. -/
def State.windowOf (s : State) (ti : Nat) : Nat := (s.tasks[ti]?.map Task.tileWindow).getD 0

/-- Where an accepted chain begins: behind a RESUME at its restart point (R259). -/
def copyBegin (b : List Byte) : CopyRun :=
  let e := chainEntry b 0
  if entryKindOf e = 6 then ⟨fieldAt e 4 1, fieldAt e 8 4, fieldAt e 0x10 8, fieldAt e 0x18 8, none, false, [], []⟩
  else ⟨0, 0, 0, 0, none, false, [], []⟩

/-- The copy in the last place of the command list is checked: a rejected one completes, an accepted one clears the
presence bits of its footprint (R132, R258). -/
def State.admitCopy (s : State) (c : Nat) : State :=
  match s.cmds[c]? with
  | none => s
  | some cmd =>
    match chainFail cmd.block with
    | some d => s.completeCmd c ⟨stBadParam, d, 0⟩
    | none =>
      let f := footprint (s.windowOf cmd.task) cmd.block 0 0 0
      (s.modCmd c (fun x => { x with copy := { copyBegin cmd.block with landing := f } })).modTile cmd.tile
        (fun a => { a with absent := f.foldl sinsert a.absent })

def copyBody (cx : Ctx) (s : State) : State × Eff :=
  if isPush cx && !s.recordFree cx.t then (s, .park .record)
  else match s.readChain cx.k cx.t (engEa cx) 256 [] with
    | .stop (.trap e) => (s, .trap e)
    | .stop (.wait w) => (s, .park (holdRoom cx w))
    | .ok s b =>
      if !s.recordFree cx.t then (s, .park .record)
      else
        let s := s.queueCmd cx .copy b
        (s.admitCopy (s.cmds.length - 1), .next)

/-! ## `EMIT` (R199, R358) -/

def emitNode (cx : Ctx) : Nat := bitsOf cx.x.imm 15 0

/-- The graph and the node that the thread names. -/
def State.emitTarget (s : State) (cx : Ctx) : Option (Graph × Node) :=
  match s.tasks[cx.t.task]? with
  | none => none
  | some t =>
    match t.graph with
    | none => none
    | some g => (g.nodes[emitNode cx]?).map (fun n => (g, n))

def emitPre (cx : Ctx) (s : State) : Option TrapInfo :=
  match s.emitTarget cx with
  | none => some (mkTrap trapEngineParam 0)
  | some (_, n) => s.rangeCheck cx (engEa cx) n.recsize 4 4

/-- Slots of the task's pool that emitters have taken whose records are still being read (R358). -/
def State.heldSlots (s : State) (task : Nat) : Nat :=
  (s.threads.filter (fun u => u.task = task && (match u.st with | .parked (.slot _ _) => true | _ => false))).length

/-- Another thread of the task is parked at an `EMIT`, so that a slot is its to have (R199). -/
def State.emitterWaits (s : State) (cx : Ctx) : Bool :=
  s.threads.any (fun u => u.task = cx.t.task && (match u.st with | .parked (.emit _) => true | _ => false))

/-- Thread-path stores of words at a pool slot, whose link must reach it (R263, R267). -/
def State.storeWords (s : State) (k : Nat) (t : Thread) (ea : DWord) : List Byte → Nat → Except TrapInfo State
  | _, 0 => .ok s
  | bs, n + 1 =>
    match s.resolve k t ea 4 4 true with
    | .error e => .error e
    | .ok pl =>
      match s.pkg.linkFault pl 4 true with
      | some u => .error ⟨trapUncorrectable, ea, BitVec.ofNat 32 u, 0, false⟩
      | none => ((s.storeAt t.core pl (bs.take 4)).noteStore k t pl 4 false false).storeWords k t (ea + 4) (bs.drop 4) n

/-- A slot is taken first, and held while the record is read (R358). The record is copied to the oldest free slot, whose bytes beyond it
become free values (R314, log 4), and the slot is appended to the node's queue. -/
def emitBody (cx : Ctx) (s : State) : State × Eff :=
  match s.emitTarget cx with
  | none => (s, .trap (mkTrap trapEngineParam 0))
  | some (g, n) =>
    let waking := (s.front.issue.map (·.wake)).getD false
    match g.free with
    | [] => (s, .park (.emit (emitNode cx)))
    | slot :: rest =>
      if rest.length < s.heldSlots cx.t.task || s.emitterWaits cx && !waking then (s, .park (.emit (emitNode cx)))
      else match s.loadMany cx.k cx.t (engEa cx) 4 (n.recsize / 4) with
        | .error (.trap e) => (s, .trap e)
        | .error (.wait w) => (s, .park (.slot (emitNode cx) w))
        | .ok (s, bs) =>
          let pad := freeBytes s.freeCtr (g.slotsize - n.recsize)
          match (s.useFree (g.slotsize - n.recsize)).storeWords cx.k cx.t (BitVec.ofNat 64 (g.pool + g.slotsize * slot)) (bs ++ pad) (g.slotsize / 4) with
          | .error e => (s, .trap e)
          | .ok s =>
            let put := fun (m : Node) => { m with recs := m.recs ++ [(slot, s.time.toNat)] }
            let file := fun (g : Graph) => { g with free := rest, nodes := g.nodes.modify (emitNode cx) put }
            ((s.modTask cx.t.task (fun t => { t with graph := t.graph.map file })).touch cx.t.task, .next)

/-! ## `SPAWN` (R188, R407) -/

def spawnN (cx : Ctx) : Nat := bitsOf cx.x.func 2 0
def spawnList (cx : Ctx) : DWord := BitVec.ofNat 64 cx.vc.toNat

def spawnPre (cx : Ctx) (s : State) : Option TrapInfo :=
  ((s.rangeCheck cx (engEa cx) 256 64 64).or
    (if spawnN cx = 0 then none else s.rangeCheck cx (spawnList cx) (8 * spawnN cx) 8 8)).or (s.tokCheck cx)

/-- Bytes of a structure replaced at an offset. -/
def setBytes (bs : List Byte) (off : Nat) (new : List Byte) : List Byte := bs.take off ++ new ++ bs.drop (off + new.length)

/-- The descriptor with its dependences from the list and ndep := n (R188). -/
def spawnDesc (d toks : List Byte) (n : Nat) : List Byte :=
  setBytes (setBytes d 0xB0 toks) 0xD0 [BitVec.ofNat 8 (fieldAt d 0xD0 1 / 8 * 8 + n)]

def spawnBody (cx : Ctx) (s : State) : State × Eff :=
  let n := spawnN cx
  if isPush cx && !s.recordFree cx.t then (s, .park .record)
  else match s.loadMany cx.k cx.t (engEa cx) 64 4 with
    | .error (.trap e) => (s, .trap e)
    | .error (.wait w) => (s, .park (holdRoom cx w))
    | .ok (s, d) =>
      match s.loadMany cx.k cx.t (spawnList cx) 8 n with
      | .error (.trap e) => (s, .trap e)
      | .error (.wait w) => (s, .park (holdRoom cx w))
      | .ok (s, toks) =>
        if !s.recordFree cx.t then (s, .park .record)
        else if Config.maxTasks ≤ s.liveTasks then (s, .park (holdRoom cx .taskRoom))
        else
          match s.tasks[cx.t.task]? with
          | none => (s, .next)
          | some t =>
            let r := s.takeRecord cx.t.task (taskOwner s.tasks.length)
            (cx.dst (r.1.beginLaunch none (some cx.t.task) t.tlbRoot t.prio (spawnDesc d toks n) (some r.2) none) (BitVec.ofNat 128 r.2.toNat), .next)

/-! ## `NEVAL`: joining a tile (R222 to R224, R393) -/

/-- The descriptor keeps to R223. -/
def nevDescOk (d : List Byte) : Bool :=
  let n := nevLayers d
  decide (1 ≤ n ∧ n ≤ 4) && decide (1 ≤ nevIn d ∧ nevIn d ≤ 32) && decide (1 ≤ nevOut d ∧ nevOut d ≤ 16) &&
    (resv d 0 3 5).isNone && (resv d 1 6 2).isNone && (resv d 2 5 107).isNone &&
    (List.range 4).all (fun l =>
      let o := 0x10 + 24 * l
      if l < n then
        let w := nevWidth d l
        (if l + 1 = n then decide (w = nevOut d) else decide (8 ≤ w ∧ w ≤ 64 ∧ w % 8 = 0)) && (resv d o 7 1).isNone &&
          (resv d o 11 53).isNone && decide (fieldAt d (o + 8) 8 % 16 = 0) && decide (fieldAt d (o + 16) 8 % 4 = 0)
      else (resv d o 0 192).isNone) && (resv d 0x70 0 128).isNone

/-- Cause codes of R218; for a fetch that meets a failed link, which R218 and R226 do not list, the cause code is 0 (log 46). -/
def causeOf (f : EngFail) : Nat := match f with | .window => 1 | .tenure => 3 | .poison => 4 | .linkDown => 0 | .full => 0

/-- The trap of R226. -/
def nevalTrap (handle layer cause : Nat) : TrapInfo :=
  ⟨trapEngineFault, 0, BitVec.ofNat 32 (handle + layer * 256 + cause * 65536), 0, false⟩

/-- An extent of a task lies nowhere on a page of host bias, whose lines no device cache keeps (R154, R262). -/
def State.keepable (s : State) (ti tile a n : Nat) : Bool :=
  match s.engPieces ti tile a n false false with
  | .ok ps => ps.all (fun p => match p.place with | .dev _ c => c | _ => true)
  | .error _ => false

/-- A piece joins a core's weight cache of 64 KiB, in which the oldest give way (R14; log 37). -/
def addWeight (w : WCache) (ws : List WCache) : List WCache :=
  let own := w :: ws.filter (fun v => v.core = w.core)
  let kept := (own.foldl (fun (a : Nat × List WCache) v =>
    if a.1 + v.data.length ≤ Config.weightBytes then (a.1 + v.data.length, a.2 ++ [v]) else a) (0, [])).2
  kept ++ ws.filter (fun v => v.core ≠ w.core)

/-- A fetch through a core's weight cache: what stands there is used, and a fetch from memory may leave a copy (R224;
log 6). -/
def State.weightRead (s : State) (ti core tile a n : Nat) : Except EngFail (State × List Byte) :=
  match s.wcache.find? (fun w => w.core = core && w.task = ti && w.addr.toNat = a && w.data.length = n) with
  | some w => if w.bad then .error .poison else .ok (s, w.data)
  | none =>
    match s.engRead ti tile a n false with
    | .error f => .error f
    | .ok bs =>
      .ok (if s.fill && s.keepable ti tile a n then { s with wcache := addWeight ⟨core, ti, BitVec.ofNat 64 a, bs, false⟩ s.wcache } else s, bs)

/-- A fetch through the weight cache, of what does not stand there, waits for absent tile lines (R133). -/
def State.weightAbsent (s : State) (ti core tile a n : Nat) : Option Wait :=
  if s.wcache.any (fun w => w.core = core && w.task = ti && w.addr.toNat = a && w.data.length = n) || !s.engAbsent tile a n [] then none
  else some (.presence ((a - tileBase) / 128) ((a - tileBase + n - 1) / 128 + 1 - (a - tileBase) / 128))

/-- The handle table entry, or the descriptor that it names, stands on an absent tile line (R133). -/
def State.nevalAbsent (s : State) (cx : Ctx) : Option Wait :=
  let tile := (s.tileOf cx.t.task cx.t.core).getD s.tiles.length
  match s.tasks[cx.t.task]? with
  | none => none
  | some t =>
    let at' := t.desc.handles + 8 * bitsOf cx.x.imm 5 0
    if t.desc.handles = 0 then none
    else (s.weightAbsent cx.t.task cx.t.core tile at' 8).or
      (match s.weightRead cx.t.task cx.t.core tile at' 8 with
        | .error _ => none
        | .ok (_, e) => s.weightAbsent cx.t.task cx.t.core tile (leNat e) 128)

/-- What steps 1 and 2 of R224 find: the descriptor and its address, or a trap; what cannot be fetched fails before what is
wrong in it (R393). -/
def State.nevalFetch (s : State) (cx : Ctx) : Except TrapInfo (State × Nat × List Byte) :=
  let h := bitsOf cx.x.imm 5 0
  let tile := (s.tileOf cx.t.task cx.t.core).getD s.tiles.length
  match s.tasks[cx.t.task]? with
  | none => .error (mkTrap trapEngineParam 0)
  | some t =>
    if t.desc.handles = 0 then .error (mkTrap trapEngineParam 0)
    else match s.weightRead cx.t.task cx.t.core tile (t.desc.handles + 8 * h) 8 with
      | .error f => .error (nevalTrap h 7 (causeOf f))
      | .ok (s, e) =>
        let a := leNat e
        if a = 0 then .error (mkTrap trapEngineParam 0)
        else match s.weightRead cx.t.task cx.t.core tile a 128 with
          | .error f => .error (nevalTrap h 7 (causeOf f))
          | .ok (s, d) => if a % 128 ≠ 0 || 2 ^ 56 ≤ a then .error (mkTrap trapEngineParam (BitVec.ofNat 64 a)) else .ok (s, a, d)

/-- A block of registers that the thread has (R22, R224). -/
def blockOk (regsN first n : Nat) : Bool := decide (first + n ≤ 128) && (List.range n).all (fun i => hasReg regsN (first + i))

def firstReg (x : Src) : Nat := match x with | .reg n _ => n.val | _ => 0
def firstDst (x : Dst) : Nat := match x with | .reg n => n.val | _ => 0

def nevalPre (cx : Ctx) (s : State) : Option TrapInfo :=
  if (s.nevalAbsent cx).isSome then none
  else match s.nevalFetch cx with
  | .error e => if e.code = trapEngineFault ∧ (e.detail.toNat / 65536 = 3) then none else some e
  | .ok (_, a, d) =>
    if nevDescOk d && blockOk cx.t.regsN (firstReg cx.x.a) (nevIn d) && blockOk cx.t.regsN (firstDst cx.x.d) (nevOut d) then
      -- the inputs are read at the join: a register in error traps there (R287)
      if (List.range (nevIn d)).any (fun i => decide (firstReg cx.x.a + i ∈ cx.t.badRegs)) then some ⟨trapUncorrectable, cx.t.pc, 2, 0, false⟩ else none
    else some (mkTrap trapEngineParam (BitVec.ofNat 64 a))

/-- The open tile of the thread's core for its task and handle. -/
def State.openTile (s : State) (cx : Ctx) (h : Nat) : Option Nat :=
  findIdx (fun (n : NTile) => n.live && !n.closed && n.task = cx.t.task && n.core = cx.t.core && n.handle = h) s.ntiles

/-- A tenure failure is the cause with which the task will complete, whatever the policy of the trap that reports it
(R151). -/
def State.tenureCause (s : State) (ti : Nat) : State :=
  s.modTask ti (fun t => { t with cause := t.cause.or (some ⟨stTenure, 0, 0⟩) })

/-- The thread's row joins a tile, which closes at 64 rows, or at once where a stop request waits for the thread; the thread parks
until its outputs are written. A tile keeps the descriptor that its first joiner fetched, whatever a later joiner of the same handle
fetched (log 44). A tenure failure of step 1 ends the task (R226, R151). -/
def nevalBody (cx : Ctx) (s : State) : State × Eff :=
  let h := bitsOf cx.x.imm 5 0
  match s.nevalAbsent cx with
  | some w => (s, .park w)
  | none =>
  match s.nevalFetch cx with
  | .error e =>
    (((s.tenureCause cx.t.task).takeTrap cx.k e (cx.len / 4) cx.t.pc cx.t.pc false).endTask cx.t.task ⟨stTenure, 0, 0⟩, .gone)
  | .ok (s, _, d) =>
    let ins := (List.range (nevIn d)).map (fun i => BitVec.ofNat 32 (readRegs cx.t.regs (firstReg cx.x.a + i) 1))
    let row : NRow := ⟨cx.k, firstDst cx.x.d, cx.len, ins⟩
    let stop := s.stopPending cx.t
    let s := s.park cx.k .neval
    match s.openTile cx h with
    | some i =>
      let s := { s with ntiles := s.ntiles.modify i (fun (n : NTile) => { n with rows := n.rows ++ [row] }) }
      (if stop || (s.ntiles[i]?.map (fun n => decide (64 ≤ n.rows.length))).getD false then s.closeTile i else s, .held)
    | none =>
      let s := { s with ntiles := s.ntiles ++ [⟨cx.t.task, cx.t.core, h, s.time.toNat, false, [row], d, true⟩] }
      (if stop then s.closeTile (s.ntiles.length - 1) else s, .held)

/-- MMA (R206). -/
def execMma (x : ExtOp) (s : State) : Host.Outcome State Fault Refusal := runThread (.mma x) mmaPre mmaBody s

/-- NEVAL (R224). -/
def execNeval (x : ExtOp) (s : State) : Host.Outcome State Fault Refusal := runThread (.neval x) nevalPre nevalBody s

/-- COPY (R252). -/
def execCopy (x : ExtOp) (s : State) : Host.Outcome State Fault Refusal := runThread (.copy x) copyPre copyBody s

/-- SORT (R405). -/
def execSort (x : ExtOp) (s : State) : Host.Outcome State Fault Refusal := runThread (.sort x) sortPre sortBody s

/-- COLL (R349). -/
def execColl (x : ExtOp) (s : State) : Host.Outcome State Fault Refusal := runThread (.coll x) collPre collBody s

/-- EMIT (R358). -/
def execEmit (x : ExtOp) (s : State) : Host.Outcome State Fault Refusal := runThread (.emit x) emitPre emitBody s

/-- SPAWN (R188). -/
def execSpawn (x : ExtOp) (s : State) : Host.Outcome State Fault Refusal := runThread (.spawn x) spawnPre spawnBody s

end Sys2Proof.Machine
end

