-- ==== Sys2Proof/Machine/Matrix.lean ====
section
/-! DEFINITION. The matrix engine's commands (R207 to R221): the parameter block and its checks, the loop nest, steps,
drains, faults and leave. -/

namespace Sys2Proof.Machine

/-! ## The parameter block (R208, R209) -/

/-- Bits hi:lo of the 8 bytes at an offset of a block. -/
def blk (b : List Byte) (off hi lo : Nat) : Nat := fld (fieldAt b off 8) hi lo

def mAtype (b : List Byte) : Nat := blk b 0 3 0
def mBtype (b : List Byte) : Nat := blk b 0 7 4
def mDtype (b : List Byte) : Nat := blk b 0 10 8
def mDrain (b : List Byte) : Nat := blk b 0 12 11
def mInit (b : List Byte) : Bool := blk b 0 13 13 = 1
def mCont (b : List Byte) : Bool := blk b 0 14 14 = 1
def mSparse (b : List Byte) : Nat := blk b 0 16 15
def mPair (b : List Byte) : Bool := blk b 0 17 17 = 1
def mScaled (b : List Byte) : Bool := blk b 0 18 18 = 1
def mNlev (b : List Byte) : Nat := blk b 0 21 19
def mDlev (b : List Byte) : Nat := blk b 0 24 22
def mTm (b : List Byte) : Nat := blk b 8 7 0
def mTn (b : List Byte) : Nat := blk b 8 17 8
def mTk (b : List Byte) : Nat := blk b 8 30 18
def mAccbase (b : List Byte) : Nat := blk b 8 39 32
def mMtot (b : List Byte) : Nat := fieldAt b 0x10 4
def mNtot (b : List Byte) : Nat := fieldAt b 0x14 4
def mKtot (b : List Byte) : Nat := fieldAt b 0x18 4
def mMdld (b : List Byte) : Nat := fieldAt b 0x1C 4
def mAbase (b : List Byte) : Nat := fieldAt b 0x20 8
def mBbase (b : List Byte) : Nat := fieldAt b 0x28 8
def mDbase (b : List Byte) : Nat := fieldAt b 0x30 8
def mSbase (b : List Byte) : Nat := fieldAt b 0x38 8
def mMdbase (b : List Byte) : Nat := fieldAt b 0x40 8
def mAlda (b : List Byte) : Nat := fieldAt b 0x48 4
def mBldb (b : List Byte) : Nat := fieldAt b 0x4C 4
def mDld (b : List Byte) : Nat := fieldAt b 0x50 4
def lBound (b : List Byte) (l : Nat) : Nat := blk b (0x58 + 8 * l) 11 0
def lStart (b : List Byte) (l : Nat) : Nat := blk b (0x58 + 8 * l) 23 12
def lDm (b : List Byte) (l : Nat) : Nat := blk b (0x58 + 8 * l) 36 24
def lDn (b : List Byte) (l : Nat) : Nat := blk b (0x58 + 8 * l) 49 37
def lDk (b : List Byte) (l : Nat) : Nat := blk b (0x58 + 8 * l) 63 50

/-- Element bytes of an operand type; I4 packs two in one. -/
def typeSize (t : Nat) : Nat := if t ≤ 1 then 2 else 1
/-- Element bytes of D. -/
def dSize (t : Nat) : Nat := if t = 0 then 4 else if t ≤ 2 then 2 else 1
/-- Two types that one command may pair (R210). -/
def pairOk (a b : Nat) : Bool := decide (a = 0 ∧ b = 0) || decide (a = 1 ∧ b = 1) ||
  (decide (2 ≤ a ∧ a ≤ 3) && decide (2 ≤ b ∧ b ≤ 3)) || (decide (4 ≤ a ∧ a ≤ 5) && decide (4 ≤ b ∧ b ≤ 5))
/-- Chunk length along K (R121). -/
def chunkLen (b : List Byte) : Nat := if mAtype b ≤ 1 then 32 else if mAtype b ≤ 3 then 64 else 512
/-- Dense indices of a sparse group. -/
def groupLen (b : List Byte) : Nat := if mSparse b = 1 then 4 else 8
def isI4 (b : List Byte) : Bool := mAtype b = 5 || mBtype b = 5

/-- The checks of one loop level in ascending bit position (R209, R210). A bound of 0 at a level in use is named by bound's own
byte, although R210 lists only its comparison with start (log 42). -/
def levelFail (b : List Byte) (l : Nat) : Option Nat :=
  let o := 0x58 + 8 * l
  let fs :=
    if l < mNlev b then
      [chk (decide (1 ≤ lBound b l)) o, chk (decide (lStart b l < lBound b l)) (o + 1),
       chk (decide (mDlev b ≤ l) || lDm b l = 0) (o + 3), chk (decide (mDlev b ≤ l) || lDn b l = 0) (o + 4),
       chk ((decide (l < mDlev b) || lDk b l = 0) && !(isI4 b && lDk b l % 2 = 1) && (mSparse b = 0 || lDk b l % groupLen b = 0)) (o + 6)]
    else [chk (lBound b l = 0) o, chk (lStart b l = 0) (o + 1), chk (lDm b l = 0) (o + 3), chk (lDn b l = 0) (o + 4), chk (lDk b l = 0) (o + 6)]
  fs.findSome? id

/-- The checks of R210 in order; `partner` tells whether the coremask allows the other core of the pair. -/
def mmaFail (b : List Byte) (partner : Bool) : Option Nat :=
  let al := fun (v n d : Nat) => chk (v % n = 0) d
  let ea := typeSize (mAtype b)
  let eb := typeSize (mBtype b)
  ([chk (decide (mAtype b ≤ 5)) 0, chk (pairOk (mAtype b) (mBtype b)) 0, chk (decide (mDtype b ≤ 4)) 1, chk (decide (mDrain b ≤ 2)) 1,
    chk (decide (mSparse b ≤ 2)) 1, chk (!mPair b || partner) 2, chk (decide (1 ≤ mNlev b ∧ mNlev b ≤ 5)) 2,
    chk (decide (mDlev b ≤ mNlev b)) 2, resv b 0 25 39, chk (decide (1 ≤ mTm b ∧ mTm b ≤ 128)) 8,
    chk (decide (1 ≤ mTn b ∧ mTn b ≤ (if mPair b then 512 else 256))) 9,
    chk (decide (1 ≤ mTk b ∧ mTk b ≤ 4096) && !(isI4 b && mTk b % 2 = 1) && (mSparse b = 0 || mTk b % groupLen b = 0)) 0xA,
    resv b 8 31 1, chk (decide (mAccbase b * 512 + mTm b * min (mTn b) 256 * 4 ≤ Config.accBytes)) 0xC, resv b 8 40 24,
    chk (mSparse b ≠ 2 || mMdld b % 2 = 0) 0x1C, al (mAbase b) ea 0x20, al (mBbase b) eb 0x28, al (mDbase b) (dSize (mDtype b)) 0x30,
    chk (!mScaled b || mSbase b % 4 = 0) 0x38, chk (mSparse b ≠ 2 || mMdbase b % 2 = 0) 0x40, al (mAlda b) ea 0x48, al (mBldb b) eb 0x4C,
    al (mDld b) (dSize (mDtype b)) 0x50, resv b 0x50 32 32] ++ (List.range 5).map (levelFail b)).findSome? id

/-! ## The loop nest (R211) -/

/-- The sum of a coordinate's steps over the levels in use. -/
def coord (f : Nat → Nat) : List Nat → Nat → Nat
  | [], _ => 0
  | i :: v, l => i * f l + coord f v (l + 1)

/-- linear(i). -/
def linearIdx (b : List Byte) : List Nat → Nat → Nat → Nat
  | [], _, _ => 0
  | i :: v, l, w => i * w + linearIdx b v (l + 1) (w * lBound b l)

/-- The next index vector in nest order, or `none` after the last. -/
def nextVec (b : List Byte) : List Nat → Nat → Option (List Nat)
  | [], _ => none
  | i :: v, l => if i + 1 < lBound b l then some ((i + 1) :: v) else (nextVec b v (l + 1)).map (fun w => 0 :: w)

def startVec (b : List Byte) : List Nat := (List.range (mNlev b)).map (lStart b)

/-- Iterations of the whole nest. -/
def mmaTotal (b : List Byte) : Nat := (List.range (mNlev b)).foldl (fun p l => p * lBound b l) 1

/-- The first iteration of a reduction group; the last. -/
def groupFirst (b : List Byte) (v : List Nat) : Bool := (v.take (mDlev b)).all (fun i => i = 0)
def groupLast (b : List Byte) (v : List Nat) : Bool := (v.zipIdx.take (mDlev b)).all (fun e => e.1 + 1 = lBound b e.2)

/-! ## Elements (R114, R212 to R214) -/

/-- Status and cause code of an engine's failed access (R218, R259). R218 lists neither a failed link nor a full target: a matrix command
that meets one takes R259's status and cause code 0 (log 46). -/
def engStatus (f : EngFail) : Nat × Nat :=
  match f with
  | .window => (stEngineFault, 1)
  | .tenure => (stTenure, 3)
  | .poison => (stPoison, 4)
  | .linkDown => (stLinkDown, 0)
  | .full => (stTargetFull, 0)

/-- A fault of an iteration: status, cause and operand. -/
structure MmaFault where
  st : Nat
  cause : Nat
  opnd : Nat
  deriving DecidableEq, Repr

def mmaFaultOf (opnd : Nat) (f : EngFail) : MmaFault := ⟨(engStatus f).1, (engStatus f).2, opnd⟩

/-- A signed integer of I8 or I4: the most negative code reads as its successor (R114). -/
def symInt (w v : Nat) : Int := max (sint w v) (-(2 ^ (w - 1) : Nat) + 1)

/-- The value of an operand element from its byte or bytes; `k` selects the half of an I4 pair. -/
def elemVal (t v k : Nat) : FVal :=
  match t with
  | 0 => bf16.unpack false v
  | 1 => fp16.unpack false v
  | 2 => f8a.unpack v
  | 3 => f8b.unpack v
  | 4 => ofInt (symInt 8 v)
  | _ => ofInt (symInt 4 (v / 16 ^ (k % 2) % 16))

/-- The value of an element of D (R211). -/
def dVal (t v : Nat) : FVal :=
  match t with
  | 0 => fp32.unpack false v
  | 1 => fp16.unpack false v
  | 2 => bf16.unpack false v
  | 3 => f8a.unpack v
  | _ => f8b.unpack v

/-- The code of a value in D's type, rounded once (R215). -/
def dCode (t : Nat) (v : FVal) : Nat :=
  match t with
  | 0 => (fp32.code .rne false v).1
  | 1 => (fp16.code .rne false v).1
  | 2 => (bf16.code .rne false v).1
  | 3 => (f8a.code v).1
  | _ => (f8b.code v).1

/-- Address of element `k` of a row or column. -/
def elemAddr (t base ld r k : Nat) : Nat := base + r * ld + (if t = 5 then k / 2 else k * typeSize t)

/-- What a gathering of elements gives: the values, or the faults met. -/
structure Got (α : Type) where
  val : α
  bad : List MmaFault

/-- One element of A or B, or 0 outside the matrix. -/
def State.fetchElem (s : State) (cmd : Cmd) (opnd t base ld r k : Nat) (inside : Bool) : Got FVal :=
  if !inside then ⟨.fin false 0 0, []⟩
  else match s.engNat cmd.task cmd.tile (elemAddr t base ld r k) (typeSize t) false with
    | .ok v => ⟨elemVal t v k, []⟩
    | .error f => ⟨.fin false 0 0, [mmaFaultOf opnd f]⟩

/-- Where the metadata of a group of a row stand, and how many bytes (R214). -/
def metaExt (b : List Byte) (m grp : Nat) : Nat × Nat :=
  if groupLen b = 4 then (mMdbase b + m * mMdld b + grp / 2, 1) else (mMdbase b + m * mMdld b + 2 * grp, 2)

/-- The position in its group that metadata give to stored value `v`. -/
def metaPos (b : List Byte) (grp w v : Nat) : Nat := if groupLen b = 4 then w / 16 ^ (grp % 2) / 4 ^ v % 4 else w / 8 ^ v % 8

/-- A group of a row is read: it has an index below ktot, and its row lies below mtot. Of a row at or beyond mtot no metadata are
read either (log 42). -/
def groupRead (b : List Byte) (m grp : Nat) : Bool := decide (grp * groupLen b < mKtot b ∧ m < mMtot b)

/-- A row of A for a step: stored values with their K offset within the step (R212, R214). -/
def State.rowA (s : State) (cmd : Cmd) (m k0 : Nat) : Got (List (Nat × FVal)) :=
  let b := cmd.block
  let a := fun (j : Nat) (inside : Bool) => s.fetchElem cmd 0 (mAtype b) (mAbase b) (mAlda b) m j inside
  if mSparse b = 0 then
    let l := (List.range (mTk b)).map (fun k => (k, a (k0 + k) (decide (m < mMtot b ∧ k0 + k < mKtot b))))
    ⟨l.map (fun e => (e.1, e.2.val)), l.flatMap (·.2.bad)⟩
  else
    let g := groupLen b
    let groups := (List.range (mTk b / g)).map (fun q =>
      let grp := k0 / g + q
      if !groupRead b m grp then (⟨[], []⟩ : Got (List (Nat × FVal)))
      else
        match s.engNat cmd.task cmd.tile (metaExt b m grp).1 (metaExt b m grp).2 false with
        | .error f => ⟨[], [mmaFaultOf 5 f]⟩
        | .ok w =>
          if g = 8 ∧ w / 2 ^ 12 ≠ 0 then ⟨[], [⟨stEngineFault, 2, 5⟩]⟩
          else
            let l := (List.range (g / 2)).map (fun v =>
              let pos := metaPos b grp w v
              (g * q + pos, a (g / 2 * grp + v) (decide (grp * g + pos < mKtot b))))
            ⟨l.map (fun e => (e.1, e.2.val)), l.flatMap (·.2.bad)⟩)
    ⟨groups.flatMap (·.val), groups.flatMap (·.bad)⟩

/-- The bytes that the row of a step reads: metadata, and the stored values inside the matrix (R133, R214). -/
def State.rowReads (s : State) (cmd : Cmd) (m k0 : Nat) : List (Nat × Nat) :=
  let b := cmd.block
  let el := fun (j : Nat) => (elemAddr (mAtype b) (mAbase b) (mAlda b) m j, typeSize (mAtype b))
  if mSparse b = 0 then ((List.range (mTk b)).filter (fun k => decide (m < mMtot b ∧ k0 + k < mKtot b))).map (fun k => el (k0 + k))
  else
    let g := groupLen b
    (List.range (mTk b / g)).flatMap (fun q =>
      let grp := k0 / g + q
      if !groupRead b m grp then []
      else
        metaExt b m grp :: (match s.engNat cmd.task cmd.tile (metaExt b m grp).1 (metaExt b m grp).2 false with
          | .error _ => []
          | .ok w => ((List.range (g / 2)).filter (fun v => decide (grp * g + metaPos b grp w v < mKtot b))).map (fun v => el (g / 2 * grp + v))))

/-- A column of B for a step. -/
def State.colB (s : State) (cmd : Cmd) (n k0 : Nat) : Got (List FVal) :=
  let b := cmd.block
  let l := (List.range (mTk b)).map (fun k =>
    s.fetchElem cmd 1 (mBtype b) (mBbase b) (mBldb b) n (k0 + k) (decide (n < mNtot b ∧ k0 + k < mKtot b)))
  ⟨l.map (·.val), l.flatMap (·.bad)⟩

/-- A scale, or 1.0 outside its extent and in a command that is not scaled (R213). -/
def State.scaleAt (s : State) (cmd : Cmd) (off : Nat) (inside : Bool) : Got FVal :=
  if !mScaled cmd.block || !inside then ⟨.fin false 1 0, []⟩
  else match s.engNat cmd.task cmd.tile (mSbase cmd.block + 4 * off) 4 false with
    | .ok v => ⟨f32 v, []⟩
    | .error f => ⟨.fin false 1 0, [mmaFaultOf 4 f]⟩

/-- An integer zero has no sign. -/
def posZero (v : FVal) : FVal := match v with | .fin _ 0 _ => .fin false 0 0 | v => v

/-- The exact sum of one chunk (R121, R122). -/
def chunkSum (isInt : Bool) (row : List (Nat × FVal)) (col : List FVal) : FVal :=
  let r := (sumExact .rne (row.map (fun e => (FVal.mul e.2 (col.getD e.1 (.fin false 0 0))).1))).1
  if isInt then posZero r else r

/-- One accumulator element through the chunks of a step (R212). -/
def stepElem (b : List Byte) (scale : FVal) (row : List (Nat × FVal)) (col : List FVal) (acc : Word) : Word :=
  (List.range ((mTk b + chunkLen b - 1) / chunkLen b)).foldl (fun acc c =>
    let part := row.filter (fun e => e.1 / chunkLen b = c)
    BitVec.ofNat 32 (rne32 (FVal.add .rne (f32 acc.toNat) (FVal.mul scale (chunkSum (decide (4 ≤ mAtype b)) part col)).1).1)) acc

/-! ## The accumulator store (R216, R217) -/

/-- The other core of a pair. -/
def partnerOf (core : Nat) : Nat := if core % 2 = 0 then core + 1 else core - 1

/-- The halves of a command: core, first column and columns (R217). -/
def halvesOf (cmd : Cmd) : List (Nat × Nat × Nat) :=
  let tn := mTn cmd.block
  if mPair cmd.block then
    (cmd.core / 2 * 2, 0, min tn 256) :: (if 256 < tn then [(cmd.core / 2 * 2 + 1, 256, tn - 256)] else [])
  else [(cmd.core, 0, tn)]

/-- The cores whose engines a command takes. -/
def coresOf (cmd : Cmd) : List Nat := if mPair cmd.block then [cmd.core / 2 * 2, cmd.core / 2 * 2 + 1] else [cmd.core]

def State.accOf (s : State) (task core : Nat) : Option Acc := s.accs.find? (fun a => a.task = task && a.core = core)

/-- Units of a saved accumulator image that are poisoned where it stands. -/
def State.imageBad (s : State) (sec : Section) : List Nat :=
  let ts := s.homeTaints (physPlace (sec.header + sec.lay.aimg)) Config.accBytes
  (List.range (Config.accBytes / 32)).filter (fun u => ((ts.drop (32 * u)).take 32).any id)

/-- The accumulators that an image holds, under the name of the contents (R291, R293). -/
def State.loadAcc (s : State) (ti core : Nat) (sec : Section) (own : Nat × Bool) : Acc :=
  let bs := s.physRead (sec.header + sec.lay.aimg) Config.accBytes
  ⟨ti, core, own.1, (List.range (Config.accBytes / 4)).map (fun i => (i, BitVec.ofNat 32 (fieldAt bs (4 * i) 4))), s.imageBad sec, own.2⟩

/-- The contents of a name as the latest save of the task's sections has them: the image of the core where they stood, or what a section
of the partner took along (R216, R217). -/
def State.savedAcc (s : State) (ti core name : Nat) : Option Acc :=
  let secs := (s.tasks[ti]?.map (·.sections)).getD []
  let part := fun (x : Section) =>
    match x.own, x.pair with
    | some o, some a => if o.1 = name then some (s.loadAcc ti core x o) else if a.base = name then some { a with core := core } else none
    | some o, none => if o.1 = name then some (s.loadAcc ti core x o) else none
    | none, some a => if a.base = name then some { a with core := core } else none
    | none, none => none
  (secs.foldl (fun (m : Option (Nat × Acc)) x =>
    match part x with
    | none => m
    | some a => if m.any (fun b => decide (x.no < b.1)) then m else some (x.no, a)) none).map (·.2)

/-- What a section that left a core has saved of it, unless its contents stand on a core. -/
def State.leftAcc (s : State) (ti core : Nat) : Option Acc :=
  let secs := (s.tasks[ti]?.map (·.sections)).getD []
  let name := secs.foldl (fun (m : Option Nat) x => if x.core = core then (x.own.map (·.1)).or m else m) none
  match name with
  | none => none
  | some n => if s.accs.any (fun a => a.task = ti && a.base = n) then none else s.savedAcc ti core n

/-- The task has accumulator contents on the core; bytes never written are free values (log 4). A paired command of the partner finds
there what a section that has left the core keeps in its image (R216, R217). -/
def State.ensureAcc (s : State) (task core : Nat) (fed : Bool) : State :=
  match s.accOf task core with
  | some _ => { s with accs := s.accs.map (fun a => if a.task = task && a.core = core then { a with fed := a.fed || fed } else a) }
  | none =>
    match (if fed then s.leftAcc task core else none) with
    | some a => { s with accs := s.accs ++ [{ a with fed := true }] }
    | none => { s with accs := s.accs ++ [⟨task, core, s.freeCtr, [], [], fed⟩], freeCtr := s.freeCtr + Config.accBytes }

/-- A word of an accumulator store. -/
def Acc.word (a : Acc) (i : Nat) : Word :=
  (aget a.words i).getD (BitVec.ofNat 32 (leNat (freeBytes (a.base + 4 * i) 4)))

/-- Writes that cover `n` bytes from `lo` on end the poison of the units that lie whole within (R218, R284). -/
def Acc.clear (a : Acc) (lo n : Nat) : Acc := { a with bad := a.bad.filter (fun u => !covers lo n u) }

/-- The words from number `i` on replaced by one write (R284). -/
def Acc.put (a : Acc) (i : Nat) (ws : List Word) : Acc :=
  { a.clear (4 * i) (4 * ws.length) with
    words := a.words.filter (fun e => decide (e.1 < i)) ++ ws.zipIdx.map (fun e => (i + e.2, e.1)) ++
      a.words.filter (fun e => decide (i + ws.length ≤ e.1)) }

/-- The first word of a command's region; the words of a row. -/
def accFirst (b : List Byte) : Nat := 128 * mAccbase b
def accRow (b : List Byte) : Nat := min (mTn b) 256

/-- A poisoned unit of the region stays when the iteration does not write all of it (R218). -/
def State.accBad (s : State) (cmd : Cmd) (core : Nat) (fresh : Bool) : Bool :=
  let a := 4 * accFirst cmd.block
  let n := 4 * mTm cmd.block * accRow cmd.block
  match s.accOf cmd.task core with
  | none => false
  | some x => x.bad.any (fun u => decide (u ∈ unitsOf a n) && !(fresh && covers a n u))

/-! ## One iteration -/

/-- What an element of the tile is before the step: kept, zero, or loaded from D (R211). -/
def State.accBefore (s : State) (cmd : Cmd) (core m0 n0 m n local' : Nat) (fresh : Bool) : Got Word :=
  let b := cmd.block
  if !fresh then ⟨((s.accOf cmd.task core).map (fun a => a.word (accFirst b + m * accRow b + local'))).getD 0, []⟩
  else if !mInit b || mMtot b ≤ m0 + m || mNtot b ≤ n0 + n then ⟨0, []⟩
  else match s.engNat cmd.task cmd.tile (mDbase b + (m0 + m) * mDld b + (n0 + n) * dSize (mDtype b)) (dSize (mDtype b)) false with
    | .ok v => ⟨BitVec.ofNat 32 (rne32 (dVal (mDtype b) v)), []⟩
    | .error f => ⟨0, [mmaFaultOf 2 f]⟩

/-- A drained element: its address and the bytes to write (R215). -/
structure DrainElem where
  addr : Nat
  bytes : List Byte
  deriving DecidableEq, Repr

/-- The drain of one element, with the faults of its accesses. -/
def State.drainElem (s : State) (cmd : Cmd) (m n : Nat) (acc : Word) : Got (List DrainElem) :=
  let b := cmd.block
  let ty := mDtype b
  let a := mDbase b + m * mDld b + n * dSize ty
  if mDrain b = 2 || mMtot b ≤ m || mNtot b ≤ n then ⟨[], []⟩
  else
    let wr := match s.engPieces cmd.task cmd.tile a (dSize ty) true false with
      | .error f => [mmaFaultOf 3 f]
      | .ok ps => (match firstFail (ps.map (fun p => s.pkg.engLink p true)) with | some f => [mmaFaultOf 3 f] | none => [])
    if mDrain b = 0 then ⟨[⟨a, leBytes (dSize ty) (dCode ty (f32 acc.toNat))⟩], wr⟩
    else match s.engNat cmd.task cmd.tile a (dSize ty) false with
      | .error f => ⟨[], mmaFaultOf 2 f :: wr⟩
      | .ok v => ⟨[⟨a, leBytes (dSize ty) (dCode ty (FVal.add .rne (dVal ty v) (f32 acc.toNat)).1)⟩], wr⟩

/-- What an iteration computes for one half: its words and its drained elements. -/
structure HalfDone where
  core : Nat
  words : List Word
  drains : List DrainElem
  bad : List MmaFault

/-- The tile of one half at an index vector (R211 to R215). -/
def State.halfIter (s : State) (cmd : Cmd) (v : List Nat) (fresh last : Bool) (h : Nat × Nat × Nat) : HalfDone :=
  let b := cmd.block
  let m0 := coord (lDm b) v 0
  let n0 := coord (lDn b) v 0
  let k0 := coord (lDk b) v 0
  let rows := (List.range (mTm b)).map (fun m => (s.rowA cmd (m0 + m) k0, s.scaleAt cmd (m0 + m) (decide (m0 + m < mMtot b))))
  let cols := (List.range h.2.2).map (fun c =>
    (s.colB cmd (n0 + h.2.1 + c) k0, s.scaleAt cmd (mMtot b + (n0 + h.2.1 + c)) (decide (n0 + h.2.1 + c < mNtot b))))
  let cells := rows.zipIdx.flatMap (fun r => cols.zipIdx.map (fun c =>
    let old := s.accBefore cmd h.1 m0 n0 r.2 (h.2.1 + c.2) c.2 fresh
    let w := stepElem b (FVal.mul r.1.2.val c.1.2.val).1 r.1.1.val c.1.1.val old.val
    let d : Got (List DrainElem) := if last then s.drainElem cmd (m0 + r.2) (n0 + h.2.1 + c.2) w else ⟨[], []⟩
    (w, d.val, old.bad ++ d.bad)))
  { core := h.1, words := cells.map (·.1), drains := cells.flatMap (·.2.1),
    bad := rows.flatMap (fun r => r.1.bad ++ r.2.bad) ++ cols.flatMap (fun c => c.1.bad ++ c.2.bad) ++ cells.flatMap (·.2.2) ++
      (if s.accBad cmd h.1 fresh then [⟨stPoison, 4, 6⟩] else []) }

/-- The rows of a half lie `accRow` words apart: its words as one write of the region, the words between kept. -/
def Acc.putRows (a : Acc) (first stride cols : Nat) : List Word → Nat → Acc
  | _, 0 => a
  | ws, n + 1 => if cols = stride then a.put first ws else (a.put first (ws.take cols)).putRows (first + stride) stride cols (ws.drop cols) n

/-- The accumulators and the drains of an iteration take effect. A paired command overwrites what its own task keeps in the
partner's accumulators; what another task keeps there is that task's own store (R216, R217; log 42). The start of a group ends the
poison of every unit that the region covers whole, the words between the rows of an odd half among them (R216, R218). -/
def State.applyHalf (s : State) (c : Nat) (cmd : Cmd) (h : HalfDone) (cols : Nat) (fresh : Bool) : State :=
  let b := cmd.block
  let s := { s with accs := s.accs.map (fun (a : Acc) =>
    if a.task = cmd.task && a.core = h.core then
      (if fresh then a.clear (4 * accFirst b) (4 * mTm b * accRow b) else a).putRows (accFirst b) (accRow b) cols h.words (mTm b)
    else a) }
  h.drains.foldl (fun s d =>
    match s.engWrite c cmd.task cmd.tile d.addr d.bytes false with
    | .ok s => s
    | .error _ => s) s

/-- The K-steps of one iteration. -/
def stepsOf (b : List Byte) : Nat := (mTk b + chunkLen b - 1) / chunkLen b

/-- Multiply-accumulates of one K-step on a half (R298). -/
def stepMacs (b : List Byte) (cols : Nat) : Nat := mTm b * cols * chunkLen b / (if mSparse b = 0 then 1 else 2)

/-- Charge of one multiply-accumulate (R298). -/
def macCharge (b : List Byte) : Nat :=
  if mAtype b ≤ 1 then 8 else if mAtype b ≤ 3 then 4 else if mAtype b = 5 && mBtype b = 5 then 1 else 2

/-- K-steps that a command still has to make from a vector. -/
def stepsLeft (b : List Byte) (v : List Nat) : Nat := (mmaTotal b - linearIdx b v 0 1) * stepsOf b

/-- The charge of leave: the first eight K-steps, or all of them (R220). -/
def leaveCharge (cmd : Cmd) (cols : Nat) : Nat :=
  min 8 (stepsLeft cmd.block cmd.mma.vec) * (macCharge cmd.block * stepMacs cmd.block cols)

/-- The remaining budget of every core of the command covers its charge (R217, R220). A command that had run before a pre-emption has
had its leave and asks for none (log 40). -/
def State.leaveCovered (s : State) (cmd : Cmd) : Bool := cmd.leave || (halvesOf cmd).all (fun h => s.hasBudget h.1 (leaveCharge cmd h.2.2))

/-- Leave is charged, and the command starts. Its estimate is measured anew; until two K-steps have been compared, and the manual
states none then, it is a free value (log 4, log 40). One that had run before a pre-emption goes on: it keeps its leave and its E, and is
not charged again, on which the manual is silent (log 40). -/
def State.grantLeave (s : State) (c : Nat) (cmd : Cmd) : State :=
  if cmd.leave then s.modCmd c (fun x => { x with st := .running, head := false, mma := cmd.mma }) else
  let s := (halvesOf cmd).foldl (fun s h => s.charge h.1 (leaveCharge cmd h.2.2)) s
  let est := (Config.freeEst s.freeCtr).val
  (s.useFree 1).modCmd c (fun x => { x with
    st := .running, leave := true, head := false, mma := { cmd.mma with steps := 0, est := est, prev := [], toggled := 0, bits := 0 } })

/-! ## The toggle estimate (R220) -/

/-- Bits of an element's code. -/
def typeBits (t : Nat) : Nat := if t ≤ 1 then 16 else if t = 5 then 4 else 8

/-- The code of an operand element as the array takes it, 0 outside the matrix. -/
def State.codeAt (s : State) (cmd : Cmd) (t base ld r k : Nat) (inside : Bool) : Nat :=
  if !inside then 0
  else match s.engNat cmd.task cmd.tile (elemAddr t base ld r k) (typeSize t) false with
    | .ok v => if t = 5 then v / 16 ^ (k % 2) % 16 else v
    | .error _ => 0

/-- The operands of K-step `c` of an iteration: the stored values of its rows of A, then its columns of B. A paired command has one E,
over the columns of both halves; the manual does not say whether each core of a pair measures its own (log 46). -/
def State.stepCodes (s : State) (cmd : Cmd) (v : List Nat) (c : Nat) : List Nat :=
  let b := cmd.block
  let m0 := coord (lDm b) v 0
  let n0 := coord (lDn b) v 0
  let k0 := coord (lDk b) v 0
  let len := chunkLen b
  let d := if mSparse b = 0 then 1 else 2
  (List.range (mTm b)).flatMap (fun m => (List.range (len / d)).map (fun j =>
    let i := c * (len / d) + j
    let inside := decide (m0 + m < mMtot b ∧ i < mTk b / d) &&
      (if d = 1 then decide (k0 + i < mKtot b) else groupRead b (m0 + m) ((k0 / d + i) / (groupLen b / 2)))
    s.codeAt cmd (mAtype b) (mAbase b) (mAlda b) (m0 + m) (k0 / d + i) inside)) ++
  (List.range (mTn b)).flatMap (fun n => (List.range len).map (fun j =>
    let i := c * len + j
    s.codeAt cmd (mBtype b) (mBbase b) (mBldb b) (n0 + n) (k0 + i) (decide (n0 + n < mNtot b ∧ i < mTk b ∧ k0 + i < mKtot b))))

/-- Bits of the operands of one K-step. -/
def stepBits (b : List Byte) : Nat :=
  mTm b * (chunkLen b / (if mSparse b = 0 then 1 else 2)) * typeBits (mAtype b) + mTn b * chunkLen b * typeBits (mBtype b)

/-- Set bits of a number below 2^n. -/
def popBits (v : Nat) : Nat → Nat
  | 0 => 0
  | n + 1 => v % 2 + popBits (v / 2) n

/-- Bits that differ between the operands of two K-steps. -/
def toggles (xs ys : List Nat) : Nat := ((xs.zip ys).map (fun e => popBits (Nat.xor e.1 e.2) 16)).sum

/-- One K-step of the first eight is compared with the one before it: E is the mean fraction that toggles, in units of 1/256. -/
def MmaRun.measure (r : MmaRun) (b : List Byte) (codes : List Nat) : MmaRun :=
  if r.prev.isEmpty then { r with prev := codes }
  else
    let t := r.toggled + toggles r.prev codes
    let n := r.bits + stepBits b
    { r with prev := codes, toggled := t, bits := n, est := 256 * t / n }

/-- The measurement over the K-steps of an iteration that are among the command's first eight. -/
def State.measured (s : State) (cmd : Cmd) (v : List Nat) : MmaRun :=
  (List.range (min (stepsOf cmd.block) (8 - cmd.mma.steps))).foldl (fun r c => r.measure cmd.block (s.stepCodes cmd v c)) cmd.mma

/-- The K-steps of an iteration beyond the first eight are charged by the estimate (R298). -/
def State.chargeSteps (s : State) (c : Nat) (cmd : Cmd) (v : List Nat) : State :=
  let n := stepsOf cmd.block
  let r := s.measured cmd v
  let late := r.steps + n - max 8 r.steps
  let s := (halvesOf cmd).foldl (fun s h =>
    s.charge h.1 (late * ((macCharge cmd.block * stepMacs cmd.block h.2.2 * (64 + r.est) + 319) / 320))) s
  s.modCmd c (fun x => { x with mma := { r with steps := r.steps + n } })

/-- A tile line that the iteration reads or writes is absent (R133). -/
def State.mmaWaits (s : State) (cmd : Cmd) (v : List Nat) (fresh last : Bool) : Bool :=
  let b := cmd.block
  let ab := fun (e : Nat × Nat) => s.engAbsent cmd.tile e.1 e.2 []
  let m0 := coord (lDm b) v 0
  let n0 := coord (lDn b) v 0
  let k0 := coord (lDk b) v 0
  let rows := (List.range (mTm b)).filter (fun m => decide (m0 + m < mMtot b))
  let cols := (List.range (mTn b)).filter (fun n => decide (n0 + n < mNtot b))
  let ks := (List.range (mTk b)).filter (fun k => decide (k0 + k < mKtot b))
  let ty := mDtype b
  rows.any (fun m =>
    (s.rowReads cmd (m0 + m) k0).any ab || (mScaled b && ab (mSbase b + 4 * (m0 + m), 4)) ||
    (((fresh && mInit b) || (last && mDrain b ≠ 2)) &&
      cols.any (fun n => ab (mDbase b + (m0 + m) * mDld b + (n0 + n) * dSize ty, dSize ty)))) ||
  cols.any (fun n =>
    ks.any (fun k => ab (elemAddr (mBtype b) (mBbase b) (mBldb b) (n0 + n) (k0 + k), typeSize (mBtype b))) ||
    (mScaled b && ab (mSbase b + 4 * (mMtot b + n0 + n), 4)))

/-- A command ends with a result that MMA_COMPLETE writes. -/
def State.endCmd (s : State) (c : Nat) (r : Result) : State := s.modCmd c (fun x => { x with st := .ended, result := r })

/-- One iteration of a command: computed whole, then applied whole; a fault ends the command before any of it
(R218). Which of several faults of one iteration is named is open, so that a free value picks it (log 4). The count of a fault is the
linear index also when a command with cont = 1 and non-zero starts meets poison in the kept accumulator at its first iteration, where
R218 has both that index and 0. A restart with cont = 1 keeps the accumulator at its first iteration, as R211 says, also where that one
begins a reduction group, so that R218's promise of the unfaulted run's bits does not hold there (log 46). -/
def State.iterate (s : State) (c : Nat) (cmd : Cmd) : State :=
  let b := cmd.block
  let v := cmd.mma.vec
  let fresh := if cmd.mma.first then !mCont b else groupFirst b v
  let last := groupLast b v
  if s.mmaWaits cmd v fresh last then s
  else
    let hs := halvesOf cmd
    let ds := hs.map (fun h => (h, s.halfIter cmd v fresh last h))
    let bad := ds.flatMap (·.2.bad)
    let pick := (Config.freeByte s.freeCtr).toNat % bad.length
    match bad[pick]? with
    | some f => (s.useFree 1).endCmd c ⟨f.st, f.cause + f.opnd * 256, linearIdx b v 0 1⟩
    | none =>
      let s := s.chargeSteps c cmd v
      let s := ds.foldl (fun s d => s.applyHalf c cmd d.2 d.1.2.2 fresh) s
      let n := linearIdx b v 0 1 + 1
      match nextVec b v 0 with
      | some w => s.modCmd c (fun x => { x with mma := { x.mma with vec := w, first := false, done := n } })
      | none => (s.modCmd c (fun x => { x with mma := { x.mma with done := n } })).endCmd c ⟨stDone, 0, mmaTotal b⟩

/-! ## The engine (R207, R217) -/

/-- The engine of a core is between commands. -/
def State.mmaIdle (s : State) (core : Nat) : Bool :=
  !s.cmds.any (fun c => c.kind = .mma && (decide (c.st = .running) || decide (c.st = .ended)) && decide (core ∈ coresOf c))

/-- A closed Coelostat tile of the core has still to run: it goes ahead of waiting commands (R224). -/
def State.tileFirst (s : State) (core : Nat) : Bool := s.ntiles.any (fun n => n.live && n.closed && n.core = core)

/-- A thread's toggle estimate: that of its last command that has started, 256 before its first (R220). -/
def State.estOf (s : State) (task k : Nat) : Nat :=
  s.cmds.foldl (fun e c => if c.kind = .mma && c.task = task && c.k = k && c.leave then c.mma.est else e) 256

/-- A queued command whose predecessors of the same thread and kind are complete. -/
def State.readyCmd (s : State) (kind : CmdKind) (c : Cmd) : Bool :=
  c.kind = kind && decide (c.st = .queued) &&
    s.cmds.all (fun d => !(d.kind = kind && d.task = c.task && d.k = c.k && decide (d.no < c.no) && d.inFlight))

/-- One command is picked before another: one at the head of the queue since its section resumed (R293), else by effective
priority, then estimate when it counts, then launch (R207). -/
def State.pickedBefore (s : State) (est : Bool) (a b : Cmd) : Bool :=
  if a.head || b.head then a.head && (!b.head || decide (a.no < b.no)) else
  let pa := s.effPrio a.task
  let pb := s.effPrio b.task
  let ea := if est then s.estOf a.task a.k else 0
  let eb := if est then s.estOf b.task b.k else 0
  decide (pb < pa) || (decide (pa = pb) && (decide (ea < eb) || (decide (ea = eb) && decide (a.no < b.no))))

/-- The command that an engine picks among those that satisfy a test. -/
def State.pick (s : State) (est : Bool) (f : Cmd → Bool) : Option Nat :=
  (s.cmds.zipIdx.foldl (fun (best : Option (Cmd × Nat)) e =>
    if !f e.1 then best
    else match best with
      | none => some e
      | some d => if s.pickedBefore est e.1 d.1 then some e else best) none).map (·.2)

/-- The command that a core's queue would start next. -/
def State.mmaNext (s : State) (core : Nat) : Option Nat := s.pick true (fun c => c.core = core && s.readyCmd .mma c)

/-- The other core of a pair is allowed by the task's coremask (R210). -/
def State.partnerOk (s : State) (cmd : Cmd) : Bool :=
  (s.tasks[cmd.task]?.map (fun t => t.desc.allows (partnerOf cmd.core))).getD false

/-- A paired command waits for both engines, and the even core's goes first (R217). -/
def State.pairWaits (s : State) (core : Nat) (cmd : Cmd) : Bool :=
  mPair cmd.block && (!s.mmaIdle (partnerOf core) || (core % 2 = 1 &&
    ((s.mmaNext (core - 1)).bind (fun d => s.cmds[d]?)).any (fun d => mPair d.block)))

/-- A command with the progress with which it starts, or goes on behind a suspension (R211, R219). -/
def Cmd.withStart (cmd : Cmd) : Cmd :=
  if cmd.mma.vec.isEmpty then
    { cmd with mma := { cmd.mma with vec := startVec cmd.block, first := true, done := linearIdx cmd.block (startVec cmd.block) 0 1 } }
  else cmd

/-- The command that a core's engine starts next but for leave: its engines are between commands, its block has passed, and no
closed Coelostat tile goes first. -/
def State.mmaAsks (s : State) (core : Nat) : Option (Nat × Cmd) :=
  match s.mmaNext core with
  | none => none
  | some c =>
    match s.cmds[c]? with
    | none => none
    | some cmd =>
      if s.mmaIdle core && (mmaFail cmd.block (s.partnerOk cmd)).isNone && !s.pairWaits core cmd && !(coresOf cmd).any s.tileFirst then
        some (c, cmd.withStart)
      else none

/-- MMA_START: the block is checked, and the command starts once it has leave, or completes with `BAD_PARAM` (R207, R210, R220).
Until it starts, another may be picked before it. -/
def State.mmaStart (s : State) (core : Nat) : State :=
  match s.mmaNext core with
  | none => s
  | some c =>
    match s.cmds[c]? with
    | none => s
    | some cmd =>
      match mmaFail cmd.block (s.partnerOk cmd) with
      | some d => if s.mmaIdle core then s.completeCmd c ⟨stBadParam, d, 0⟩ else s
      | none =>
        match s.mmaAsks core with
        | none => s
        | some (c, cmd) =>
          if s.leaveCovered cmd then ((coresOf cmd).foldl (fun s k => s.ensureAcc cmd.task k (decide (k ≠ cmd.core))) s).grantLeave c cmd else s

/-- The command that an engine is at, in a state. -/
def State.mmaAt (s : State) (core : Nat) (st : CmdSt) : Option Nat :=
  findIdx (fun (c : Cmd) => c.kind = .mma && c.st = st && decide (core ∈ coresOf c)) s.cmds

/-- MMA_ITERATION: one iteration of the command that runs. -/
def State.mmaIteration (s : State) (core : Nat) : State :=
  match s.mmaAt core .running with
  | none => s
  | some c =>
    match s.cmds[c]? with
    | none => s
    | some cmd => s.iterate c cmd

/-- A command that has ended writes its token; a tenure failure then ends the task (R151, R218). -/
def State.finishCmd (s : State) (c : Nat) : State :=
  match s.cmds[c]? with
  | none => s
  | some cmd =>
    let s := s.completeCmd c cmd.result
    if cmd.result.st = stTenure then s.endTask cmd.task ⟨stTenure, 0, 0⟩ else s

/-- MMA_COMPLETE. -/
def State.mmaComplete (s : State) (core : Nat) : State :=
  match s.mmaAt core .ended with
  | none => s
  | some c => s.finishCmd c

/-- MMA_START (R207). -/
def execMmaStart (core : Fin 192) (s : State) : Host.Outcome State Fault Refusal := .next (s.mmaStart core.val)

/-- MMA_ITERATION (R211). -/
def execMmaIteration (core : Fin 192) (s : State) : Host.Outcome State Fault Refusal := .next (s.mmaIteration core.val)

/-- MMA_COMPLETE (R218). -/
def execMmaComplete (core : Fin 192) (s : State) : Host.Outcome State Fault Refusal := .next (s.mmaComplete core.val)

end Sys2Proof.Machine
end

