-- ==== Sys2Proof/Machine/Copy.lean ====
section
/-! DEFINITION. The copy engines (R252 to R260): starting a chain, its runs and conditions, barrier arrivals, failures
and the restart record. -/

namespace Sys2Proof.Machine

/-! ## The engine (R252) -/

/-- The copy engine of a command, 4·die + `$core` mod 4. -/
def copyEngine (c : Cmd) : Nat := c.core / Config.coresPerDie * 4 + c.core % Config.coresPerDie % 4

/-- The command that an engine is at, in a state. -/
def State.copyAt (s : State) (e : Nat) (st : CmdSt) : Option Nat :=
  findIdx (fun (c : Cmd) => c.kind = .copy && c.st = st && copyEngine c = e) s.cmds

/-- The charge of a `COPY`, `SORT` or `COLL` start, to the launching core (R298). -/
def startCharge : Nat := 65536

/-- COPY_START: the next command by effective priority and launch, when it has leave (R298). One that had started before a pre-emption
goes on without waiting for leave or being charged again, on which the manual is silent (log 40). -/
def State.copyStart (s : State) (e : Nat) : State :=
  if (s.copyAt e .running).isSome || (s.copyAt e .ended).isSome then s
  else match s.pick false (fun c => copyEngine c = e && s.readyCmd .copy c) with
    | none => s
    | some c =>
      match s.cmds[c]? with
      | none => s
      | some cmd =>
        if cmd.leave then s.modCmd c (fun x => { x with st := .running, head := false })
        else if s.hasBudget cmd.core startCharge then
          (s.charge cmd.core startCharge).modCmd c (fun x => { x with st := .running, leave := true, head := false })
        else s

/-! ## Failures (R259) -/

/-- The token of a copy that ends at its present entry: `side` 1 is the destination, `bar` the arrival of R260. -/
def copyFailed (cmd : Cmd) (f : EngFail) (side : Nat) (bar : Bool) : Result :=
  ⟨(engStatus f).1, (engStatus f).2 + cmd.copy.entry * 2 ^ 8 + side * 2 ^ 16 + (if bar then 2 ^ 17 else 0), cmd.copy.done⟩

/-- A barrier's bytes or a run lies beyond the window of its first byte, or in no window that an engine reaches (R128). -/
def State.copyWindow (s : State) (cmd : Cmd) (a n : Nat) (w : Bool) : Bool :=
  match s.engPieces cmd.task cmd.tile a n w true with
  | .error .window => false
  | _ => true

/-- Bytes of a place before the first one that an extent of unallocated second-tier memory holds. -/
def Pkg.roomAt (p : Pkg) (pl : Place) (n : Nat) : Nat :=
  match pl with
  | .dev pa _ => p.unalloc.foldl (fun m e => if e.1 < pa + m ∧ pa < e.1 + e.2 then e.1 - pa else m) n
  | _ => n

/-- How many bytes of one page's part an access reaches, and why it goes no further. -/
def State.pieceGood (s : State) (p : Piece) (w : Bool) : Nat × Option EngFail :=
  match s.pkg.engLink p false with
  | some f => (0, some f)
  | none =>
    if w then
      let r := if (s.pkg.engLink p true).isSome then s.pkg.roomAt p.place p.n else p.n
      (r, if r < p.n then some .full else none)
    else match findIdx id (s.homeTaints p.place p.n) with
      | some i => (i, some .poison)
      | none => (p.n, none)

/-- The bytes of a global extent that an access reaches; `fuel` is the pages that remain. -/
def State.globalGood (s : State) (t : Task) (a n : Nat) (w : Bool) : Nat → Nat × Option EngFail
  | 0 => (0, none)
  | fuel + 1 =>
    if n = 0 then (0, none)
    else
      let m := min n (65536 - a % 65536)
      match (if t.inTenure a m w then t.tlbOf a else none) with
      | none => (0, some .tenure)
      | some e =>
        match s.pieceGood ⟨e.place a, m⟩ w with
        | (k, some f) => (k, some f)
        | (_, none) => let r := s.globalGood t (a + m) (n - m) w fuel; (m + r.1, r.2)

/-- The bytes of an extent, which lies within its window, before the first that fails. -/
def State.copyGood (s : State) (cmd : Cmd) (a n : Nat) (w : Bool) : Nat × Option EngFail :=
  match s.tasks[cmd.task]? with
  | none => (0, some .window)
  | some t => if a < tileBase then s.globalGood t a n w (n / 65536 + 2) else s.pieceGood ⟨.tile cmd.tile (a - tileBase), n⟩ w

/-- The second-tier address that a destination address reaches. -/
def State.tierAt (s : State) (cmd : Cmd) (d : Nat) : Option Nat :=
  match s.engPieces cmd.task cmd.tile d 1 true true with
  | .ok [p] => (match p.place with | .dev pa _ => if tierBase ≤ pa ∧ pa < tierEnd then some pa else none | _ => none)
  | _ => none

/-- The bytes of a failing write that stand behind the last whole aligned 512-byte block of the second tier (R263). -/
def State.tierRest (s : State) (cmd : Cmd) (d n : Nat) : Nat :=
  match s.tierAt cmd (d + n - 1) with
  | some pa => min n ((pa + 1) % 512)
  | none => 0

/-! ## Runs (R255) -/

/-- Lines of the command's own footprint: it never waits on their presence bits (R133). -/
def State.copyOwn (s : State) (cmd : Cmd) : List Nat := footprint (s.windowOf cmd.task) cmd.block 0 0 0

/-- The command has written `m` bytes more of the present execution. -/
def CopyRun.wrote (r : CopyRun) (e : List Byte) (m : Nat) : CopyRun :=
  let r := { r with boff := r.boff + m, done := r.done + m, read := r.read.drop m }
  if r.boff < moveTotal e then r
  else if fieldAt e 0x20 8 ≠ 0 then { r with arrive := true } else { r with entry := r.entry + 1, boff := 0 }

/-- Bytes of the present run that are still to be written. -/
def CopyRun.left (r : CopyRun) (b : List Byte) : Nat :=
  let run := moveRun (chainEntry b r.entry)
  run - r.boff % run

/-- Where the next byte of the present run comes from and goes to. -/
def CopyRun.ends (r : CopyRun) (b : List Byte) : Nat × Nat :=
  let run := moveRun (chainEntry b r.entry)
  let x := runAddrs b r.entry r.iter (r.boff / run)
  (x.1 + r.boff % run, x.2 + r.boff % run)

/-- The source bytes of the rest of the present run, as many as come before the first that fails, and why they end there. A run is
read whole before any of it is written, so that what is read already comes first. -/
def State.runBytes (s : State) (cmd : Cmd) : List Byte × Option EngFail :=
  let r := cmd.copy
  let k := r.read.length
  let n := r.left cmd.block - k
  let a := (r.ends cmd.block).1 + k
  if n = 0 then (r.read, none)
  else
    let g := s.copyGood cmd a n false
    (r.read ++ (match s.engRead cmd.task cmd.tile a g.1 true with | .ok bs => bs | .error _ => []), g.2)

/-- A tile line is absent that the rest of the present run reads, or that its next `n` bytes go to (R133). -/
def State.copyAbsent (s : State) (cmd : Cmd) (n : Nat) : Bool :=
  let r := cmd.copy
  let k := r.read.length
  let x := r.ends cmd.block
  let own := s.copyOwn cmd
  s.engAbsent cmd.tile (x.1 + k) (r.left cmd.block - k) own || s.engAbsent cmd.tile x.2 n own

/-- `n` bytes of the present run, or as many as come before the first that fails: the run is read whole, then they are written. A run
of which an end lies beyond its window fails before any byte (R128, R255). Of the bytes of a failing run behind its failure the global ones
keep their contents too, where R259 allows either value, and of a source byte and an earlier destination byte that both fail the first
in order is named (log 50). -/
def State.copyPart (s : State) (c : Nat) (cmd : Cmd) (n : Nat) : State :=
  let r := cmd.copy
  let e := chainEntry cmd.block r.entry
  let run := moveRun e
  let x := runAddrs cmd.block r.entry r.iter (r.boff / run)
  let d := (r.ends cmd.block).2
  if !s.copyWindow cmd x.1 run false then s.endCmd c (copyFailed cmd .window 0 false)
  else if !s.copyWindow cmd x.2 run true then s.endCmd c (copyFailed cmd .window 1 false)
  else if s.copyAbsent cmd n then s
  else
    let src := s.runBytes cmd
    let dst := s.copyGood cmd d (min n src.1.length) true
    let fail := match dst.2, (if src.1.length < n then src.2 else none) with
      | some f, _ => some (f, 1)
      | none, some f => some (f, 0)
      | none, none => none
    let m := if fail.isSome ∧ dst.1 ≠ 0 then dst.1 - s.tierRest cmd d dst.1 else dst.1
    let s := match s.engWrite c cmd.task cmd.tile d (src.1.take m) true with | .ok s => s | .error _ => s
    match fail with
    | none => s.modCmd c (fun x => { x with copy := ({ r with read := src.1 } : CopyRun).wrote e m })
    | some (f, side) =>
      let cmd' := { cmd with copy := { r with boff := r.boff + m, done := r.done + m } }
      (s.modCmd c (fun x => { x with copy := cmd'.copy })).endCmd c (copyFailed cmd' f side false)

/-- The next point at which the command moves a byte, when it only goes over loops and empty entries until then: none where an
arrival, a condition or the end comes first. `fuel` bounds the entries. -/
def CopyRun.next (b : List Byte) (r : CopyRun) : Nat → Option CopyRun
  | 0 => none
  | fuel + 1 =>
    let e := chainEntry b r.entry
    if r.arrive then none
    else match entryKindOf e with
      | 1 => if r.boff < moveTotal e then some r else (r.wrote e 0).next b fuel
      | 2 =>
        (if r.iter + 1 < loopCount e then { r with entry := loopTarget e, iter := r.iter + 1, boff := 0 }
          else { r with entry := r.entry + 1, iter := 0, boff := 0 }).next b fuel
      | 3 => none
      | 5 => none
      | _ => ({ r with entry := r.entry + 1, boff := 0 } : CopyRun).next b fuel

/-- The bytes at the end of the next `n` bytes of the present run whose block of the second tier the command goes on to fill. -/
def State.tierTail (s : State) (cmd : Cmd) (n : Nat) : Nat :=
  let r := cmd.copy
  let last := (r.ends cmd.block).2 + (n - 1)
  if n = 0 then 0
  else match (r.wrote (chainEntry cmd.block r.entry) n).next cmd.block 257 with
    | none => 0
    | some q =>
      match s.tierAt cmd last, s.tierAt cmd (q.ends cmd.block).2 with
      | some p, some q => if p / 512 = q / 512 then min n (p % 512 + 1) else 0
      | _, _ => 0

/-- The bytes of the present run up to the end of the second-tier block in which it goes on. -/
def State.tierHead (s : State) (cmd : Cmd) : Nat :=
  let rest := cmd.copy.left cmd.block
  match s.tierAt cmd (cmd.copy.ends cmd.block).2 with
  | some p => min rest (512 - p % 512)
  | none => rest

/-- A block of the second tier that several runs fill, from the state `s0` before its first byte: it is written whole, or, when
one of its bytes fails, left unchanged with the command's count in front of it (R263; log 32). `fuel` bounds the runs. -/
def State.copyBlock (s0 : State) (c : Nat) (old : CopyRun) (s : State) : Nat → State
  | 0 => s
  | fuel + 1 =>
    match s.cmds[c]? with
    | none => s
    | some cmd =>
      let n := s.tierHead cmd
      let s' := s.copyPart c cmd n
      match s'.cmds[c]? with
      | none => s'
      | some x =>
        if x.st = .ended then
          if x.result.st = stDone then s' else (s0.modCmd c (fun y => { y with copy := old })).endCmd c { x.result with count := old.done }
        else if x.copy = cmd.copy then s0
        else if s.tierTail cmd n = 0 then s'
        else match x.copy.next x.block 257 with
          | none => s'
          | some q => State.copyBlock s0 c old (s'.modCmd c (fun y => { y with copy := q })) fuel

/-- The next bytes of a MOVE: the rest of its present run, up to a block of the second tier that a later run goes on to fill,
or such a block with all its runs. -/
def State.copyMove (s : State) (c : Nat) (cmd : Cmd) : State :=
  let n := cmd.copy.left cmd.block
  let t := s.tierTail cmd n
  if t = 0 then s.copyPart c cmd n
  else if t < n then s.copyPart c cmd (n - t)
  else s.copyBlock c cmd.copy s 513

/-! ## Conditions (R257) -/

/-- The test of a COND entry on the value read. -/
def condHolds (e : List Byte) (v : Nat) : Bool :=
  let x := if fieldAt e 0 1 / 64 % 2 = 1 then fieldAt e 0x10 8 else fieldAt e 0x10 4
  match fieldAt e 0 1 / 16 % 4 with
  | 0 => v = x
  | 1 => v ≠ x
  | 2 => decide (x ≤ v)
  | _ => decide (v < x)

/-- What a COND finds. -/
inductive CondSeen where
  | holds (b : Bool)
  | waits
  | fails (f : EngFail)

def State.condTest (s : State) (cmd : Cmd) (e : List Byte) : CondSeen :=
  let n := if fieldAt e 0 1 / 64 % 2 = 1 then 8 else 4
  if s.engAbsent cmd.tile (fieldAt e 8 8) n (s.copyOwn cmd) then .waits
  else match s.engNat cmd.task cmd.tile (fieldAt e 8 8) n true with
    | .ok v => .holds (condHolds e v)
    | .error f => .fails f

/-- The command goes on at an entry. -/
def State.copyGoto (s : State) (c entry iter : Nat) : State :=
  s.modCmd c (fun x => { x with copy := { x.copy with entry := entry, iter := iter, boff := 0, wait := none } })

/-- One evaluation of a COND: on, skip, wait, or end. A wait starts at its first evaluation. -/
def State.copyCond (s : State) (c : Nat) (cmd : Cmd) : State :=
  let r := cmd.copy
  let e := chainEntry cmd.block r.entry
  match s.condTest cmd e with
  | .waits => s
  | .fails f => s.endCmd c (copyFailed cmd f 0 false)
  | .holds true => s.copyGoto c (r.entry + 1) r.iter
  | .holds false =>
    if fieldAt e 0 1 / 128 = 1 then s.modCmd c (fun x => { x with copy := { r with wait := some (r.wait.getD s.time.toNat) } })
    else s.copyGoto c (r.entry + fieldAt e 4 1) r.iter

/-- The engine goes over entries that move nothing until it has made a run, waits or has ended; `fuel` bounds them. -/
def State.copyWalk (s : State) (c : Nat) : Nat → State
  | 0 => s
  | fuel + 1 =>
    match s.cmds[c]? with
    | none => s
    | some cmd =>
      let r := cmd.copy
      let e := chainEntry cmd.block r.entry
      if cmd.st ≠ .running || r.wait.isSome || r.arrive then s
      else match entryKindOf e with
        | 1 =>
          if r.boff < moveTotal e then s.copyMove c cmd
          else (s.modCmd c (fun x => { x with copy := r.wrote e 0 })).copyWalk c fuel
        | 2 =>
          (if r.iter + 1 < loopCount e then s.copyGoto c (loopTarget e) (r.iter + 1) else s.copyGoto c (r.entry + 1) 0).copyWalk c fuel
        | 3 =>
          (match s.condTest cmd e with
            | .waits => s
            | _ => (s.copyCond c cmd).copyWalk c fuel)
        | 5 => s.endCmd c ⟨stDone, 0, r.done⟩
        | _ => (s.copyGoto c (r.entry + 1) r.iter).copyWalk c fuel

/-- COPY_RUN: the entries up to the next run, and that run. -/
def State.copyRun (s : State) (e : Nat) : State :=
  match s.copyAt e .running with
  | none => s
  | some c => s.copyWalk c 257

/-- A waiting COND is evaluated again. -/
def State.copyRetest (s : State) (e : Nat) : State :=
  match s.copyAt e .running with
  | none => s
  | some c =>
    match s.cmds[c]? with
    | none => s
    | some cmd => if cmd.copy.wait.isSome then s.copyCond c cmd else s

/-- COPY_COND_TIMEOUT: still false after its timeout. -/
def State.copyTimeout (s : State) (e : Nat) : State :=
  match s.copyAt e .running with
  | none => s
  | some c =>
    match s.cmds[c]? with
    | none => s
    | some cmd =>
      match cmd.copy.wait with
      | none => s
      | some w =>
        let en := chainEntry cmd.block cmd.copy.entry
        let limit := fieldAt en 0x18 4
        if limit = 0xFFFFFFFF || s.time.toNat < w + limit then s
        else match s.condTest cmd en with
          | .holds false => s.endCmd c ⟨stEngineFault, 5 + cmd.copy.entry * 2 ^ 8, cmd.copy.done⟩
          | _ => s.copyCond c cmd

/-! ## Arrivals (R192, R260) -/

/-- The arrival of a finished execution on its barrier, or the end of the command when the barrier cannot be reached. A reserved
flags bit that is not zero is kept and hinders no engine: R192 names `ENGINE_PARAM` for the instructions only (log 42). -/
def State.copyArrive (s : State) (e : Nat) : State :=
  match s.copyAt e .running with
  | none => s
  | some c =>
    match s.cmds[c]? with
    | none => s
    | some cmd =>
      let r := cmd.copy
      let en := chainEntry cmd.block r.entry
      let a := fieldAt en 0x20 8
      if !r.arrive || s.engAbsent cmd.tile a 16 (s.copyOwn cmd) then s
      else
        let on := fun (s : State) => s.modCmd c (fun x => { x with copy := { r with arrive := false, entry := r.entry + 1, boff := 0 } })
        match s.engPieces cmd.task cmd.tile a 16 true true with
        | .error f => s.endCmd c (copyFailed cmd f 1 true)
        | .ok ps =>
          match s.engRead cmd.task cmd.tile a 16 true with
          | .error f => s.endCmd c (copyFailed cmd f 1 true)
          | .ok b =>
            let b' := barArrive b (moveTotal en)
            match s.engWrite c cmd.task cmd.tile a b' true with
            | .error f => s.endCmd c (copyFailed cmd f 1 true)
            | .ok u =>
              let new := if fieldAt b' 0 8 ≠ 0 then [] else ps.map (fun (p : Piece) => (⟨p.place, p.n, [c], true⟩ : Released))
              on { u with mem := { u.mem with released := new ++ s.mem.released } }

/-! ## The end (R259) -/

/-- The RESUME entry of a point. -/
def resumeEntry (r : CopyRun) : List Byte :=
  leBytes 8 (6 + r.entry * 2 ^ 32) ++ leBytes 8 r.iter ++ leBytes 8 r.boff ++ leBytes 8 r.done ++ leBytes 96 0

/-- The line that a failed copy's restart point goes to is absent, cleared by another copy (R133). -/
def State.resumeAbsent (s : State) (cmd : Cmd) : Bool :=
  let k := entryKindOf (chainEntry cmd.block 0)
  cmd.result.st ≠ stDone && (k = 0 || k = 6) && s.engAbsent cmd.tile cmd.addr.toNat 128 (s.copyOwn cmd)

/-- COPY_COMPLETE: a failed copy leaves its restart point in an entry 0 that is a NOP or a RESUME; the presence bits
of lines cleared and not landed are set, and the token is written. -/
def State.copyComplete (s : State) (e : Nat) : State :=
  match s.copyAt e .ended with
  | none => s
  | some c =>
    match s.cmds[c]? with
    | none => s
    | some cmd =>
      if s.resumeAbsent cmd then s else
      let k := entryKindOf (chainEntry cmd.block 0)
      let s := if cmd.result.st ≠ stDone && (k = 0 || k = 6) then
          (match s.engWrite c cmd.task cmd.tile cmd.addr.toNat (resumeEntry cmd.copy) false with | .ok s => s | .error _ => s)
        else s
      s.finishCmd c

/-! ## The stop point of pre-emption (R290) -/

/-- The point of a running execution lies inside a block of the second tier that has been begun and still is to be filled. -/
def State.insideBlock (s : State) (cmd : Cmd) : Bool :=
  let r := cmd.copy
  let back : CopyRun := { r with boff := r.boff - 1 }
  r.boff ≠ 0 && (match s.tierAt cmd (back.ends cmd.block).2, s.tierAt cmd (r.ends cmd.block).2 with
    | some p, some q => decide (p / 512 = q / 512 ∧ p % 512 < 511)
    | _, _ => false)

/-- A copy at its stop point: at a multiple of 512 bytes of its execution or between entries, and inside no block of the second tier,
which is written whole or left unchanged (R263, R290; log 32). -/
def State.copyAtStop (s : State) (cmd : Cmd) : Bool :=
  let r := cmd.copy
  let e := chainEntry cmd.block r.entry
  r.arrive || entryKindOf e ≠ 1 || decide (moveTotal e ≤ r.boff) || (r.boff % 512 = 0 && !s.insideBlock cmd)

/-- A running execution goes on to its stop point, a part of a run or a block of the second tier at a time; `fuel` bounds them. -/
def State.copyToBoundary (s : State) (c : Nat) : Nat → State
  | 0 => s
  | fuel + 1 =>
    match s.cmds[c]? with
    | none => s
    | some cmd =>
      let r := cmd.copy
      if cmd.st ≠ .running || s.copyAtStop cmd then s
      else
        let d := (r.ends cmd.block).2
        (if (s.tierAt cmd d).isSome then s.copyBlock c r s 513
          else s.copyPart c cmd (min (min (512 - r.boff % 512) (r.left cmd.block)) (65536 - d % 65536))).copyToBoundary c fuel

/-- COPY_START (R252). -/
def execCopyStart (e : Fin 16) (s : State) : Host.Outcome State Fault Refusal := .next (s.copyStart e.val)

/-- COPY_RUN (R255). -/
def execCopyRun (e : Fin 16) (s : State) : Host.Outcome State Fault Refusal := .next (s.copyRun e.val)

/-- COPY_COND_REEVALUATE (R257). -/
def execCopyCondReevaluate (e : Fin 16) (s : State) : Host.Outcome State Fault Refusal := .next (s.copyRetest e.val)

/-- COPY_COND_TIMEOUT (R257). -/
def execCopyCondTimeout (e : Fin 16) (s : State) : Host.Outcome State Fault Refusal := .next (s.copyTimeout e.val)

/-- COPY_BARRIER_ARRIVAL (R260). -/
def execCopyBarrierArrival (e : Fin 16) (s : State) : Host.Outcome State Fault Refusal := .next (s.copyArrive e.val)

/-- COPY_COMPLETE (R259). -/
def execCopyComplete (e : Fin 16) (s : State) : Host.Outcome State Fault Refusal := .next (s.copyComplete e.val)

end Sys2Proof.Machine
end

