-- ==== Sys2Proof/Machine/Sort.lean ====
section
/-! DEFINITION. Catalogue, the radix-sort engine (R233 to R239, R248 to R250): the checks of a command, its passes, the span
table, statistics, and the launch of blend waves. -/

namespace Sys2Proof.Machine

/-! ## The command's structures (R227, R234) -/

def sortMode (b : List Byte) : Nat := blk b 0 1 0
def sortResume (b : List Byte) : Bool := blk b 0 2 2 = 1
def sortSpass (b : List Byte) : Nat := blk b 0 11 8
def sortSalt (b : List Byte) : Bool := blk b 0 12 12 = 1
def sortFrame (b : List Byte) : Nat := fieldAt b 8 8
def sortWave (b : List Byte) : Nat := fieldAt b 0x10 8

/-- The block's checks in ascending bit position. -/
def sortBlockFail (b : List Byte) : Option Nat :=
  [chk (decide (sortMode b ≠ 3)) 0, resv b 0 3 5, chk (if sortResume b then decide (1 ≤ sortSpass b ∧ sortSpass b ≤ 14) else decide (sortSpass b = 0)) 1,
   chk (sortResume b || !sortSalt b) 1, resv b 0 13 51, chk (decide (sortFrame b % 128 = 0)) 8,
   chk (if sortMode b = 0 then decide (sortWave b = 0) else decide (sortWave b % 64 = 0)) 0x10, resv b 0x18 0 320].findSome? id

def frameCap (d : List Byte) : Nat := fieldAt d 0x20 4
def frameCount (d : List Byte) : Nat := fieldAt d 0x24 4
def frameSeq (d : List Byte) : Nat := fieldAt d 0x2A 2
def frameTlg (d : List Byte) : Nat := blk d 0x30 26 24
def frameSpan (d : List Byte) : Nat := fieldAt d 0x38 8
def frameStats (d : List Byte) : Nat := fieldAt d 0x40 8
/-- Pixels of a tile (R228). -/
def framePix (d : List Byte) : Nat := 4 ^ frameTlg d
/-- The key and payload buffers, the alternate pair with `alt`. -/
def frameKeys (d : List Byte) (alt : Bool) : Nat := fieldAt d (if alt then 0x10 else 0) 8
def framePays (d : List Byte) (alt : Bool) : Nat := fieldAt d (if alt then 0x18 else 8) 8

/-- The extents that must not overlap: address field, first address and bytes. -/
def frameExtents (d : List Byte) : List (Nat × Nat × Nat) :=
  [(0, frameKeys d false, 8 * frameCap d), (8, framePays d false, 4 * frameCap d), (0x10, frameKeys d true, 8 * frameCap d),
   (0x18, framePays d true, 4 * frameCap d), (0x38, frameSpan d, 8 * frameTiles d)]

/-- An address field names an extent of the global window that overlaps none named before it; an empty extent overlaps none. -/
def frameExtentOk (d : List Byte) (off : Nat) : Bool :=
  let es := frameExtents d
  match es.find? (fun e => e.1 = off) with
  | none => true
  | some e => decide (e.2.1 + e.2.2 ≤ 2 ^ 56) &&
      es.all (fun f => !(decide (f.1 < off) && decide (e.2.2 ≠ 0 ∧ f.2.2 ≠ 0) && decide (f.2.1 < e.2.1 + e.2.2 ∧ e.2.1 < f.2.1 + f.2.2)))

/-- The frame's checks in ascending offset (R227); `tenure` tells whether a statistics record lies as it must. The fields
tilesx and tilesy hold their values as they stand: 0 fails, so that the 4,096 of R227, which 12 bits do not hold, cannot be given
(log 49). -/
def frameFail (d : List Byte) (tenure : Bool) : Option Nat :=
  let ext := fun (off al : Nat) => chk (decide (fieldAt d off 8 % al = 0) && frameExtentOk d off) off
  [ext 0 8, ext 8 4, ext 0x10 8, ext 0x18 4, chk (decide (1 ≤ frameCap d ∧ frameCap d ≤ 2 ^ 31)) 0x20, resv d 0x28 1 15, resv d 0x2C 0 32,
   chk (decide (blk d 0x30 11 0 ≠ 0)) 0x30, chk (decide (blk d 0x30 23 12 ≠ 0)) 0x31, chk (decide (2 ≤ frameTlg d ∧ frameTlg d ≤ 5)) 0x33,
   resv d 0x30 27 37, ext 0x38 8, chk (frameStats d = 0 || (decide (frameStats d % 64 = 0 ∧ frameStats d + 64 ≤ 2 ^ 56) && tenure)) 0x40,
   resv d 0x48 0 448].findSome? id

/-- The wave descriptor with the threads and teams of a blend task (R238). -/
def waveDesc (w frame : List Byte) : List Byte :=
  setBytes (setBytes w 0 (leBytes 4 (frameTiles frame * framePix frame))) 5
    [BitVec.ofNat 8 (fieldAt w 5 1 / 8 * 8 + min (2 * frameTlg frame) 6)]

/-! ## Starting a command (R233, R234) -/

/-- The command that the engine of a die is at, in a state. -/
def State.sortAt (s : State) (die : Nat) (st : CmdSt) : Option Nat :=
  findIdx (fun (c : Cmd) => c.kind = .sort && c.st = st && c.core / Config.coresPerDie = die) s.cmds

/-- Status, pass and side of a failed access (R239). -/
def sortFault (f : EngFail) (i : Nat) (alt : Bool) : Result :=
  ⟨(engStatus f).1, (engStatus f).2 + i * 256 + (if alt then 4096 else 0), i⟩

/-- What the checks of R234 come to. -/
inductive SortCheck where
  | ok (frame wave : List Byte)
  | fail (r : Result)
  | wait

/-- An engine's read of a structure before pass 0; a frame stands in the global window only (R227). -/
def State.sortStruct (s : State) (cmd : Cmd) (a n : Nat) : Except Result (List Byte) :=
  match s.engRead cmd.task cmd.tile a n false with
  | .ok b => .ok b
  | .error f => .error (sortFault f 15 (sortResume cmd.block && sortSalt cmd.block))

/-- The checks of the wave descriptor: the first failure, raised by 0x100 (R238). -/
def State.waveFail (s : State) (cmd : Cmd) (w frame : List Byte) : Option Nat :=
  let root := (s.tasks[cmd.task]?.map (·.tlbRoot)).getD 0
  let d := waveDesc w frame
  if 2 ^ 32 ≤ frameTiles frame * framePix frame then some 0x100
  else match descFail d root with
    | some e => some (0x100 + e)
    | none => match s.loadStructs root (parseDesc d) with
      | .error e => some (0x100 + e.detail)
      | .ok _ => none

/-- The checks of a command: block, frame, wave. -/
def State.sortCheck (s : State) (cmd : Cmd) : SortCheck :=
  let b := cmd.block
  let bad := fun d => SortCheck.fail ⟨stBadParam, d, 0⟩
  match sortBlockFail b with
  | some d => bad d
  | none =>
    match (if 2 ^ 56 ≤ sortFrame b then .error (sortFault .window 15 (sortResume b && sortSalt b)) else s.sortStruct cmd (sortFrame b) 128) with
    | .error r => .fail r
    | .ok fr =>
      let ten := (s.tasks[cmd.task]?.map (fun t => t.inTenure (frameStats fr) 64 true)).getD false
      match frameFail fr ten with
      | some d => bad (0x40 + d)
      | none =>
        if sortMode b = 0 then .ok fr []
        else if s.engAbsent cmd.tile (sortWave b) 256 [] then .wait
        else match s.sortStruct cmd (sortWave b) 256 with
          | .error r => .fail r
          | .ok w =>
            let root := (s.tasks[cmd.task]?.map (·.tlbRoot)).getD 0
            if (descFail (waveDesc w fr) root).isNone && s.structsWait root (parseDesc (waveDesc w fr)) then .wait
            else match s.waveFail cmd w fr with
              | some d => bad d
              | none => .ok fr (waveDesc w fr)

/-- The frame and the wave descriptor as the command read them, kept behind its block. -/
def Cmd.frame (c : Cmd) : List Byte := (c.block.drop 64).take 128
def Cmd.wave (c : Cmd) : List Byte := (c.block.drop 192).take 256

/-- A change of one 32-byte unit of the statistics record; it is not made when it meets poison (R227, R248). -/
def State.sortStat (s : State) (c : Nat) (cmd : Cmd) (unit : Nat) (f : List Byte → List Byte) : State :=
  if frameStats cmd.frame = 0 then s
  else
    let a := frameStats cmd.frame + 32 * unit
    match s.engRead cmd.task cmd.tile a 32 false with
    | .error _ => s
    | .ok b => match s.engWrite c cmd.task cmd.tile a (f b) false with
      | .ok s => s
      | .error _ => s

/-- A counter of `n` bytes at an offset of a unit, saturating. -/
def addCount (off n k : Nat) (b : List Byte) : List Byte :=
  setBytes b off (leBytes n (min (fieldAt b off n + k) (2 ^ (8 * n) - 1)))

/-- SORT_START: with leave (R298), the next command is checked; it runs, ends without a pass in mode 10, or is over. One that has
started before a pre-emption goes on where it was (R293, R250), and neither waits for leave nor is charged again (log 40). -/
def State.sortStart (s : State) (die : Nat) : State :=
  if (s.sortAt die .running).isSome || (s.sortAt die .ended).isSome then s
  else match s.pick false (fun c => c.core / Config.coresPerDie = die && s.readyCmd .sort c) with
    | none => s
    | some c =>
      match s.cmds[c]? with
      | none => s
      | some cmd =>
        if cmd.leave then
          (s.sortStat c cmd 1 (addCount 0xC 4 1)).modCmd c (fun x => { x with st := .running, head := false })
        else if !s.hasBudget cmd.core startCharge then s
        else
          let cmd := { cmd with block := cmd.block.take 64 }
          match s.sortCheck cmd with
          | .wait => s
          | .fail r => (s.charge cmd.core startCharge).endCmd c r
          | .ok fr w =>
            let b := cmd.block
            let n := min (frameCount fr) (frameCap fr)
            let run : SortRun := ⟨0, sortResume b && sortSalt b, false, n, frameCount fr, [], 0, 0, false⟩
            let s := (s.charge cmd.core startCharge).modCmd c (fun x => { x with st := .running, leave := true, block := b ++ fr ++ w, sort := run })
            if sortMode b = 2 then s.endCmd c ⟨stDone, 0, n⟩ else s

/-! ## Passes (R235, R236) -/

/-- A key and its payload. -/
abbrev Pair := Nat × Nat

/-- Digit `d` of a pair. -/
def digitOf (d : Nat) (p : Pair) : Nat := if d ≤ 3 then p.2 / 256 ^ d % 256 else p.1 / 256 ^ (d - 4) % 256

/-- The tile field of a key (R229). -/
def pairTile (p : Pair) : Nat := p.1 / 2 ^ 40 % 2 ^ 24

/-- Pairs from the bytes of their keys and payloads. -/
def toPairs : List Byte → List Byte → Nat → List Pair
  | _, _, 0 => []
  | k, p, n + 1 => (leNat (k.take 8), leNat (p.take 4)) :: toPairs (k.drop 8) (p.drop 4) n

/-- The histograms of the twelve digits. -/
def histograms (ps : List Pair) : List (List Nat) :=
  (List.range 12).map (fun d => (List.range 256).map (fun v => (ps.filter (fun p => digitOf d p = v)).length))

/-- A stable scatter by a digit, ascending. -/
def scatter (d : Nat) (ps : List Pair) : List Pair := (List.range 256).flatMap (fun v => ps.filter (fun p => digitOf d p = v))

/-- The span table: entry `t` counts the pairs of smaller tiles and those of tiles up to `t` (R236). -/
def spanTable (ps : List Pair) (ntiles : Nat) : List Byte :=
  (List.range ntiles).flatMap (fun t =>
    leBytes 4 (ps.filter (fun p => decide (pairTile p < t))).length ++ leBytes 4 (ps.filter (fun p => decide (pairTile p ≤ t))).length)

/-- A digit pass that moves nothing. -/
def SortRun.skips (r : SortRun) (d : Nat) : Bool :=
  decide (r.n ≤ 1) || decide (((r.hist.getD d []).filter (fun v => v ≠ 0)).length = 1)

/-- The pairs of a buffer pair as they stand. -/
def State.readPairs (s : State) (cmd : Cmd) (alt : Bool) : Except EngFail (List Pair) :=
  let n := cmd.sort.n
  if n = 0 then .ok []
  else match s.engRead cmd.task cmd.tile (frameKeys cmd.frame alt) (8 * n) false with
    | .error f => .error f
    | .ok k => match s.engRead cmd.task cmd.tile (framePays cmd.frame alt) (4 * n) false with
      | .error f => .error f
      | .ok p => .ok (toPairs k p n)

/-- Writes of extents one after another; each one is checked before it is made. -/
def State.sortWrites (s : State) (c : Nat) (cmd : Cmd) : List (Nat × List Byte) → Except EngFail State
  | [] => .ok s
  | (a, b) :: l =>
    if b.isEmpty then s.sortWrites c cmd l
    else match s.engWrite c cmd.task cmd.tile a b false with
      | .error f => .error f
      | .ok s => s.sortWrites c cmd l

/-- The `n` entries of a buffer pair from number `i` on have no defined contents any more. -/
def State.scribblePair (s : State) (c : Nat) (cmd : Cmd) (alt : Bool) (i n : Nat) : State :=
  (s.scribble c cmd (frameKeys cmd.frame alt + 8 * i) (8 * n)).scribble c cmd (framePays cmd.frame alt + 4 * i) (4 * n)

def State.scribbleSpan (s : State) (c : Nat) (cmd : Cmd) : State := s.scribble c cmd (frameSpan cmd.frame) (8 * frameTiles cmd.frame)

/-- The bytes of pairs: their place and contents in a buffer pair. -/
def pairWrites (frame : List Byte) (alt : Bool) (ps : List Pair) : List (Nat × List Byte) :=
  [(frameKeys frame alt, ps.flatMap (fun p => leBytes 8 p.1)), (framePays frame alt, ps.flatMap (fun p => leBytes 4 p.2))]

/-- The statistics of a pass performed or skipped (R250). -/
def passStat (fseq i : Nat) (skipped : Bool) (b : List Byte) : List Byte :=
  let prog := fieldAt b 0x1C 4
  if fseq = prog % 65536 ∧ i < prog / 65536 % 16 then addCount 8 4 1 b
  else
    let b := if 1 ≤ i ∧ i ≤ 12 then addCount (if skipped then 4 else 0) 4 1 b else b
    setBytes b 0x1C (leBytes 4 (prog / 2 ^ 20 * 2 ^ 20 + fseq + (i + 1) * 65536))

/-- A pass is over: its statistics, and the end of the command behind the last one. -/
def State.passDone (s : State) (c : Nat) (cmd : Cmd) (r : SortRun) (i : Nat) (skipped over' : Bool) : State :=
  let s := s.sortStat c cmd 1 (passStat (frameSeq cmd.frame) i skipped)
  let s := s.modCmd c (fun x => { x with sort := r })
  if over' || (decide (13 ≤ r.next) && !r.alt && r.wrote) then s.endCmd c ⟨stDone, 0, r.n⟩ else s

/-- A pass that writes: `dst` takes the pairs, if any, and with `span` the span table is written. A failed access ends the
command (R239). -/
def State.passWrite (s : State) (c : Nat) (cmd : Cmd) (i : Nat) (ps : List Pair) (dst : Option Bool) (span : Bool) (r : SortRun) : State :=
  let nt := frameTiles cmd.frame
  let ws := (match dst with | some d => pairWrites cmd.frame d ps | none => []) ++ (if span then [(frameSpan cmd.frame, spanTable ps nt)] else [])
  match s.sortWrites c cmd ws with
  | .error f =>
    let s := match dst with | some d => s.scribblePair c cmd d 0 cmd.sort.n | none => s
    let s := if span then s.scribbleSpan c cmd else s
    s.endCmd c (sortFault f i cmd.sort.alt)
  | .ok s =>
    let cul := ((List.range nt).filter (fun t => !ps.any (fun p => pairTile p = t))).length
    let r := if span then { r with outrange := (ps.filter (fun p => decide (nt ≤ pairTile p))).length, culled := cul } else r
    s.passDone c cmd r i false (decide (13 ≤ i))

/-- SORT_PASS: one pass, performed or skipped. -/
def State.sortPass (s : State) (die : Nat) : State :=
  match s.sortAt die .running with
  | none => s
  | some c =>
    match s.cmds[c]? with
    | none => s
    | some cmd =>
      let r := cmd.sort
      let i := r.passIndex
      let d := i - 1
      if 1 ≤ i ∧ i ≤ 12 ∧ r.skips d then s.passDone c cmd { r with next := i + 1 } i true false
      else match s.readPairs cmd r.alt with
        | .error f => s.endCmd c (sortFault f i r.alt)
        | .ok ps =>
          if i = 0 then
            let first := if sortResume cmd.block then min (sortSpass cmd.block) 13 else 1
            s.passDone c cmd { r with hist := histograms ps, next := first } 0 false false
          else if i = 13 then s.passWrite c cmd 13 ps (some false) true { r with alt := false, next := 15 }
          else if i = 14 then s.passWrite c cmd 14 ps none true { r with next := 15 }
          else
            let last := ((List.range 12).drop i).all r.skips
            s.passWrite c cmd i (scatter d ps) (some (!r.alt)) (last && r.alt) { r with alt := !r.alt, wrote := true, next := i + 1 }

/-! ## The end (R237, R238) -/

/-- What a completed sort leaves undefined: the whole alternate pair, and everything after an emission during the sort (R227,
R232, R235; log 4). -/
def State.sortUndefined (s : State) (c : Nat) (cmd : Cmd) : State :=
  let n := cmd.sort.n
  let s := (s.scribblePair c cmd true 0 n).scribblePair c cmd true n (frameCap cmd.frame - n)
  if cmd.sort.spoiled then (s.scribblePair c cmd false 0 n).scribbleSpan c cmd else s

/-- SORT_COMPLETE: statistics, the blend task's launch, and the token. -/
def State.sortComplete (s : State) (die : Nat) : State :=
  match s.sortAt die .ended with
  | none => s
  | some c =>
    match s.cmds[c]? with
    | none => s
    | some cmd =>
      if cmd.result.st ≠ stDone then s.finishCmd c
      else if sortMode cmd.block ≠ 0 && decide (Config.maxTasks ≤ s.liveTasks) then s
      else
        let r := cmd.sort
        let s := if sortMode cmd.block = 2 then s
          else (s.sortStat c cmd 0 (fun b => addCount 0x18 8 r.culled (addCount 0x10 8 r.outrange
            (addCount 8 8 (r.count - frameCap cmd.frame) (addCount 0 8 r.count b))))).sortUndefined c cmd
        let s := if sortMode cmd.block = 0 then s
          else match s.tasks[cmd.task]? with
            | none => s
            | some t => s.beginLaunch none none t.tlbRoot t.prio cmd.wave none (some ⟨framePix cmd.frame, frameStats cmd.frame, [], [], c⟩)
        s.finishCmd c

/-- SORT_START (R234). -/
def execSortStart (die : Fin 4) (s : State) : Host.Outcome State Fault Refusal := .next (s.sortStart die.val)

/-- SORT_PASS (R235). -/
def execSortPass (die : Fin 4) (s : State) : Host.Outcome State Fault Refusal := .next (s.sortPass die.val)

/-- SORT_COMPLETE (R237). -/
def execSortComplete (die : Fin 4) (s : State) : Host.Outcome State Fault Refusal := .next (s.sortComplete die.val)

end Sys2Proof.Machine
end

