-- ==== Sys2Proof/Machine/Team.lean ====
section
/-! DEFINITION. Team operations (R41 to R47, R411 to R413) and `CHCTL` (R196, R347). -/

namespace Sys2Proof.Machine

/-! ## Teams -/

/-- The threads of a member's team; missing members are not among them and count as exited (R41). -/
def State.teamOf (s : State) (k : Nat) (t : Thread) : List Nat :=
  if t.tsize ≤ 1 then [k]
  else (s.threads.zipIdx.filter (fun e => e.1.task = t.task && e.1.node.isNone && e.1.tid.toNat / t.tsize = t.tid.toNat / t.tsize)).map (·.2)

/-- A member has done what rendezvous `n` asks of it: arrived, left before it, or exited (R42). -/
def Thread.settled (t : Thread) (n : Nat) : Bool := t.exitedB || decide (n ≤ t.tcount) || t.left

/-- Rendezvous `n` is complete. -/
def State.teamReady (s : State) (ks : List Nat) (n : Nat) : Bool :=
  ks.all (fun k => match s.threads[k]? with | some t => t.settled n | none => true)

/-- The arrivals at rendezvous `n`: thread, member index and what it brought. -/
def State.arrivals (s : State) (ks : List Nat) (n : Nat) : List (Nat × Nat × Arrival) :=
  ks.filterMap (fun k => match s.threads[k]? with
    | some t => (match t.st with
      | .parked (.rendezvous a) => if t.tcount = n then some (k, t.member, a) else none
      | _ => none)
    | none => none)

/-! ## Results (R45, R46) -/

/-- The value that a member supplies. -/
def supplied (l : List (Nat × Nat × Arrival)) (m : Nat) : Option DWord :=
  (l.find? (fun e => e.2.1 = m && e.2.2.supplies)).map (fun e => e.2.2.value)

/-- `combine` of R412. -/
def xredCombine (op l r : Nat) : Nat × FFlags :=
  let w := fun (v : Nat) => BitVec.ofNat 32 v
  match op with
  | 0 => fAdd fp32 .rne false (f32 l) (f32 r)
  | 1 => fMinMax fp32 false (f32 l) (f32 r)
  | 2 => fMinMax fp32 true (f32 l) (f32 r)
  | 3 => ((l + r) % 2 ^ 32, 0)
  | 4 => ((w l &&& w r).toNat, 0)
  | 5 => ((w l ||| w r).toNat, 0)
  | 6 => ((w l ^^^ w r).toNat, 0)
  | 7 => (if (w r).toInt < (w l).toInt then r else l, 0)
  | 8 => (if (w l).toInt < (w r).toInt then r else l, 0)
  | 9 => (Nat.min l r, 0)
  | _ => (Nat.max l r, 0)

/-- Two nodes of the tree: the lower index is the left operand. -/
def xredNode (op : Nat) (a b : Option Nat) : Option Nat × FFlags :=
  match a, b with
  | some l, some r => let c := xredCombine op l r; (some c.1, c.2)
  | some l, none => (some l, 0)
  | none, r => (r, 0)

/-- One level of the tree. -/
def xredLevel (op : Nat) : List (Option Nat) → List (Option Nat) × FFlags
  | a :: b :: l =>
    let c := xredNode op a b
    let r := xredLevel op l
    (c.1 :: r.1, c.2 ||| r.2)
  | l => (l, 0)

/-- The levels of the tree; six suffice for 64 members. -/
def xredTree (op : Nat) : Nat → List (Option Nat) → Option Nat × FFlags
  | 0, l => (l.headD none, 0)
  | n + 1, l =>
    let r := xredLevel op l
    let q := xredTree op n r.1
    (q.1, r.2 ||| q.2)

/-- A NaN result of a float operation is canonical, whether or not any member combined with another (R46, R100, R412). -/
def xredCanon (op v : Nat) : Nat := if op ≤ 2 ∧ (f32 v).isNan then 0x7FC00000 else v

/-- What a receiver gets: a value, or a predicate, with flags. -/
inductive TeamResult where
  | none
  | value (v : DWord) (pair : Bool) (f : FFlags)
  | pred (b : Bool)

/-- The result of a receiving member (R45). -/
def teamResult (tsize member : Nat) (l : List (Nat × Nat × Arrival)) (a : Arrival) : TeamResult :=
  let sup := (List.range tsize).filter (fun m => (supplied l m).isSome)
  let yes := sup.filter (fun m => (supplied l m).any (fun v => v ≠ 0))
  if a.key.1 = 0x6A then .value ((supplied l (Nat.xor member a.key.2.2)).getD a.fallback) a.pair 0
  else if a.key.1 = 0x6B then .value ((if a.index < tsize then supplied l a.index else none).getD a.fallback) a.pair 0
  else if a.key.1 = 0x6C then
    if a.key.2.1 = 0 then .pred (yes.length = sup.length)
    else if a.key.2.1 = 1 then .pred (!yes.isEmpty)
    else .value (BitVec.ofNat 64 (yes.foldl (fun v m => v + 2 ^ m) 0)) true 0
  else if a.key.1 = 0x6D then
    let r := xredTree a.key.2.1 6 ((List.range tsize).map (fun m => (supplied l m).map (·.toNat)))
    .value (BitVec.ofNat 64 ((r.1.map (xredCanon a.key.2.1)).getD a.fallback.toNat)) false r.2
  else .none

/-- A participant's own result: only a member whose guard is true receives (R45). -/
def Thread.receive (t : Thread) (a : Arrival) (r : TeamResult) : Thread :=
  if !a.supplies then t
  else match r with
    | .none => t
    | .pred b => t.setPred a.dst b
    | .value v pair f =>
      let w := BitVec.ofNat 128 (if pair then v.toNat else v.toNat % 2 ^ 32)
      ((t.setRegs a.dst (if pair then 2 else 1) w).pushLatch w false).raise f

/-! ## Completion (R43, R44, R413) -/

/-- A participant goes on behind its team operation: in the issue that holds it, or by filing. -/
def State.teamGo (s : State) (k : Nat) (t : Thread) : State :=
  let s := s.setThread k { t with st := .ready }
  let inLeft := (s.front.issue.map (fun i => decide (k ∈ i.left))).getD false
  let inStay := (s.front.issue.map (fun i => decide (k ∈ i.stay))).getD false
  if inLeft then s.stays k false else if inStay then s else s.file k t.pc

/-- The thread stands at a rendezvous. -/
def Thread.atRendezvous (t : Thread) : Bool :=
  match t.st with
  | .parked (.rendezvous _) => true
  | _ => false

/-- Rendezvous `n` completes: each participant gets its result, or, when they do not agree, `TEAM`; one that an earlier
participant's trap has ended raises nothing. -/
def State.completeTeam (s : State) (ks : List Nat) (n : Nat) : State :=
  let l := s.arrivals ks n
  let agree := l.all (fun e => l.all (fun f => e.2.2.key = f.2.2.key))
  l.foldl (fun s e =>
    match s.threads[e.1]? with
    | none => s
    | some t =>
      if agree then
        s.teamGo e.1 ((t.receive e.2.2 (teamResult t.tsize e.2.1 l e.2.2)).setPc (t.pc + BitVec.ofNat 64 e.2.2.len))
      else if !t.atRendezvous then s
      else s.takeTrap e.1 ⟨trapTeam, 0, BitVec.ofNat 32 n, 0, false⟩ (e.2.2.len / 4) t.pc t.pc false) s

/-! ## Arrival (R413) -/

def teamTrap (t : Thread) : TrapInfo := ⟨trapTeam, 0, BitVec.ofNat 32 (t.tcount + 1), 0, false⟩

/-- The checks before an arrival, whatever the guard; an open region stops a member whose guard is true. -/
def teamPre (cx : Ctx) (_ : State) : Option TrapInfo :=
  let mask := bitsOf cx.x.imm 5 0
  if cx.t.left then some (teamTrap cx.t)
  else if cx.i.opc = 0x6A && (mask = 0 || cx.t.tsize ≤ mask) then some (teamTrap cx.t)
  else if cx.g && cx.t.region.isSome then some (mkTrap trapAtomicRegion 0) else none

/-- What the member brings. -/
def arrivalOf (cx : Ctx) : Arrival :=
  { key := (cx.i.opc, cx.x.func.toNat, if cx.i.opc = 0x6A then bitsOf cx.x.imm 5 0 else 0), supplies := cx.g,
    pair := cx.x.func.getLsbD 0, value := BitVec.ofNat 64 cx.va.toNat, fallback := BitVec.ofNat 64 cx.vc.toNat,
    index := cx.vb.toNat % 2 ^ 32, dst := match cx.x.d with | .reg n => n.val | _ => 0, len := cx.len }

/-- An arrival: the last one completes the rendezvous; a member whose team is still to issue with it stays in the
issue, and any other parks (R43). -/
def teamBody (cx : Ctx) (s : State) : State × Eff :=
  let n := cx.t.tcount + 1
  let a := arrivalOf cx
  let s := (s.modThread cx.k (fun t => { t with tcount := n, st := .parked (.rendezvous a) })).touch cx.t.task
  let ks := s.teamOf cx.k cx.t
  if s.teamReady ks n then (s.completeTeam ks n, .gone)
  else
    let left := (s.front.issue.map (·.left)).getD []
    if ks.any (fun j => j ≠ cx.k && decide (j ∈ left)) then (s.stays cx.k false, .gone)
    else (s.park cx.k (.rendezvous a), .gone)

def tleaveBody (cx : Ctx) (s : State) : State × Eff :=
  ((s.modThread cx.k (fun t => { t with left := true })).touch cx.t.task, .next)

/-! ## `CHCTL` (R196, R347) -/

/-- The channel number of field a. -/
def chctlNum (cx : Ctx) : Nat := match cx.x.a with | .reg n _ => n.val | _ => 0

def chctlPre (cx : Ctx) (s : State) : Option TrapInfo :=
  if (s.chanAt cx.t (chctlNum cx)).isNone then some (chanTrap (chctlNum cx))
  else if cx.x.func = 2 ∧ 1 < cx.vb.toNat then some (chanTrap (chctlNum cx)) else none

def chctlBody (cx : Ctx) (s : State) : State × Eff :=
  match s.chanAt cx.t (chctlNum cx) with
  | none => (s, .trap (chanTrap (chctlNum cx)))
  | some (i, h) =>
    if cx.x.func = 0 then (cx.dst s (BitVec.ofNat 128 h.entries), .next)
    else if cx.x.func = 1 then (cx.dst s (BitVec.ofNat 128 h.room), .next)
    else (cx.dst (s.setChan i { h with ext := decide (cx.vb ≠ 0) }) (if h.ext then 1 else 0), .next)

/-- TLEAVE (R413). -/
def execTleave (x : ExtOp) (s : State) : Host.Outcome State Fault Refusal := runThread (.tleave x) teamPre tleaveBody s

/-- TSYNC (R413). -/
def execTsync (x : ExtOp) (s : State) : Host.Outcome State Fault Refusal := runThread (.tsync x) teamPre teamBody s

/-- XCHG (R413). -/
def execXchg (x : ExtOp) (s : State) : Host.Outcome State Fault Refusal := runThread (.xchg x) teamPre teamBody s

/-- XSHF (R413). -/
def execXshf (x : ExtOp) (s : State) : Host.Outcome State Fault Refusal := runThread (.xshf x) teamPre teamBody s

/-- XVOTE (R413). -/
def execXvote (x : ExtOp) (s : State) : Host.Outcome State Fault Refusal := runThread (.xvote x) teamPre teamBody s

/-- XRED (R46). -/
def execXred (x : ExtOp) (s : State) : Host.Outcome State Fault Refusal := runThread (.xred x) teamPre teamBody s

/-- CHCTL (R196). -/
def execChctl (x : ExtOp) (s : State) : Host.Outcome State Fault Refusal := runThread (.chctl x) chctlPre chctlBody s

end Sys2Proof.Machine
end

