-- ==== Sys2Proof/Machine/Coll.lean ====
section
/-! DEFINITION. Collectives (R268 to R273, R247): the block and its checks, agreement with the other members, what each
operation leaves at dst. What the other packages bring is an argument of the event. -/

namespace Sys2Proof.Machine

/-! ## The block (R269) -/

def collOp (b : List Byte) : Nat := blk b 0 2 0
def collTag (b : List Byte) : Nat := fieldAt b 4 4
def collMembers (b : List Byte) : Nat := fieldAt b 8 8
def collNmem (b : List Byte) : Nat := fieldAt b 0x10 2
def collRoot (b : List Byte) : Nat := fieldAt b 0x12 2
def collSrc (b : List Byte) : Nat := fieldAt b 0x18 8
def collDst (b : List Byte) : Nat := fieldAt b 0x20 8
def collBytes (b : List Byte) : Nat := fieldAt b 0x28 8

/-- The operation has a root. -/
def collRooted (b : List Byte) : Bool := collOp b = 3 || collOp b = 5

/-- The package indices of a member list. -/
def memberList (bs : List Byte) (n : Nat) : List Nat := (List.range n).map (fun i => fieldAt bs (2 * i) 2)

/-- Strictly ascending. -/
def ascending : List Nat → Bool
  | a :: b :: l => decide (a < b) && ascending (b :: l)
  | _ => true

/-- The block's own checks in ascending offset. -/
def collBlockFail (b : List Byte) : Option Nat :=
  let frame := fun v => chk (decide (collOp b ≠ 4 ∨ v % 128 = 0))
  let step := if collOp b = 0 then 4 else if collOp b = 1 ∨ collOp b = 5 then 16 else 1
  [chk (decide (collOp b ≤ 5)) 0, resv b 0 3 29, chk (decide (collMembers b % 2 = 0)) 8,
   chk (decide (1 ≤ collNmem b ∧ collNmem b ≤ 512)) 0x10, chk (!collRooted b || decide (collRoot b < collNmem b)) 0x12, resv b 0x14 0 32,
   frame (collSrc b) 0x18, frame (collDst b) 0x20,
   chk (if collOp b = 4 then decide (collBytes b = 0) else decide (collBytes b % step = 0)) 0x28, resv b 0x30 0 128].findSome? id

/-- Another `COLL` of the package in flight, launched before, has the tag. -/
def State.tagTaken (s : State) (cmd : Cmd) : Bool :=
  s.cmds.any (fun d => d.kind = .coll && d.inFlight && decide (d.no < cmd.no) && decide (collTag d.block = collTag cmd.block))

/-- What the checks of R269 come to: the rank of this package, the end of the command, or a wait for tile lines (R133). -/
inductive CollCheck where
  | ok (rank : Nat)
  | fail (r : Result)
  | wait

/-- Status and cause of a failed access. -/
def collFault (f : EngFail) : Result := ⟨(engStatus f).1, (engStatus f).2, 0⟩

/-- An access of a key exchange, whose frames and buffers stand in the global window (R227). -/
def State.frameRead (s : State) (cmd : Cmd) (a n : Nat) : Except EngFail (List Byte) :=
  if 2 ^ 56 < a + n then .error .window else s.engRead cmd.task cmd.tile a n false

/-- A frame descriptor as R231 takes it: no reserved bit, some capacity, aligned buffers. -/
def frameTaken (d : List Byte) : Bool :=
  frameReserved d && decide (frameCap d ≠ 0 ∧ frameKeys d false % 8 = 0 ∧ framePays d false % 4 = 0)

/-- The frame descriptor that the block names at `off`; one with a reserved bit fails the block there (R4, R231; log 20). -/
def State.collFrame (s : State) (cmd : Cmd) (off : Nat) : Option Result :=
  match s.frameRead cmd (fieldAt cmd.block off 8) 128 with
  | .error f => some (collFault f)
  | .ok d => if frameTaken d then none else some ⟨stBadParam, off, 0⟩

/-- The checks of R269, with the member list and, for a key exchange, the frames read. -/
def State.collCheck (s : State) (cmd : Cmd) : CollCheck :=
  let b := cmd.block
  let bad := fun d => CollCheck.fail (⟨stBadParam, d, 0⟩ : Result)
  match collBlockFail b with
  | some d => bad d
  | none =>
    if s.tagTaken cmd then bad 4
    else if s.engAbsent cmd.tile (collMembers b) (2 * collNmem b) [] then .wait
    else match s.engRead cmd.task cmd.tile (collMembers b) (2 * collNmem b) false with
      | .error f => .fail (collFault f)
      | .ok bs =>
        let ms := memberList bs (collNmem b)
        match findIdx (fun m => m = s.pkg.index.toNat) ms with
        | none => bad 8
        | some rank =>
          if !ascending ms || ms.any (fun m => decide (512 ≤ m)) then bad 8
          else if collOp b = 5 ∧ rank ≠ collRoot b ∧ collDst b ≠ 0 then bad 0x20
          else if collOp b = 4 then
            match (s.collFrame cmd 0x18).or (s.collFrame cmd 0x20) with
            | some r => .fail r
            | none => .ok rank
          else .ok rank

/-! ## Agreement (R270) -/

/-- The member of a rank, other than this one. -/
def peerOf (ps : List Peer) (r : Nat) : Option Peer := ps.find? (fun p => p.rank = r)

/-- Every other member has launched. -/
def peersAll (b : List Byte) (rank : Nat) (ps : List Peer) : Bool :=
  (List.range (collNmem b)).all (fun r => decide (r = rank) || (peerOf ps r).isSome)

def peerAgrees (b : List Byte) (p : Peer) : Bool :=
  decide (p.op = collOp b ∧ p.nmem = collNmem b ∧ p.root = collRoot b ∧ p.nbytes = collBytes b)

/-- The other members, in rank order. -/
def peersOf (b : List Byte) (rank : Nat) (ps : List Peer) : List Peer :=
  (List.range (collNmem b)).filterMap (fun r => if r = rank then none else peerOf ps r)

/-! ## Results (R271, R272, R247) -/

/-- The sources by rank, each of `n` bytes. -/
def sources (rank n nmem : Nat) (own : List Byte) (ps : List Peer) : List (List Byte) :=
  (List.range nmem).map (fun r => if r = rank then own else fixBytes n (((peerOf ps r).map (·.src)).getD []))

/-- Element `i` of `n` bytes of each source. -/
def elemsOf (srcs : List (List Byte)) (n i : Nat) : List Nat := srcs.map (fun b => fieldAt b (n * i) n)

/-- The FP32 sum by rank; a NaN is canonical with one member too, where the tree adds nothing (R100, R272). -/
def collSum32 (vs : List Nat) : Nat := xredCanon 0 (((xredTree 0 10 (vs.map some)).1).getD 0)

/-- One pixel through the slabs: the colour of each channel and the remaining transmittance. -/
def mosaicStep (acc : List Nat × Nat) (px : List Byte) : List Nat × Nat :=
  let t := f32 acc.2
  (acc.1.zipIdx.map (fun e => rne32 (FVal.add .rne (FVal.mul t (f32 (fieldAt px (4 * e.2) 4))).1 (f32 e.1)).1),
   rne32 (FVal.mul t (f32 (fieldAt px 12 4))).1)

/-- A composited record. -/
def mosaicPixel (slabs : List (List Byte)) : List Byte :=
  let r := slabs.foldl mosaicStep ([0, 0, 0], 0x3F800000)
  (r.1 ++ [r.2]).flatMap (leBytes 4)

/-- What dst takes at this member, for the operations on plain bytes. -/
def collResult (b : List Byte) (rank : Nat) (srcs : List (List Byte)) : List Byte :=
  let n := collBytes b
  match collOp b with
  | 0 => (List.range (n / 4)).flatMap (fun i => leBytes 4 (collSum32 (elemsOf srcs 4 i)))
  | 1 => (List.range (n / 16)).flatMap (fun i => leBytes 16 ((elemsOf srcs 16 i).sum % 2 ^ 128))
  | 2 => srcs.flatMap id
  | 3 => srcs.getD (collRoot b) []
  | 5 => if rank = collRoot b then (List.range (n / 16)).flatMap (fun i => mosaicPixel (srcs.map (fun x => (x.drop (16 * i)).take 16))) else []
  | _ => []

/-! ## Key exchange (R246, R271) -/

/-- The pairs of this member's source frame. -/
def State.framePairs (s : State) (cmd : Cmd) : Except EngFail (List Pair) :=
  match s.frameRead cmd (collSrc cmd.block) 128 with
  | .error f => .error f
  | .ok d =>
    let n := min (frameCount d) (frameCap d)
    if n = 0 then .ok []
    else match s.frameRead cmd (frameKeys d false) (8 * n) with
      | .error f => .error f
      | .ok k => match s.frameRead cmd (framePays d false) (4 * n) with
        | .error f => .error f
        | .ok p => .ok (toPairs k p n)

/-- Pairs of 12 bytes each. -/
def peerPairs : List Byte → Nat → List Pair
  | _, 0 => []
  | b, n + 1 => (leNat (b.take 8), leNat ((b.drop 8).take 4)) :: peerPairs (b.drop 12) n

/-- All pairs in the order in which they arrive: that of the event's list, in which an entry of this member's own rank
stands for its own pairs, which come first when there is none (log 20). -/
def arriving (rank : Nat) (own : List Pair) (ps : List Peer) : List Pair :=
  let others := ps.flatMap (fun p => if p.rank = rank then own else peerPairs p.src (p.src.length / 12))
  if ps.any (fun p => p.rank = rank) then others else own ++ others

/-- One pair is appended by the steps of R231. -/
def State.appendPair (s : State) (c : Nat) (cmd : Cmd) (p : Pair) : Except EngFail State :=
  match s.frameRead cmd (collDst cmd.block) 128 with
  | .error f => .error f
  | .ok d =>
    let n := frameCount d
    let fl := fieldAt d 0x28 4
    let new := leBytes 4 (min (n + 1) 0xFFFFFFFF) ++ leBytes 4 (if frameCap d ≤ n then fl / 2 * 2 + 1 else fl)
    let ws := [(collDst cmd.block + 0x24, new)] ++ (if n < frameCap d then
      [(frameKeys d false + 8 * n, leBytes 8 p.1), (framePays d false + 4 * n, leBytes 4 p.2)] else [])
    if 2 ^ 56 < frameKeys d false + 8 * frameCap d ∨ 2 ^ 56 < framePays d false + 4 * frameCap d then .error .window
    else s.sortWrites c cmd ws

def State.appendPairs (s : State) (c : Nat) (cmd : Cmd) : List Pair → Except EngFail State
  | [] => .ok s
  | p :: l =>
    match s.appendPair c cmd p with
    | .error f => .error f
    | .ok s => s.appendPairs c cmd l

/-! ## The command -/

/-- The command that the collective unit of a die is at, in a state. -/
def State.collAt (s : State) (die : Nat) (st : CmdSt) : Option Nat :=
  findIdx (fun (c : Cmd) => c.kind = .coll && c.st = st && c.core / Config.coresPerDie = die) s.cmds

/-- A collective that ends early: its dst has no defined contents (R270; log 4). -/
def State.collAbort (s : State) (c : Nat) (cmd : Cmd) (r : Result) : State := (s.collSpoil c cmd).endCmd c r

/-- A collective is done; what its token counts is not stated, so that the count is a free value (log 4). -/
def State.collDone (s : State) (c : Nat) : State := (s.useFree 8).endCmd c ⟨stDone, 0, leNat (freeBytes s.freeCtr 8)⟩

/-- A line of src or dst in the tile store is absent (R133). -/
def State.collWaits (s : State) (cmd : Cmd) : Bool :=
  (collOp cmd.block ≠ 4 && s.engAbsent cmd.tile (collSrc cmd.block) (collBytes cmd.block) []) ||
    (s.collExtents cmd).any (fun e => s.engAbsent cmd.tile e.1 e.2 [])

/-- Every member has launched: the collective runs, or ends at every member. -/
def State.collRun (s : State) (c : Nat) (cmd : Cmd) (rank : Nat) (ps : List Peer) : State :=
  let b := cmd.block
  let qs := peersOf b rank ps
  let failed := fun (f : EngFail) => s.collAbort c cmd (collFault f)
  if qs.any (fun p => !peerAgrees b p) then s.collAbort c cmd ⟨stEngineFault, 6, 0⟩
  else if qs.any (·.early) then s.collAbort c cmd ⟨stCancelled, 0, 0⟩
  else if s.collWaits cmd then s
  else if collOp b = 4 then
    match s.framePairs cmd with
    | .error f => failed f
    | .ok own =>
      let mine := (arriving rank own ps).filter (fun p => decide (pairTile p % collNmem b = rank))
      match s.appendPairs c cmd mine with
      | .error f => failed f
      | .ok s => s.collDone c
  else
    match (if collBytes b = 0 then .ok [] else s.engRead cmd.task cmd.tile (collSrc b) (collBytes b) false) with
    | .error f => failed f
    | .ok own =>
      let out := collResult b rank (sources rank (collBytes b) (collNmem b) own ps)
      match s.sortWrites c cmd [(collDst b, out)] with
      | .error f => failed f
      | .ok s => s.collDone c

/-- The unit, at no command, takes its next one when leave is granted (R268, R298; log 40). -/
def State.collTake (s : State) (die : Nat) : State :=
  if (s.collAt die .running).isSome || (s.collAt die .ended).isSome then s
  else match s.pick false (fun c => c.core / Config.coresPerDie = die && s.readyCmd .coll c) with
    | none => s
    | some c =>
      match s.cmds[c]? with
      | none => s
      | some cmd =>
        let s' := (s.charge cmd.core startCharge).modCmd c (fun x => { x with st := .running, coll := ⟨true⟩, leave := true })
        if !s.hasBudget cmd.core startCharge then s
        else match s.collCheck cmd with
        | .fail r => s'.collAbort c cmd r
        | _ => s'

/-- A listed other member has ended early (R270). -/
def peerEarly (b : List Byte) (rank : Nat) (ps : List Peer) : Bool := (peersOf b rank ps).any (·.early)

/-- COLL_START: a command is taken, and once every member has launched the collective runs; it ends as soon as another member has
ended early. -/
def State.collStart (s : State) (die : Nat) (ps : List Peer) : State :=
  let s := s.collTake die
  match s.collAt die .running with
  | none => s
  | some c =>
    match s.cmds[c]? with
    | none => s
    | some cmd =>
      match s.collCheck cmd with
      | .fail r => s.collAbort c cmd r
      | .wait => s
      | .ok rank =>
        if peersAll cmd.block rank ps then s.collRun c cmd rank ps
        else if peerEarly cmd.block rank ps then s.collAbort c cmd ⟨stCancelled, 0, 0⟩
        else s

/-- COLL_COMPLETE: the token, behind every access of the command. -/
def State.collComplete (s : State) (die : Nat) : State :=
  match s.collAt die .ended with
  | none => s
  | some c => s.finishCmd c

/-- COLL_START (R270). -/
def execCollStart (die : Fin 4) (peers : List Peer) (s : State) : Host.Outcome State Fault Refusal := .next (s.collStart die.val peers)

/-- COLL_COMPLETE (R273). -/
def execCollComplete (die : Fin 4) (s : State) : Host.Outcome State Fault Refusal := .next (s.collComplete die.val)

end Sys2Proof.Machine
end

