-- ==== Sys2Proof/Machine/Cycle.lean ====
section
/-! DEFINITION. One cycle passes: the waits for leave are counted, time advances, and the power period begins when it is due
(R59, R294, R298). -/

namespace Sys2Proof.Machine

/-- An engine for commands of a kind that answers to a test of cores is at no command, and would start command `c` next. -/
def State.startsNext (s : State) (kind : CmdKind) (on : Cmd → Bool) (c : Nat) : Bool :=
  !s.cmds.any (fun d => d.kind = kind && on d && (decide (d.st = .running) || decide (d.st = .ended))) &&
    s.pick false (fun d => on d && s.readyCmd kind d) == some c

/-- A command that would start now but for leave (R220, R298). One that had run before a pre-emption has had its leave (log 40). -/
def State.waitsLeave (s : State) (c : Nat) (cmd : Cmd) : Bool :=
  !cmd.leave && match cmd.kind with
  | .mma => (s.mmaAsks cmd.core).any (fun a => a.1 = c && !s.leaveCovered a.2)
  | .copy => !s.hasBudget cmd.core startCharge && s.startsNext .copy (fun d => copyEngine d = copyEngine cmd) c
  | k => !s.hasBudget cmd.core startCharge && s.startsNext k (fun d => d.core / Config.coresPerDie = cmd.core / Config.coresPerDie) c

/-- Commands that wait for leave count a cycle on their core (R294; log 40). -/
def State.countWaits (s : State) : State :=
  s.cmds.zipIdx.foldl (fun t e => if decide (e.1.st = .queued) && s.waitsLeave e.2 e.1 then t.countWait e.1.core else t) s

/-- One cycle passes: time and the cycle counter advance, the arbiters begin again, and at a multiple of 1,000 the
power period begins (R59, R298). -/
def State.tick (s : State) : State :=
  let s := s.countWaits
  ({ s with time := s.time + 1, cycle := s.cycle + 1, front := { s.front with turn := 0, drawn := [] } } : State).powerPeriod

end Sys2Proof.Machine
end

