-- ==== Sys2Proof/Machine/Coelostat.lean ====
section
/-! DEFINITION. Coelostat: tiles of `NEVAL` rows that close and run (R224 to R226). -/

namespace Sys2Proof.Machine

/-! ## Layers (R223, R225) -/

def nevF8 (d : List Byte) (l : Nat) : Bool := blk d (0x10 + 24 * l) 8 8 = 1
def nevAct (d : List Byte) (l : Nat) : Nat := blk d (0x10 + 24 * l) 10 9
def nevWaddr (d : List Byte) (l : Nat) : Nat := fieldAt d (0x18 + 24 * l) 8
def nevBaddr (d : List Byte) (l : Nat) : Nat := fieldAt d (0x20 + 24 * l) 8
/-- Inputs of a layer. -/
def nevInputs (d : List Byte) (l : Nat) : Nat := if l = 0 then nevIn d else nevWidth d (l - 1)
def nevEsize (d : List Byte) (l : Nat) : Nat := if nevF8 d l then 1 else 2

/-- A value rounded to the weights' type, read back (R225). -/
def toWtype (f8 : Bool) (v : FVal) : FVal :=
  if f8 then f8a.unpack (f8a.code v).1 else bf16.unpack false (bf16.code .rne false v).1

def ofWtype (f8 : Bool) (c : Nat) : FVal := if f8 then f8a.unpack c else bf16.unpack false c

/-- The activations; a NaN gives the canonical NaN. -/
def activate (act : Nat) (y : Nat) : Nat :=
  let v := f32 y
  if v.isNan then fp32.nanCode
  else
    match act with
    | 0 => y
    | 1 => if FVal.lt (.fin false 0 0) v then y else 0
    | 2 => if v.lt (.fin false 0 0) then rne32 (FVal.mul v (.fin false 1 (-4))).1 else y
    | _ => if v.lt (.fin false 0 0) then 0 else if FVal.lt (.fin false 1 0) v then 0x3F800000 else y

/-- Products of one chunk, exact. -/
def dotSum (ws xs : List FVal) : FVal := (sumExact .rne ((ws.zip xs).map (fun e => (FVal.mul e.1 e.2).1))).1

/-- One output before its activation: chunks of 32 or 64 inputs, ascending. -/
def nevSum (len : Nat) (bias : Nat) (ws xs : List FVal) : Nat :=
  (List.range ((ws.length + len - 1) / len)).foldl (fun acc c =>
    rne32 (FVal.add .rne (f32 acc) (dotSum ((ws.drop (len * c)).take len) ((xs.drop (len * c)).take len))).1) bias

/-- A layer's weights and biases as fetched: for each output its bias and its row. -/
structure LayerW where
  f8 : Bool
  act : Nat
  outs : List (Nat × List FVal)

/-- One layer of one row. -/
def runLayer (w : LayerW) (x : List Nat) : List Nat :=
  let xr := x.map (fun v => toWtype w.f8 (f32 v))
  w.outs.map (fun o => activate w.act (nevSum (if w.f8 then 64 else 32) o.1 o.2 xr))

/-- A row through every layer: it depends on nothing but its inputs and the weights. -/
def runRow (ls : List LayerW) (x : List Nat) : List Nat := ls.foldl (fun x w => runLayer w x) x

/-- Elements of `n` bytes each. -/
def splitElems (n : Nat) (bs : List Byte) : Nat → List Nat
  | 0 => []
  | k + 1 => leNat (bs.take n) :: splitElems n (bs.drop n) k

/-! ## Fetching weights (R223, R226) -/

/-- A fetch that failed: the layer and its cause. -/
structure NevFail where
  layer : Nat
  cause : Nat
  deriving DecidableEq, Repr

/-- The outputs of a layer from number `o` on, in the order of R225: bias, then row. -/
def State.fetchOuts (s : State) (ti core tile : Nat) (d : List Byte) (l o : Nat) : Nat → Except NevFail (State × List (Nat × List FVal))
  | 0 => .ok (s, [])
  | n + 1 =>
    let rb := nevInputs d l * nevEsize d l
    match s.weightRead ti core tile (nevBaddr d l + 4 * o) 4 with
    | .error f => .error ⟨l, causeOf f⟩
    | .ok (s, b) =>
      match s.weightRead ti core tile (nevWaddr d l + rb * o) rb with
      | .error f => .error ⟨l, causeOf f⟩
      | .ok (s, w) =>
        match s.fetchOuts ti core tile d l (o + 1) n with
        | .error e => .error e
        | .ok (s, r) => .ok (s, (leNat b, (splitElems (nevEsize d l) w (nevInputs d l)).map (ofWtype (nevF8 d l))) :: r)

/-- The layers from `l` on. -/
def State.fetchLayers (s : State) (ti core tile : Nat) (d : List Byte) (l : Nat) : Nat → Except NevFail (State × List LayerW)
  | 0 => .ok (s, [])
  | n + 1 =>
    match s.fetchOuts ti core tile d l 0 (nevWidth d l) with
    | .error e => .error e
    | .ok (s, o) =>
      match s.fetchLayers ti core tile d (l + 1) n with
      | .error e => .error e
      | .ok (s, r) => .ok (s, ⟨nevF8 d l, nevAct d l, o⟩ :: r)

/-- Some weight or bias stands on an absent tile line (R133). -/
def State.nevWaits (s : State) (tile : Nat) (d : List Byte) : Bool :=
  (List.range (nevLayers d)).any (fun l =>
    s.engAbsent tile (nevBaddr d l) (4 * nevWidth d l) [] || s.engAbsent tile (nevWaddr d l) (nevInputs d l * nevEsize d l * nevWidth d l) [])

/-! ## The run -/

/-- Consecutive registers take a list of words, and y0 the first (R36; log 19). -/
def Thread.setBlock (t : Thread) (first : Nat) (ws : List Nat) : Thread :=
  ({ t with
    regs := writeRegs t.regs first (ws.reverse.foldl (fun v w => v * 2 ^ 32 + w) 0) ws.length
    badRegs := t.badRegs.filter (fun r => !(decide (first ≤ r) && decide (r < first + ws.length))) } : Thread).pushLatch
      (BitVec.ofNat 128 (ws.headD 0)) false

/-- A member that still waits for the tile's outputs. -/
def State.rowWaits (s : State) (r : NRow) : Bool := (s.threads[r.k]?.map (fun t => decide (t.st = .parked .neval))).getD false

/-- One member gets its outputs and wakes at the next instruction. -/
def State.rowDone (s : State) (r : NRow) (outs : List Nat) : State :=
  if !s.rowWaits r then s
  else
    let s := s.modThread r.k (fun t => t.setBlock r.dst outs)
    s.wake r.k (((s.threads[r.k]?.map (·.pc)).getD 0) + BitVec.ofNat 64 r.len)

/-- One member traps at its `NEVAL` (R226). -/
def State.rowTrap (s : State) (handle : Nat) (f : NevFail) (r : NRow) : State :=
  if !s.rowWaits r then s
  else
    let pc := (s.threads[r.k]?.map (·.pc)).getD 0
    s.takeTrap r.k (nevalTrap handle f.layer f.cause) (r.len / 4) pc pc false

/-- A closed tile runs to its end (R224, R225), or its members trap (R226); a tenure failure ends the task (R151). -/
def State.tileRun (s : State) (i : Nat) : State :=
  match s.ntiles[i]? with
  | none => s
  | some n =>
    let tile := (s.tileOf n.task n.core).getD s.tiles.length
    if !n.live || !n.closed || s.nevWaits tile n.desc then s
    else
      let s := { s with ntiles := s.ntiles.modify i (fun (n : NTile) => { n with live := false, rows := [] }) }
      match s.fetchLayers n.task n.core tile n.desc 0 (nevLayers n.desc) with
      | .error f =>
        let s := if f.cause = 3 then s.tenureCause n.task else s
        let s := n.rows.foldl (fun s r => s.rowTrap n.handle f r) s
        if f.cause = 3 then s.endTask n.task ⟨stTenure, 0, 0⟩ else s
      | .ok (s, ls) => n.rows.foldl (fun s r => s.rowDone r (runRow ls (r.x.map (·.toNat)))) s

/-- A tile closes 128 cycles after its first joiner (R224). -/
def State.tileTimeout (s : State) (i : Nat) : State :=
  match s.ntiles[i]? with
  | none => s
  | some n => if n.live && !n.closed && decide (n.opened + 128 ≤ s.time.toNat) then s.closeTile i else s

/-- NEVAL_TILE_TIMEOUT (R224). -/
def execNevalTileTimeout (i : Nat) (s : State) : Host.Outcome State Fault Refusal := .next (s.tileTimeout i)

/-- NEVAL_TILE_RUN (R225). -/
def execNevalTileRun (i : Nat) (s : State) : Host.Outcome State Fault Refusal := .next (s.tileRun i)

end Sys2Proof.Machine
end

