-- ==== Sys2Proof/Machine/Control.lean ====
section
/-! DEFINITION. Control instructions (R88, 0x40 to 0x4B) and the system instructions (R92, 0x77 to 0x7B). -/

namespace Sys2Proof.Machine

/-! ## Transfers -/

/-- The target of a direct branch: pc + 4·sext(offset) (R343). -/
def branchTarget (cx : Ctx) : DWord := cx.t.pc + (cx.x.imm.signExtend 64) * 4

/-- The target of an indirect transfer (R346, R376). -/
def indirectTarget (cx : Ctx) : DWord := BitVec.ofNat 64 cx.va.toNat + cx.x.imm.signExtend 64

/-- A taken transfer inside an open region (R164). -/
def inRegion (cx : Ctx) : Bool := cx.t.region.isSome

/-- `UNMAPPED_TARGET` when a target is not mapped executable (R50, R343). -/
def State.mapCheck (s : State) (t : Thread) (target : DWord) : Option TrapInfo :=
  if (s.codePlace t target.toNat).isNone then some (mkTrap trapUnmappedTarget target) else none

/-- The word of `LAND` (R378). -/
def landWord : Word := 0x00000118

/-- The checks of R49, in order. -/
def State.landCheck (s : State) (t : Thread) (target : DWord) : Option TrapInfo :=
  if target.toNat % 4 ≠ 0 then some (mkTrap trapMisalignedTarget target)
  else match s.codePlace t target.toNat with
    | none => some (mkTrap trapUnmappedTarget target)
    | some pl =>
      match s.wordFail pl with
      | some u => some (wordTrap target u)
      | none => if s.wordAt pl ≠ landWord then some (mkTrap trapBadLanding target) else none

/-- A push that would make the depth 529 (R52). -/
def fullCheck (t : Thread) : Option TrapInfo :=
  if Config.shadowMax ≤ t.shadow.length then some (mkTrap trapStack 0) else none

/-- Where entry `i` of the shadow stack is spilled: an offset of the stack (R52). -/
def spillOff (stackBytes i : Nat) : Nat := stackBytes - 4096 + 8 * i

/-- The push of a return address: beyond 16 entries the oldest on-chip one is written to the spill area (R52, R343). -/
def Thread.pushReturn (t : Thread) (stackBytes : Nat) (ret : DWord) : Thread :=
  let sh := ret :: t.shadow
  let t := { t with lk := ret, shadow := sh }
  if 16 < sh.length then
    let i := sh.length - 17
    let st := t.stack.put (spillOff stackBytes i) (leBytes 8 (sh.getD 16 0).toNat)
    { t with stack := if i ∈ t.shadowBad then st.poison (spillOff stackBytes i / 32) else st, shadowBad := serase t.shadowBad i }
  else t

/-- The pop: at 16 or more entries left, one is refilled from the spill area with its poison (R402). -/
def Thread.popReturn (t : Thread) (stackBytes : Nat) : Thread :=
  let sh := t.shadow.drop 1
  let bad := serase t.shadowBad sh.length
  let i := sh.length - 16
  { t with shadow := sh, shadowBad := if decide (16 ≤ sh.length) && t.stack.poisoned (spillOff stackBytes i) 8 then sinsert bad i else bad }

def State.stackOf (s : State) (t : Thread) : Nat := (s.tasks[t.task]?.map Task.stackBytes).getD 0

def braPre (cx : Ctx) (s : State) : Option TrapInfo :=
  if inRegion cx then some (mkTrap trapAtomicRegion 0) else s.mapCheck cx.t (branchTarget cx)
def braBody (cx : Ctx) (s : State) : State × Eff := (s, .jump (branchTarget cx))

/-- The predicate and negate bit of `BRC` (R344). -/
def brcTaken (cx : Ctx) : Bool :=
  match cx.x.d with
  | .reg n => cx.t.pred (n.val % 8) != decide (8 ≤ n.val)
  | _ => false
def brcPre (cx : Ctx) (s : State) : Option TrapInfo := if brcTaken cx then braPre cx s else none
def brcBody (cx : Ctx) (s : State) : State × Eff := if brcTaken cx then (s, .jump (branchTarget cx)) else (s, .next)

/-- `CALL` (R343) and `CALLI` (R346): lk and the shadow stack take the return address. -/
def callPre (cx : Ctx) (s : State) : Option TrapInfo := (s.mapCheck cx.t (branchTarget cx)).or (fullCheck cx.t)
def callBody (cx : Ctx) (s : State) : State × Eff :=
  (s.modThread cx.k (fun t => t.pushReturn (s.stackOf cx.t) cx.nextPc), .jump (branchTarget cx))
def jmpPre (cx : Ctx) (s : State) : Option TrapInfo := s.landCheck cx.t (indirectTarget cx)
def jmpBody (cx : Ctx) (s : State) : State × Eff := (s, .jump (indirectTarget cx))
def calliPre (cx : Ctx) (s : State) : Option TrapInfo := (s.landCheck cx.t (indirectTarget cx)).or (fullCheck cx.t)
def calliBody (cx : Ctx) (s : State) : State × Eff :=
  (s.modThread cx.k (fun t => t.pushReturn (s.stackOf cx.t) cx.nextPc), .jump (indirectTarget cx))

/-- `RET` (R402). -/
def retPre (cx : Ctx) (s : State) : Option TrapInfo :=
  let t := cx.t
  match t.shadow with
  | [] => some (mkTrap trapRetUnderflow t.lk)
  | top :: rest =>
    if top ≠ t.lk then some (mkTrap trapRetMismatch t.lk)
    else if rest.length ∈ t.shadowBad then
      some (mkTrap trapUncorrectable (BitVec.ofNat 64 (stackBase + spillOff (s.stackOf t) rest.length)))
    else s.mapCheck t t.lk
def retBody (cx : Ctx) (s : State) : State × Eff :=
  (s.modThread cx.k (fun t => t.popReturn (s.stackOf cx.t)), .jump cx.t.lk)

/-! ## The other control instructions -/

/-- `NOP` and `LAND` change nothing (R378, R395). -/
def nopBody (_ : Ctx) (s : State) : State × Eff := (s, .next)

/-- `REFORM h` (R33, R401). -/
def reformBody (cx : Ctx) (s : State) : State × Eff := (s, .refile (s.time.toNat + bitsOf cx.x.imm 8 0))

/-- `EXIT`: the thread retires once its accesses are performed, with the event EXIT_COMPLETE (R48, R360). -/
def exitBody (cx : Ctx) (s : State) : State × Eff :=
  (s.modThread cx.k (fun t => { t with st := .exiting, latches := [] }), .held)

/-- `TRAP` (R414), `SYSC` (R282, R410) and `DBG.brk` (R300): complete, and raise with epc at the next instruction. -/
def trapBody (cx : Ctx) (s : State) : State × Eff := (s, .trap ⟨trapTrapInsn, 0, 0, BitVec.ofNat 16 (bitsOf cx.x.imm 15 0), true⟩)
def syscBody (cx : Ctx) (s : State) : State × Eff := (s, .trap ⟨trapSupervisorCall, 0, 0, BitVec.ofNat 16 (bitsOf cx.x.imm 15 0), true⟩)
def dbgBrkBody (_ : Ctx) (s : State) : State × Eff := (s, .trap ⟨trapBreakpoint, 0, 0, 0, true⟩)
/-- `DBG.tag` (R300). -/
def dbgTagBody (cx : Ctx) (s : State) : State × Eff :=
  (s.modThread cx.k (fun t => { t with tag := BitVec.ofNat 16 (bitsOf cx.x.imm 15 0) }), .next)

/-- `BBC`: counter i of the issuing die (R301). -/
def bbcBody (cx : Ctx) (s : State) : State × Eff :=
  let i := 256 * (cx.t.core / 48) + bitsOf cx.x.imm 7 0
  ({ s with pkg := { s.pkg with bbc := aset s.pkg.bbc i ((aget s.pkg.bbc i).getD 0 + 1) } }, .next)

/-! ## Control and status registers (R59, R279, R352, R353) -/

/-- The value of a CSR, reserved bits zero. -/
def State.csrRead (s : State) (t : Thread) (n : Nat) : DWord :=
  if n = 0x000 then t.tid.zeroExtend 64
  else if n = 0x001 then t.ntid.zeroExtend 64
  else if n = 0x002 then (((s.tasks[t.task]?.map (fun (x : Task) => x.num)).getD 0).zeroExtend 64)
  else if n = 0x003 then BitVec.ofNat 64 (t.core % 48)
  else if n = 0x004 then BitVec.ofNat 64 (t.core / 48)
  else if n = 0x005 then s.pkg.index.zeroExtend 64
  else if n = 0x006 then BitVec.ofNat 64 t.part
  else if n = 0x007 then BitVec.ofNat 64 t.slot
  else if n = 0x008 then BitVec.ofNat 64 t.lane
  else if n = 0x009 then BitVec.ofNat 64 t.member
  else if n = 0x00A then BitVec.ofNat 64 t.tsize
  else if n = 0x00B then t.recAddr
  else if n = 0x010 then s.time
  else if n = 0x011 then s.cycle
  else if n = 0x020 then t.fmode.zeroExtend 64
  else if n = 0x021 then t.fflags.zeroExtend 64
  else if n = 0x030 then BitVec.ofNat 64 t.shadow.length
  else if n = 0x031 then t.lk
  else if n = 0x800 then s.pkg.tpolicy.zeroExtend 64
  else if n = 0x801 then s.pkg.hvec
  else if 0x810 ≤ n ∧ n < 0x818 then t.trec[(n - 0x810) % 8]'(Nat.mod_lt _ (by decide))
  else if n = 0x818 then t.epc
  else if n = 0x819 then t.hact.zeroExtend 64
  else if 0x820 ≤ n ∧ n < 0x824 then t.hscr[(n - 0x820) % 4]'(Nat.mod_lt _ (by decide))
  else 0

/-- A write of the RW fields of a CSR. -/
def Thread.csrWrite (t : Thread) (n : Nat) (v : DWord) : Thread :=
  if n = 0x020 then { t with fmode := v.truncate 3 }
  else if n = 0x021 then { t with fflags := v.truncate 5 }
  else if n = 0x031 then { t with lk := v }
  else if n = 0x818 then { t with epc := v }
  else if n = 0x819 then { t with hact := v.truncate 2 }
  else if 0x820 ≤ n ∧ n < 0x824 then { t with hscr := t.hscr.set ((n - 0x820) % 4) v (Nat.mod_lt _ (by decide)) }
  else t

def csrrBody (cx : Ctx) (s : State) : State × Eff := (cx.dst s ((s.csrRead cx.t cx.x.imm.toNat).zeroExtend 128), .next)
def csrwBody (cx : Ctx) (s : State) : State × Eff :=
  (s.modThread cx.k (fun t => t.csrWrite cx.x.imm.toNat (BitVec.ofNat 64 cx.va.toNat)), .next)

/-- `ERET` (R281): the shared return. -/
def eretBody (cx : Ctx) (s : State) : State × Eff := ((s.unfile cx.k).returnFromTrap cx.k, .gone)

/-- ILL (R375): the first member takes the trap, with the length that the word's L field gives. -/
def execIll (w : Word) (s : State) : Host.Outcome State Fault Refusal :=
  match s.front.issue with
  | none => .fault .noIssuingThread
  | some is =>
    match is.left with
    | [] => .fault .noIssuingThread
    | k :: _ =>
      match s.threads[k]? with
      | none => .fault .noIssuingThread
      | some t => .next (State.closeIssue (s.takeTrap k (mkTrap trapIllegalOpcode 0) (lenWords (w.toNat % 4)) t.pc t.pc false))

/-- The completion counter at a place rises by one: an indivisible element of R158 by the thread, and a release (R48). -/
def State.countExit (s : State) (k : Nat) (t : Thread) (pl : Place) : State :=
  let r := s.homeLoad t.core pl 8
  if r.2.2.isSome && !s.homeBad pl 8 || (s.pkg.linkFault pl 8 true).isSome then s
  else (r.1.storeAt t.core pl (leBytes 8 ((leNat r.2.1 + 1) % 2 ^ 64))).noteStore k t pl 8 true true

/-- EXIT_COMPLETE (R48): the completion counter rises by one and the thread enters Exited. A counter on a page that cannot be
written takes nothing. -/
def State.exitComplete (s : State) (k : Nat) : State :=
  match s.threads[k]? with
  | none => s
  | some t =>
    if t.st ≠ .exiting then s
    else
      match s.tasks[t.task]? with
      | none => s
      | some task =>
        let pt := task.desc.ptroot
        match s.walk pt task.desc.ccount with
        | some l =>
          -- a page in migration makes the device's access wait (R153)
          if l.mig then s
          else
            -- the thread's stores are performed at the completion scope before the increment (R48, R171)
            let s := s.performed t.core task.desc.cscope (fun w => w == .thread k)
            let s := if l.tlb.r && l.tlb.w then s.countExit k t (l.tlb.place task.desc.ccount) else s
            (s.exitThread k).modTask t.task (fun x => { x with exits := x.exits + 1 })
        | none => (s.exitThread k).modTask t.task (fun x => { x with exits := x.exits + 1 })

def execExitComplete (k : Nat) (s : State) : Host.Outcome State Fault Refusal := .next (s.exitComplete k)

/-- BRA (R343). -/
def execBra (off : BitVec 23) (s : State) : Host.Outcome State Fault Refusal := runThread (.bra off) braPre braBody s

/-- BRA_EXT (R343). -/
def execBraExt (x : ExtOp) (s : State) : Host.Outcome State Fault Refusal := runThread (.braExt x) braPre braBody s

/-- BRC (R344). -/
def execBrc (off : BitVec 19) (neg : Bool) (p : Fin 8) (s : State) : Host.Outcome State Fault Refusal := runThread (.brc off neg p) brcPre brcBody s

/-- BRC_EXT (R344). -/
def execBrcExt (x : ExtOp) (s : State) : Host.Outcome State Fault Refusal := runThread (.brcExt x) brcPre brcBody s

/-- CALL (R343). -/
def execCall (off : BitVec 23) (s : State) : Host.Outcome State Fault Refusal := runThread (.call off) callPre callBody s

/-- CALL_EXT (R343). -/
def execCallExt (x : ExtOp) (s : State) : Host.Outcome State Fault Refusal := runThread (.callExt x) callPre callBody s

/-- JMP (R376). -/
def execJmp (x : ExtOp) (s : State) : Host.Outcome State Fault Refusal := runThread (.jmp x) jmpPre jmpBody s

/-- CALLI (R346). -/
def execCalli (x : ExtOp) (s : State) : Host.Outcome State Fault Refusal := runThread (.calli x) calliPre calliBody s

/-- RET (R402). -/
def execRet (x : ExtOp) (s : State) : Host.Outcome State Fault Refusal := runThread (.ret x) retPre retBody s

/-- LAND (R378). -/
def execLand (s : State) : Host.Outcome State Fault Refusal := runThread .land noPre nopBody s

/-- REFORM (R401). -/
def execReform (x : ExtOp) (s : State) : Host.Outcome State Fault Refusal := runThread (.reform x) noPre reformBody s

/-- EXIT (R360). -/
def execExit (x : ExtOp) (s : State) : Host.Outcome State Fault Refusal := runThread (.exit x) noPre exitBody s

/-- TRAP (R414). -/
def execTrap (x : ExtOp) (s : State) : Host.Outcome State Fault Refusal := runThread (.trap x) noPre trapBody s

/-- NOP (R395). -/
def execNop (s : State) : Host.Outcome State Fault Refusal := runThread .nop noPre nopBody s

/-- NOP_EXT (R395). -/
def execNopExt (x : ExtOp) (s : State) : Host.Outcome State Fault Refusal := runThread (.nopExt x) noPre nopBody s

/-- BBC (R301). -/
def execBbc (x : ExtOp) (s : State) : Host.Outcome State Fault Refusal := runThread (.bbc x) noPre bbcBody s

/-- CSRR (R352). -/
def execCsrr (x : ExtOp) (s : State) : Host.Outcome State Fault Refusal := runThread (.csrr x) noPre csrrBody s

/-- CSRW (R353). -/
def execCsrw (x : ExtOp) (s : State) : Host.Outcome State Fault Refusal := runThread (.csrw x) noPre csrwBody s

/-- ERET (R281). -/
def execEret (x : ExtOp) (s : State) : Host.Outcome State Fault Refusal := runThread (.eret x) noPre eretBody s

/-- SYSC (R282). -/
def execSysc (x : ExtOp) (s : State) : Host.Outcome State Fault Refusal := runThread (.sysc x) noPre syscBody s

/-- DBG_BRK (R300). -/
def execDbgBrk (x : ExtOp) (s : State) : Host.Outcome State Fault Refusal := runThread (.dbgBrk x) noPre dbgBrkBody s

/-- DBG_TAG (R300). -/
def execDbgTag (x : ExtOp) (s : State) : Host.Outcome State Fault Refusal := runThread (.dbgTag x) noPre dbgTagBody s

end Sys2Proof.Machine
end

