-- ==== Sys2Proof/Machine/FloatOps.lean ====
section
/-! DEFINITION. The float class (R85), the paired-half class (R86) and the residue class (R87). -/

namespace Sys2Proof.Machine

/-- Preparation of an operand: flush, absolute value, negation (R354). -/
def prep (f : Fmt) (ftz abs neg : Bool) (c : Nat) : FVal :=
  let v := f.unpack ftz (c % 2 ^ (f.signBit + 1))
  let v := if abs && v.sign then v.negate else v
  if neg then v.negate else v

/-- The FP32 operands with their NA selectors (R85). -/
def naOp (cx : Ctx) (v : QWord) (sel : Nat) : FVal :=
  prep fp32 cx.t.ftz (cx.x.func.getLsbD (sel + 1)) (cx.x.func.getLsbD sel) v.toNat

def Ctx.mode (cx : Ctx) : RMode := modeOf cx.t cx.x

/-- `FADD`, `FSUB`, `FMUL` (R361), `FFMA` (R369), `FMIN`, `FMAX` (R370), `FRND` (R371). -/
def faddVal (cx : Ctx) : Nat × FFlags := fAdd fp32 cx.mode cx.t.ftz (naOp cx cx.va 0) (naOp cx cx.vb 2)
def fsubVal (cx : Ctx) : Nat × FFlags := fAdd fp32 cx.mode cx.t.ftz (naOp cx cx.va 0) (naOp cx cx.vb 2).negate
def fmulVal (cx : Ctx) : Nat × FFlags := fMul fp32 cx.mode cx.t.ftz (naOp cx cx.va 0) (naOp cx cx.vb 2)
def ffmaVal (cx : Ctx) : Nat × FFlags := fFma fp32 cx.mode cx.t.ftz (naOp cx cx.va 0) (naOp cx cx.vb 2) (naOp cx cx.vc 4)
def fminVal (cx : Ctx) : Nat × FFlags := fMinMax fp32 false (naOp cx cx.va 0) (naOp cx cx.vb 2)
def fmaxVal (cx : Ctx) : Nat × FFlags := fMinMax fp32 true (naOp cx cx.va 0) (naOp cx cx.vb 2)
def frndVal (cx : Ctx) : Nat × FFlags := fRnd cx.mode cx.t.ftz (naOp cx cx.va 0)
/-- `FCVT` (R366). -/
def fcvtVal (cx : Ctx) : Nat × FFlags :=
  fCvt (bitsOf cx.x.func 2 0) (bitsOf cx.x.func 5 3) cx.mode cx.t.ftz (BitVec.ofNat 32 cx.va.toNat)
/-- The functions of R364. -/
def frcpVal (cx : Ctx) : Nat × FFlags := fRcp cx.mode cx.t.ftz (naOp cx cx.va 0)
def frsqVal (cx : Ctx) : Nat × FFlags := fRsq cx.mode cx.t.ftz (naOp cx cx.va 0)
def fsqrtVal (cx : Ctx) : Nat × FFlags := fSqrt cx.mode cx.t.ftz (naOp cx cx.va 0)
def fex2Val (cx : Ctx) : Nat × FFlags := fEx2 cx.mode cx.t.ftz (naOp cx cx.va 0)
def flg2Val (cx : Ctx) : Nat × FFlags := fLg2 cx.mode cx.t.ftz (naOp cx cx.va 0)
def fsinVal (cx : Ctx) : Nat × FFlags := fSin cx.mode cx.t.ftz (naOp cx cx.va 0)
def fcosVal (cx : Ctx) : Nat × FFlags := fCos cx.mode cx.t.ftz (naOp cx cx.va 0)
/-- `FCLASS` (R362): as stored. -/
def fclassVal (cx : Ctx) : QWord := BitVec.ofNat 128 (2 ^ fClass (f32 (cx.va.toNat % 2 ^ 32)))
/-- `NMSEL` (R394). -/
def nmselVal (cx : Ctx) : QWord :=
  if cx.x.func.getLsbD (fClass (f32 (cx.va.toNat % 2 ^ 32))) then cx.vb else cx.vc
/-- `FCMP` (R363): writes a predicate and raises flags. -/
def fcmpBody (cx : Ctx) (s : State) : State × Eff :=
  let op := fun (v : QWord) => prep fp32 cx.t.ftz false false v.toNat
  let r := fCmp (bitsOf cx.x.func 2 0) (op cx.va) (op cx.vb)
  ((cx.dstPred s r.1).raise cx.k r.2, .next)

/-! ## Paired half (R374) -/

/-- The element format. -/
def halfFmt (cx : Ctx) : Fmt := if cx.x.func.getLsbD 0 then bf16 else fp16

/-- Element `e` of an operand, prepared; `sel` is its negate bit. -/
def halfOp (cx : Ctx) (v : QWord) (e sel : Nat) : FVal :=
  prep (halfFmt cx) cx.t.ftz false (cx.x.func.getLsbD sel) (v.toNat / 2 ^ (16 * e) % 65536)

/-- Both elements, their flags ORed. -/
def bothHalves (f : Nat → Nat × FFlags) : Nat × FFlags :=
  ((f 0).1 + (f 1).1 * 65536, (f 0).2 ||| (f 1).2)

def hadd2Val (cx : Ctx) : Nat × FFlags :=
  bothHalves (fun e => fAdd (halfFmt cx) cx.mode cx.t.ftz (halfOp cx cx.va e 1) (halfOp cx cx.vb e 2))
def hmul2Val (cx : Ctx) : Nat × FFlags :=
  bothHalves (fun e => fMul (halfFmt cx) cx.mode cx.t.ftz (halfOp cx cx.va e 1) (halfOp cx cx.vb e 2))
def hfma2Val (cx : Ctx) : Nat × FFlags :=
  bothHalves (fun e => fFma (halfFmt cx) cx.mode cx.t.ftz (halfOp cx cx.va e 1) (halfOp cx cx.vb e 2) (halfOp cx cx.vc e 3))
def hdot2Val (cx : Ctx) : Nat × FFlags :=
  let p0 := FVal.mul (halfOp cx cx.va 0 1) (halfOp cx cx.vb 0 2)
  let p1 := FVal.mul (halfOp cx cx.va 1 1) (halfOp cx cx.vb 1 2)
  let z := prep fp32 cx.t.ftz false (cx.x.func.getLsbD 3) cx.vc.toNat
  let t := sumExact cx.mode [p0.1, p1.1, z]
  let r := fp32.code cx.mode cx.t.ftz t.1
  (r.1, r.2 ||| flagIf (p0.2 || p1.2 || t.2) fNv |||
    snanFlag [halfOp cx cx.va 0 1, halfOp cx cx.vb 0 2, halfOp cx cx.va 1 1, halfOp cx cx.vb 1 2, z])

/-! ## Residues (R117, R118, R400) -/

/-- Source b: an immediate is converted as by `RCVT.s2r`; a literal is a code as it stands. -/
def resB (cx : Ctx) : Nat × FFlags :=
  match cx.x.b with
  | .imm => resOfInt cx.x.imm.toInt
  | _ => (cx.vb.toNat % 2 ^ 32, 0)

def resBin (f : Nat → Nat → Nat) (cx : Ctx) : Nat × FFlags :=
  let r := resOp f (cx.va.toNat % 2 ^ 32) (resB cx).1
  (r.1, r.2 ||| (resB cx).2)

def raddVal (cx : Ctx) : Nat × FFlags := resBin (· + ·) cx
def rmulVal (cx : Ctx) : Nat × FFlags := resBin (· * ·) cx
def rcvtVal (cx : Ctx) : Nat × FFlags :=
  let v := cx.va.toNat % 2 ^ 32
  match cx.x.func.toNat with
  | 0 => resOfInt (BitVec.ofNat 32 v).toInt
  | 1 => if resOk v then ((resVal v % 2 ^ 32).toNat, 0) else (0x80000000, fNv)
  | _ => if resOk v then (rne32 (ofInt (resVal v)), 0) else (0x7FC00000, fNv)

/-- FADD (R361). -/
def execFadd (o : BaseOp) (s : State) : Host.Outcome State Fault Refusal := runThread (.fadd o) noPre (floatBody faddVal) s

/-- FADD_EXT (R361). -/
def execFaddExt (x : ExtOp) (s : State) : Host.Outcome State Fault Refusal := runThread (.faddExt x) noPre (floatBody faddVal) s

/-- FSUB (R361). -/
def execFsub (o : BaseOp) (s : State) : Host.Outcome State Fault Refusal := runThread (.fsub o) noPre (floatBody fsubVal) s

/-- FSUB_EXT (R361). -/
def execFsubExt (x : ExtOp) (s : State) : Host.Outcome State Fault Refusal := runThread (.fsubExt x) noPre (floatBody fsubVal) s

/-- FMUL (R361). -/
def execFmul (o : BaseOp) (s : State) : Host.Outcome State Fault Refusal := runThread (.fmul o) noPre (floatBody fmulVal) s

/-- FMUL_EXT (R361). -/
def execFmulExt (x : ExtOp) (s : State) : Host.Outcome State Fault Refusal := runThread (.fmulExt x) noPre (floatBody fmulVal) s

/-- FFMA (R369). -/
def execFfma (x : ExtOp) (s : State) : Host.Outcome State Fault Refusal := runThread (.ffma x) noPre (floatBody ffmaVal) s

/-- FMIN (R370). -/
def execFmin (o : BaseOp) (s : State) : Host.Outcome State Fault Refusal := runThread (.fmin o) noPre (floatBody fminVal) s

/-- FMIN_EXT (R370). -/
def execFminExt (x : ExtOp) (s : State) : Host.Outcome State Fault Refusal := runThread (.fminExt x) noPre (floatBody fminVal) s

/-- FMAX (R370). -/
def execFmax (o : BaseOp) (s : State) : Host.Outcome State Fault Refusal := runThread (.fmax o) noPre (floatBody fmaxVal) s

/-- FMAX_EXT (R370). -/
def execFmaxExt (x : ExtOp) (s : State) : Host.Outcome State Fault Refusal := runThread (.fmaxExt x) noPre (floatBody fmaxVal) s

/-- FCMP (R363). -/
def execFcmp (x : ExtOp) (s : State) : Host.Outcome State Fault Refusal := runThread (.fcmp x) noPre fcmpBody s

/-- FRND (R371). -/
def execFrnd (x : ExtOp) (s : State) : Host.Outcome State Fault Refusal := runThread (.frnd x) noPre (floatBody frndVal) s

/-- FCVT (R366). -/
def execFcvt (x : ExtOp) (s : State) : Host.Outcome State Fault Refusal := runThread (.fcvt x) noPre (floatBody fcvtVal) s

/-- FRCP (R364). -/
def execFrcp (x : ExtOp) (s : State) : Host.Outcome State Fault Refusal := runThread (.frcp x) noPre (floatBody frcpVal) s

/-- FRSQ (R364). -/
def execFrsq (x : ExtOp) (s : State) : Host.Outcome State Fault Refusal := runThread (.frsq x) noPre (floatBody frsqVal) s

/-- FSQRT (R364). -/
def execFsqrt (x : ExtOp) (s : State) : Host.Outcome State Fault Refusal := runThread (.fsqrt x) noPre (floatBody fsqrtVal) s

/-- FEX2 (R364). -/
def execFex2 (x : ExtOp) (s : State) : Host.Outcome State Fault Refusal := runThread (.fex2 x) noPre (floatBody fex2Val) s

/-- FLG2 (R364). -/
def execFlg2 (x : ExtOp) (s : State) : Host.Outcome State Fault Refusal := runThread (.flg2 x) noPre (floatBody flg2Val) s

/-- FSIN (R364). -/
def execFsin (x : ExtOp) (s : State) : Host.Outcome State Fault Refusal := runThread (.fsin x) noPre (floatBody fsinVal) s

/-- FCOS (R364). -/
def execFcos (x : ExtOp) (s : State) : Host.Outcome State Fault Refusal := runThread (.fcos x) noPre (floatBody fcosVal) s

/-- FCLASS (R362). -/
def execFclass (x : ExtOp) (s : State) : Host.Outcome State Fault Refusal := runThread (.fclass x) noPre (pureBody fclassVal) s

/-- NMSEL (R394). -/
def execNmsel (x : ExtOp) (s : State) : Host.Outcome State Fault Refusal := runThread (.nmsel x) noPre (pureBody nmselVal) s

/-- HADD2 (R374). -/
def execHadd2 (o : BaseOp) (s : State) : Host.Outcome State Fault Refusal := runThread (.hadd2 o) noPre (floatBody hadd2Val) s

/-- HADD2_EXT (R374). -/
def execHadd2Ext (x : ExtOp) (s : State) : Host.Outcome State Fault Refusal := runThread (.hadd2Ext x) noPre (floatBody hadd2Val) s

/-- HMUL2 (R374). -/
def execHmul2 (o : BaseOp) (s : State) : Host.Outcome State Fault Refusal := runThread (.hmul2 o) noPre (floatBody hmul2Val) s

/-- HMUL2_EXT (R374). -/
def execHmul2Ext (x : ExtOp) (s : State) : Host.Outcome State Fault Refusal := runThread (.hmul2Ext x) noPre (floatBody hmul2Val) s

/-- HFMA2 (R374). -/
def execHfma2 (x : ExtOp) (s : State) : Host.Outcome State Fault Refusal := runThread (.hfma2 x) noPre (floatBody hfma2Val) s

/-- HDOT2 (R374). -/
def execHdot2 (x : ExtOp) (s : State) : Host.Outcome State Fault Refusal := runThread (.hdot2 x) noPre (floatBody hdot2Val) s

/-- RCVT (R118). -/
def execRcvt (x : ExtOp) (s : State) : Host.Outcome State Fault Refusal := runThread (.rcvt x) noPre (floatBody rcvtVal) s

/-- RADD (R400). -/
def execRadd (o : BaseOp) (s : State) : Host.Outcome State Fault Refusal := runThread (.radd o) noPre (floatBody raddVal) s

/-- RADD_EXT (R400). -/
def execRaddExt (x : ExtOp) (s : State) : Host.Outcome State Fault Refusal := runThread (.raddExt x) noPre (floatBody raddVal) s

/-- RMUL (R400). -/
def execRmul (o : BaseOp) (s : State) : Host.Outcome State Fault Refusal := runThread (.rmul o) noPre (floatBody rmulVal) s

/-- RMUL_EXT (R400). -/
def execRmulExt (x : ExtOp) (s : State) : Host.Outcome State Fault Refusal := runThread (.rmulExt x) noPre (floatBody rmulVal) s

end Sys2Proof.Machine
end

