-- ==== Sys2Proof/Machine/Wake.lean ====
section
/-! DEFINITION. Leaving Parked (R40), the landing of outstanding data, and the events of waits: `TWAIT` (R190), channel
spill (R195), bins that age (R31) and groups that split on a memory wait (R27). -/

namespace Sys2Proof.Machine

/-! ## What ends a wait (R40) -/

/-- The thread's partition is stopped, so that a wake waits for the resume (R302); a stop request does not reach a thread in
supervisor mode (R283). -/
def State.heldBack (s : State) (t : Thread) : Bool := decide (t.pnum ∈ s.front.stopReq) && !t.sup

/-- Emitters of a task parked before this one (R199). -/
def State.emitterBefore (s : State) (t : Thread) : Bool :=
  s.threads.any (fun u => u.task = t.task && (match u.st with | .parked (.emit _) => true | _ => false) && decide (u.parkNo < t.parkNo))

/-- How a thread leaves Parked. -/
inductive WakeHow where
  /-- it issues the waiting instruction again -/
  | again
  /-- its transfer or emission is made at once -/
  | transfer
  /-- it goes on behind its `WBACK` (R417) -/
  | behind
  /-- a `TWAIT` ends; whether its time has run out -/
  | twait (w : TWaitRec) (last : Bool)
  /-- its rendezvous is complete -/
  | team

/-- A parked `TWAIT` whose time has run out by `late` cycles over its hint (R190). -/
def TWaitRec.expired (w : TWaitRec) (now late : Nat) : Bool := w.hint ≠ 0xFFFFFFFF && decide (w.start + w.hint + late ≤ now)

/-- The condition of a parked `TWAIT` now: whether it ends by it. -/
def State.twaitEnds (s : State) (k : Nat) (t : Thread) (w : TWaitRec) : Bool :=
  match s.twaitEval k t w with
  | .yes _ => true
  | .trap _ => true
  | _ => false

/-- What keeps back, as things stand now, the instruction that a thread is parked at: the first of its channel transfers, in their
order, that cannot be made (R58), or, of an engine command with a push, a busy record (R420). What would trap waits no more. -/
def State.waitNow (s : State) (k : Nat) (t : Thread) : Option Wait :=
  match s.fetchOf t with
  | .trap _ _ => none
  | .instr i =>
    match (⟨k, t.ageLatches, i, i.ext, i.shape, true, 0, 0, 0⟩ : Ctx).fetch with
    | .error _ => none
    | .ok cx =>
      if (cx.chanCheck s).isSome then none
      else match cx.take s with
        | .error w => some w
        | .ok _ => if isEngine i.opc && isPush cx && !s.recordFree t then some .record else none

/-- The instruction that a thread is parked at could now make every channel transfer that it names (R58, R420). -/
def State.canTransfer (s : State) (k : Nat) (t : Thread) : Bool := (s.waitNow k t).isNone

/-- The wait is for a channel, or for the record that an engine command with a push needs beside it (R420). -/
def Wait.onChannel : Wait → Bool
  | .channel _ _ => true
  | .record => true
  | _ => false

/-- The channel transfer on which a parked thread waits now, and whether it is a push (R202). -/
def State.channelWait (s : State) (k : Nat) (t : Thread) : Option (Nat × Bool) :=
  match t.st with
  | .parked w =>
    if w.onChannel then (match s.waitNow k t with | some (.channel c push) => some (c, push) | _ => none) else none
  | _ => none

/-- The instruction that a thread is parked at pushes to a channel. -/
def State.pushes (s : State) (t : Thread) : Bool :=
  match s.fetchOf t with
  | .instr i => (match i.ext.d with | .push _ _ => true | _ => false)
  | .trap _ _ => false

/-- What a wait comes to now: `none` while it lasts. -/
def State.waitEnds (s : State) (k : Nat) (t : Thread) (w : Wait) : Option WakeHow :=
  let when := fun (b : Bool) (h : WakeHow) => if b then some h else none
  match w with
  | .memory => when (match s.fetchOf t with | .instr i => !t.blocked i | .trap _ _ => true) .again
  | .record => if s.pushes t then when (s.canTransfer k t) .transfer else when (s.recordFree t) .again
  | .taskRoom => when (decide (s.liveTasks < Config.maxTasks)) .again
  | .presence lo n =>
    when (match s.tileOf t.task t.core with
      | none => true
      | some i => !s.absentAt (.tile i (128 * lo)) (128 * n)) .again
  | .channel _ _ => when (s.canTransfer k t) .transfer
  | .emit _ =>
    when (((s.tasks[t.task]?.bind (·.graph)).map (fun g => decide (s.heldSlots t.task < g.free.length))).getD false && !s.emitterBefore t) .transfer
  | .rendezvous _ => when (s.teamReady (s.teamOf k t) t.tcount) .team
  | .twait w =>
    if s.twaitEnds k t w then some (.twait w false)
    else if w.expired s.time.toNat 64 then some (.twait w true) else none
  | .neval => none
  | .writeBack acked => when acked .behind
  -- the room stays held until the record is free as well (R420)
  | .room _ w => if s.recordFree t then (s.waitEnds k t w).map (fun _ => .transfer) else none
  | .slot _ w => (s.waitEnds k t w).map (fun _ => .transfer)

/-- A parked thread that can leave Parked. -/
def State.canWake (s : State) (k : Nat) (t : Thread) : Option WakeHow :=
  if s.heldBack t then none
  else match t.st with
    | .parked w => s.waitEnds k t w
    | _ => none

/-- The first thread that can leave Parked, oldest parking first (log 1). One that needs more entries of a channel than stand there
does not keep an entry from an instruction that can make all its transfers, though it issued before it (R58; log 43). -/
def State.firstWake (s : State) : Option (Nat × WakeHow) :=
  (s.threads.zipIdx.foldl (fun (b : Option (Nat × Nat × WakeHow)) e =>
    match s.canWake e.2 e.1 with
    | none => b
    | some r => match b with
      | some (n, _, _) => if e.1.parkNo < n then some (e.1.parkNo, e.2, r) else b
      | none => some (e.1.parkNo, e.2, r)) none).map (fun x => x.2)

/-- An issue of one member that makes its parked transfer (R40). -/
def State.wakeIssue (s : State) (k : Nat) : State :=
  let s := s.modThread k (fun t => { t with st := .ready })
  { s with front := { s.front with issue := some ⟨s.pnumOf k, [k], [], false, true, k, 1, s.time.toNat, true, none⟩ } }

/-- The wake: by filing, or as an issue of its own that makes the transfer and then files the thread behind it. -/
def State.doWake (s : State) (k : Nat) (how : WakeHow) : State :=
  match s.threads[k]? with
  | none => s
  | some t =>
    match how with
    | .again => (s.modThread k (fun t => { t with latches := [] })).wake k t.pc
    | .behind => s.wake k (t.pc + 12)
    | .transfer => s.wakeIssue k
    | .twait w last => s.twaitAgain k t w last
    | .team => s.completeTeam (s.teamOf k t) t.tcount

/-! ## Landing of outstanding data (R40, R288) -/

/-- The first result of a list that has not returned lands: its value, or the mark that it returned poison. -/
def landFirst : List Pend → Option (Pend × List Pend)
  | [] => none
  | p :: l =>
    if p.returned then (landFirst l).map (fun r => (r.1, p :: r.2))
    else some (p, if p.poison.isSome then { p with returned := true } :: l else l)

/-- A result reaches its registers; a poisoned one leaves them unchanged (R287). With no result outstanding it is the
acknowledgement of a write-back (R417). -/
def Thread.land (t : Thread) : Thread :=
  match landFirst t.pend with
  | none => (match t.st with | .parked (.writeBack _) => { t with st := .parked (.writeBack true) } | _ => t)
  | some (p, rest) =>
    let t := { t with pend := rest }
    if p.poison.isSome then t else t.setRegs p.first p.n p.val

/-- LOAD_DATA_RETURN (R40): the thread's earliest outstanding result lands. -/
def execLoadDataReturn (k : Nat) (s : State) : Host.Outcome State Fault Refusal := .next (s.modThread k Thread.land)

/-! ## Copies into the tile store (R132) -/

/-- The lines that a copy still writes from its present point on. -/
def State.copyRemaining (s : State) (cmd : Cmd) : List Nat :=
  let r := cmd.copy
  footprint (s.windowOf cmd.task) cmd.block r.entry r.iter (r.boff / moveRun (chainEntry cmd.block r.entry))

/-- Every byte that the copy writes in a line has landed: its presence bit is set unless another outstanding copy still
has to land there (R132). -/
def State.landLine (s : State) (c line : Nat) : State :=
  match s.cmds[c]? with
  | none => s
  | some cmd =>
    if cmd.kind ≠ .copy || !cmd.inFlight || decide (line ∉ cmd.copy.landing) || decide (line ∈ s.copyRemaining cmd) then s
    else
      let s := s.modCmd c (fun x => { x with copy := { x.copy with landing := x.copy.landing.filter (· ≠ line) } })
      if s.cmds.any (fun x => x.kind = .copy && x.inFlight && x.tile = cmd.tile && decide (line ∈ x.copy.landing)) then s
      else s.modTile cmd.tile (fun a => { a with absent := serase a.absent line })

/-- COPY_DATA_LANDING (R132). -/
def execCopyDataLanding (c : Nat) (line : Nat) (s : State) : Host.Outcome State Fault Refusal := .next (s.landLine c line)

/-! ## `TWAIT` (R190) -/

/-- A parked `TWAIT` is evaluated again; with `late`, only once its hinted time has run out (R190). -/
def State.twaitEvent (s : State) (k : Nat) (late : Bool) : State :=
  match s.threads[k]? with
  | none => s
  | some t =>
    match t.st with
    | .parked (.twait w) =>
      if s.heldBack t || (late && !w.expired s.time.toNat 0) then s else s.twaitAgain k t w late
    | _ => s

/-- TWAIT_REEVALUATE (R190). -/
def execTwaitReevaluate (k : Nat) (s : State) : Host.Outcome State Fault Refusal := .next (s.twaitEvent k false)

/-- TWAIT_TIMEOUT (R190). -/
def execTwaitTimeout (k : Nat) (s : State) : Host.Outcome State Fault Refusal := .next (s.twaitEvent k true)

/-! ## Channel spill (R195) -/

/-- A thread that parked before this one waits to push to the same channel (R58). -/
def State.pusherBefore (s : State) (t : Thread) (c : Nat) : Bool :=
  s.threads.zipIdx.any (fun e => e.1.task = t.task && e.1.core = t.core && decide (e.1.parkNo < t.parkNo) && decide (s.channelWait e.2 e.1 = some (c, true)))

/-- The thread waits for nothing but to push to a full channel, it has been parked, and the channel full, for `thresh` cycles, no push that
parked before it waits there, and spill can take a value: the state in which its push, made at once, passes to spill (R58, R195; log 43). -/
def State.spillEvent (s : State) (k : Nat) : State :=
  match s.threads[k]? with
  | none => s
  | some t =>
    match s.channelWait k t with
    | some (c, true) =>
      (match s.chanAt t c with
        | none => s
        | some (i, h) =>
          let s' := s.setChan i { h with due := true }
          if s.heldBack t || s.front.issue.isSome || decide (s.time.toNat < max t.parkedAt h.full + h.thresh) || s.pusherBefore t c ||
              (s'.waitNow k t).isSome then s
          else s'.wakeIssue k)
    | _ => s

/-- CHANNEL_SPILL (R195). -/
def execChannelSpill (k : Nat) (s : State) : Host.Outcome State Fault Refusal := .next (s.spillEvent k)

/-! ## Bins and groups (R27, R31) -/

/-- BIN_AGE_EXPIRY (R31): bin `b` of a partition has a member at its release cycle and is eligible as Aged. -/
def execBinAgeExpiry (p : Fin 768) (b : Nat) (s : State) : Host.Outcome State Fault Refusal :=
  let now := s.time.toNat
  let age := fun (x : Bin) =>
    if x.part = p.val && x.elig.isNone && x.members.any (fun m => decide (m.release ≤ now)) then { x with elig := some now } else x
  .next { s with front := { s.front with bins := s.front.bins.modify b age } }

/-- The operands of a thread's next instruction are pending. -/
def State.pendingOps (s : State) (k : Nat) : Bool :=
  match s.threads[k]? with
  | none => false
  | some t => match s.fetchOf t with | .instr i => t.operandsPending i | .trap _ _ => false

/-- A group splits: its members whose operands have stayed pending for 16 cycles park on a memory wait, when some other
member is ready and none of them is inside a latch chain (R27, R38). -/
def State.splitGroup (s : State) (p g : Nat) : State :=
  match s.front.groups[g]? with
  | none => s
  | some gr =>
    let wait := gr.members.filter s.pendingOps
    if gr.part ≠ p || s.time.toNat < gr.earliest + 16 || wait.isEmpty || wait.length = gr.members.length ||
        wait.any (fun k => (s.threads[k]?.map Thread.inChain).getD false) then s
    else wait.foldl (fun s k => s.park k .memory) s

/-- MEMORY_WAIT_SPLIT (R27). -/
def execMemoryWaitSplit (p : Fin 768) (g : Nat) (s : State) : Host.Outcome State Fault Refusal := .next (s.splitGroup p.val g)

end Sys2Proof.Machine
end

