-- ==== Sys2Proof/Machine/Graph.lean ====
section
/-! DEFINITION. Node batches of a work graph (R200) and the deadlock watchdog (R202, R203). -/

namespace Sys2Proof.Machine

/-! ## Batches (R200) -/

/-- The oldest record of a node has waited its timeout. -/
def Node.waited (n : Node) (now : Nat) : Bool :=
  match n.recs with
  | [] => false
  | r :: _ => decide (r.2 + n.timeout ≤ now)

/-- A batch of the node is ready. -/
def Node.ready (n : Node) (now : Nat) : Bool := decide (n.batch ≤ n.recs.length) || n.waited now

/-- The enqueue time of the oldest record. -/
def Node.oldest (n : Node) : Nat := (n.recs.map (·.2)).headD 0

/-- No other node's batch, ready now, has an older oldest record. The oldest one holds the others back even while no slots are free
for it (R200; log 45). -/
def Graph.turnOf (g : Graph) (i now : Nat) (n : Node) : Bool :=
  g.nodes.zipIdx.all (fun e => e.2 = i || !e.1.ready now || decide (n.oldest ≤ e.1.oldest))

/-- The slots of a batch: `q` free ones of one partition, on distinct home lanes. -/
def State.batchSlots (s : State) (core part q : Nat) (slots : List Nat) : Bool :=
  decide (slots.length = q) && slots.all (s.slotFree core part) && decide ((slots.map (· % 64)).Nodup)

/-- One thread of a batch starts: its record's address and pool slot are its own (R21, R200). -/
def State.placeNode (s : State) (ti node : Nat) (t : Task) (g : Graph) (n : Node) (q core part : Nat) (e : (Nat × Nat) × Nat) : State :=
  let th := newThread ti (some node) (BitVec.ofNat 32 e.2) (BitVec.ofNat 32 q) 1 core part e.1.2 n.regs n.entry (4096 * t.desc.stack)
  s.placeThread { th with recAddr := BitVec.ofNat 64 (g.pool + g.slotsize * e.1.1), recSlot := some e.1.1 }

/-- The oldest records of a node launch: a whole batch, or with `late` all that are queued. -/
def State.nodeBatch (s : State) (ti node core part : Nat) (slots : List Nat) (late : Bool) : State :=
  match s.tasks[ti]? with
  | none => s
  | some t =>
    match t.graph with
    | none => s
    | some g =>
      match g.nodes[node]? with
      | none => s
      | some n =>
        let now := s.time.toNat
        let q := if late then n.recs.length else n.batch
        let due := if late then decide (n.recs.length < n.batch) && n.waited now else decide (n.batch ≤ n.recs.length)
        if !due || !(t.phase = .running || t.phase = .placing) || !g.turnOf node now n || !s.mayUse ti core || !s.batchSlots core part q slots then s
        else
          let s := s.ensureTile ti core
          let s := (((n.recs.take q).map (·.1)).zip slots).zipIdx.foldl (fun s e => s.placeNode ti node t g n q core part e) s
          let drop := fun (m : Node) => { m with recs := m.recs.drop q }
          (s.modTask ti (fun t => { t with graph := t.graph.map (fun (g : Graph) => { g with nodes := g.nodes.modify node drop }) })).touch ti

/-- NODE_BATCH_LAUNCH (R200). -/
def execNodeBatchLaunch (t node : Nat) (core : Fin 192) (part : Fin 4) (slots : List Nat) (s : State) : Host.Outcome State Fault Refusal :=
  .next (s.nodeBatch t node core.val part.val slots false)

/-- NODE_BATCH_TIMEOUT (R200). -/
def execNodeBatchTimeout (t node : Nat) (core : Fin 192) (part : Fin 4) (slots : List Nat) (s : State) : Host.Outcome State Fault Refusal :=
  .next (s.nodeBatch t node core.val part.val slots true)

/-! ## The watchdog (R202, R203) -/

/-- What a deadlock trap names (R275): the kind and number in detail, an address or token. -/
structure DeadWait where
  kind : Nat
  number : Nat
  addr : DWord
  deriving DecidableEq, Repr

/-- A channel of the thread that is full, or empty, and not external. -/
def State.chanCounted (s : State) (t : Thread) (c : Nat) : Option DeadWait :=
  match s.chanAt t c with
  | some (_, h) => if h.ext then none else some ⟨1, c, 0⟩
  | none => none

/-- The external bit of the barrier that a wait names is 0. -/
def State.barrierCounts (s : State) (k : Nat) (t : Thread) (w : TWaitRec) : Bool :=
  match s.twaitPlace k t w with
  | .error _ => false
  | .ok pl => decide (fieldAt (s.homeRead pl 16) 12 1 / 4 % 2 = 0)

/-- The token, of an address space, is that of a task that this package spawned (R188). -/
def State.taskOfToken (s : State) (root : Nat) (tok : DWord) : Option Nat :=
  findIdx (fun (t : Task) => t.live && t.tok.any (fun k => s.sameToken (t.tlbRoot, k) (root, tok))) s.tasks

/-- The counted wait of a parked thread, a channel transfer being the one that it waits for now (R202, R420). -/
def State.counted (s : State) (k : Nat) (t : Thread) : Option DeadWait :=
  match t.st with
  | .parked (.channel _ _) => (s.channelWait k t).bind (fun e => s.chanCounted t e.1)
  | .parked .record => (s.channelWait k t).bind (fun e => s.chanCounted t e.1)
  | .parked (.emit n) => some ⟨3, n, 0⟩
  | .parked (.rendezvous _) => some ⟨2, t.tcount, 0⟩
  | .parked (.twait w) =>
    if w.hint ≠ 0xFFFFFFFF then none
    else if w.form = 2 then (if s.barrierCounts k t w then some ⟨4, 0, w.addr⟩ else none)
    else if w.form = 1 then (if (s.taskOfToken (s.rootOf t.task) w.addr).isSome then some ⟨5, 0, w.addr⟩ else none)
    else none
  | _ => none

/-- A token on which a set of tasks waits belongs to a task of the set. -/
def State.tokenInside (s : State) (ts : List Nat) (root : Nat) (tok : DWord) : Bool :=
  (s.taskOfToken root tok).any (fun u => decide (u ∈ ts))

/-- The barrier on which a `TWAIT` waits has not changed within the interval, whoever writes it (R203). -/
def State.barrierStill (s : State) (limit k : Nat) (t : Thread) : Bool :=
  match t.st with
  | .parked (.twait w) =>
    (match s.twaitPlace k t w with
      | .error _ => true
      | .ok pl => s.mem.watched.all (fun v => !v.pl.meets pl 1 1 || decide (v.last + limit ≤ s.time.toNat)))
  | _ => true

/-- The thread stands in a counted wait that keeps it in the set, parked since the interval began, in a partition that
is not stopped. -/
def State.threadDead (s : State) (ts : List Nat) (limit k : Nat) (t : Thread) : Bool :=
  match s.counted k t with
  | none => false
  | some d => (d.kind ≠ 5 || s.tokenInside ts (s.rootOf t.task) d.addr) && (d.kind ≠ 4 || s.barrierStill limit k t) &&
      decide (t.parkedAt + limit ≤ s.time.toNat) && !s.heldBack t

/-- A task of the set cannot go on by itself: its threads are placed, or it waits for dependences inside the set, having none
placed (R203; log 45). -/
def State.taskDead (s : State) (ts : List Nat) (limit ti : Nat) : Bool :=
  match s.tasks[ti]? with
  | none => false
  | some t =>
    let deps := (t.desc.deps.take t.desc.ndep).filter (fun d => !s.depDone t.tlbRoot d)
    (t.phase = .running || (t.phase = .waitDeps && !deps.isEmpty && deps.all (s.tokenInside ts t.tlbRoot))) && t.sections.isEmpty && !s.finished ti t &&
      decide (t.lastChange + limit ≤ s.time.toNat) &&
      s.cmds.all (fun c => c.task ≠ ti || !c.inFlight) &&
      (match t.graph with | some g => g.nodes.all (fun n => !n.ready s.time.toNat) | none => true) &&
      s.threads.zipIdx.all (fun e => e.1.task ≠ ti || !e.1.resident || s.threadDead ts limit e.2 e.1)

/-- A thread of the set that is parked on a counted wait raises `DEADLOCK`. Its instruction has changed nothing (R277): a comparand
goes back to its channel, and a member has not arrived at its incomplete rendezvous (R42). -/
def State.raiseDeadlock (s : State) (k : Nat) (t : Thread) (d : DeadWait) : State :=
  let len := match s.fetchOf t with | .instr i => i.len / 4 | .trap _ n => n
  let s := (s.unpop t).modThread k (fun t => match t.st with | .parked (.rendezvous _) => { t with tcount := t.tcount - 1 } | _ => t)
  s.takeTrap k ⟨trapDeadlock, d.addr, BitVec.ofNat 32 (d.kind + d.number * 256), 0, false⟩ len t.pc t.pc false

/-- WATCHDOG_EXPIRY: the set has been deadlocked for the interval. What each thread waits on is as it stood when the
watchdog found it; a thread that an earlier report has taken away raises nothing. -/
def State.watchdogExpiry (s : State) (ts : List Nat) : State :=
  let limit := 1000 * s.pkg.watchdog
  if ts.isEmpty || !ts.all (s.taskDead ts limit) then s
  else
    let ws := s.threads.zipIdx.filterMap (fun e =>
      if decide (e.1.task ∈ ts) && e.1.resident then (s.counted e.2 e.1).map (fun d => (e.2, d)) else none)
    ws.foldl (fun s w =>
      match s.threads[w.1]? with
      | some t => (match t.st with | .parked _ => s.raiseDeadlock w.1 t w.2 | _ => s)
      | none => s) s

/-- WATCHDOG_EXPIRY (R203). -/
def execWatchdogExpiry (ts : List Nat) (s : State) : Host.Outcome State Fault Refusal := .next (s.watchdogExpiry ts)

end Sys2Proof.Machine
end

