-- ==== Sys2Proof/Machine/Integer.lean ====
section
/-! DEFINITION. The integer class (R83, R84; 0x01 to 0x1F). -/

namespace Sys2Proof.Machine

/-- The low 32 bits of a source, and its signed reading. -/
def w32 (v : QWord) : Nat := v.toNat % 2 ^ 32
def s32 (v : QWord) : Int := (BitVec.ofNat 32 v.toNat).toInt

/-- A reading under U: unsigned or signed (R83). -/
def rd32 (u : Bool) (v : QWord) : Int := if u then (w32 v : Int) else s32 v

/-- An exact integer narrowed to 32 bits, or to 64. -/
def wrap32 (i : Int) : QWord := BitVec.ofNat 128 (i % 2 ^ 32).toNat
def wrap64 (i : Int) : QWord := BitVec.ofNat 128 (i % 2 ^ 64).toNat

/-- Signed saturation to 32 bits (R83). -/
def clampS (i : Int) : Int := Min.min (Max.max i (-(2 ^ 31))) (2 ^ 31 - 1)
/-- Unsigned saturation to 32 bits (R83). -/
def clampU (i : Int) : Int := Min.min (Max.max i 0) (2 ^ 32 - 1)

/-- S of func (R83). -/
def satOf (x : ExtOp) : Nat := bitsOf x.func 4 3
/-- U of func (R83). -/
def uOf (x : ExtOp) : Bool := x.func.getLsbD 2
/-- Width in bits from W (R83). -/
def widthOf (x : ExtOp) : Nat := (Cls.ofW (bitsOf x.func 1 0)).bits

/-- `ADD` and `SUB` by S (R332). -/
def addSub (sub : Bool) (sat : Nat) (a b : QWord) : QWord :=
  let e := fun (x y : Int) => if sub then x - y else x + y
  if sat = 1 then wrap32 (clampS (e (s32 a) (s32 b)))
  else if sat = 2 then wrap32 (clampU (e (w32 a) (w32 b)))
  else wrap32 (e (w32 a) (w32 b))

def addVal (cx : Ctx) : QWord := addSub false (satOf cx.x) cx.va cx.vb
def subVal (cx : Ctx) : QWord := addSub true (satOf cx.x) cx.va cx.vb
/-- `MUL`, `MULH`, `MULW`, `MAD` (R388). -/
def mulVal (cx : Ctx) : QWord := wrap32 ((w32 cx.va : Int) * w32 cx.vb)
def mulhVal (cx : Ctx) : QWord := wrap32 (rd32 (uOf cx.x) cx.va * rd32 (uOf cx.x) cx.vb / 2 ^ 32)
def mulwVal (cx : Ctx) : QWord := wrap64 (rd32 (uOf cx.x) cx.va * rd32 (uOf cx.x) cx.vb)
def madVal (cx : Ctx) : QWord :=
  let e := s32 cx.va * s32 cx.vb + s32 cx.vc
  wrap32 (if satOf cx.x = 1 then clampS e else e)
/-- `AND`, `OR`, `XOR`, `ANDN` (R334). -/
def andVal (cx : Ctx) : QWord := cx.va &&& cx.vb
def orVal (cx : Ctx) : QWord := cx.va ||| cx.vb
def xorVal (cx : Ctx) : QWord := cx.va ^^^ cx.vb
def andnVal (cx : Ctx) : QWord := cx.va &&& ~~~cx.vb
/-- The count of the shifts: b[4:0] (R403). -/
def countOf (cx : Ctx) : Nat := cx.vb.toNat % 32
def shlVal (cx : Ctx) : QWord := wrap32 ((w32 cx.va * 2 ^ countOf cx : Nat) : Int)
def shrVal (cx : Ctx) : QWord := BitVec.ofNat 128 (w32 cx.va / 2 ^ countOf cx)
def sarVal (cx : Ctx) : QWord := wrap32 (s32 cx.va / 2 ^ countOf cx)
def rotVal (cx : Ctx) : QWord := ((BitVec.ofNat 32 cx.va.toNat).rotateLeft (countOf cx)).zeroExtend 128
/-- `MIN` and `MAX` (R389). -/
def minVal (cx : Ctx) : QWord := if rd32 (uOf cx.x) cx.va ≤ rd32 (uOf cx.x) cx.vb then cx.va else cx.vb
def maxVal (cx : Ctx) : QWord := if rd32 (uOf cx.x) cx.vb ≤ rd32 (uOf cx.x) cx.va then cx.va else cx.vb
/-- `ABS` (R330). -/
def absVal (cx : Ctx) : QWord :=
  let r : Int := (s32 cx.va).natAbs
  wrap32 (if satOf cx.x = 1 then clampS r else r)
/-- Leading zero bits of an n-bit value, ones, and the reversed value (R345). -/
def clzNat (v n : Nat) : Nat := if v = 0 then n else n - 1 - Nat.log2 v
def popNat (v : Nat) : Nat → Nat
  | 0 => 0
  | n + 1 => v / 2 ^ n % 2 + popNat v n
def revNat (v : Nat) : Nat → Nat
  | 0 => 0
  | n + 1 => v % 2 * 2 ^ n + revNat (v / 2) n
def clzVal (cx : Ctx) : QWord := BitVec.ofNat 128 (clzNat (cx.va.toNat % 2 ^ widthOf cx.x) (widthOf cx.x))
def popcVal (cx : Ctx) : QWord := BitVec.ofNat 128 (popNat cx.va.toNat (widthOf cx.x))
def brevVal (cx : Ctx) : QWord := BitVec.ofNat 128 (revNat cx.va.toNat (widthOf cx.x))
/-- Position and width of a bit field (R340). -/
def posOf (cx : Ctx) : Nat := cx.vb.toNat % 32
def fieldW (cx : Ctx) : Nat := Nat.min (cx.vb.toNat / 256 % 64) 32
/-- `BFX` (R340). -/
def bfxVal (cx : Ctx) : QWord :=
  let w := fieldW cx
  if w = 0 then 0
  else
    let f := (rd32 (uOf cx.x) cx.va / 2 ^ posOf cx % 2 ^ w).toNat
    if uOf cx.x then BitVec.ofNat 128 f
    else wrap32 (if f < 2 ^ (w - 1) then (f : Int) else (f : Int) - 2 ^ w)
/-- `BFI` (R341): bits that would pass bit 31 are dropped. -/
def bfiVal (cx : Ctx) : QWord :=
  let m := (2 ^ fieldW cx - 1) * 2 ^ posOf cx % 2 ^ 32
  let f := w32 cx.va % 2 ^ fieldW cx * 2 ^ posOf cx % 2 ^ 32
  BitVec.ofNat 128 ((w32 cx.vc &&& (2 ^ 32 - 1 - m)) ||| f)
/-- `SEL` (R404). -/
def selVal (cx : Ctx) : QWord := if cx.vc = 0 then cx.vb else cx.va
/-- `CMP` (R348). -/
def cmpVal (cx : Ctx) : Bool :=
  let n := if cx.x.func.getLsbD 4 then 64 else 32
  let rd := fun (v : QWord) => if cx.x.func.getLsbD 3 then (v.toNat % 2 ^ n : Int) else (BitVec.ofNat n v.toNat).toInt
  let x := rd cx.va
  let y := rd cx.vb
  match bitsOf cx.x.func 2 0 with
  | 0 => decide (x = y)
  | 1 => decide (x ≠ y)
  | 2 => decide (x < y)
  | 3 => decide (x ≤ y)
  | 4 => decide (y < x)
  | _ => decide (y ≤ x)
/-- `MOV` (R391) and `MOVI` (R392): source b widened by sign, or zero-extended by func[3]. -/
def movVal (cx : Ctx) : QWord := cx.va
def moviVal (cx : Ctx) : QWord := if cx.x.func.getLsbD 3 then cx.x.imm.zeroExtend 128
  else match cx.x.b with | .lit v => v.signExtend 128 | _ => cx.x.imm.signExtend 128
/-- `LEA` (R385). -/
def leaVal (cx : Ctx) : QWord :=
  let e : Int := rd32 (cx.x.func.getLsbD 2) cx.vb
  wrap64 ((cx.va.toNat : Int) + e % 2 ^ 64 * 2 ^ bitsOf cx.x.func 1 0)
/-- `ADDQ` (R333). -/
def addqVal (cx : Ctx) : QWord := wrap64 ((cx.va.toNat : Int) + cx.vb.toNat)
/-- `DIV` and `REM`: quotient and remainder (R356). -/
def divRem (u : Bool) (a b : QWord) : Int × Int :=
  let x := rd32 u a
  let y := rd32 u b
  if y = 0 then (2 ^ 32 - 1, x) else (x.tdiv y, x - x.tdiv y * y)
def divVal (cx : Ctx) : QWord := wrap32 (divRem (uOf cx.x) cx.va cx.vb).1
def remVal (cx : Ctx) : QWord := wrap32 (divRem (uOf cx.x) cx.va cx.vb).2

/-- A meaning that writes a predicate only, and so shifts no latch (R36). -/
def predBody (f : Ctx → Bool) : Ctx → State → State × Eff := fun cx s => (cx.dstPred s (f cx), .next)

/-- The predicates as a word, p7 in bit 7 (R397). -/
def Thread.predWord (t : Thread) : Nat := t.preds.toNat + 128

/-- `PMOV` (R397). -/
def pmovBody (cx : Ctx) (s : State) : State × Eff :=
  match bitsOf cx.x.func 5 4 with
  | 0 => (cx.dstPred s (decide (cx.x.func.toNat / 2 ^ (2 * cx.va.toNat + cx.vb.toNat) % 2 = 1)), .next)
  | 1 => (cx.dst s (BitVec.ofNat 128 cx.t.predWord), .next)
  | _ => (s.modThread cx.k (fun t => { t with preds := BitVec.ofNat 7 cx.va.toNat }), .next)

/-- ADD (R332). -/
def execAdd (o : BaseOp) (s : State) : Host.Outcome State Fault Refusal := runThread (.add o) noPre (pureBody addVal) s

/-- ADD_EXT (R332). -/
def execAddExt (x : ExtOp) (s : State) : Host.Outcome State Fault Refusal := runThread (.addExt x) noPre (pureBody addVal) s

/-- SUB (R332). -/
def execSub (o : BaseOp) (s : State) : Host.Outcome State Fault Refusal := runThread (.sub o) noPre (pureBody subVal) s

/-- SUB_EXT (R332). -/
def execSubExt (x : ExtOp) (s : State) : Host.Outcome State Fault Refusal := runThread (.subExt x) noPre (pureBody subVal) s

/-- MUL (R388). -/
def execMul (o : BaseOp) (s : State) : Host.Outcome State Fault Refusal := runThread (.mul o) noPre (pureBody mulVal) s

/-- MUL_EXT (R388). -/
def execMulExt (x : ExtOp) (s : State) : Host.Outcome State Fault Refusal := runThread (.mulExt x) noPre (pureBody mulVal) s

/-- MULH (R388). -/
def execMulh (o : BaseOp) (s : State) : Host.Outcome State Fault Refusal := runThread (.mulh o) noPre (pureBody mulhVal) s

/-- MULH_EXT (R388). -/
def execMulhExt (x : ExtOp) (s : State) : Host.Outcome State Fault Refusal := runThread (.mulhExt x) noPre (pureBody mulhVal) s

/-- MAD (R388). -/
def execMad (x : ExtOp) (s : State) : Host.Outcome State Fault Refusal := runThread (.mad x) noPre (pureBody madVal) s

/-- AND (R334). -/
def execAnd (o : BaseOp) (s : State) : Host.Outcome State Fault Refusal := runThread (.and o) noPre (pureBody andVal) s

/-- AND_EXT (R334). -/
def execAndExt (x : ExtOp) (s : State) : Host.Outcome State Fault Refusal := runThread (.andExt x) noPre (pureBody andVal) s

/-- OR (R334). -/
def execOr (o : BaseOp) (s : State) : Host.Outcome State Fault Refusal := runThread (.or o) noPre (pureBody orVal) s

/-- OR_EXT (R334). -/
def execOrExt (x : ExtOp) (s : State) : Host.Outcome State Fault Refusal := runThread (.orExt x) noPre (pureBody orVal) s

/-- XOR (R334). -/
def execXor (o : BaseOp) (s : State) : Host.Outcome State Fault Refusal := runThread (.xor o) noPre (pureBody xorVal) s

/-- XOR_EXT (R334). -/
def execXorExt (x : ExtOp) (s : State) : Host.Outcome State Fault Refusal := runThread (.xorExt x) noPre (pureBody xorVal) s

/-- ANDN (R334). -/
def execAndn (o : BaseOp) (s : State) : Host.Outcome State Fault Refusal := runThread (.andn o) noPre (pureBody andnVal) s

/-- ANDN_EXT (R334). -/
def execAndnExt (x : ExtOp) (s : State) : Host.Outcome State Fault Refusal := runThread (.andnExt x) noPre (pureBody andnVal) s

/-- SHL (R403). -/
def execShl (o : BaseOp) (s : State) : Host.Outcome State Fault Refusal := runThread (.shl o) noPre (pureBody shlVal) s

/-- SHL_EXT (R403). -/
def execShlExt (x : ExtOp) (s : State) : Host.Outcome State Fault Refusal := runThread (.shlExt x) noPre (pureBody shlVal) s

/-- SHR (R403). -/
def execShr (o : BaseOp) (s : State) : Host.Outcome State Fault Refusal := runThread (.shr o) noPre (pureBody shrVal) s

/-- SHR_EXT (R403). -/
def execShrExt (x : ExtOp) (s : State) : Host.Outcome State Fault Refusal := runThread (.shrExt x) noPre (pureBody shrVal) s

/-- SAR (R403). -/
def execSar (o : BaseOp) (s : State) : Host.Outcome State Fault Refusal := runThread (.sar o) noPre (pureBody sarVal) s

/-- SAR_EXT (R403). -/
def execSarExt (x : ExtOp) (s : State) : Host.Outcome State Fault Refusal := runThread (.sarExt x) noPre (pureBody sarVal) s

/-- ROT (R403). -/
def execRot (o : BaseOp) (s : State) : Host.Outcome State Fault Refusal := runThread (.rot o) noPre (pureBody rotVal) s

/-- ROT_EXT (R403). -/
def execRotExt (x : ExtOp) (s : State) : Host.Outcome State Fault Refusal := runThread (.rotExt x) noPre (pureBody rotVal) s

/-- MIN (R389). -/
def execMin (o : BaseOp) (s : State) : Host.Outcome State Fault Refusal := runThread (.min o) noPre (pureBody minVal) s

/-- MIN_EXT (R389). -/
def execMinExt (x : ExtOp) (s : State) : Host.Outcome State Fault Refusal := runThread (.minExt x) noPre (pureBody minVal) s

/-- MAX (R389). -/
def execMax (o : BaseOp) (s : State) : Host.Outcome State Fault Refusal := runThread (.max o) noPre (pureBody maxVal) s

/-- MAX_EXT (R389). -/
def execMaxExt (x : ExtOp) (s : State) : Host.Outcome State Fault Refusal := runThread (.maxExt x) noPre (pureBody maxVal) s

/-- ABS (R330). -/
def execAbs (x : ExtOp) (s : State) : Host.Outcome State Fault Refusal := runThread (.abs x) noPre (pureBody absVal) s

/-- CLZ (R345). -/
def execClz (x : ExtOp) (s : State) : Host.Outcome State Fault Refusal := runThread (.clz x) noPre (pureBody clzVal) s

/-- POPC (R345). -/
def execPopc (x : ExtOp) (s : State) : Host.Outcome State Fault Refusal := runThread (.popc x) noPre (pureBody popcVal) s

/-- BREV (R345). -/
def execBrev (x : ExtOp) (s : State) : Host.Outcome State Fault Refusal := runThread (.brev x) noPre (pureBody brevVal) s

/-- BFX (R340). -/
def execBfx (x : ExtOp) (s : State) : Host.Outcome State Fault Refusal := runThread (.bfx x) noPre (pureBody bfxVal) s

/-- BFI (R341). -/
def execBfi (x : ExtOp) (s : State) : Host.Outcome State Fault Refusal := runThread (.bfi x) noPre (pureBody bfiVal) s

/-- SEL (R404). -/
def execSel (x : ExtOp) (s : State) : Host.Outcome State Fault Refusal := runThread (.sel x) noPre (pureBody selVal) s

/-- CMP (R348). -/
def execCmp (x : ExtOp) (s : State) : Host.Outcome State Fault Refusal := runThread (.cmp x) noPre (predBody cmpVal) s

/-- MOV (R391). -/
def execMov (o : BaseOp) (s : State) : Host.Outcome State Fault Refusal := runThread (.mov o) noPre (pureBody movVal) s

/-- MOV_EXT (R391). -/
def execMovExt (x : ExtOp) (s : State) : Host.Outcome State Fault Refusal := runThread (.movExt x) noPre (pureBody movVal) s

/-- MOVI (R392). -/
def execMovi (x : ExtOp) (s : State) : Host.Outcome State Fault Refusal := runThread (.movi x) noPre (pureBody moviVal) s

/-- LEA (R385). -/
def execLea (o : BaseOp) (s : State) : Host.Outcome State Fault Refusal := runThread (.lea o) noPre (pureBody leaVal) s

/-- LEA_EXT (R385). -/
def execLeaExt (x : ExtOp) (s : State) : Host.Outcome State Fault Refusal := runThread (.leaExt x) noPre (pureBody leaVal) s

/-- ADDQ (R333). -/
def execAddq (o : BaseOp) (s : State) : Host.Outcome State Fault Refusal := runThread (.addq o) noPre (pureBody addqVal) s

/-- ADDQ_EXT (R333). -/
def execAddqExt (x : ExtOp) (s : State) : Host.Outcome State Fault Refusal := runThread (.addqExt x) noPre (pureBody addqVal) s

/-- MULW (R388). -/
def execMulw (o : BaseOp) (s : State) : Host.Outcome State Fault Refusal := runThread (.mulw o) noPre (pureBody mulwVal) s

/-- MULW_EXT (R388). -/
def execMulwExt (x : ExtOp) (s : State) : Host.Outcome State Fault Refusal := runThread (.mulwExt x) noPre (pureBody mulwVal) s

/-- DIV (R356). -/
def execDiv (o : BaseOp) (s : State) : Host.Outcome State Fault Refusal := runThread (.div o) noPre (pureBody divVal) s

/-- DIV_EXT (R356). -/
def execDivExt (x : ExtOp) (s : State) : Host.Outcome State Fault Refusal := runThread (.divExt x) noPre (pureBody divVal) s

/-- REM (R356). -/
def execRem (o : BaseOp) (s : State) : Host.Outcome State Fault Refusal := runThread (.rem o) noPre (pureBody remVal) s

/-- REM_EXT (R356). -/
def execRemExt (x : ExtOp) (s : State) : Host.Outcome State Fault Refusal := runThread (.remExt x) noPre (pureBody remVal) s

/-- PMOV (R397). -/
def execPmov (x : ExtOp) (s : State) : Host.Outcome State Fault Refusal := runThread (.pmov x) noPre pmovBody s

end Sys2Proof.Machine
end

