-- ==== Sys2Proof/Machine/Manage.lean ====
section
/-! DEFINITION. The management queue (R204) and its commands: submission queues (R174), migration (R153), bias (R154),
cancelling a task, and the watchdog interval. -/

namespace Sys2Proof.Machine

/-! ## Entries (R204) -/

/-- The entry that is next in queue order, once the package is ready (R296). -/
def State.mqEntry (s : State) : Option (List Byte) :=
  let w := s.win
  if w.state ≠ 2 || w.mqhead = w.mqtail then none
  else some (s.physRead (w.mqbase.toNat + 64 * (w.mqhead.toNat % 2 ^ w.mqlg.toNat)) 64)

def mqCode (e : List Byte) : Nat := fieldAt e 0 1
def mqArg (e : List Byte) (i : Nat) : Nat := fieldAt e (8 + 8 * i) 8
def mqRecord (e : List Byte) : Nat := fieldAt e 0x28 8
def mqSeq (e : List Byte) : Nat := fieldAt e 0x30 2

/-- Every byte that holds no field is zero. -/
def mqReserved (e : List Byte) : Bool := decide (fieldAt e 1 7 = 0) && decide (fieldAt e 0x32 14 = 0)

/-- The completion record of a command, at an address of the window's kind (log 18). -/
def State.mqAnswer (s : State) (record seq st : Nat) : State := s.physWrite record (recordBytes st 0 seq 0)

/-- The entry has been taken. -/
def State.mqTake (s : State) : State := { s with win := { s.win with mqhead := s.win.mqhead + 1 } }

/-! ## Queue configuration (R174) -/

/-- The configuration block keeps to R174. -/
def queueBlockOk (b : List Byte) : Bool :=
  decide (fieldAt b 0 8 % 256 = 0) && decide (fieldAt b 8 8 % 128 = 0) && decide (fieldAt b 0x10 8 % 4 = 0) &&
    decide (fieldAt b 8 8 / 128 ≠ fieldAt b 0x10 8 / 128) && decide (4 ≤ fieldAt b 0x20 1 % 32 ∧ fieldAt b 0x20 1 % 32 ≤ 16) &&
    decide (fieldAt b 0x20 1 / 32 = 0) && decide (fieldAt b 0x21 1 / 16 = 0) && decide (fieldAt b 0x22 30 = 0)

/-- A queue as its block sets it, its head at 0. -/
def queueOf (b : List Byte) : Queue :=
  { set := true, stopped := false, ring := fieldAt b 0 8, tailaddr := fieldAt b 8 8, headaddr := fieldAt b 0x10 8,
    ptroot := fieldAt b 0x18 8, lgsize := fieldAt b 0x20 1 % 32, pcap := fieldAt b 0x21 1 % 16, head := 0, tail := 0 }

/-! ## Pages (R152 to R155) -/

/-- The page that a command names: the leaf at its virtual address, which is the page's first. -/
def State.namedPage (s : State) (ptroot va : Nat) : Option Leaf :=
  match s.walk ptroot va with
  | some l => if l.tlb.va = va then some l else none
  | none => none

/-- A live task holds the page: its TLBs have a translation by the same entry (R149, R152). -/
def State.pageHeld (s : State) (entry : Nat) : Bool :=
  s.tasks.any (fun t => t.live && t.tlb.any (fun e => s.entryOf t.tlbRoot e.va == some entry))

/-- An operation on the same page has started and not completed. -/
def State.pageBusy (s : State) (entry : Nat) : Bool :=
  s.pkg.pageOps.any (fun o => o.started && s.entryOf o.ptroot o.va == some entry)

/-- The target code of a new physical address, when the page fits there (R144). -/
def Pkg.targetOf (p : Pkg) (pa size : Nat) : Option Nat :=
  if pa % size ≠ 0 then none else if p.paOk 0 pa size then some 0 else if p.paOk 1 pa size then some 1 else none

/-- A page-table entry with its mig bit set or cleared. -/
def entryMig (e : Nat) (b : Bool) : Nat := e / 2 ^ 9 * 2 ^ 9 + e % 2 ^ 8 + (if b then 2 ^ 8 else 0)

/-- The device writes a page-table entry. -/
def State.writeEntry (s : State) (a e : Nat) : State := s.physWrite a (leBytes 8 e)

def State.readEntry (s : State) (a : Nat) : Nat := s.mem.dev.readNat a 8

/-- An operation starts: a migration sets mig (R153), a bias flip begins to empty the losing side (R154). -/
def State.startPageOp (s : State) (i : Nat) : State :=
  match s.pkg.pageOps[i]? with
  | none => s
  | some o =>
    let s := { s with pkg := { s.pkg with pageOps := s.pkg.pageOps.set i { o with started := true } } }
    if o.mig then (match s.walk o.ptroot o.va with
      | some l => s.writeEntry l.entry (entryMig (s.readEntry l.entry) true)
      | none => s)
    else s

/-- An accepted operation: it starts, or it waits behind the one in progress on its page (R155). -/
def State.addPageOp (s : State) (o : PageOp) (entry : Nat) : State :=
  let busy := s.pageBusy entry
  let s := { s with pkg := { s.pkg with pageOps := s.pkg.pageOps ++ [o] } }
  if busy then s else s.startPageOp (s.pkg.pageOps.length - 1)

/-- The partial sums of a frame join its lines before the frame is left, and none stays (R154; log 18). -/
def State.mergeFrame (s : State) (pl : Place) (size : Nat) : State :=
  match pl with
  | .dev pa _ =>
    let s := s.mergeWhere (fun e => decide (pa ≤ e.addr ∧ e.addr < pa + size))
    { s with mem := { s.mem with grc := s.mem.grc.filter (fun e => !decide (pa ≤ e.addr ∧ e.addr < pa + size)) } }
  | _ => s

/-- No cache of the package keeps a line of the frame (R154). -/
def State.dropFrame (s : State) (pl : Place) (size : Nat) : State :=
  match pl with
  | .dev pa _ =>
    let out := fun (l : Lease) => !decide (pa ≤ 128 * l.line ∧ 128 * l.line < pa + size)
    { s with mem := { s.mem with leases := s.mem.leases.filter out, remote := s.mem.remote.filter out } }
  | _ => s

/-- The lines of a new frame stand behind every access to the old one and to the new one (R158). -/
def State.carryStamps (s : State) (src dst : Place) (size : Nat) : State :=
  let top := fun (pl : Place) => (Piece.lines ⟨pl, size⟩).map (fun l => max (s.mem.stamp l).wts (s.mem.stamp l).rts)
  let t := max ((top src).foldl max 0) ((top dst).foldl max 0)
  { s with mem := { s.mem with stamps := (Piece.lines ⟨dst, size⟩).foldl (fun l n => aset l n ⟨t + 1, t⟩) s.mem.stamps } }

/-- What is remembered of the bytes of a frame goes with them (R166, R167). -/
def Mem.moveNotes (m : Mem) (p q size : Nat) : Mem :=
  let mv := fun pa => if p ≤ pa ∧ pa < p + size then q + (pa - p) else pa
  { m with
    released := m.released.map (fun r => match r.pl with | .dev pa c => { r with pl := .dev (mv pa) c } | _ => r)
    hostAt := m.hostAt.map (fun h => { h with pa := mv h.pa })
    wrote := m.wrote.map (fun h => if h.host then h else { h with pa := mv h.pa })
    direct := m.direct.map (fun d => match d.pl with | .dev pa c => { d with pl := .dev (mv pa) c } | _ => d)
    engWrites := m.engWrites.map (fun e => { e with line := mv (128 * e.line) / 128 }) }

def State.moveNotes (s : State) (src dst : Place) (size : Nat) : State :=
  match src, dst with
  | .dev p _, .dev q _ => { s with mem := s.mem.moveNotes p q size }
  | _, _ => s

/-- The first operation of a kind that has started. -/
def State.firstOp (s : State) (mig : Bool) : Option Nat := findIdx (fun (o : PageOp) => o.started && o.mig == mig) s.pkg.pageOps

/-- An operation is over: its record is written, and the first one queued on its page starts (R155). -/
def State.endPageOp (s : State) (i : Nat) : State :=
  match s.pkg.pageOps[i]? with
  | none => s
  | some o =>
    let s := { s with pkg := { s.pkg with pageOps := s.pkg.pageOps.eraseIdx i } }
    let s := s.mqAnswer o.record o.seq stDone
    let entry := fun (q : PageOp) => s.entryOf q.ptroot q.va
    match findIdx (fun q => !q.started && entry q == entry o) s.pkg.pageOps with
    | some j => s.startPageOp j
    | none => s

/-- MIGRATION_COMPLETE: the page is copied with its poison and the new entry written with mig = 0; what waited for it goes on
(R153). -/
def State.migrationDone (s : State) : State :=
  match s.firstOp true with
  | none => s
  | some i =>
    match s.pkg.pageOps[i]? with
    | none => s
    | some o =>
      match s.walk o.ptroot o.va with
      | none => s.endPageOp i
      | some l =>
        let src := l.tlb.place l.tlb.va
        let n := l.tlb.size
        let s := (s.mergeFrame src n).dropFrame src n
        let t := (s.pkg.targetOf o.target n).getD 0
        let dst := Place.dev o.target true
        let bs := s.homeRead src n
        let ts := s.homeTaints src n
        let s := ((s.dropFrame dst n).carryStamps src dst n).homeWrite dst bs |>.homeTaint dst ts
        let s := (s.noteOther none dst n).moveNotes src dst n
        let e := entryMig (s.readEntry l.entry) false
        let e := e % 2 ^ 6 + t * 2 ^ 6 + e / 2 ^ 8 % 2 ^ 4 * 2 ^ 8 + o.target / 2 ^ 12 % 2 ^ 40 * 2 ^ 12
        (s.writeEntry l.entry e).runStats.endPageOp i

/-- BIAS_FLIP_COMPLETE: the losing side is empty and the new bias stands in the entry (R154). -/
def State.biasDone (s : State) : State :=
  match s.firstOp false with
  | none => s
  | some i =>
    match s.pkg.pageOps[i]? with
    | none => s
    | some o =>
      match s.walk o.ptroot o.va with
      | none => s.endPageOp i
      | some l =>
        let pl := l.tlb.place l.tlb.va
        let s := (s.mergeFrame pl l.tlb.size).dropFrame pl l.tlb.size
        let e := s.readEntry l.entry
        (s.writeEntry l.entry (e / 2 ^ 6 * 2 ^ 6 + o.target % 2 * 2 ^ 5 + e % 2 ^ 5)).endPageOp i

/-! ## Commands -/

/-- The live task of a number. -/
def State.taskNamed (s : State) (n : Nat) : Option Nat := findIdx (fun (t : Task) => t.live && decide (t.num.toNat = n)) s.tasks

/-- A command that its entry states well: its code is known, reserved bytes are zero, its arguments in range (R204). -/
def State.mqOk (s : State) (e : List Byte) : Bool :=
  mqReserved e &&
    match mqCode e with
    | 1 => decide (mqArg e 0 < 64) && queueBlockOk (s.physRead (mqArg e 1) 64) && !s.homeBad (physPlace (mqArg e 1)) 64
    | 2 => decide (mqArg e 0 < 64)
    | 3 => ((s.namedPage (mqArg e 0) (mqArg e 1)).map (fun l => (s.pkg.targetOf (mqArg e 2) l.tlb.size).isSome)).getD false
    | 4 => (s.namedPage (mqArg e 0) (mqArg e 1)).isSome && decide (mqArg e 2 < 2)
    | 5 => (s.taskNamed (mqArg e 0)).isSome
    | 6 => decide (100 ≤ mqArg e 0 ∧ mqArg e 0 ≤ 10000000)
    | _ => false

/-- The next entry, when it is a valid command of a code. -/
def State.mqNext (s : State) (code : Nat) : Option (List Byte) :=
  match s.mqEntry with
  | none => none
  | some e => if mqCode e = code && s.mqOk e then some e else none

def State.mqDone (s : State) (e : List Byte) (st : Nat) : State := s.mqAnswer (mqRecord e) (mqSeq e) st

def State.queueSet (s : State) : State :=
  match s.mqNext 1 with
  | none => s
  | some e =>
    let s := s.mqTake.setQueue (mqArg e 0) (queueOf (s.physRead (mqArg e 1) 64))
    (s.rereadTail (mqArg e 0)).mqDone e stDone

def State.queueStop (s : State) : State :=
  match s.mqNext 2 with
  | none => s
  | some e =>
    let s := s.mqTake
    (match s.queue? (mqArg e 0) with
      | some q => s.setQueue (mqArg e 0) { q with stopped := true }
      | none => s).mqDone e stDone

/-- `MIGRATE` and `BIAS`: refused while a live task holds the page (R152). -/
def State.pageCommand (s : State) (mig : Bool) : State :=
  match s.mqNext (if mig then 3 else 4) with
  | none => s
  | some e =>
    let s := s.mqTake
    match s.namedPage (mqArg e 0) (mqArg e 1) with
    | none => s
    | some l =>
      if s.pageHeld l.entry then s.mqDone e stTenureHeld
      else s.addPageOp ⟨mig, mqArg e 0, mqArg e 1, mqArg e 2, mqRecord e, mqSeq e, false⟩ l.entry

def State.cancelTask (s : State) : State :=
  match s.mqNext 5 with
  | none => s
  | some e =>
    let s := s.mqTake
    (match s.taskNamed (mqArg e 0) with
      | some ti => s.endTask ti ⟨stCancelled, 0, 0⟩
      | none => s).mqDone e stDone

def State.setWatchdog (s : State) : State :=
  match s.mqNext 6 with
  | none => s
  | some e => ({ s.mqTake with pkg := { s.pkg with watchdog := mqArg e 0 } } : State).mqDone e stDone

def State.mqInvalid (s : State) : State :=
  match s.mqEntry with
  | none => s
  | some e => if s.mqOk e then s else s.mqTake.mqDone e stBadParam

/-- QUEUE_SET (R174). -/
def execQueueSet (s : State) : Host.Outcome State Fault Refusal := .next s.queueSet

/-- QUEUE_STOP (R204). -/
def execQueueStop (s : State) : Host.Outcome State Fault Refusal := .next s.queueStop

/-- MIGRATE (R153). -/
def execMigrate (s : State) : Host.Outcome State Fault Refusal := .next (s.pageCommand true)

/-- MIGRATION_COMPLETE (R153). -/
def execMigrationComplete (s : State) : Host.Outcome State Fault Refusal := .next s.migrationDone

/-- BIAS (R154). -/
def execBias (s : State) : Host.Outcome State Fault Refusal := .next (s.pageCommand false)

/-- BIAS_FLIP_COMPLETE (R154). -/
def execBiasFlipComplete (s : State) : Host.Outcome State Fault Refusal := .next s.biasDone

/-- CANCEL (R204). -/
def execCancel (s : State) : Host.Outcome State Fault Refusal := .next s.cancelTask

/-- WATCHDOG (R204). -/
def execWatchdog (s : State) : Host.Outcome State Fault Refusal := .next s.setWatchdog

/-- MQ_INVALID_COMMAND (R204). -/
def execMqInvalidCommand (s : State) : Host.Outcome State Fault Refusal := .next s.mqInvalid

end Sys2Proof.Machine
end

