-- ==== Sys2Proof/Machine/Outside.lean ====
section
/-! DEFINITION. What reaches the memories from outside a thread: merges by the gradient reducing cache (R244), soft errors
(R284), link failures (R267), the host (R171, R261), other packages (R170) and the passing of a lease (R161). -/

namespace Sys2Proof.Machine

/-! ## Merges (R244) -/

/-- GRC_EVICT_MERGE: the partial sum that a die holds for an element joins its home line. -/
def State.evictMerge (s : State) (die addr : Nat) : State := s.mergeWhere (fun e => decide (e.die = die ∧ e.addr = addr))

/-- GRC_EVICT_MERGE (R244). -/
def execGrcEvictMerge (die : Fin 4) (addr : Nat) (s : State) : Host.Outcome State Fault Refusal := .next (s.evictMerge die.val addr)

/-! ## Soft errors (R284) -/

/-- A corrected error is counted, saturating (R294). -/
def State.countEcc (s : State) (die : Fin 4) : State :=
  let v := s.win.ecc[die]
  if v = BitVec.allOnes 64 then s else { s with win := { s.win with ecc := s.win.ecc.set die (v + 1) } }

/-- The units that an uncorrectable error at a unit of device memory poisons: in the second tier the aligned 512-byte block. -/
def deviceUnits (p : Pkg) (u : Nat) : List Nat :=
  let a := 32 * u
  if p.paOk 0 a 32 && decide (a < hbmEnd) then [u]
  else if p.paOk 1 a 32 then (List.range 16).map (u / 16 * 16 + ·)
  else []

/-- A thread's stack store with a poisoned unit. -/
def Thread.poisonStack (t : Thread) (u : Nat) : Thread := { t with stack := t.stack.poison u }

/-- A copy with a poisoned unit of its line. -/
def Lease.poison (l : Lease) (u : Nat) : Lease := { l with bad := sinsert l.bad (4 * l.line + u) }

/-- The change that a soft error makes; one at a place that does not exist makes none. -/
def State.softError (s : State) (e : SoftErr) : State :=
  match e with
  | .corrected die => s.countEcc die
  | .device u => { s with mem := { s.mem with dev := (deviceUnits s.pkg u).foldl Store.poison s.mem.dev } }
  | .host u => { s with mem := { s.mem with host := s.mem.host.poison u } }
  | .tile i u => s.modTile i (fun a => if a.live && decide (32 * u < a.size) then { a with mem := a.mem.poison u } else a)
  | .acc i u => if 32 * u < Config.accBytes then { s with accs := s.accs.modify i (fun (a : Acc) => { a with bad := sinsert a.bad u }) } else s
  | .stack k u =>
    let room := ((s.threads[k]?.bind (fun t => s.tasks[t.task]?)).map Task.stackBytes).getD 0
    if 32 * u < room then s.modThread k (fun t => t.poisonStack u) else s
  | .reg k n => s.modThread k (fun t => if hasReg t.regsN n.val then { t with badRegs := sinsert t.badRegs n.val } else t)
  | .partialSum die addr =>
    let hit := fun (g : GrcEntry) => if g.die = die.val ∧ g.addr = addr then { g with bad := true } else g
    { s with mem := { s.mem with grc := s.mem.grc.map hit } }
  | .lease i u => { s with mem := { s.mem with leases := s.mem.leases.modify i (fun l => l.poison u.val) } }
  | .remoteCopy i u => { s with mem := { s.mem with remote := s.mem.remote.modify i (fun l => l.poison u.val) } }
  | .weight i => { s with wcache := s.wcache.modify i (fun e => { e with bad := true }) }

/-- SOFT_ERROR (R284). -/
def execSoftError (e : SoftErr) (s : State) : Host.Outcome State Fault Refusal := .next (s.softError e)

/-! ## Links (R263, R267) -/

/-- A link fails. Traffic to a package moves to the links that still reach it; with none left no package is reached. -/
def State.linkFails (s : State) (l : LinkId) : State :=
  match l with
  | .cxl i => { s with pkg := { s.pkg with cxlUp := s.pkg.cxlUp.set i.val false } }
  | .route p => { s with pkg := { s.pkg with noRoute := sinsert s.pkg.noRoute p.val } }
  | .plogon i =>
    let up := s.pkg.plogonUp.set i.val false
    let lost := if up.any id then s.pkg.noRoute else othersOf s.pkg.index.toNat
    { s with pkg := { s.pkg with plogonUp := up, noRoute := lost } }

/-- LINK_FAILURE (R267). -/
def execLinkFailure (l : LinkId) (s : State) : Host.Outcome State Fault Refusal := .next (s.linkFails l)

/-! ## Other agents' accesses to lines homed here -/

/-- An address and length within HBM4E. -/
def inHbm (a n : Nat) : Bool := decide (a + n ≤ hbmEnd)

/-- What an outside read of device memory returns; poisoned data have no defined value (log 4). -/
def State.outsideRead (s : State) (a n : Nat) : State × List Byte :=
  if s.mem.dev.poisoned a n then (s.useFree n, freeBytes s.freeCtr n) else (s, s.mem.dev.read a n)

/-- A write from outside the package is performed at the home, and nothing released stands at its bytes any more. -/
def State.outsideWrite (s : State) (a : Nat) (bs : List Byte) : State :=
  let pl := Place.dev a true
  ((s.bump [⟨pl, bs.length⟩]).homeWrite pl bs).noteOther none pl bs.length

/-- A write of the host, numbered by its receipt, remembered for `FENCEX` classes g and h (R167). -/
def State.hostWrite (s : State) (a : Nat) (bs : List Byte) : State :=
  let no := s.mem.hostNo + 1
  let notes := (Piece.lines ⟨.dev a true, bs.length⟩).map (fun l => (⟨.host no, l, (s.mem.stamp l).rts⟩ : EngWrite))
  let s := s.outsideWrite a bs
  { s with mem := { s.mem.staleBy (.host no) (Place.lines (.dev a true) bs.length) with hostNo := no, hostAt := ⟨no, a, bs.length⟩ :: s.mem.hostAt, engWrites := notes ++ s.mem.engWrites } }

/-- HOST_MEMORY_ACCESS: performed in the order received (R171); the port must run CXL.mem (R261), and a device whose boot has
failed answers CXL.io only (R296). -/
def State.hostAccess (s : State) (x : HostAccess) : State :=
  if !s.pkg.cacheUp || decide (s.win.state = 3) then s
  else match x with
    | .read a n =>
      if !inHbm a n then s
      else
        let r := s.outsideRead a n
        { r.1 with pkg := { r.1.pkg with hostData := r.2 } }
    | .write a bs => if inHbm a bs.length then s.hostWrite a bs else s

/-- HOST_MEMORY_ACCESS (R171). -/
def execHostMemoryAccess (a : HostAccess) (s : State) : Host.Outcome State Fault Refusal := .next (s.hostAccess a)

/-- The place in logical time of the other packages' accesses, beside the cores of this one: each stands behind what they have read and
written here, so that a core that reads such a write reads no older copy than they had seen replaced (R170; log 33). -/
def farCore : Nat := 4 * Config.coresPerDie

/-- Another package's read of a line homed here takes its place in the order of the lines (R170). -/
def State.remoteRead (s : State) (a n : Nat) : State × List Byte :=
  ((Place.lines (.dev a true) n).foldl (fun (s : State) l => s.readLine farCore l) s).outsideRead a n

/-- Another package's write of a line homed here: its timestamp stands behind every access to the line, and behind what was read and
written from there before (R170). -/
def State.remoteWrite (s : State) (a : Nat) (bs : List Byte) : State :=
  let pl := Place.dev a true
  let lines := Place.lines pl bs.length
  let w := lines.foldl (fun v l => max v (max (s.mem.stamp l).wts (s.mem.stamp l).rts)) (s.clockOf farCore) + 1
  let s := s.raiseClock farCore w
  let s : State := { s with mem := { s.mem with stamps := lines.foldl (fun m l => aset m l { (s.mem.stamp l) with wts := w }) s.mem.stamps } }
  (s.homeWrite pl bs).noteOther none pl bs.length

/-- What another package's access may reach: HBM4E and the second tier homed here (R144), and the windows of packages beyond this
one, homed elsewhere (R265). -/
def Pkg.remoteOk (p : Pkg) (a n : Nat) : Bool := p.paOk 0 a n || p.paOk 1 a n

/-- PLOGON_REMOTE_ACCESS: it takes its place in the single order of the location (R170); an `ATOM` writes nothing where its line holds
poison (R337). A device whose boot has failed answers
CXL.io only (R296). -/
def State.remoteAccess (s : State) (x : RemoteAccess) : State :=
  if s.win.state = 3 then s
  else match x with
  | .load a n =>
    if !s.pkg.remoteOk a n then s
    else
      let r := s.remoteRead a n
      { r.1 with pkg := { r.1.pkg with remoteData := r.2 } }
  | .store a bs => if s.pkg.remoteOk a bs.length then s.remoteWrite a bs else s
  | .atom op wide a y c =>
    let n := if wide then 8 else 4
    if !s.pkg.remoteOk a n || a % n ≠ 0 || decide (10 < op.toNat) || (wide && decide (op.toNat = 10)) then s
    else
      let r := s.remoteRead a n
      let s' := { r.1 with pkg := { r.1.pkg with remoteData := r.2 } }
      if s.mem.dev.poisoned (a / 128 * 128) 128 then s'
      else match atomNew op.toNat n (leNat r.2) (y.toNat % 2 ^ (8 * n)) (c.toNat % 2 ^ (8 * n)) with
        | some v => s'.remoteWrite a (leBytes n v)
        | none => s'

/-- PLOGON_REMOTE_ACCESS (R170). -/
def execPlogonRemoteAccess (a : RemoteAccess) (s : State) : Host.Outcome State Fault Refusal := .next (s.remoteAccess a)

/-! ## Leases and the host port -/

/-- READ_LEASE_EXPIRY: the core's clock passes the rts of the copy, which serves no load any more (R161). -/
def State.leaseExpiry (s : State) (core line : Nat) : State :=
  match s.mem.leases.find? (fun l => l.core = core && l.line = line) with
  | none => s
  | some l =>
    let s := s.raiseClock core (l.rts + 1)
    { s with mem := { s.mem with leases := s.mem.leases.filter (fun l => !(l.core = core && l.line = line)) } }

/-- READ_LEASE_EXPIRY (R161). -/
def execReadLeaseExpiry (core : Fin 192) (line : Nat) (s : State) : Host.Outcome State Fault Refusal := .next (s.leaseExpiry core.val line)

/-- HOST_PORT_TRAINING: a rate in GT/s, 128, 64 or lower, a width and whether in 256-byte flit mode (R261). -/
def State.portTrains (s : State) (rate width : Nat) (flit : Bool) : State :=
  if (width = 1 ∨ width = 2 ∨ width = 4 ∨ width = 8) ∧ (rate ≤ 64 ∨ rate = 128) then { s with pkg := { s.pkg with port := (rate, width, flit) } } else s

/-- HOST_PORT_TRAINING (R261). -/
def execHostPortTraining (rate width : Nat) (flit : Bool) (s : State) : Host.Outcome State Fault Refusal := .next (s.portTrains rate width flit)

end Sys2Proof.Machine
end

