-- ==== Sys2Proof/Machine/Window.lean ====
section
/-! DEFINITION. The control window (R294): its reads and writes, partition stop (R302, R303), outstanding results
(R304), the thread window (R305), basic-block counters (R301) and the Spectrograph (R299). -/

namespace Sys2Proof.Machine

/-! ## The selected partition and slot -/

/-- The selected core, when there is one (R294). -/
def State.selCore (s : State) : Option Nat :=
  if s.win.core.toNat < Config.coresPerDie then some (48 * s.win.die.toNat + s.win.core.toNat) else none

/-- The selected partition. -/
def State.selPart (s : State) : Option Nat := s.selCore.map (fun c => 4 * c + s.win.part.toNat)

/-- The thread in the selected slot. -/
def State.selThread (s : State) : Option Nat :=
  match s.selPart with
  | none => none
  | some p => findIdx (fun t => t.resident && t.pnum = p && t.slot = s.win.slot.toNat) s.threads

/-- A thread that a stop request has not reached: it can issue, or waits in supervisor mode (R283, R289). -/
def Thread.unstopped (t : Thread) : Bool :=
  match t.st with
  | .ready => true
  | .parked _ => t.sup
  | _ => false

/-- A partition is stopped: a stop request is in effect and has reached each of its threads (R302). -/
def State.isStopped (s : State) (p : Nat) : Bool :=
  decide (p ∈ s.front.stopReq) && !s.threads.any (fun t => t.pnum = p && t.unstopped) &&
    !(s.front.issue.map (fun i => decide (i.part = p))).getD false

def State.selStopped (s : State) : Bool := (s.selPart.map s.isStopped).getD false

/-- A window write is refused (R294). -/
def State.refuse (s : State) : State := { s with win := { s.win with refused := true } }

/-! ## Partition stop (R302, R303) -/

/-- dctl bit 0. -/
def State.partStop (s : State) : State :=
  match s.selPart with
  | none => s
  | some p =>
    if p ∈ s.front.stopReq then s
    else State.stopPart ({ s with front := { s.front with stopReq := sinsert s.front.stopReq p, step1 := serase s.front.step1 p } }.stopTiles p) p []

/-- The stopped threads of a partition are filed at their PCs (R35); one that was stopped in Trapped has the policy applied again
(R283). -/
def State.partRun (s : State) (p : Nat) : State :=
  (List.range s.threads.length).foldl (fun s k =>
    match s.threads[k]? with
    | none => s
    | some t => if t.pnum ≠ p then s else if t.st = .stopped then s.file k t.pc else s.resumeTrapped k)
    { s with front := { s.front with stopReq := serase s.front.stopReq p, step1 := serase s.front.step1 p } }

/-- dctl bit 1: a resume of a running partition is ignored (R302). -/
def State.partResume (s : State) : State :=
  match s.selPart with
  | none => s
  | some p => if p ∈ s.front.stopReq then s.partRun p else s

/-- dctl bit 2: a stopped partition is resumed for one issue; the issue asks for the stop again. -/
def State.partStep (s : State) : State :=
  match s.selPart with
  | none => s
  | some p =>
    if !s.isStopped p then s
    else
      let s := s.partRun p
      { s with front := { s.front with step1 := sinsert s.front.step1 p } }

/-- A thread is held under policy 11 (R278). -/
def State.isHeld (s : State) (t : Thread) : Bool := decide (t.st = .trapped) && decide (s.pkg.policy (t.trec[0].toNat % 256) = 3)

/-- The selected thread, when it is held in a stopped partition: bits 3 and 4 are refused without one (R303). -/
def State.selHeld (s : State) : Option (Nat × Thread) :=
  match s.selThread with
  | none => none
  | some k => (s.threads[k]?).bind (fun t => if s.selStopped && s.isHeld t then some (k, t) else none)

/-- dctl bit 3: the selected thread ends as under policy 01. -/
def State.partEnd (s : State) : State :=
  match s.selHeld with
  | none => s.refuse
  | some (k, _) => s.exitThread k

/-- dctl bit 4: the selected thread leaves Trapped and is filed at its saved pc. -/
def State.partRelease (s : State) : State :=
  match s.selHeld with
  | none => s.refuse
  | some (k, t) => s.file k t.pc

/-- A write of dctl: each bit written as 1 acts, the lowest first (log 16). -/
def State.dctlWrite (s : State) (v : Nat) : State :=
  let s := if v % 2 = 1 then s.partStop else s
  let s := if v / 2 % 2 = 1 then s.partResume else s
  let s := if v / 4 % 2 = 1 then s.partStep else s
  let s := if v / 8 % 2 = 1 then s.partEnd else s
  if v / 16 % 2 = 1 then s.partRelease else s

/-- PARTITION_STOP (R302). -/
def execPartitionStop (s : State) : Host.Outcome State Fault Refusal := .next s.partStop

/-- PARTITION_RESUME (R303). -/
def execPartitionResume (s : State) : Host.Outcome State Fault Refusal := .next s.partResume

/-- PARTITION_STEP (R303). -/
def execPartitionStep (s : State) : Host.Outcome State Fault Refusal := .next s.partStep

/-- END_THREAD (R303). -/
def execEndThread (s : State) : Host.Outcome State Fault Refusal := .next s.partEnd

/-- RELEASE (R303). -/
def execRelease (s : State) : Host.Outcome State Fault Refusal := .next s.partRelease

/-! ## Outstanding results (R304) -/

/-- One entry of the list: its place in issue order, slot, first register, registers, and source code. -/
structure PendEntry where
  no : Nat
  slot : Nat
  reg : Nat
  n : Nat
  src : Nat
  deriving DecidableEq, Repr

/-- A `NEVAL` row of a thread that still waits for its outputs. -/
def State.nevalPend (s : State) (k : Nat) (t : Thread) : List PendEntry :=
  s.ntiles.flatMap (fun n => if !n.live then [] else
    n.rows.filterMap (fun r => if r.k = k then some ⟨t.parkNo, t.slot, r.dst, nevOut n.desc, 5⟩ else none))

/-- The results of one thread that are still outstanding: reads, and those of a team operation or a `NEVAL` that it is
parked on (log 17). -/
def State.threadPend (s : State) (k : Nat) (t : Thread) : List PendEntry :=
  (t.pend.filter (fun p => !p.returned)).map (fun p => ⟨p.no, t.slot, p.first, p.n, p.src⟩) ++
    (match t.st with
      | .parked (.rendezvous a) =>
        if a.supplies && (decide (a.key.1 = 0x6A) || decide (a.key.1 = 0x6B) || decide (a.key.1 = 0x6D) || (decide (a.key.1 = 0x6C) && decide (a.key.2.1 = 2)))
        then [⟨t.parkNo, t.slot, a.dst, if a.key.1 = 0x6C || (a.pair && a.key.1 ≠ 0x6D) then 2 else 1, 4⟩] else []
      | .parked .neval => s.nevalPend k t
      | _ => [])

/-- An entry among those in issue order. -/
def insertPend (e : PendEntry) : List PendEntry → List PendEntry
  | [] => [e]
  | f :: l => if e.no < f.no then e :: f :: l else f :: insertPend e l

/-- The list of the selected partition, in issue order; the window has room for 64. -/
def State.pendList (s : State) : List PendEntry :=
  match s.selPart with
  | none => []
  | some p =>
    ((s.threads.zipIdx.flatMap (fun e => if e.1.resident && e.1.pnum = p then s.threadPend e.2 e.1 else [])).foldl
      (fun l e => insertPend e l) []).take 64

def PendEntry.word (e : PendEntry) : Nat := e.slot + e.reg * 2 ^ 16 + (e.n - 1) * 2 ^ 24 + e.src * 2 ^ 28

/-! ## The thread window (R305) -/

/-- A register of the selected thread that a result still outstanding will write. -/
def State.pendCovers (s : State) (k : Nat) (t : Thread) (r : Nat) : Bool :=
  (s.threadPend k t).any (fun e => decide (e.reg ≤ r ∧ r < e.reg + e.n))

/-- The registers that the eight bytes at an offset of a record hold, the lower first. -/
def twinRegs (regsN off : Nat) : Option Nat :=
  if regsN ≠ 128 ∧ 0x30 ≤ off ∧ off < 0x40 then some (124 + (off - 0x30) / 4)
  else if 0x100 ≤ off ∧ off < 0x100 + 4 * regsN then some ((off - 0x100) / 4) else none

/-- The thread after a write of a field that the window may write; `none` for another field. -/
def Thread.twinWrite (t : Thread) (off : Nat) (v : BitVec 64) : Option Thread :=
  if off = 0 then some { t with pc := v }
  else if off = 0x18 then some { t with lk := v }
  else if off = 0x20 then
    some { t with preds := BitVec.ofNat 7 (v.toNat / 2 ^ 16), fmode := BitVec.ofNat 3 (v.toNat / 2 ^ 32), fflags := BitVec.ofNat 5 (v.toNat / 2 ^ 40) }
  else match twinRegs t.regsN off with
    | some r => some (t.setRegs r 2 (v.zeroExtend 128))
    | none => none

/-- The thread `k` as `t'` after a write of its pc, which takes effect at resume: a parked one leaves its wait as a withdrawal does
(R289, step 3), while the row of a `NEVAL` still lands and the thread goes on at the pc written (R305; log 21). -/
def State.repoint (s : State) (k : Nat) (t t' : Thread) : State :=
  match t.st with
  | .parked .neval =>
    { s.setThread k t' with ntiles := s.ntiles.map (fun n => { n with rows := n.rows.map (fun r => if r.k = k then { r with len := 0 } else r) }) }
  | .parked (.rendezvous _) => s.setThread k { t' with st := .stopped, tcount := t.tcount - 1 }
  | .parked _ => (s.unpop t).setThread k { t' with st := .stopped, latches := [] }
  | _ => s.setThread k t'

/-- A write of eight bytes to twin (R305). -/
def State.twinWrite (s : State) (off : Nat) (v : BitVec 64) : State :=
  if !s.selStopped then s.refuse
  else match s.selThread with
    | none => s
    | some k =>
      match s.threads[k]? with
      | none => s
      | some t =>
        if 256 + 4 * t.regsN ≤ off then s
        else if ((twinRegs t.regsN off).map (fun r => s.pendCovers k t r || s.pendCovers k t (r + 1))).getD false then s.refuse
        else match t.twinWrite off v with
          | some t' => if off = 0 then s.repoint k t t' else s.setThread k t'
          | none => s.refuse

/-- The eight bytes at an offset of twin. -/
def State.twinRead (s : State) (off : Nat) : Nat :=
  if !s.selStopped then 0
  else match s.selThread.bind (fun k => s.threads[k]?) with
    | none => 0
    | some t => leNat (((threadRecord t (recordState t.st) (freeBytes s.freeCtr 192)).drop off).take 8)

/-- THREAD_WINDOW_WRITE (R305). -/
def execThreadWindowWrite (off : Nat) (v : BitVec 64) (s : State) : Host.Outcome State Fault Refusal :=
  .next (if off % 8 = 0 ∧ off < 0x300 then s.twinWrite off v else s)

/-! ## Power, counters and the Spectrograph's registers -/

/-- A write of budget: clipped, for the selected core (R294). -/
def State.budgetWrite (s : State) (v : BitVec 64) : State :=
  match s.selCore with
  | none => s
  | some c => { s with power := aset s.power c { s.powerOf c with budget := min v.toNat Config.budgetClip } }

/-- A write of bbc i: die 0's counter takes the value, the others zero (R301). -/
def State.bbcWrite (s : State) (i : Nat) (v : BitVec 64) : State :=
  { s with pkg := { s.pkg with bbc := aset ((s.pkg.bbc).filter (fun e => e.1 % 256 ≠ i)) i v } }

/-- The sum of the dies' counters i. -/
def State.bbcRead (s : State) (i : Nat) : BitVec 64 :=
  (List.range 4).foldl (fun v d => v + (aget s.pkg.bbc (256 * d + i)).getD 0) 0

/-- A write of spbase, or of the word that holds splg (R299). -/
def State.ringConfig (s : State) (lg : Bool) (v : BitVec 64) : State :=
  let w := { s.win with sphead := 0, sptail := 0 }
  { s with win :=
      if lg then
        { w with splg := BitVec.ofNat 5 v.toNat, spint := BitVec.ofNat 5 (v.toNat / 2 ^ 8), tagmask := BitVec.ofNat 16 (v.toNat / 2 ^ 16),
                 tagval := BitVec.ofNat 16 (v.toNat / 2 ^ 32) }
      else { w with spbase := v } }

/-- BUDGET_WRITE (R294). -/
def execBudgetWrite (v : BitVec 64) (s : State) : Host.Outcome State Fault Refusal := .next (s.budgetWrite v)

/-- BBC_COUNTER_WRITE (R301). -/
def execBbcCounterWrite (i : BitVec 8) (v : BitVec 64) (s : State) : Host.Outcome State Fault Refusal := .next (s.bbcWrite i.toNat v)

/-- SPECTROGRAPH_RING_CONFIG (R299). -/
def execSpectrographRingConfig (lg : Bool) (v : BitVec 64) (s : State) : Host.Outcome State Fault Refusal := .next (s.ringConfig lg v)

/-! ## The whole window (R294) -/

/-- An 8-byte-aligned write of 8 bytes at an offset of the window. -/
def State.windowWrite (s : State) (off : Nat) (v : BitVec 64) : State :=
  let w := s.win
  let put := fun (w : Win) => { s with win := w }
  if off % 8 ≠ 0 then s
  else if off = 0x008 then (if v.toNat % 4 = 1 then s.resetWrite false else if v.toNat % 4 = 2 then s.resetWrite true else s)
  else if off = 0x010 then put { w with mqbase := v }
  else if off = 0x018 then put { w with mqlg := BitVec.ofNat 4 v.toNat }
  else if off = 0x020 then put { w with mqtail := BitVec.ofNat 32 v.toNat }
  else if off = 0x040 then put { w with attnonce := v }
  else if off = 0x048 then put { w with attout := v }
  else if off = 0x050 then (if v.toNat % 2 = 1 then s.attStart else s)
  else if 0x060 ≤ off ∧ off < 0x080 then put { w with ecc := w.ecc.set ((off - 0x60) / 8 % 4) v (Nat.mod_lt _ (by decide)) }
  else if off = 0x100 then s.ringConfig false v
  else if off = 0x108 then s.ringConfig true v
  else if off = 0x118 then put { w with sptail := BitVec.ofNat 32 v.toNat }
  else if off = 0x120 then put { w with spdrop := BitVec.ofNat 32 v.toNat }
  else if off = 0x200 then
    put { w with die := BitVec.ofNat 2 v.toNat, core := BitVec.ofNat 6 (v.toNat / 2 ^ 8), part := BitVec.ofNat 2 (v.toNat / 2 ^ 16),
                 slot := BitVec.ofNat 9 (v.toNat / 2 ^ 24) }
  else if off = 0x208 then s.dctlWrite v.toNat
  else if off = 0x210 then (if v.toNat / 2 % 2 = 1 then put { w with refused := false } else s)
  else if off = 0x300 then s.budgetWrite v
  else if 0x1000 ≤ off ∧ off < 0x1800 then s.bbcWrite ((off - 0x1000) / 8) v
  else if 0x2000 ≤ off ∧ off < 0x2300 then s.twinWrite (off - 0x2000) v
  else s

/-- CONTROL_WINDOW_WRITE (R294): a write of 8 bytes at its offset, whichever register stands there; a write of any other size is
ignored. -/
def execControlWindowWrite (off : BitVec 16) (v : Option (BitVec 64)) (s : State) : Host.Outcome State Fault Refusal :=
  .next (v.elim s (s.windowWrite off.toNat))

/-- An 8-byte-aligned read of 8 bytes at an offset of the window: what it returns (R294). -/
def State.windowRead (s : State) (off : Nat) : Nat :=
  let w := s.win
  let b : Bool → Nat := fun x => if x then 1 else 0
  let reg := fun (f : Power → Nat) => (s.selCore.map (fun c => f (s.powerOf c))).getD 0
  if off % 8 ≠ 0 then 0
  else if off = 0x000 then w.state.toNat + w.fail.toNat * 2 ^ 8
  else if off = 0x010 then w.mqbase.toNat
  else if off = 0x018 then w.mqlg.toNat
  else if off = 0x020 then w.mqtail.toNat
  else if off = 0x028 then w.mqhead.toNat
  else if off = 0x030 then w.savebase.toNat
  else if off = 0x038 then w.savesize.toNat
  else if off = 0x040 then w.attnonce.toNat
  else if off = 0x048 then w.attout.toNat
  else if off = 0x058 then w.attst.toNat
  else if 0x060 ≤ off ∧ off < 0x080 then (w.ecc[(off - 0x60) / 8 % 4]'(Nat.mod_lt _ (by decide))).toNat
  else if off = 0x100 then w.spbase.toNat
  else if off = 0x108 then w.splg.toNat + w.spint.toNat * 2 ^ 8 + w.tagmask.toNat * 2 ^ 16 + w.tagval.toNat * 2 ^ 32
  else if off = 0x110 then w.sphead.toNat
  else if off = 0x118 then w.sptail.toNat
  else if off = 0x120 then w.spdrop.toNat
  else if off = 0x200 then w.die.toNat + w.core.toNat * 2 ^ 8 + w.part.toNat * 2 ^ 16 + w.slot.toNat * 2 ^ 24
  else if off = 0x210 then b s.selStopped + b w.refused * 2 + s.pendList.length * 2 ^ 8
  else if off = 0x300 then reg (·.budget)
  else if off = 0x308 then reg (·.used.toNat)
  else if off = 0x310 then reg (·.wcycles.toNat)
  else if off = 0x318 then reg (·.deficit)
  else if off = 0x320 then reg (·.overruns.toNat)
  else if 0x400 ≤ off ∧ off < 0x484 then leNat ((List.range 8).map (fun i => if off - 0x400 + i < 132 then Config.idKey (off - 0x400 + i) else 0))
  else if 0x800 ≤ off ∧ off < 0xA00 then ((s.pendList[(off - 0x800) / 8]?).map PendEntry.word).getD 0
  else if 0x1000 ≤ off ∧ off < 0x1800 then (s.bbcRead ((off - 0x1000) / 8)).toNat
  else if 0x2000 ≤ off ∧ off < 0x2300 then s.twinRead (off - 0x2000)
  else 0

/-- A read of `n` bytes of the window: one of other than 8 bytes returns zero (R294). -/
def State.windowLoad (s : State) (off n : Nat) : Nat := if n = 8 then s.windowRead off else 0

/-! ## The Spectrograph (R299) -/

/-- The registers of a source field, whether it is held, by slot (R96). -/
def srcSlots (i : Instr) : List (List Nat × Bool) :=
  let held := fun (y : Src) => match y with | .reg _ h => h | _ => false
  let x := i.ext
  let sh := i.shape
  [(srcRegs sh.a x.a, held x.a), (match x.b with | .src y => (srcRegs sh.b y, held y) | _ => ([], false)), (srcRegs sh.c x.c, held x.c)]

/-- Reads of the busiest of six banks among distinct registers (R96). -/
def busiest (rs : List Nat) : Nat :=
  ((List.range 6).map (fun b => (rs.filter (fun r => r % 6 = b)).length)).foldl max 0

/-- Issue cycles of an instruction, given what the members' operand latches hold (R96). -/
def issueCycles (i : Instr) (kept : List (List Nat)) : Nat :=
  let rs := ((srcSlots i).zipIdx.flatMap (fun e =>
    if e.1.2 && !e.1.1.isEmpty && decide (kept.getD e.2 [] = e.1.1) then [] else e.1.1)).foldl sinsert []
  max 1 (busiest rs)

/-- What the members' operand latches hold at an issue: nothing when a member was not in the partition's last one (R39). -/
def State.keptSlots (s : State) (is : Issue) : List (List Nat) :=
  match aget s.front.last is.part with
  | some l => if is.left.all (fun k => decide (k ∈ l.members)) then l.slots else []
  | none => []

/-- The bytes of a sample record. -/
def State.sampleRecord (s : State) (t : Thread) (is : Issue) (icyc : Nat) : List Byte :=
  let task := (s.tasks[t.task]?.map (fun x => x.num.toNat)).getD 0
  leBytes 8 s.time.toNat ++ leBytes 8 t.pc.toNat ++ leBytes 4 task ++ leBytes 4 t.tid.toNat ++
    leBytes 8 (t.tag.toNat + is.size * 2 ^ 16 + icyc * 2 ^ 24 + is.part % 4 * 2 ^ 26 + is.part / 192 * 2 ^ 28 + is.part / 4 % 48 * 2 ^ 32 +
      min (s.time.toNat - is.since) 0xFFFF * 2 ^ 48)

/-- A sample is written, or dropped when the ring is full (R299). -/
def State.sample (s : State) (bs : List Byte) : State :=
  let w := s.win
  if (w.sphead - w.sptail).toNat = 2 ^ w.splg.toNat then
    { s with win := { w with spdrop := if w.spdrop = 0xFFFFFFFF then w.spdrop else w.spdrop + 1 } }
  else
    let s := s.physWrite (w.spbase.toNat + 32 * (w.sphead.toNat % 2 ^ w.splg.toNat)) bs
    { s with win := { s.win with sphead := w.sphead + 1 } }

/-- The open issue of a partition is counted, and sampled when it is due; it occupies the partition for its issue cycles
(R96). -/
def State.countIssue (s : State) (p : Nat) : State :=
  match s.front.issue with
  | none => s
  | some is =>
    if is.part ≠ p || is.counted then s
    else
      match s.threads[is.lead]? with
      | none => { s with front := { s.front with issue := some { is with counted := true } } }
      | some t =>
        let i? : Option Instr := match s.fetchOf t with | .instr i => some i | .trap _ _ => none
        let kept := s.keptSlots is
        let icyc := (i?.map (fun i => issueCycles i kept)).getD 1
        let left := (i?.map (fun i => (srcSlots i).map (fun e => if e.1.any (fun r => decide (r ∈ i.regsWritten)) then [] else e.1))).getD []
        let hit := (t.tag &&& s.win.tagmask) == s.win.tagval
        let n := (aget s.front.spcount p).getD 0 + (if hit then 1 else 0)
        let due := hit && s.win.spint ≠ 0 && n % 2 ^ s.win.spint.toNat = 0
        let s := { s with front := { s.front with
          issue := some { is with counted := true }, busy := aset s.front.busy p (s.time.toNat + icyc), spcount := aset s.front.spcount p n, last := aset s.front.last p ⟨is.left, left⟩ } }
        if due then s.sample (s.sampleRecord t is icyc) else s

/-- SPECTROGRAPH_SAMPLE (R299). -/
def execSpectrographSample (p : Fin 768) (s : State) : Host.Outcome State Fault Refusal := .next (s.countIssue p.val)

end Sys2Proof.Machine
end

