-- ==== Sys2Proof/Machine/Preempt.lean ====
section
/-! DEFINITION. Pre-emption (R289 to R292): the choice of a victim's section, its stop, the records of the save area, and
the resume of a saved section (R293). -/

namespace Sys2Proof.Machine

/-! ## The section -/

/-- Threads of a task that stand on a core, by index. -/
def State.sectionThreads (s : State) (ti core : Nat) : List Nat :=
  (s.threads.zipIdx.filter (fun e => e.1.task = ti && e.1.core = core && e.1.resident)).map (·.2)

/-- Commands that those threads launched and that are not complete; a collective is not suspended (R290). -/
def State.sectionCmds (s : State) (ti core : Nat) : List Nat :=
  (s.cmds.zipIdx.filter (fun e => e.1.task = ti && e.1.core = core && e.1.inFlight && e.1.kind ≠ .coll)).map (·.2)

/-- Paired commands that run on the core and were launched on its partner: both halves stop together (R290). -/
def State.pairedHere (s : State) (ti core : Nat) : List Nat :=
  (s.cmds.zipIdx.filter (fun e => e.1.task = ti && e.1.core = partnerOf core && e.1.kind = .mma && mPair e.1.block && decide (e.1.st = .running))).map (·.2)

/-- A collective of the section that reads or writes its tile store runs to its completion before the section is saved (R290; log 9). -/
def State.collHere (s : State) (ti core : Nat) : Bool :=
  s.cmds.any (fun c => c.task = ti && c.core = core && c.kind = .coll && c.inFlight &&
    [8, 0x18, 0x20].any (fun o => decide (tileBase ≤ fieldAt c.block o 8)))

/-- A change of each thread of a list. -/
def State.eachThread (s : State) (ks : List Nat) (f : Thread → Thread) : State := ks.foldl (fun s k => s.modThread k f) s

/-! ## The choice (R289) -/

/-- The task has threads on a core. -/
def State.residentOn (s : State) (ti core : Nat) : Bool := s.threads.any (fun u => u.task = ti && u.core = core && u.resident)

/-- Commands of threads that stand on the core, or paired ones of its partner, may still use the contents there (R216, R217). -/
def State.accInUse (s : State) (a : Acc) : Bool := s.residentOn a.task a.core || (a.fed && s.residentOn a.task (partnerOf a.core))

/-- Contents of a name may come to a core: no others that are in use stand there, nor do they themselves elsewhere. -/
def State.accFits (s : State) (ti core name : Nat) : Bool :=
  s.accs.all (fun a => a.task ≠ ti || (decide (a.core = core) == decide (a.base = name)) || !s.accInUse a)

/-- Contents that both cores of a pair write stand in the same half of a pair, with a partner that the coremask allows (R217). -/
def Section.half (sec : Section) (d : Desc) (core : Nat) : Bool := decide (core % 2 = sec.core % 2) && d.allows (partnerOf core)

/-- The accumulators of a section find their place on a core and on its partner, so that every command of the task finds what it would
have found without the pre-emption (R216, R217, R293; log 9). -/
def State.accsFit (s : State) (ti : Nat) (d : Desc) (core : Nat) (sec : Section) : Bool :=
  sec.own.all (fun o => s.accFits ti core o.1 && (!o.2 || sec.half d core)) &&
    sec.pair.all (fun a => s.accFits ti (partnerOf core) a.base && sec.half d core)

/-- A core on which the waiter's next team finds its slots, or its saved section. -/
def State.hasRoom (s : State) (ti : Nat) (t : Task) (core : Nat) : Bool :=
  match t.sections with
  | [] =>
    let size := 2 ^ t.desc.tlog2
    (match t.blend with
      | none => (List.range 4).any (fun p => (List.range (384 / size)).any (fun b => (List.range size).all (fun i => s.slotFree core p (b * size + i))))
      | some _ => (List.range 6).any (fun j => (nextSpots t 0 (64 * j)).all (fun e => s.slotFree core e.2.1 e.2.2)))
  | sec :: _ =>
    let ths := sec.threads.filterMap (fun k => s.threads[k]?)
    (s.tileOf ti core).isNone && s.accsFit ti t.desc core sec && ths.all (fun u =>
      let lo := u.lane / u.tsize * u.tsize
      let have' := (List.range 6).filter (fun j => (List.range u.tsize).all (fun i => s.slotFree core u.part (64 * j + lo + i)))
      decide ((ths.filter (fun v => v.part = u.part && v.lane = u.lane)).length ≤ have'.length))

/-- The waiter finds no qualifying core. -/
def State.stuck (s : State) (w : Nat) (t : Task) : Bool :=
  !(List.range 192).any (fun core => s.mayUse w core && s.mayServe w core && s.hasRoom w t core)

/-- A core whose section a victim can give up: the waiter's coremask allows it, and none of its partitions is stopped (R289, R302). -/
def State.sectionOk (s : State) (t : Task) (v core : Nat) : Bool :=
  t.desc.allows core && s.residentOn v core && (List.range 4).all (fun j => decide (4 * core + j ∉ s.front.stopReq))

/-- The lowest of those cores. -/
def State.sectionCore (s : State) (t : Task) (v : Nat) : Option Nat := (List.range 192).find? (s.sectionOk t v)

/-- One victim is chosen before another: lower effective priority, then later launch. -/
def State.victimBefore (s : State) (a b : Nat) : Bool :=
  let no := fun i => (s.tasks[i]?.map (·.launchNo)).getD 0
  decide (s.effPrio a < s.effPrio b) || (decide (s.effPrio a = s.effPrio b) && decide (no b < no a))

/-- The victim's task and the core of its next section. -/
def State.victim (s : State) (w : Nat) (t : Task) : Option (Nat × Nat) :=
  let cands := (List.range s.tasks.length).filter (fun v =>
    v ≠ w && ((s.tasks[v]?.map Task.live).getD false) && decide (s.effPrio v < s.effPrio w) && (s.sectionCore t v).isSome)
  match cands.foldl (fun (b : Option Nat) v => match b with | none => some v | some u => if s.victimBefore v u then some v else some u) none with
  | none => none
  | some v => (s.sectionCore t v).map (fun c => (v, c))

/-- What a waiter pre-empts. -/
def State.preemptTarget (s : State) (w : Nat) : Option (Nat × Nat) :=
  match s.tasks[w]? with
  | none => none
  | some t => if t.wantsPlace && s.stuck w t then s.victim w t else none

/-- A section that has been asked to stop and is not yet saved. -/
def State.draining (s : State) : Option (Nat × Nat) := (s.threads.find? (fun t => t.resident && t.stopReq)).map (fun t => (t.task, t.core))

/-! ## The stop (R289, steps 1 and 2; R290) -/

/-- A thread of the section at its boundary stops (R35). -/
def State.haltOne (s : State) (k : Nat) : State :=
  match s.threads[k]? with
  | none => s
  | some t => if decide (t.st = .ready) && s.stopsNow t then (s.unfile k).setThread k { t.interrupted with st := .stopped } else s

/-- A thread that has stopped, or waits where a stop can reach it: not in supervisor mode, which its `ERET` must leave first, and
not on a `NEVAL` tile (R283, R289). -/
def Thread.halted (t : Thread) : Bool :=
  match t.st with
  | .stopped => true
  | .trapped => true
  | .parked .neval => false
  | .parked _ => !t.sup
  | _ => false

/-- A read that returned poison is reported at the stop (R288). -/
def State.reportOne (s : State) (k : Nat) : State :=
  match s.threads[k]? with
  | none => s
  | some t => if t.halted && t.pend.any (fun p => p.returned && p.poison.isSome) then s.reportDeferred k t else s

/-- The open Coelostat tiles of the section close (R290). -/
def State.closeTiles (s : State) (ti core : Nat) : State :=
  (List.range s.ntiles.length).foldl (fun s i =>
    match s.ntiles[i]? with
    | some n => if n.live && n.task = ti && n.core = core then s.closeTile i else s
    | none => s) s

/-- Nothing of the section's threads is under way. -/
def State.quiet (s : State) (ks : List Nat) : Bool :=
  ks.all (fun k => (s.threads[k]?.map (fun t => t.halted && t.pend.isEmpty)).getD true)

/-- The lines of a copy that are complete land before it is suspended, so that what stands absent is what it has still
to fill. -/
def State.landDone (s : State) (c : Nat) : State :=
  match s.cmds[c]? with
  | none => s
  | some cmd => cmd.copy.landing.foldl (fun s l => s.landLine c l) s

/-- A command at its stop point (R290): a matrix command between iterations, a sort between passes, a copy at a multiple
of 512 bytes of its execution or between entries. -/
def State.atStop (s : State) (c : Cmd) : Bool :=
  match c.st with
  | .ended => false
  | .running => c.kind ≠ .copy || s.copyAtStop c
  | _ => true

/-- The running copies of the section go on to their stop points. -/
def State.bringCopies (s : State) (cs : List Nat) : State :=
  cs.foldl (fun s c =>
    match s.cmds[c]? with
    | some cmd => if cmd.kind = .copy then (s.copyToBoundary c 512).landDone c else s
    | none => s) s

/-! ## Withdrawal and suspension (R289, steps 3 and 4) -/

/-- A withdrawn thread: an incomplete rendezvous was never arrived at. -/
def Thread.withdrawn (t : Thread) : Thread :=
  let sc := recordState t.st
  let n := match t.st with | .parked (.rendezvous _) => t.tcount - 1 | _ => t.tcount
  { t.interrupted with st := .saved sc.1 sc.2, tcount := n, stopReq := false }

/-- A suspended command, which begins a new wait at a condition; a sort takes up its saved state (R235, R290). A matrix command
of which no iteration has run is saved with its block unchanged, as one that has not started (log 9). -/
def Cmd.suspend (c : Cmd) : Cmd :=
  let fresh := c.kind = .mma && c.mma.first
  { c with
    st := .suspended, leave := c.leave && !fresh, mma := if fresh then { c.mma with vec := [] } else c.mma,
    copy := { c.copy with wait := none }, sort := { c.sort with wrote := false } }

/-! ## The records (R291) -/

/-- The engine record of a suspended command: the kind, whether it has started, its thread, token, histograms, and the copy of its
block or its restart point. -/
def engineRecord (c : Cmd) (tid : Nat) (hist : Nat) : List Byte :=
  let kind := match c.kind with | .mma => 1 | .copy => 2 | _ => 3
  let body : List Byte := match c.kind with
    | .copy => leBytes 8 (c.addr.toNat - tileBase) ++ (resumeEntry c.copy).take 32
    | .mma =>
      if c.mma.vec.isEmpty then c.block
      else
        let b := setBytes c.block 0 (leBytes 8 (fieldAt c.block 0 8 / 2 ^ 15 * 2 ^ 15 + 2 ^ 14 + fieldAt c.block 0 8 % 2 ^ 14))
        c.mma.vec.zipIdx.foldl (fun b e =>
          let o := 0x58 + 8 * e.2
          let v := fieldAt b o 8
          setBytes b o (leBytes 8 (v / 2 ^ 24 * 2 ^ 24 + e.1 % 4096 * 2 ^ 12 + v % 2 ^ 12))) b
    | _ =>
      if c.sort.hist.isEmpty then c.block.take 64
      else setBytes (c.block.take 64) 0 (leBytes 2 (sortMode c.block + 4 + c.sort.passIndex * 256 + (if c.sort.alt then 4096 else 0)))
  let head := leBytes 4 (kind + (if c.leave then 256 else 0)) ++ leBytes 4 tid ++ leBytes 8 c.tok.toNat ++ leBytes 8 hist
  fixBytes 256 (fixBytes 64 head ++ body)

/-- The values of a ring stand in its slots, head first. -/
def ringImage (h : Chan) (img : Store) : Store :=
  h.vals.zipIdx.foldl (fun m e => m.putNat (h.ring + h.width * ((h.head + e.2) % h.depth)) h.width e.1.toNat) img

/-- A channel entry. -/
def chanEntry (cs : List Chan) (n : Nat) : List Byte :=
  match cs.find? (fun h => h.c = n) with
  | none => leBytes 16 0
  | some h => leBytes 4 (h.head + h.vals.length * 2 ^ 16) ++ leBytes 4 h.spill.length ++ leBytes 8 (h.chunks.headD 0)

/-- The presence bitmap of `n` lines, 1 for present. -/
def presenceBytes (absent : List Nat) (n : Nat) : List Byte :=
  (List.range ((n + 7) / 8)).map (fun i => BitVec.ofNat 8 (((List.range 8).map (fun b =>
    if 8 * i + b < n ∧ 8 * i + b ∉ absent then 2 ^ b else 0)).sum))

/-- The accumulator image. -/
def Acc.image (a : Acc) : List Byte := (List.range (Config.accBytes / 4)).flatMap (fun i => leBytes 4 (a.word i).toNat)

/-- For each byte of `n` whether its unit is in a list. -/
def unitFlags (bad : List Nat) (n : Nat) : List Bool := (List.range n).map (fun i => decide (i / 32 ∈ bad))

/-- A number among numbers that rise by a key. -/
def insertBy (key : Nat → Nat) (k : Nat) : List Nat → List Nat
  | [] => [k]
  | j :: l => if key k < key j then k :: j :: l else j :: insertBy key k l

/-- A write into the save area with its poison. -/
def State.saveWrite (s : State) (a : Nat) (bs : List Byte) (bad : List Nat) : State :=
  let s := s.physWrite a bs
  if bad.isEmpty then s else s.homeTaint (physPlace a) (unitFlags bad bs.length)

/-- The directory entry of a task and the links of its headers. -/
def State.writeDirectory (s : State) (ti : Nat) : State :=
  match s.tasks[ti]? with
  | none => s
  | some t =>
    let hs := t.sections.map (·.header)
    let s := s.writeDirEntry t.num.toNat t.sections.length (hs.headD 0)
    (hs.zip (hs.drop 1 ++ [0])).foldl (fun s h => s.physWrite h.1 (leBytes 8 h.2)) s

/-- The thread records of a section, in their order. -/
def State.threadRecords (s : State) (ks : List Nat) (regs : Nat) : List Byte :=
  ks.zipIdx.flatMap (fun e =>
    match s.threads[e.1]? with
    | none => []
    | some u => fixBytes (256 + 4 * regs) (threadRecord { u.withdrawn with regsN := regs } (recordState u.st) (freeBytes (s.freeCtr + 192 * e.2) 192)))

/-- The engine records and histogram copies of a section, from its commands and the addresses of their histograms. -/
def State.engineRecords (s : State) (cs hs : List Nat) (hist : Nat) : List Byte :=
  cs.flatMap (fun c =>
    match s.cmds[c]? with
    | none => []
    | some x => engineRecord x.suspend ((s.threads[x.k]?.map (fun u => u.tid.toNat)).getD 0)
        (match findIdx (fun d => d = c) hs with | some j => hist + histBytes * j | none => 0)) ++
  hs.flatMap (fun c => (s.cmds[c]?.map (fun x => x.sort.hist.flatMap (fun l => l.flatMap (leBytes 4)))).getD [])

/-- The tile image, the presence bitmap and the channel state of an allocation of `n` lines. -/
def State.saveTile (s : State) (base : Nat) (lay : SaveLayout) (a : Tile) (n : Nat) : State :=
  let s := s.saveWrite (base + lay.timg) ((a.chans.foldl (fun m h => ringImage h m) a.mem).read 0 (128 * n)) a.mem.bad
  let s := s.physWrite (base + lay.pres) (presenceBytes a.absent n)
  s.physWrite (base + lay.chan) ((List.range 32).flatMap (chanEntry a.chans))

/-- The accumulator contents of a task leave the cores of a pair; those still in use stay (R217). -/
def State.freeAccs (s : State) (ti core : Nat) : State :=
  { s with accs := s.accs.filter (fun (a : Acc) => a.task ≠ ti || decide (a.core / 2 ≠ core / 2) || (!a.fed && decide (a.core ≠ core)) || s.accInUse a) }

/-- The section leaves its core: the partial sums with addends of its threads are merged, for a thread may resume on another die
(R244), its threads and commands are suspended, its slots, allocation and accumulators freed (R289, steps 3 to 6). -/
def State.leaveCore (s : State) (ti : Nat) (sec : Section) : State :=
  let here := s.pairedHere ti sec.core
  let s := s.mergeWhere (fun e => e.ks.any (fun k => decide (k ∈ sec.threads)))
  let s := s.eachThread sec.threads Thread.withdrawn
  let s := sec.cmds.foldl (fun s c => s.modCmd c Cmd.suspend) s
  let s := here.foldl (fun s c => s.modCmd c (fun x => { x.suspend with st := .queued, head := true })) s
  ({ s with tiles := s.tiles.modify sec.tile (fun (a : Tile) => { a with live := false }) } : State).freeAccs ti sec.core

/-- The section's save records are written and it leaves its core (R289, steps 3 to 6). A pool that has no room keeps the section
where it is (log 9). -/
def State.saveSection (s : State) (ti core : Nat) : State :=
  match s.tasks[ti]?, s.tileOf ti core with
  | some t, some tile =>
    let tid := fun k => (s.threads[k]?.map (fun u => u.tid.toNat)).getD 0
    let ks := (s.sectionThreads ti core).foldl (fun l k => insertBy tid k l) []
    let cs := s.sectionCmds ti core
    let hs := cs.filter (fun c => (s.cmds[c]?.map (fun x => !x.sort.hist.isEmpty)).getD false)
    let regs := ks.foldl (fun m k => max m ((s.threads[k]?.map (·.regsN)).getD 0)) 0
    let acc := s.accOf ti core
    let lay := saveLayout ks.length regs t.desc.tile cs.length hs.length acc.isSome
    if !s.saveRoom lay then s
    else
      let base := s.saveBase
      -- step 3: the values that parked threads had popped stand in their channels before the records are written
      let s := ks.foldl (fun (s : State) k => match s.threads[k]? with | some u => s.unpop u | none => s) s
      let a := (s.tiles[tile]?).getD ⟨ti, core, 0, ⟨[], []⟩, [], [], false⟩
      let sec : Section := ⟨s.serial, base, core, tile, ks, cs, acc.map (fun a => (a.base, a.fed)), (s.accOf ti (partnerOf core)).filter (·.fed), regs, lay,
        (List.range 4).filter (fun j => decide (4 * core + j ∈ s.front.stopReq))⟩
      let recs := s.threadRecords ks regs
      let engs := s.engineRecords cs hs (base + lay.hist)
      let s' := s.physWrite base (sectionHead core ks.length regs t.desc.tile cs.length acc.isSome lay)
      let s' := s'.physWrite (base + lay.thr) recs
      let s' := s'.saveTile base lay a t.desc.tile
      let s' := match acc with | some x => s'.saveWrite (base + lay.aimg) x.image x.bad | none => s'
      let s' := (s'.physWrite (base + lay.eng) engs).leaveCore ti sec
      let s' := { s' with
        pkg := { s'.pkg with saveNext := s'.pkg.saveNext + lay.size }, serial := s'.serial + 1, freeCtr := s'.freeCtr + 192 * ks.length }
      (s'.modTask ti (fun t => { t with sections := t.sections ++ [sec], lastChange := s.time.toNat })).writeDirectory ti
  | _, _ => s

/-- The waves that lose a thread for the first time are counted (R249). -/
def State.countWaves (s : State) (ti : Nat) (ks : List Nat) : State :=
  ks.foldl (fun s k =>
    match s.tasks[ti]?, s.threads[k]? with
    | some t, some u =>
      (match t.blend with
        | none => s
        | some b =>
          let w := u.tid.toNat / b.pix
          if w ∈ b.stopped || u.node.isSome then s
          else
            let s := s.modTask ti (fun x => { x with blend := some { b with stopped := sinsert b.stopped w } })
            if b.stats = 0 then s else s.statAdd t.desc.ptroot (b.stats + 0x38) 4 1)
    | _, _ => s) s

/-- One step of the stop of a section, and its save once everything has come to rest. -/
def State.drainSection (s : State) (ti core : Nat) : State :=
  let ks := s.sectionThreads ti core
  let s := ks.foldl (fun (s : State) k => s.haltOne k) s
  let s := s.closeTiles ti core
  let s := ks.foldl (fun (s : State) k => s.reportOne k) s
  let ks := s.sectionThreads ti core
  if ks.isEmpty || !s.quiet ks || s.collHere ti core then s
  else
    let s := s.bringCopies (s.sectionCmds ti core)
    if (s.sectionCmds ti core).all (fun c => (s.cmds[c]?.map s.atStop).getD true) then (s.countWaves ti ks).saveSection ti core else s

/-! ## The replay kill (R292) -/

/-- A thread of the killed run: exited, without an `EXIT`; it belongs to no team or wave of the run that follows. -/
def Thread.discarded (t : Thread) : Thread :=
  { t with st := .exited, node := some 65536, latches := [], shadow := [], region := none, pend := [], stopReq := false }

/-- The task is killed and begins launch again from its descriptor. A wave that had completed has been counted (R249). Its tenure holds
are gone until it launches again, so that its pages may migrate or change bias meanwhile, on which the manual is silent (log 45). -/
def State.replayKill (s : State) (ti : Nat) : State :=
  match s.tasks[ti]? with
  | none => s
  | some _ =>
    let ks := (s.threads.zipIdx.filter (fun e => e.1.task = ti && e.1.node ≠ some 65536)).map (·.2)
    let s := ks.foldl (fun (s : State) k => (s.unfile k).modThread k Thread.discarded) s
    let s := s.cancelCmds ti
    let s := { s with
      ntiles := s.ntiles.map (fun (n : NTile) => if n.task = ti then { n with live := false, rows := [] } else n)
      tiles := s.tiles.map (fun (a : Tile) => if a.task = ti then { a with live := false, mem := ⟨[], []⟩, absent := [], chans := [] } else a)
      accs := s.accs.filter (fun a => a.task ≠ ti)
      wcache := s.wcache.filter (fun e => e.task ≠ ti) }
    let s := s.modTask ti (fun t => { t with
      phase := .check, param := ⟨[], []⟩, tenure := [], tlb := [], chtab := [], nextTid := 0, exits := 0, tokNext := 0, tokSeq := 1, tokBusy := [],
      graph := none, replayed := true, cause := none, sections := [],
      launchNo := s.serial, chunks := [], desc := parseDesc t.raw })
    { s with serial := s.serial + 1 }.checkLaunch ti

/-- PREEMPT_SECTION: a section that is being stopped goes on; else a waiter with no qualifying core chooses its victim. -/
def State.preemptSection (s : State) (w : Nat) : State :=
  match s.draining with
  | some (ti, core) => s.drainSection ti core
  | none =>
    match s.preemptTarget w with
    | none => s
    | some (ti, core) =>
      if (s.tasks[ti]?.map (fun t => t.desc.replay)).getD false then s.replayKill ti
      else
        let s := s.eachThread (s.sectionThreads ti core) (fun t => { t with stopReq := true })
        s.drainSection ti core

/-- PREEMPT_SECTION (R289). -/
def execPreemptSection (waiter : Nat) (s : State) : Host.Outcome State Fault Refusal := .next (s.preemptSection waiter)

/-! ## Resuming (R293) -/

/-- The slot of a thread on its new core: its home lane is kept (R24). -/
def newSlot (t : Thread) (shift : Nat) : Nat := 64 * shift + t.lane

/-- The slots of a placement are free, each thread's own, and a team's members keep together (R41). -/
def State.resumeFits (s : State) (core : Nat) (ths : List (Thread × Nat)) : Bool :=
  ths.all (fun e => s.slotFree core e.1.part (newSlot e.1 e.2)) &&
    decide ((ths.map (fun e => (e.1.part, newSlot e.1 e.2))).Nodup) &&
    ths.all (fun e => ths.all (fun f =>
      !(decide (1 < e.1.tsize) && e.1.node = f.1.node && decide (e.1.tid.toNat / e.1.tsize = f.1.tid.toNat / f.1.tsize)) || decide (e.2 = f.2)))

/-! ### Step 1: the tile (R293) -/

/-- For each of `n` lines whether its bit of a presence bitmap is clear. -/
def clearLines (bits : List Byte) (n : Nat) : List Nat := (List.range n).filter (fun l => decide ((bits.getD (l / 8) 0).toNat / 2 ^ (l % 8) % 2 = 0))

/-- A channel whose ring stands in a tile image at the place that its entry gives. -/
def Chan.ofImage (h : Chan) (img entry : List Byte) : Chan :=
  let head := fieldAt entry 0 2 % 4096
  { h with
    head := head,
    vals := (List.range (fieldAt entry 2 2 % 8192)).map (fun i => BitVec.ofNat 128 (fieldAt img (h.ring + h.width * ((head + i) % h.depth)) h.width)) }

/-- The allocation of `n` lines as its image, presence bits and channel state stand in the save area. -/
def State.loadTile (s : State) (sec : Section) (n : Nat) (a : Tile) : Tile :=
  let at' := fun off => sec.header + off
  let img := s.physRead (at' sec.lay.timg) (128 * n)
  let cs := s.physRead (at' sec.lay.chan) 512
  { a with
    mem := (Store.put ⟨[], []⟩ 0 img).taint 0 (s.homeTaints (physPlace (at' sec.lay.timg)) (128 * n)),
    absent := clearLines (s.physRead (at' sec.lay.pres) ((n + 7) / 8)) n,
    chans := a.chans.map (fun h => h.ofImage img ((cs.drop (16 * h.c)).take 16)) }

/-! ### Step 2: the accumulators -/

/-- Contents come to a core: those that stand elsewhere, out of use, move; else the latest save has them. -/
def State.bringAcc (s : State) (ti core name : Nat) : State :=
  match ((s.accs.find? (fun a => a.task = ti && a.base = name)).map (fun a => { a with core := core })).or (s.savedAcc ti core name) with
  | none => s
  | some x => { s with accs := s.accs.filter (fun a => a.task ≠ ti || decide (a.core ≠ core ∧ a.base ≠ name)) ++ [x] }

/-- The accumulators come back to the new core, and what its paired commands write to its partner (R217, R219). -/
def State.restoreAccs (s : State) (ti core : Nat) (sec : Section) : State :=
  let s := match sec.own with | some o => s.bringAcc ti core o.1 | none => s
  match sec.pair with
  | some a => s.bringAcc ti (partnerOf core) a.base
  | none => s

/-! ### Steps 4 and 5: the threads -/

/-- The fields of a thread as its record holds them, with `regs` registers; a register in a poisoned unit has an uncorrectable error
(R287). -/
def Thread.ofRecord (t : Thread) (b : List Byte) (bad : List Bool) (regs : Nat) : Thread :=
  let f := fieldAt b
  let high := if regs = 128 then t.regs else writeRegs t.regs 124 (f 0x30 16) 4
  let hit := fun r => let o := if r < regs then 0x100 + 4 * r else 0x30 + 4 * (r - 124)
    (decide (r < regs) || (decide (124 ≤ r) && decide (regs ≠ 128))) && ((bad.drop o).take 4).any id
  { t with
    pc := BitVec.ofNat 64 (f 0 8), tcount := f 0x10 4, left := f 0x14 1 % 2 = 1, lk := BitVec.ofNat 64 (f 0x18 8),
    preds := BitVec.ofNat 7 (f 0x22 1), fmode := BitVec.ofNat 3 (f 0x24 1), fflags := BitVec.ofNat 5 (f 0x25 1),
    shadow := ((List.range (min (f 0x20 2 % 1024) 16)).map (fun i => BitVec.ofNat 64 (f (0x40 + 8 * i) 8))).reverse ++ t.shadow.drop 16,
    trec := (match t.st with
      | .saved 2 _ => Vector.ofFn (fun (i : Fin 8) => BitVec.ofNat 64 (f (0xC0 + 8 * i.val) 8))
      | _ => t.trec),
    regs := writeRegs high 0 (f 0x100 (4 * regs)) regs,
    badRegs := ((List.range 128).filter hit).foldl sinsert t.badRegs }

/-- The thread whose record is number `j` of a section. -/
def State.loadThread (s : State) (sec : Section) (j : Nat) (t : Thread) : Thread :=
  let a := sec.header + sec.lay.thr + j * (256 + 4 * sec.regs)
  t.ofRecord (s.physRead a (256 + 4 * sec.regs)) (s.homeTaints (physPlace a) (256 + 4 * sec.regs)) sec.regs

/-- One thread comes back: Ready and Parked ones are filed at their saved PCs, held ones return to Trapped (R283, R293). -/
def State.resumeThread (s : State) (core : Nat) (sec : Section) (e : (Nat × Nat) × Nat) : State :=
  match s.threads[e.1.1]? with
  | none => s
  | some t =>
    let held := match t.st with | .saved 2 _ => true | _ => false
    let t := s.loadThread sec e.2 t
    let s := s.setThread e.1.1 { t with core := core, slot := newSlot t e.1.2, tag := 0, stopReq := false, st := .trapped }
    if held then s.resumeTrapped e.1.1 else s.file e.1.1 t.pc

/-- The stop requests that reached the section while it was pre-empted apply to its partitions on the new core (R302; log 21). -/
def State.carryStops (s : State) (core : Nat) (sec : Section) : State :=
  { s with front := { s.front with stopReq := sec.stops.foldl (fun l j => sinsert l (4 * core + j)) s.front.stopReq } }

/-- SECTION_RESUME: a saved section on an allowed core, in the order of R293. Its accesses stand behind all that its threads had
seen on the core that was left. -/
def State.sectionResume (s : State) (ti i core : Nat) (shift : List Nat) : State :=
  match s.tasks[ti]? with
  | none => s
  | some t =>
    match t.sections[i]? with
    | none => s
    | some sec =>
      let ths := sec.threads.filterMap (fun k => s.threads[k]?)
      let size := (s.tiles[sec.tile]?.map (·.size)).getD 0
      if !t.live || !t.desc.allows core || (s.tileOf ti core).isSome || decide (Config.tileStoreBytes < s.tileUsed core + size) ||
          !s.mayServe ti core || decide (shift.length ≠ sec.threads.length) || !s.resumeFits core (ths.zip shift) || !s.accsFit ti t.desc core sec then s
      else
        let s := { s with tiles := s.tiles.modify sec.tile (fun (a : Tile) => { s.loadTile sec t.desc.tile a with live := true, core := core }) }
        let s := s.restoreAccs ti core sec
        let s := sec.cmds.foldl (fun s c => s.modCmd c (fun x => if x.st = .suspended then { x with st := .queued, core := core, head := true } else x)) s
        let s := (s.carryStops core sec).syncCore core
        let s := (sec.threads.zip shift).zipIdx.foldl (fun s e => s.resumeThread core sec e) s
        let s := (s.modTask ti (fun t => { t with sections := t.sections.eraseIdx i, lastChange := s.time.toNat })).writeDirectory ti
        if s.tasks.all (fun t => t.sections.isEmpty) then { s with pkg := { s.pkg with saveNext := 0 } } else s

/-- SECTION_RESUME (R293). -/
def execSectionResume (t sec : Nat) (core : Fin 192) (shift : List Nat) (s : State) : Host.Outcome State Fault Refusal :=
  .next (s.sectionResume t sec core.val shift)

end Sys2Proof.Machine
end

