-- ==== Sys2Proof/Machine/Dispatch.lean ====
section
/-! DEFINITION. The meaning of every instruction: one arm per constructor of Instr. -/

namespace Sys2Proof.Machine

/-- The meaning of an instruction or a device event (spec/opcode_table.json). -/
def exec (i : Instr) (s : State) : Host.Outcome State Fault Refusal :=
  match i with
  | .powerOn => Sys2Proof.Machine.execPowerOn s
  | .coldReset => Sys2Proof.Machine.execColdReset s
  | .warmReset => Sys2Proof.Machine.execWarmReset s
  | .boot r => Sys2Proof.Machine.execBoot r s
  | .attestationStart => Sys2Proof.Machine.execAttestationStart s
  | .attestationComplete => Sys2Proof.Machine.execAttestationComplete s
  | .partitionStop => Sys2Proof.Machine.execPartitionStop s
  | .partitionResume => Sys2Proof.Machine.execPartitionResume s
  | .partitionStep => Sys2Proof.Machine.execPartitionStep s
  | .endThread => Sys2Proof.Machine.execEndThread s
  | .release => Sys2Proof.Machine.execRelease s
  | .threadWindowWrite off v => Sys2Proof.Machine.execThreadWindowWrite off v s
  | .budgetWrite v => Sys2Proof.Machine.execBudgetWrite v s
  | .spectrographRingConfig lg v => Sys2Proof.Machine.execSpectrographRingConfig lg v s
  | .bbcCounterWrite n v => Sys2Proof.Machine.execBbcCounterWrite n v s
  | .controlWindowWrite off v => Sys2Proof.Machine.execControlWindowWrite off v s
  | .queueSet => Sys2Proof.Machine.execQueueSet s
  | .queueStop => Sys2Proof.Machine.execQueueStop s
  | .migrate => Sys2Proof.Machine.execMigrate s
  | .migrationComplete => Sys2Proof.Machine.execMigrationComplete s
  | .bias => Sys2Proof.Machine.execBias s
  | .biasFlipComplete => Sys2Proof.Machine.execBiasFlipComplete s
  | .cancel => Sys2Proof.Machine.execCancel s
  | .watchdog => Sys2Proof.Machine.execWatchdog s
  | .mqInvalidCommand => Sys2Proof.Machine.execMqInvalidCommand s
  | .tailStoreRecall q => Sys2Proof.Machine.execTailStoreRecall q s
  | .submissionSlotRead q => Sys2Proof.Machine.execSubmissionSlotRead q s
  | .taskDependencesComplete t => Sys2Proof.Machine.execTaskDependencesComplete t s
  | .tenureGrant t => Sys2Proof.Machine.execTenureGrant t s
  | .teamPlacement t core part slot => Sys2Proof.Machine.execTeamPlacement t core part slot s
  | .taskComplete t => Sys2Proof.Machine.execTaskComplete t s
  | .preemptSection waiter => Sys2Proof.Machine.execPreemptSection waiter s
  | .sectionResume t sec core shift => Sys2Proof.Machine.execSectionResume t sec core shift s
  | .binAgeExpiry p b => Sys2Proof.Machine.execBinAgeExpiry p b s
  | .memoryWaitSplit p g => Sys2Proof.Machine.execMemoryWaitSplit p g s
  | .loadDataReturn k => Sys2Proof.Machine.execLoadDataReturn k s
  | .copyDataLanding c line => Sys2Proof.Machine.execCopyDataLanding c line s
  | .twaitReevaluate k => Sys2Proof.Machine.execTwaitReevaluate k s
  | .twaitTimeout k => Sys2Proof.Machine.execTwaitTimeout k s
  | .channelSpill k => Sys2Proof.Machine.execChannelSpill k s
  | .exitComplete k => Sys2Proof.Machine.execExitComplete k s
  | .nodeBatchLaunch t node core part slots => Sys2Proof.Machine.execNodeBatchLaunch t node core part slots s
  | .nodeBatchTimeout t node core part slots => Sys2Proof.Machine.execNodeBatchTimeout t node core part slots s
  | .watchdogExpiry ts => Sys2Proof.Machine.execWatchdogExpiry ts s
  | .mmaStart core => Sys2Proof.Machine.execMmaStart core s
  | .mmaIteration core => Sys2Proof.Machine.execMmaIteration core s
  | .mmaComplete core => Sys2Proof.Machine.execMmaComplete core s
  | .nevalTileTimeout n => Sys2Proof.Machine.execNevalTileTimeout n s
  | .nevalTileRun n => Sys2Proof.Machine.execNevalTileRun n s
  | .copyStart e => Sys2Proof.Machine.execCopyStart e s
  | .copyRun e => Sys2Proof.Machine.execCopyRun e s
  | .copyCondReevaluate e => Sys2Proof.Machine.execCopyCondReevaluate e s
  | .copyCondTimeout e => Sys2Proof.Machine.execCopyCondTimeout e s
  | .copyBarrierArrival e => Sys2Proof.Machine.execCopyBarrierArrival e s
  | .copyComplete e => Sys2Proof.Machine.execCopyComplete e s
  | .sortStart die => Sys2Proof.Machine.execSortStart die s
  | .sortPass die => Sys2Proof.Machine.execSortPass die s
  | .sortComplete die => Sys2Proof.Machine.execSortComplete die s
  | .collStart die peers => Sys2Proof.Machine.execCollStart die peers s
  | .collComplete die => Sys2Proof.Machine.execCollComplete die s
  | .grcEvictMerge die addr => Sys2Proof.Machine.execGrcEvictMerge die addr s
  | .powerPeriod => Sys2Proof.Machine.execPowerPeriod s
  | .spectrographSample p => Sys2Proof.Machine.execSpectrographSample p s
  | .softError e => Sys2Proof.Machine.execSoftError e s
  | .linkFailure l => Sys2Proof.Machine.execLinkFailure l s
  | .hostMemoryAccess a => Sys2Proof.Machine.execHostMemoryAccess a s
  | .ill w => Sys2Proof.Machine.execIll w s
  | .add o => Sys2Proof.Machine.execAdd o s
  | .addExt x => Sys2Proof.Machine.execAddExt x s
  | .sub o => Sys2Proof.Machine.execSub o s
  | .subExt x => Sys2Proof.Machine.execSubExt x s
  | .mul o => Sys2Proof.Machine.execMul o s
  | .mulExt x => Sys2Proof.Machine.execMulExt x s
  | .mulh o => Sys2Proof.Machine.execMulh o s
  | .mulhExt x => Sys2Proof.Machine.execMulhExt x s
  | .mad x => Sys2Proof.Machine.execMad x s
  | .and o => Sys2Proof.Machine.execAnd o s
  | .andExt x => Sys2Proof.Machine.execAndExt x s
  | .or o => Sys2Proof.Machine.execOr o s
  | .orExt x => Sys2Proof.Machine.execOrExt x s
  | .xor o => Sys2Proof.Machine.execXor o s
  | .xorExt x => Sys2Proof.Machine.execXorExt x s
  | .andn o => Sys2Proof.Machine.execAndn o s
  | .andnExt x => Sys2Proof.Machine.execAndnExt x s
  | .shl o => Sys2Proof.Machine.execShl o s
  | .shlExt x => Sys2Proof.Machine.execShlExt x s
  | .shr o => Sys2Proof.Machine.execShr o s
  | .shrExt x => Sys2Proof.Machine.execShrExt x s
  | .sar o => Sys2Proof.Machine.execSar o s
  | .sarExt x => Sys2Proof.Machine.execSarExt x s
  | .rot o => Sys2Proof.Machine.execRot o s
  | .rotExt x => Sys2Proof.Machine.execRotExt x s
  | .min o => Sys2Proof.Machine.execMin o s
  | .minExt x => Sys2Proof.Machine.execMinExt x s
  | .max o => Sys2Proof.Machine.execMax o s
  | .maxExt x => Sys2Proof.Machine.execMaxExt x s
  | .abs x => Sys2Proof.Machine.execAbs x s
  | .clz x => Sys2Proof.Machine.execClz x s
  | .popc x => Sys2Proof.Machine.execPopc x s
  | .brev x => Sys2Proof.Machine.execBrev x s
  | .bfx x => Sys2Proof.Machine.execBfx x s
  | .bfi x => Sys2Proof.Machine.execBfi x s
  | .sel x => Sys2Proof.Machine.execSel x s
  | .cmp x => Sys2Proof.Machine.execCmp x s
  | .mov o => Sys2Proof.Machine.execMov o s
  | .movExt x => Sys2Proof.Machine.execMovExt x s
  | .movi x => Sys2Proof.Machine.execMovi x s
  | .lea o => Sys2Proof.Machine.execLea o s
  | .leaExt x => Sys2Proof.Machine.execLeaExt x s
  | .addq o => Sys2Proof.Machine.execAddq o s
  | .addqExt x => Sys2Proof.Machine.execAddqExt x s
  | .mulw o => Sys2Proof.Machine.execMulw o s
  | .mulwExt x => Sys2Proof.Machine.execMulwExt x s
  | .div o => Sys2Proof.Machine.execDiv o s
  | .divExt x => Sys2Proof.Machine.execDivExt x s
  | .rem o => Sys2Proof.Machine.execRem o s
  | .remExt x => Sys2Proof.Machine.execRemExt x s
  | .pmov x => Sys2Proof.Machine.execPmov x s
  | .fadd o => Sys2Proof.Machine.execFadd o s
  | .faddExt x => Sys2Proof.Machine.execFaddExt x s
  | .fsub o => Sys2Proof.Machine.execFsub o s
  | .fsubExt x => Sys2Proof.Machine.execFsubExt x s
  | .fmul o => Sys2Proof.Machine.execFmul o s
  | .fmulExt x => Sys2Proof.Machine.execFmulExt x s
  | .ffma x => Sys2Proof.Machine.execFfma x s
  | .fmin o => Sys2Proof.Machine.execFmin o s
  | .fminExt x => Sys2Proof.Machine.execFminExt x s
  | .fmax o => Sys2Proof.Machine.execFmax o s
  | .fmaxExt x => Sys2Proof.Machine.execFmaxExt x s
  | .fcmp x => Sys2Proof.Machine.execFcmp x s
  | .frnd x => Sys2Proof.Machine.execFrnd x s
  | .fcvt x => Sys2Proof.Machine.execFcvt x s
  | .frcp x => Sys2Proof.Machine.execFrcp x s
  | .frsq x => Sys2Proof.Machine.execFrsq x s
  | .fsqrt x => Sys2Proof.Machine.execFsqrt x s
  | .fex2 x => Sys2Proof.Machine.execFex2 x s
  | .flg2 x => Sys2Proof.Machine.execFlg2 x s
  | .fsin x => Sys2Proof.Machine.execFsin x s
  | .fcos x => Sys2Proof.Machine.execFcos x s
  | .fclass x => Sys2Proof.Machine.execFclass x s
  | .nmsel x => Sys2Proof.Machine.execNmsel x s
  | .hadd2 o => Sys2Proof.Machine.execHadd2 o s
  | .hadd2Ext x => Sys2Proof.Machine.execHadd2Ext x s
  | .hmul2 o => Sys2Proof.Machine.execHmul2 o s
  | .hmul2Ext x => Sys2Proof.Machine.execHmul2Ext x s
  | .hfma2 x => Sys2Proof.Machine.execHfma2 x s
  | .hdot2 x => Sys2Proof.Machine.execHdot2 x s
  | .rcvt x => Sys2Proof.Machine.execRcvt x s
  | .radd o => Sys2Proof.Machine.execRadd o s
  | .raddExt x => Sys2Proof.Machine.execRaddExt x s
  | .rmul o => Sys2Proof.Machine.execRmul o s
  | .rmulExt x => Sys2Proof.Machine.execRmulExt x s
  | .bra off => Sys2Proof.Machine.execBra off s
  | .braExt x => Sys2Proof.Machine.execBraExt x s
  | .brc off neg p => Sys2Proof.Machine.execBrc off neg p s
  | .brcExt x => Sys2Proof.Machine.execBrcExt x s
  | .call off => Sys2Proof.Machine.execCall off s
  | .callExt x => Sys2Proof.Machine.execCallExt x s
  | .jmp x => Sys2Proof.Machine.execJmp x s
  | .calli x => Sys2Proof.Machine.execCalli x s
  | .ret x => Sys2Proof.Machine.execRet x s
  | .land => Sys2Proof.Machine.execLand s
  | .reform x => Sys2Proof.Machine.execReform x s
  | .exit x => Sys2Proof.Machine.execExit x s
  | .trap x => Sys2Proof.Machine.execTrap x s
  | .nop => Sys2Proof.Machine.execNop s
  | .nopExt x => Sys2Proof.Machine.execNopExt x s
  | .bbc x => Sys2Proof.Machine.execBbc x s
  | .ld d a off => Sys2Proof.Machine.execLd d a off s
  | .ldExt x => Sys2Proof.Machine.execLdExt x s
  | .st data a off => Sys2Proof.Machine.execSt data a off s
  | .stExt x => Sys2Proof.Machine.execStExt x s
  | .ldc x => Sys2Proof.Machine.execLdc x s
  | .prf x => Sys2Proof.Machine.execPrf x s
  | .lock x => Sys2Proof.Machine.execLock x s
  | .unlock x => Sys2Proof.Machine.execUnlock x s
  | .keyemit x => Sys2Proof.Machine.execKeyemit x s
  | .span x => Sys2Proof.Machine.execSpan x s
  | .gredAdd x => Sys2Proof.Machine.execGredAdd x s
  | .gredRes x => Sys2Proof.Machine.execGredRes x s
  | .wback x => Sys2Proof.Machine.execWback x s
  | .atom x => Sys2Proof.Machine.execAtom x s
  | .abegin x => Sys2Proof.Machine.execAbegin x s
  | .acommit x => Sys2Proof.Machine.execAcommit x s
  | .fence x => Sys2Proof.Machine.execFence x s
  | .fencex x => Sys2Proof.Machine.execFencex x s
  | .twait x => Sys2Proof.Machine.execTwait x s
  | .barexp x => Sys2Proof.Machine.execBarexp x s
  | .bararv x => Sys2Proof.Machine.execBararv x s
  | .tleave x => Sys2Proof.Machine.execTleave x s
  | .tsync x => Sys2Proof.Machine.execTsync x s
  | .xchg x => Sys2Proof.Machine.execXchg x s
  | .xshf x => Sys2Proof.Machine.execXshf x s
  | .xvote x => Sys2Proof.Machine.execXvote x s
  | .xred x => Sys2Proof.Machine.execXred x s
  | .chctl x => Sys2Proof.Machine.execChctl x s
  | .mma x => Sys2Proof.Machine.execMma x s
  | .neval x => Sys2Proof.Machine.execNeval x s
  | .copy x => Sys2Proof.Machine.execCopy x s
  | .sort x => Sys2Proof.Machine.execSort x s
  | .coll x => Sys2Proof.Machine.execColl x s
  | .emit x => Sys2Proof.Machine.execEmit x s
  | .spawn x => Sys2Proof.Machine.execSpawn x s
  | .csrr x => Sys2Proof.Machine.execCsrr x s
  | .csrw x => Sys2Proof.Machine.execCsrw x s
  | .eret x => Sys2Proof.Machine.execEret x s
  | .sysc x => Sys2Proof.Machine.execSysc x s
  | .dbgBrk x => Sys2Proof.Machine.execDbgBrk x s
  | .dbgTag x => Sys2Proof.Machine.execDbgTag x s
  | .plogonRemoteAccess a => Sys2Proof.Machine.execPlogonRemoteAccess a s
  | .readLeaseExpiry core line => Sys2Proof.Machine.execReadLeaseExpiry core line s
  | .hostPortTraining rate width flit => Sys2Proof.Machine.execHostPortTraining rate width flit s

end Sys2Proof.Machine
end

