-- ==== Sys2Proof/Machine/Step.lean ====
section
/-! DEFINITION. One step of the machine (log 1): one member of the open issue, else the next item of the agenda, else
a thread that leaves Parked, else the arbiter's next issue with its first member, else one idle cycle. -/

namespace Sys2Proof.Machine

/-- The first member of an issue executes, or takes the trap of its fetch (R95, R159). -/
def stepMember (s : State) (k : Nat) (t : Thread) : Host.Outcome State Fault Refusal :=
  match s.fetchOf t with
  | .instr i => exec i s
  | .trap e len => .next (State.closeIssue (s.takeTrap k e len t.pc t.pc false))

/-- A step within an open issue: the Spectrograph counts it first (R299), then its members execute. -/
def stepIssue (s : State) (is : Issue) : Host.Outcome State Fault Refusal :=
  if !is.counted then exec (.spectrographSample ⟨is.part % 768, Nat.mod_lt _ (by decide)⟩) s
  else
    match is.left with
    | [] => .next s.closeIssue
    | k :: _ =>
      match s.threads[k]? with
      | none => .next (s.unfile k).closeIssue
      | some t => stepMember s k t

/-- An item of the agenda. -/
def stepItem (s : State) (it : Item) : Host.Outcome State Fault Refusal :=
  match it with
  | .event i => if i.isThread then .next s else exec i s
  | .late b => .next { s with late := b }
  | .fill b => .next { s with fill := b }

/-- Nothing is under way: a thread wakes, an issue opens and its first step is made, or a cycle passes. -/
def stepFront (s : State) : Host.Outcome State Fault Refusal :=
  match s.firstWake with
  | some (k, how) => .next (s.doWake k how)
  | none =>
    match s.arbitrateFrom (s.busyParts s.front.turn) with
    | (s, true) => (match s.front.issue with | some is => stepIssue s is | none => .next s)
    | (s, false) => .next s.tick

/-- One step. -/
def step (s : State) : Host.Outcome State Fault Refusal :=
  match s.front.issue with
  | some is => stepIssue s is
  | none =>
    match s.agenda with
    | it :: rest => stepItem { s with agenda := rest } it
    | [] => stepFront s

/-! ## The instruction that the next step fetches -/

/-- The words stored at the places of a thread's pc. -/
def State.putWords (s : State) (t : Thread) (pc : DWord) : List Word → State
  | [] => s
  | w :: ws =>
    match s.codePlace t pc.toNat with
    | none => s.putWords t (pc + 4) ws
    | some pl => (s.homeWrite pl (leBytes 4 w.toNat)).putWords t (pc + 4) ws

/-- A descriptor that names nothing but one thread with 128 registers and one page of code. -/
def fetchDesc : Desc :=
  { nthreads := 1, regs := 128, tlog2 := 0, prio := 0, replay := false, serial := false, msix := false, cscope := 2,
    stack := 2, age := 64, tile := 0, vector := 0, entry := 0x10000, codebase := 0x10000, codesize := 0x10000, ptroot := 0,
    tenlist := 0, ntenure := 0, pinq := 0, param := 0, nparam := 0, chtab := 0, ovfbase := 0, ovfsize := 0, tokpool := 0,
    ntok := 0, ccount := 0, status := 0, handles := 0, graph := 0, coremask := 0, deps := [0, 0, 0, 0], ndep := 0, sseq := 0 }

/-- A running task whose tenure is its code page, mapped to HBM4E. -/
def fetchTask : Task :=
  { num := 0, queue := none, parent := none, prio := 0, desc := fetchDesc, phase := .running, param := ⟨[], []⟩, tenure := [],
    tlb := [⟨0x10000, 0x10000, 0x10000, false, false, true, false, true⟩], chtab := [], nextTid := 1, exits := 0, tok := none,
    tokNext := 0, tokSeq := 1, tokBusy := [], graph := none, blend := none, replayed := false, cause := none, sections := [],
    lastChange := 0, launchNo := 0, chunks := [], raw := [], tlbRoot := 0 }

/-- The one thread of that task, on die 0, core 0, partition 0, slot 0. -/
def fetchThread (task : Nat) : Thread := newThread task none 0 1 1 0 0 0 128 0x10000 8192

/-- A state in which a thread is about to execute: the open issue's own when there is one, else that of a task loaded
from outside for this purpose (log 13). -/
def State.withFetcher (s : State) : State :=
  match s.front.issue with
  | some is => { s with front := { s.front with issue := some { is with counted := true } } }
  | none =>
    { s with
      tasks := s.tasks ++ [fetchTask]
      threads := s.threads ++ [fetchThread s.tasks.length]
      front := { s.front with issue := some ⟨0, [s.threads.length], [], false, false, s.threads.length, 1, s.time.toNat, true, none⟩ } }

/-- The state whose next step fetches and runs the instruction with the bits `w`, stored at the pc of the thread that
executes next; the bits above `nbits` are zero. -/
def State.withFetchWord (s : State) (nbits w : Nat) : State :=
  let s := s.withFetcher
  match s.front.issue with
  | none => s
  | some is =>
    match is.left with
    | [] => s
    | k :: _ =>
      match s.threads[k]? with
      | none => s
      | some t => s.putWords t t.pc (tableWords (w % 2 ^ nbits))

end Sys2Proof.Machine
end

