-- ==== Sys2Proof/Safety.lean ====
section
/-! DEFINITION. What claims are stated in: the registers that a program sees, the member whose turn it is, when nothing
keeps its instruction from its own effect, what a step leaves unchanged, and what holds of memory in a safe run. -/

namespace Sys2Proof.Machine

/-! ## Registers and bytes -/

/-- The registers that a thread's program, its supervisor and the host see, the program counter apart (R20, R51, R57, R59,
R276, R279, R281, R300). -/
structure Arch where
  regs : Vector Word 128
  preds : BitVec 7
  lk : DWord
  shadow : List DWord
  fmode : BitVec 3
  fflags : BitVec 5
  tag : BitVec 16
  sup : Bool
  trec : Vector DWord 8
  epc : DWord
  hact : BitVec 2
  hscr : Vector DWord 4
  recAddr : DWord
  deriving DecidableEq, Repr

def Thread.arch (t : Thread) : Arch :=
  ⟨t.regs, t.preds, t.lk, t.shadow, t.fmode, t.fflags, t.tag, t.sup, t.trec, t.epc, t.hact, t.hscr, t.recAddr⟩

/-- The registers once a result of a class has reached a destination: a register takes it (a pair or quad its words, the
lowest first), and the latches and channels are no registers (R36, R55). -/
def Arch.write (a : Arch) (d : Dst) (c : Cls) (v : QWord) : Arch :=
  match d with
  | .reg n => { a with regs := writeRegs a.regs n.val (lowCls c v).toNat c.regs }
  | _ => a

/-- The registers once a predicate destination has taken a value; p7 takes none (R57). -/
def Arch.writePred (a : Arch) (p : Nat) (b : Bool) : Arch :=
  if 7 ≤ p then a else { a with preds := if b then a.preds ||| (1#7 <<< p) else a.preds &&& ~~~(1#7 <<< p) }

/-- The registers of thread `j`. -/
def State.archOf (s : State) (j : Nat) : Option Arch := s.threads[j]?.map Thread.arch

/-- Every thread but `k` has the registers that it had. -/
def OthersKept (s s' : State) (k : Nat) : Prop := ∀ j, j ≠ k → s'.archOf j = s.archOf j

/-- The accumulators, the Coelostat's tiles, the commands, the power regulators, the time and the package's and the control
window's registers are as they were. -/
def DeviceKept (s s' : State) : Prop :=
  s'.accs = s.accs ∧ s'.ntiles = s.ntiles ∧ s'.cmds = s.cmds ∧ s'.power = s.power ∧ s'.time = s.time ∧ s'.cycle = s.cycle ∧
    s'.win = s.win ∧ s'.pkg = s.pkg

/-- One byte of a place: device and host memory by physical address, a tile allocation and a thread's stack by offset. -/
def State.byteAt (s : State) (pl : Place) : Byte :=
  match pl with
  | .dev a _ => s.mem.dev.get a
  | .host a => s.mem.host.get a
  | .tile i off => ((s.tiles[i]?.map (fun (a : Tile) => a.mem.get off)).getD 0)
  | .stack k off => ((s.threads[k]?.map (fun (t : Thread) => t.stack.get off)).getD 0)

/-- Every byte of every memory reads as it did. -/
def BytesKept (s s' : State) : Prop := ∀ pl, s'.byteAt pl = s.byteAt pl

/-- The place `j` bytes further on. -/
def Place.plus (pl : Place) (j : Nat) : Place :=
  match pl with
  | .dev a b => .dev (a + j) b
  | .host a => .host (a + j)
  | .tile i off => .tile i (off + j)
  | .stack k off => .stack k (off + j)

/-- The bytes that stand at a place. -/
def State.bytesAt (s : State) (pl : Place) (n : Nat) : List Byte := (List.range n).map (fun (j : Nat) => s.byteAt (pl.plus j))

/-- A byte place lies among the `n` bytes of another place. -/
def Place.within (q pl : Place) (n : Nat) : Prop :=
  match pl, q with
  | .dev p _, .dev a _ => p ≤ a ∧ a < p + n
  | .host p, .host a => p ≤ a ∧ a < p + n
  | .tile i p, .tile j a => i = j ∧ p ≤ a ∧ a < p + n
  | .stack i p, .stack j a => i = j ∧ p ≤ a ∧ a < p + n
  | _, _ => False

/-- Every byte outside `n` bytes of a place reads as it did. -/
def BytesKeptBut (s s' : State) (pl : Place) (n : Nat) : Prop := ∀ q, ¬ q.within pl n → s'.byteAt q = s.byteAt q

/-- A byte of an element that a thread's or an engine's write of `n` bytes at `pl` meets against an addend, with no `FENCEX` that orders
the two: the write leaves the whole element undefined (R245). -/
def State.undefinedBy (s : State) (pl : Place) (n : Nat) (q : Place) : Prop := ∃ e ∈ s.mem.elements pl n, q.within e 16

/-- Such a write has put its bytes at a place; every byte outside them reads as it did, but for what R245 leaves undefined. -/
def StoredBy (s s' : State) (pl : Place) (bs : List Byte) : Prop :=
  (∀ q, ¬ q.within pl bs.length → ¬ s.undefinedBy pl bs.length q → s'.byteAt q = s.byteAt q) ∧
    ∀ (j : Nat) (b : Byte), bs[j]? = some b → ¬ s.undefinedBy pl bs.length (pl.plus j) → s'.byteAt (pl.plus j) = b

/-! ## The member that executes -/

/-- Thread `k`, which stands as `t`, is the first member of the open issue that has still to execute (R159). -/
def State.atTurn (s : State) (k : Nat) (t : Thread) : Prop :=
  s.threads[k]? = some t ∧ ∃ is rest, s.front.issue = some is ∧ is.left = k :: rest

/-- The thread once its instruction counts for the latches' reach (R37). -/
def begun (t : Thread) : Thread := t.ageLatches

/-- What stands before execution in the order of R95 raises nothing and holds nothing back: the term is well formed, its
registers exist (R22), no privilege is missing, no read is reported or awaited (R288), no register that it reads is in
error (R287), and an open region allows it, or none is open and it is no `LD.cmp` (R163, R381). -/
def State.clear (s : State) (k : Nat) (t : Thread) (i : Instr) : Prop :=
  s.atTurn k t ∧ i.wf = true ∧ i.regsOk t.regsN = true ∧ privCheck i t = none ∧
    (begun t).reports i = false ∧ (begun t).blocked i = false ∧ i.regsRead.any (fun r => decide (r ∈ t.badRegs)) = false ∧
    ((t.region = none ∧ cmpOutside i t = false) ∨ (∃ r, t.region = some r ∧ regionAllows i.opc i.ext = true ∧ i.regsRead.any (fun n => decide (n ∈ r.pending)) = false))

/-- The same with the guard true (R57). -/
def State.runs (s : State) (k : Nat) (t : Thread) (i : Instr) : Prop := s.clear k t i ∧ guardOf t i.ext = true

/-- The context in which an instruction with a true guard begins. -/
def ctxOf (k : Nat) (t : Thread) (i : Instr) : Ctx := ⟨k, begun t, i, i.ext, i.shape, true, 0, 0, 0⟩

/-- The state in which it begins: the kinds of R37 end the reach of earlier latch entries. -/
def State.begin (s : State) (k : Nat) (t : Thread) (i : Instr) : State :=
  s.setThread k (if endsReach i.opc i.ext then { begun t with latches := [] } else begun t)

/-- Its operands can be read: `c0` holds its registers, latches, immediate and literal, and `cx` with `s1` what it has once
its channel sources are popped and its push has room (R58). -/
def State.reads (s : State) (k : Nat) (t : Thread) (i : Instr) (c0 cx : Ctx) (s1 : State) : Prop :=
  (ctxOf k t i).fetch = .ok c0 ∧ c0.chanCheck (s.begin k t i) = none ∧ c0.take (s.begin k t i) = .ok (cx, s1)

/-- The state once thread `k` goes on behind its instruction (R27). -/
def goesOn (k : Nat) (t : Thread) (i : Instr) (s' : State) : State :=
  ((s'.modThread k (fun u => { u with pc := t.pc + BitVec.ofNat 64 i.len })).stays k false).closeIssue

/-- The state once thread `k` has taken a transfer to `target` (R27, R37). -/
def goesTo (target : DWord) (k : Nat) (s' : State) : State :=
  ((s'.modThread k (fun u => { u with pc := target, latches := [] })).stays k true).closeIssue

/-- The state once thread `k` has trapped at its instruction, with nothing of it done (R276, R277). -/
def trapsAt (s : State) (k : Nat) (t : Thread) (i : Instr) (e : TrapInfo) : State :=
  (s.takeTrap k e (i.len / 4) t.pc (if e.afterPc then t.pc + BitVec.ofNat 64 i.len else t.pc) false).closeIssue

/-! ## Memory in a safe run -/

/-- Every memory is in its canonical form, so that equal memories are equal data. -/
def State.canonical (s : State) : Prop :=
  s.mem.dev.wf ∧ s.mem.host.wf ∧ (∀ a ∈ s.tiles, a.mem.wf) ∧ (∀ t ∈ s.threads, t.stack.wf)

/-- A safe state: memory is canonical, and the machine goes on from it. -/
def State.safe (s : State) : Prop := s.canonical ∧ ∃ s', step s = .next s'

end Sys2Proof.Machine
end

