-- ==== Sys2Proof/Certificates/Slice0/Obligations.lean ====
section
/-! DEFINITION. The statements for the provers: what the numbered rules of spec/ say that the machine and each of its
instructions do, and the invariant that every step keeps. -/

open Sys2Proof Sys2Proof.Machine

/-! ## The machine -/

/-- A step runs the instruction that stands at the program counter: when an issue has been counted, thread `k` is its
first member still to execute, the words at the thread's pc are mapped executable, hold no poison and can be reached over a link, and they
decode to `i` with the length that their first word gives, then `i` is well formed and the step is the meaning of `i` (R71, R72,
R95, R159). -/
def Obligations.StepRunsDecodedInstruction : Prop :=
  ∀ (s : State) (is : Issue) (k : Nat) (rest : List Nat) (t : Thread) (p : Place) (ps : List Place) (i : Instr),
    s.front.issue = some is → is.counted = true → is.left = k :: rest → s.threads[k]? = some t →
    t.pc.toNat % 4 = 0 →
    (p :: ps).length = lenWords ((s.wordAt p).toNat % 4) →
    (wordAddrs t.pc (p :: ps).length).map (fun a => s.codePlace t a.toNat) = (p :: ps).map some →
    (∀ q ∈ p :: ps, s.homeBad q 4 = false ∧ s.pkg.linkFault q 4 false = none) →
    decode ((p :: ps).map s.wordAt) = .ok i →
    i.wf = true ∧ s.fetchOf t = .instr i ∧ step s = exec i s

/-- A fetch that cannot be made traps before anything is decoded: a pc that is no multiple of 4, and a first word that is not mapped
executable, that no link reaches, or that is poisoned, each with a length of 1 in the record; and of a longer instruction, the first word
that is not mapped executable, or where all are, the first that no link reaches or that is poisoned, with the length that the first
word gives. The detail of a poisoned word is unit 0, that of a failed link its unit, 3 for the second tier, and 4 for Plogon Link (R72, R95, R263,
R267, R275, R286, R287; that a pc which is no multiple of 4 has the length 1 too is the model's choice, log 44). -/
def Obligations.FetchTraps : Prop :=
  ∀ (s : State) (is : Issue) (k : Nat) (rest : List Nat) (t : Thread),
    s.front.issue = some is → is.counted = true → is.left = k :: rest → s.threads[k]? = some t →
    let traps := fun (e : TrapInfo) (n : Nat) => step s = .next (s.takeTrap k e n t.pc t.pc false).closeIssue
    let word := fun (j : Nat) => t.pc + BitVec.ofNat 64 (4 * j)
    let place := fun (j : Nat) => s.codePlace t (word j).toNat
    let fails := fun (j : Nat) (p : Place) (n : Nat) =>
      (∀ u, s.pkg.linkFault p 4 false = some u → traps ⟨0x16, word j, BitVec.ofNat 32 u, 0, false⟩ n) ∧
      (s.pkg.linkFault p 4 false = none → s.homeBad p 4 = true → traps ⟨0x16, word j, 0, 0, false⟩ n)
    let sound := fun (p : Place) => s.pkg.linkFault p 4 false = none ∧ s.homeBad p 4 = false
    (t.pc.toNat % 4 ≠ 0 → traps ⟨0x04, t.pc, 0, 0, false⟩ 1) ∧
    (t.pc.toNat % 4 = 0 →
      (s.codePlace t t.pc.toNat = none → traps ⟨0x05, t.pc, 0, 0, false⟩ 1) ∧
      (∀ p, s.codePlace t t.pc.toNat = some p → fails 0 p 1) ∧
      (∀ p, s.codePlace t t.pc.toNat = some p → sound p →
        let n := lenWords ((s.wordAt p).toNat % 4)
        (∀ j < n, place j = none → (∀ l < j, (place l).isSome = true) → traps ⟨0x05, word j, 0, 0, false⟩ n) ∧
        (∀ j < n, ∀ q, place j = some q → (∀ l < n, (place l).isSome = true) → (∀ l < j, ∀ r, place l = some r → sound r) → fails j q n)))

/-- Nothing stops the machine. Every state has a next one; no instruction is refused, and a thread instruction stops only where no
issue gives it a thread; an issue is counted by the Spectrograph before its first member executes (R299), and a step with no issue open
takes the next item of the agenda (the order of steps is the model's own, log 1). -/
def Obligations.ExecAndStepComplete : Prop :=
  (∀ s : State, ∃ s', step s = .next s') ∧
  (∀ (i : Instr) (s : State),
    (∀ k t, s.atTurn k t → ∃ s', exec i s = .next s') ∧
    (i.isThread = false → ∃ s', exec i s = .next s') ∧
    ((¬ ∃ k t, s.atTurn k t) → i.isThread = true → exec i s = .fault .noIssuingThread)) ∧
  (∀ (s : State) (is : Issue) (h : is.part < 768), s.front.issue = some is → is.counted = false →
    step s = exec (.spectrographSample ⟨is.part, h⟩) s) ∧
  (∀ (s : State) (i : Instr) (rest : List Item), s.front.issue = none → s.agenda = .event i :: rest → i.isThread = false →
    step s = exec i { s with agenda := rest })

/-! ## Encodings -/

/-- Every well-formed thread instruction, with every operand at every value that its encoding admits, is what the decoder
reads from its words (R71 to R79). -/
def Obligations.DecodeOfEncode : Prop := ∀ i : Instr, i.isThread = true → i.wf = true → decode (encode i) = .ok i

/-- Whatever five words decode to is well formed, and its own words are those, so that the decoder drops no bit of them
and no two words of one length have one meaning (R71 to R79, R94). -/
def Obligations.EncodeOfDecode : Prop :=
  ∀ (w0 w1 w2 w3 w4 : Word) (i : Instr), decode [w0, w1, w2, w3, w4] = .ok i →
    i.wf = true ∧ encode i <+: [w0, w1, w2, w3, w4]

/-- Words that the spec itself writes out decode to the instructions that it names; op 0x00 is ILL, in any form and with any other
field, and a reserved op is no instruction (R94). -/
def Obligations.SpecWordsDecode : Prop :=
  (decode [0x00000128] = .ok .nop ∧ decode [0x00000118] = .ok .land ∧
    decode [0x000508CD, 0x000E0000, 0x00000000] =
      .ok (.fclass ⟨.always, false, .reg 4, .reg 5 false, .src (.reg 0 false), .reg 0 false, 0, 0, 0⟩) ∧
    decode [0x0000012D, 0x000E0000, 0x00000003] =
      .ok (.bbc ⟨.always, false, .reg 0, .reg 0 false, .src (.reg 0 false), .reg 0 false, 0, 0, 3⟩) ∧
    decode [0x80110699, 0x006E0000, 0x3E800000] =
      .ok (.fcmp ⟨.always, false, .reg 3, .reg 17 false, .imm, .reg 0 false, 3, 0, 0x3E800000⟩)) ∧
  ∀ w0 w1 w2 w3 w4 : Word,
    (w0.toNat / 4 % 128 = 0 → decode [w0, w1, w2, w3, w4] = .ok (.ill w0)) ∧
    ((0x39 ≤ w0.toNat / 4 % 128 ∧ w0.toNat / 4 % 128 ≤ 0x3F ∨ 0x4C ≤ w0.toNat / 4 % 128 ∧ w0.toNat / 4 % 128 ≤ 0x4F ∨
      0x5A ≤ w0.toNat / 4 % 128 ∧ w0.toNat / 4 % 128 ≤ 0x5F ∨ w0.toNat / 4 % 128 = 0x6F ∨ 0x7C ≤ w0.toNat / 4 % 128) →
      decode [w0, w1, w2, w3, w4] = .illegalOpcode)

/-! ## Memory and reset -/

/-- Every memory is in its canonical form right after reset. -/
def Obligations.ResetCanonical : Prop := State.reset.canonical

/-- Every step keeps every memory in its canonical form: strictly rising addresses, no listed byte that reads as an
unlisted one does, and the poisoned units strictly rising. -/
def Obligations.StepKeepsCanonical : Prop :=
  ∀ s s' : State, s.canonical → step s = .next s' → s'.canonical

/-- Reset leaves every field of the control window at its Reset value and no task, thread or command (R294, R295). -/
def Obligations.ResetWindow : Prop :=
  State.reset.win = Win.reset ∧ State.reset.threads = [] ∧ State.reset.tasks = [] ∧ State.reset.cmds = [] ∧
  (∀ off, off % 8 = 0 → off < 0x400 ∨ 0x800 ≤ off ∧ off < 0x2300 → off ≠ 0x300 → State.reset.windowRead off = 0) ∧
  State.reset.windowRead 0x300 = 140000000

/-! ## The integer class (R83, R84) -/

namespace Sys2Proof.Spec

/-- A single, and a single or pair as a 128-bit operand value. -/
def lo32 (v : QWord) : BitVec 32 := v.setWidth 32
def lo64 (v : QWord) : BitVec 64 := v.setWidth 64
def up32 (v : BitVec 32) : QWord := v.setWidth 128
def up64 (v : BitVec 64) : QWord := v.setWidth 128

/-- The fields S, U and W of func (R83). -/
def sOf (x : ExtOp) : Nat := x.func.toNat / 8 % 4
def uOf (x : ExtOp) : Bool := x.func.getLsbD 2
def wOf (x : ExtOp) : Nat := if x.func.toNat % 4 = 1 then 64 else if x.func.toNat % 4 = 2 then 128 else 32

/-- Signed and unsigned saturation of an exact value (R332). -/
def satS (e : Int) : BitVec 32 := if e < -(2 ^ 31) then 0x80000000 else if 2 ^ 31 - 1 < e then 0x7FFFFFFF else BitVec.ofInt 32 e
def satU (e : Int) : BitVec 32 := if e < 0 then 0 else if 2 ^ 32 - 1 < e then 0xFFFFFFFF else BitVec.ofInt 32 e

/-- `ADD` and `SUB` (R332). -/
def add (x : ExtOp) (a b : QWord) : BitVec 32 :=
  if sOf x = 1 then satS ((lo32 a).toInt + (lo32 b).toInt) else if sOf x = 2 then satU ((lo32 a).toNat + (lo32 b).toNat) else lo32 a + lo32 b
def sub (x : ExtOp) (a b : QWord) : BitVec 32 :=
  if sOf x = 1 then satS ((lo32 a).toInt - (lo32 b).toInt) else if sOf x = 2 then satU ((lo32 a).toNat - (lo32 b).toNat) else lo32 a - lo32 b

/-- The full product of two singles (R388). -/
def prod (u : Bool) (a b : QWord) : BitVec 64 :=
  if u then (lo32 a).setWidth 64 * (lo32 b).setWidth 64 else (lo32 a).signExtend 64 * (lo32 b).signExtend 64

/-- `MAD` (R388). -/
def mad (x : ExtOp) (a b c : QWord) : BitVec 32 :=
  if sOf x = 1 then satS ((lo32 a).toInt * (lo32 b).toInt + (lo32 c).toInt) else lo32 a * lo32 b + lo32 c

/-- One of two operands by a comparison, unsigned or signed (R389). -/
def least (u : Bool) (a b : QWord) : Bool := if u then decide ((lo32 a).toNat ≤ (lo32 b).toNat) else decide ((lo32 a).toInt ≤ (lo32 b).toInt)

/-- `ABS` (R330). -/
def abs (x : ExtOp) (a : QWord) : BitVec 32 :=
  if sOf x = 1 ∧ lo32 a = 0x80000000 then 0x7FFFFFFF else if (lo32 a).msb then -lo32 a else lo32 a

/-- The bits of the low `n` of a value, the most significant first. -/
def bitsDown (v : QWord) (n : Nat) : List Bool := (List.range n).map (fun j => v.getLsbD (n - 1 - j))

/-- Bits from a list, the most significant first. -/
def ofBits (l : List Bool) : Nat := l.foldl (fun v b => 2 * v + b.toNat) 0

/-- Position and width of a bit field (R340). -/
def pos (b : QWord) : Nat := b.toNat % 32
def wid (b : QWord) : Nat := min (b.toNat / 256 % 64) 32

/-- `BFX` (R340). -/
def bfx (x : ExtOp) (a b : QWord) : BitVec 32 :=
  if uOf x then (((lo32 a).setWidth 64 >>> pos b).setWidth (wid b)).setWidth 32
  else ((((lo32 a).signExtend 64) >>> pos b).setWidth (wid b)).signExtend 32

/-- Bit `j` of `BFI` (R341). -/
def bfiBit (a b c : QWord) (j : Nat) : Bool := if pos b ≤ j ∧ j < pos b + wid b then a.getLsbD (j - pos b) else c.getLsbD j

/-- `DIV` and `REM` (R356). -/
def div (u : Bool) (a b : QWord) : BitVec 32 :=
  if lo32 b = 0 then 0xFFFFFFFF else if u then lo32 a / lo32 b else (lo32 a).sdiv (lo32 b)
def rem (u : Bool) (a b : QWord) : BitVec 32 :=
  if lo32 b = 0 then lo32 a else if u then lo32 a % lo32 b else (lo32 a).srem (lo32 b)

/-- The value that an integer instruction writes, from its func and its source values: a, b and c (R83, R330, R332 to
R334, R340, R341, R345, R356, R385, R388, R389, R391, R392, R403, R404). -/
def intResult : Instr → Option (ExtOp → QWord → QWord → QWord → QWord)
  | .add _ | .addExt _ => some (fun x a b _ => up32 (add x a b))
  | .sub _ | .subExt _ => some (fun x a b _ => up32 (sub x a b))
  | .mul _ | .mulExt _ => some (fun _ a b _ => up32 (lo32 a * lo32 b))
  | .mulh _ | .mulhExt _ => some (fun x a b _ => up32 ((prod (uOf x) a b >>> 32).setWidth 32))
  | .mulw _ | .mulwExt _ => some (fun x a b _ => up64 (prod (uOf x) a b))
  | .mad _ => some (fun x a b c => up32 (mad x a b c))
  | .and _ | .andExt _ => some (fun _ a b _ => a &&& b)
  | .or _ | .orExt _ => some (fun _ a b _ => a ||| b)
  | .xor _ | .xorExt _ => some (fun _ a b _ => a ^^^ b)
  | .andn _ | .andnExt _ => some (fun _ a b _ => a &&& ~~~b)
  | .shl _ | .shlExt _ => some (fun _ a b _ => up32 (lo32 a <<< (b.toNat % 32)))
  | .shr _ | .shrExt _ => some (fun _ a b _ => up32 (lo32 a >>> (b.toNat % 32)))
  | .sar _ | .sarExt _ => some (fun _ a b _ => up32 ((lo32 a).sshiftRight (b.toNat % 32)))
  | .rot _ | .rotExt _ => some (fun _ a b _ => up32 (lo32 a <<< (b.toNat % 32) ||| lo32 a >>> (32 - b.toNat % 32)))
  | .min _ | .minExt _ => some (fun x a b _ => if least (uOf x) a b then a else b)
  | .max _ | .maxExt _ => some (fun x a b _ => if least (uOf x) b a then a else b)
  | .abs _ => some (fun x a _ _ => up32 (abs x a))
  | .clz _ => some (fun x a _ _ => BitVec.ofNat 128 ((bitsDown a (wOf x)).takeWhile (fun b => !b)).length)
  | .popc _ => some (fun x a _ _ => BitVec.ofNat 128 ((bitsDown a (wOf x)).filter id).length)
  | .brev _ => some (fun x a _ _ => BitVec.ofNat 128 (ofBits (bitsDown a (wOf x)).reverse))
  | .bfx _ => some (fun x a b _ => up32 (bfx x a b))
  | .bfi _ => some (fun _ a b c => BitVec.ofNat 128 (ofBits ((List.range 32).map (fun j => bfiBit a b c (31 - j)))))
  | .sel _ => some (fun _ a b c => if c = 0 then b else a)
  | .mov _ | .movExt _ => some (fun _ a _ _ => a)
  | .movi _ => some (fun x _ _ _ => if x.func.getLsbD 3 then x.imm.setWidth 128
      else match x.b with | .lit v => v.signExtend 128 | _ => x.imm.signExtend 128)
  | .lea _ | .leaExt _ => some (fun x a b _ =>
      up64 (lo64 a + (if uOf x then (lo32 b).setWidth 64 else (lo32 b).signExtend 64) <<< (x.func.toNat % 4)))
  | .addq _ | .addqExt _ => some (fun _ a b _ => up64 (lo64 a + lo64 b))
  | .div _ | .divExt _ => some (fun x a b _ => up32 (div (uOf x) a b))
  | .rem _ | .remExt _ => some (fun x a b _ => up32 (rem (uOf x) a b))
  | _ => none

/-- `CMP` (R348). -/
def cmp (x : ExtOp) (a b : QWord) : Bool :=
  let n := if x.func.getLsbD 4 then 64 else 32
  let i : Int := if x.func.getLsbD 3 then (a.setWidth n).toNat else (a.setWidth n).toInt
  let j : Int := if x.func.getLsbD 3 then (b.setWidth n).toNat else (b.setWidth n).toInt
  match x.func.toNat % 8 with
  | 0 => i = j
  | 1 => i ≠ j
  | 2 => i < j
  | 3 => i ≤ j
  | 4 => i > j
  | _ => i ≥ j

end Sys2Proof.Spec

/-- Every integer instruction whose sources can be read completes: its destination takes the value that the rules give
from the source values, an immediate b of `ADD` and `SUB` being its 32 bits, and the thread goes on behind it (R332 and the
other rules that `Spec.intResult` names). -/
def Obligations.IntegerResults : Prop :=
  ∀ (s s1 : State) (k : Nat) (t : Thread) (i : Instr) (c0 cx : Ctx) (f : ExtOp → QWord → QWord → QWord → QWord),
    s.runs k t i → s.reads k t i c0 cx s1 → Spec.intResult i = some f →
    exec i s = .next (goesOn k t i (cx.dst s1 (f i.ext cx.va cx.vb cx.vc))) ∧
    ((∃ o, i = .add o ∨ i = .sub o) ∨ (∃ x, i = .addExt x ∨ i = .subExt x) → i.ext.b = .imm → cx.vb = Spec.up32 i.ext.imm) ∧
    (∀ o v, (i = .add o ∨ i = .sub o) → o.b = .imm v → i.ext.b = .imm ∧ i.ext.imm = v.signExtend 32)

/-- `CMP` and the two predicate forms of `PMOV` write a predicate and shift no latch; `PMOV.get` writes the predicates with
p7 as true. p7 reads true, a write to it changes nothing, and a write to another predicate changes that one alone (R57, R348, R397). -/
def Obligations.PredicateInstructions : Prop :=
  (∀ (t : Thread) (b : Bool), t.pred 7 = true ∧ t.setPred 7 b = t ∧
    ∀ p < 7, (t.setPred p b).pred p = b ∧ ∀ q < 8, q ≠ p → (t.setPred p b).pred q = t.pred q) ∧
  ∀ (s s1 : State) (k : Nat) (t : Thread) (x : ExtOp) (c0 cx : Ctx),
    (s.runs k t (.cmp x) → s.reads k t (.cmp x) c0 cx s1 →
      exec (.cmp x) s = .next (goesOn k t (.cmp x) (cx.dstPred s1 (Spec.cmp x cx.va cx.vb)))) ∧
    (s.runs k t (.pmov x) → s.reads k t (.pmov x) c0 cx s1 →
      (x.func.toNat / 16 % 4 = 0 →
        exec (.pmov x) s = .next (goesOn k t (.pmov x) (cx.dstPred s1 (x.func.getLsbD (2 * cx.va.toNat + cx.vb.toNat))))) ∧
      (x.func.toNat / 16 % 4 = 1 →
        exec (.pmov x) s = .next (goesOn k t (.pmov x) (cx.dst s1 (BitVec.ofNat 128 (128 + t.preds.toNat))))) ∧
      (x.func.toNat / 16 % 4 = 2 →
        exec (.pmov x) s = .next (goesOn k t (.pmov x) (s1.modThread k (fun u => { u with preds := cx.va.setWidth 7 })))))

namespace Sys2Proof.Spec

/-- What a source field that is no channel delivers for a data operand: a register its bits (a pair or quad of registers, the
lowest first), and a latch the low bits of an entry that is at most seven instructions old (R36, R37, R55). -/
def delivers (t : Thread) (sh : SrcShape) (y : Src) (v : QWord) : Prop :=
  ∀ c, sh = .data c ∨ sh = .noChan c →
    (∀ n h, y = .reg n h → v = BitVec.ofNat 128 (readRegs t.regs n.val c.regs)) ∧
    (∀ j, y = .latch j → ∃ l, t.latches[j.val]? = some l ∧ l.age ≤ 6 ∧ v = BitVec.ofNat 128 (l.val.toNat % 2 ^ c.bits))

/-- The values of a ring and its spill, oldest first (R194). -/
def Queue (s : State) (t : Thread) (c q : Nat) (vs : List QWord) : Prop := ∃ h, s.chanAt t c = some (q, h) ∧ h.vals ++ h.spill = vs

/-- The source fields of an instruction in the order in which channels are read (R58). -/
def fields (i : Instr) : List (SrcShape × Src) :=
  [(i.shape.a, i.ext.a), (i.shape.b, i.ext.b.src?.getD (.reg 0 false)), (i.shape.c, i.ext.c)]

/-- A field takes, or reads, the head of channel `n`. -/
def pops (n : Fin 32) (e : SrcShape × Src) : Bool := match e with | (.data _, .pop m) => m = n | _ => false
def peeks (n : Fin 32) (e : SrcShape × Src) : Bool := match e with | (.data _, .peek m) => m = n | _ => false

/-- What the fields that name a channel deliver from its values, and the values that are left: a pop takes the head, a peek reads the
head that stands at its place in the order (R58). -/
def draw (n : Fin 32) : List (SrcShape × Src) → List QWord → List (Option QWord) × List QWord
  | e :: l, v :: vs =>
    if pops n e then (some v :: (draw n l vs).1, (draw n l vs).2)
    else ((if peeks n e then some v else none) :: (draw n l (v :: vs)).1, (draw n l (v :: vs)).2)
  | _ :: l, [] => (none :: (draw n l []).1, [])
  | [], vs => ([], vs)

end Sys2Proof.Spec

/-- What the operands are, of an instruction whose operands can be read: registers, latches, an immediate sign-extended to the width
of source b (`BAREXP`, `BARARV` and `MOVI.zx` zero-extend theirs, as the statements of barriers and of integer results say), the literal,
and a channel's oldest entry, which a pop takes and a peek leaves, for every channel that is named, in the order of the fields a, b and c
where several name it (R36, R55, R58, R77, R79, R194, R338, R392). -/
def Obligations.SourceOperands : Prop :=
  ∀ (s s1 : State) (k : Nat) (t : Thread) (i : Instr) (c0 cx : Ctx), s.runs k t i → s.reads k t i c0 cx s1 →
    Spec.delivers t i.shape.a i.ext.a cx.va ∧ Spec.delivers t i.shape.c i.ext.c cx.vc ∧
    (∀ y, i.ext.b = .src y → Spec.delivers t i.shape.b y cx.vb) ∧
    (i.ext.b = .imm → (∀ x, i ≠ .barexp x ∧ i ≠ .bararv x ∧ (i = .movi x → x.func.getLsbD 3 = false)) → cx.vb = BitVec.ofNat 128 ((i.ext.imm.signExtend 128).toNat % 2 ^ i.shape.b.cls.bits)) ∧
    (∀ v, i.ext.b = .lit v → cx.vb = BitVec.ofNat 128 ((v.signExtend 128).toNat % 2 ^ i.shape.b.cls.bits)) ∧
    (∀ (c : Cls) (n : Fin 32) (q : Nat) (v : QWord) (rest : List QWord), i.shape.a = .data c → (∀ y m, i.ext.b = .src y → y ≠ .pop m) → (∀ m, i.ext.c ≠ .pop m) →
      Spec.Queue s t n.val q (v :: rest) →
      (i.ext.a = .pop n → cx.va = v ∧ Spec.Queue s1 t n.val q rest) ∧ (i.ext.a = .peek n → cx.va = v ∧ Spec.Queue s1 t n.val q (v :: rest))) ∧
    (∀ (n : Fin 32) (q : Nat) (vs : List QWord), Spec.Queue s t n.val q vs →
      Spec.Queue s1 t n.val q (Spec.draw n (Spec.fields i) vs).2 ∧
      ∀ (j : Nat) (v : QWord), (Spec.draw n (Spec.fields i) vs).1[j]? = some (some v) → [cx.va, cx.vb, cx.vc][j]? = some v)

/-- What a value's destination changes: of the registers of the thread those that field d names, which then read as the low
bits of the value in the class's width (a pair or quad of registers, the lowest first), and nothing for the latch and for a
push; nothing of another thread, and no byte of any memory; the value becomes latch y0, the three before it moving up; and a push
appends it to its channel (R36, R55, R58, R194). -/
def Obligations.DestinationTakesResult : Prop :=
  ∀ (cx : Ctx) (s : State) (v : QWord) (t : Thread), s.threads[cx.k]? = some t →
    (cx.dst s v).archOf cx.k = some (t.arch.write cx.x.d cx.sh.d.cls v) ∧
    OthersKept s (cx.dst s v) cx.k ∧ BytesKept s (cx.dst s v) ∧
    (∀ n : Fin 128, cx.x.d = .reg n → n.val + cx.sh.d.cls.regs ≤ 128 →
      readRegs (t.arch.write cx.x.d cx.sh.d.cls v).regs n.val cx.sh.d.cls.regs = v.toNat % 2 ^ cx.sh.d.cls.bits ∧
      ∀ m : Fin 128, m.val < n.val ∨ n.val + cx.sh.d.cls.regs ≤ m.val →
        (t.arch.write cx.x.d cx.sh.d.cls v).regs[m] = t.regs[m]) ∧
    (cx.dst s v).threads[cx.k]?.map (fun u => u.latches) =
      some (⟨lowCls cx.sh.d.cls v, 0, match cx.x.d with | .reg _ => false | .latchOnly => true | .push _ n1 => n1, none⟩ :: t.latches.take 3) ∧
    (∀ (n : Fin 32) (n1 : Bool) (q : Nat) (vs : List QWord), cx.x.d = .push n n1 → Spec.Queue s cx.t n.val q vs →
      (s.pushChan cx.t n.val 0).isSome = true → Spec.Queue (cx.dst s v) cx.t n.val q (vs ++ [lowCls cx.sh.d.cls v]))

/-! ## The float, paired-half and residue classes (R85 to R87) -/

namespace Sys2Proof.Spec

/-- The value functions of the float, paired-half and residue instructions that have a rounding or raise flags (R104,
R107, R108, R110, R117, R118, R361, R364, R366, R369 to R371, R374, R400). -/
def floatResult : Instr → Option (Ctx → Nat × FFlags)
  | .fadd _ | .faddExt _ => some faddVal
  | .fsub _ | .fsubExt _ => some fsubVal
  | .fmul _ | .fmulExt _ => some fmulVal
  | .ffma _ => some ffmaVal
  | .fmin _ | .fminExt _ => some fminVal
  | .fmax _ | .fmaxExt _ => some fmaxVal
  | .frnd _ => some frndVal
  | .fcvt _ => some fcvtVal
  | .frcp _ => some frcpVal
  | .frsq _ => some frsqVal
  | .fsqrt _ => some fsqrtVal
  | .fex2 _ => some fex2Val
  | .flg2 _ => some flg2Val
  | .fsin _ => some fsinVal
  | .fcos _ => some fcosVal
  | .hadd2 _ | .hadd2Ext _ => some hadd2Val
  | .hmul2 _ | .hmul2Ext _ => some hmul2Val
  | .hfma2 _ => some hfma2Val
  | .hdot2 _ => some hdot2Val
  | .rcvt _ => some rcvtVal
  | .radd _ | .raddExt _ => some raddVal
  | .rmul _ | .rmulExt _ => some rmulVal
  | _ => none

/-! ### FP32 by its bits (R99), without the model's own reading of it -/

def isNan (w : Word) : Bool := decide (w.extractLsb' 23 8 = 255 ∧ w.extractLsb' 0 23 ≠ 0)
def isSnan (w : Word) : Bool := isNan w && !w.getLsbD 22
def isInf (w : Word) : Bool := decide (w.extractLsb' 23 8 = 255 ∧ w.extractLsb' 0 23 = 0)
def isZero (w : Word) : Bool := decide (w.extractLsb' 0 31 = 0)
def isSub (w : Word) : Bool := decide (w.extractLsb' 23 8 = 0 ∧ w.extractLsb' 0 23 ≠ 0)

/-- A binary format of R99: exponent and fraction bits. -/
structure Format where
  ebits : Nat
  fbits : Nat

def single : Format := ⟨8, 23⟩
def half : Format := ⟨5, 10⟩
def brain : Format := ⟨8, 7⟩

/-- Infinity, the canonical NaN and the sign bit's place value (R99). -/
def Format.inf (f : Format) : Nat := (2 ^ f.ebits - 1) * 2 ^ f.fbits
def Format.nan (f : Format) : Nat := f.inf + 2 ^ (f.fbits - 1)
def Format.top (f : Format) : Nat := 2 ^ (f.ebits + f.fbits)

/-- The magnitude of a code without its sign; that of the infinity code is the place that it takes on the scale. -/
def Format.mag (f : Format) (m : Nat) : ℚ :=
  if m < 2 ^ f.fbits then m * (2 : ℚ) ^ (2 - 2 ^ (f.ebits - 1) - f.fbits : Int)
  else (2 ^ f.fbits + m % 2 ^ f.fbits : Nat) * (2 : ℚ) ^ ((m / 2 ^ f.fbits : Nat) + 1 - 2 ^ (f.ebits - 1) - f.fbits : Int)

/-- The value of a finite FP32 code. -/
def val32 (w : Word) : ℚ := (if w.msb then -1 else 1) * single.mag (w.extractLsb' 0 31).toNat

/-- The preparation of an operand (R354): flush, absolute value, negation. -/
def arg (t : Thread) (abs neg : Bool) (v : QWord) : Word :=
  let w := lo32 v
  let w := if t.fmode.getLsbD 2 && isSub w then w &&& 0x80000000 else w
  let w := if abs then w &&& 0x7FFFFFFF else w
  if neg then w ^^^ 0x80000000 else w

def argA (cx : Ctx) : Word := arg cx.t (cx.x.func.getLsbD 1) (cx.x.func.getLsbD 0) cx.va
def argB (cx : Ctx) : Word := arg cx.t (cx.x.func.getLsbD 3) (cx.x.func.getLsbD 2) cx.vb
def argC (cx : Ctx) : Word := arg cx.t (cx.x.func.getLsbD 5) (cx.x.func.getLsbD 4) cx.vc

/-- The rounding mode: 0 RNE, 1 RTZ, 2 RUP, 3 RDN (R85, R101). -/
def rm (cx : Ctx) : Nat := if cx.x.mod.toNat % 8 = 0 then cx.t.fmode.toNat % 4 else cx.x.mod.toNat % 8 - 1

/-- A code of a format is the rounding of an exact value in a mode (R101, R102); a zero has the given sign. -/
def roundsIn (f : Format) (mode : Nat) (q : ℝ) (z : Bool) (c : Nat) : Prop :=
  ∃ (neg : Bool) (m : Nat), c = (if neg then f.top else 0) + m ∧ (q = 0 → m = 0 ∧ neg = z) ∧
    (q ≠ 0 → (neg = true ↔ q < 0) ∧
      (mode = 0 → m ≤ f.inf ∧
        (m < f.inf → 2 * |q| < f.mag m + f.mag (m + 1) ∨ 2 * |q| = f.mag m + f.mag (m + 1) ∧ m % 2 = 0) ∧
        (0 < m → f.mag (m - 1) + f.mag m < 2 * |q| ∨ f.mag (m - 1) + f.mag m = 2 * |q| ∧ m % 2 = 0)) ∧
      (mode = 1 ∨ mode = 2 ∧ q < 0 ∨ mode = 3 ∧ 0 < q →
        m < f.inf ∧ f.mag m ≤ |q| ∧ (m + 1 < f.inf → |q| < f.mag (m + 1))) ∧
      (mode = 2 ∧ 0 < q ∨ mode = 3 ∧ q < 0 →
        m ≤ f.inf ∧ 0 < m ∧ f.mag (m - 1) < |q| ∧ (m < f.inf → |q| ≤ f.mag m)))

/-- The same for an FP32 code. -/
def rounds (mode : Nat) (q : ℝ) (z : Bool) (w : Word) : Prop := roundsIn single mode q z w.toNat

/-- A value: a NaN (whether signalling), an infinity, or a finite one with the sign that its zero has. -/
inductive Val where
  | nan (sig : Bool)
  | inf (neg : Bool)
  | fin (neg : Bool) (q : ℚ)

/-- The value of a code (R99). -/
def Format.read (f : Format) (c : Nat) : Val :=
  let neg := decide (c / f.top % 2 = 1)
  let m := c % f.top
  if f.inf < m then .nan (decide (m < f.nan)) else if m = f.inf then .inf neg else .fin neg (if neg then -f.mag m else f.mag m)

/-- A subnormal code, a zero apart, under ftz is the zero of its sign (R105). -/
def Format.flushed (f : Format) (ftz : Bool) (c : Nat) : Nat :=
  if ftz ∧ c % f.top < 2 ^ f.fbits then c - c % f.top else c

def Val.negate : Val → Val
  | .nan g => .nan g
  | .inf n => .inf (!n)
  | .fin n q => .fin (!n) (-q)

def Val.isNan : Val → Bool
  | .nan _ => true
  | _ => false

def Val.signals : Val → Bool
  | .nan g => g
  | _ => false

def Val.isInf (neg : Bool) : Val → Bool
  | .inf n => n == neg
  | _ => false

def Val.neg : Val → Bool
  | .nan _ => false
  | .inf n => n
  | .fin n _ => n

def Val.num : Val → ℚ
  | .fin _ q => q
  | _ => 0

/-- Infinities of opposite signs among the terms of a sum, and zero times infinity (R106). -/
def clash (l : List Val) : Bool := l.any (Val.isInf true) && l.any (Val.isInf false)
def zeroInf (x y : Val) : Bool :=
  match x, y with
  | .inf _, .fin _ q => decide (q = 0)
  | .fin _ q, .inf _ => decide (q = 0)
  | _, _ => false

/-- The exact sum of some values: a zero sum of terms that do not all have one sign is negative in RDN alone (R103, R104, R106). -/
def sumOf (mode : Nat) (l : List Val) : Val :=
  if l.any Val.isNan || clash l then .nan false
  else if l.any (Val.isInf true) then .inf true
  else if l.any (Val.isInf false) then .inf false
  else
    let q := (l.map Val.num).sum
    .fin (if q ≠ 0 then decide (q < 0) else if l.all Val.neg then true else l.any Val.neg && decide (mode = 3)) q

/-- The exact product of two values. -/
def mulOf (x y : Val) : Val :=
  if x.isNan || y.isNan || zeroInf x y then .nan false
  else if x.isInf true || x.isInf false || y.isInf true || y.isInf false then .inf (x.neg != y.neg)
  else .fin (x.neg != y.neg) (x.num * y.num)

/-- In a mode the magnitude of the exact value is to be rounded away from zero; toward zero. -/
def away (mode : Nat) (q : ℝ) : Prop := mode = 2 ∧ 0 < q ∨ mode = 3 ∧ q < 0
def toward (mode : Nat) (q : ℝ) : Prop := mode = 1 ∨ mode = 2 ∧ q < 0 ∨ mode = 3 ∧ 0 < q

/-- of: the magnitude, rounded to nearest or in the mode as if the exponent range were unbounded, exceeds the largest finite value
(R102, R106; that to nearest counts in the other modes too is log 12). -/
def overflows (f : Format) (mode : Nat) (q : ℝ) : Prop :=
  f.mag (f.inf - 1) + f.mag f.inf ≤ 2 * |q| ∨ away mode q ∧ f.mag (f.inf - 1) < |q|

/-- Tiny: it is not zero, and its magnitude, rounded so, is below the smallest normal value, under which the unbounded codes stand half
as far apart as the subnormal ones (R106). -/
def tiny (f : Format) (mode : Nat) (q : ℝ) : Prop :=
  q ≠ 0 ∧ (mode = 0 → |q| < f.mag (2 ^ f.fbits) - f.mag 1 / 4) ∧ (toward mode q → |q| < f.mag (2 ^ f.fbits)) ∧
    (away mode q → |q| ≤ f.mag (2 ^ f.fbits) - f.mag 1 / 2)

/-- The flags of, uf and nx of a value rounded to the code `r` and delivered as `c`: uf where it is tiny and inexact, or flushed (R105,
R106). -/
def raises (f : Format) (mode : Nat) (q : ℝ) (r c : Nat) (exactly : Prop) (fl : FFlags) : Prop :=
  (fl.getLsbD 2 = true ↔ overflows f mode q) ∧ (fl.getLsbD 3 = true ↔ tiny f mode q ∧ ¬ exactly ∨ c ≠ r) ∧ (fl.getLsbD 4 = false ↔ exactly)

/-- A code and flags are what a value is delivered as: the canonical NaN, the infinity, or the value rounded once and flushed under
ftz, with nx exactly when it is not what is written, of where it overflows and uf where it is tiny and inexact or flushed; nv as given,
and dz not raised (R99 to R102, R105, R106). -/
def writes (f : Format) (mode : Nat) (ftz : Bool) (v : Val) (nv : Bool) (c : Nat) (fl : FFlags) : Prop :=
  fl.getLsbD 0 = nv ∧ fl.getLsbD 1 = false ∧
    match v with
    | .nan _ => c = f.nan ∧ fl &&& 0x1C = 0
    | .inf n => c = (if n then f.top else 0) + f.inf ∧ fl &&& 0x1C = 0
    | .fin z q => ∃ r, roundsIn f mode (q : ℝ) z r ∧ c = f.flushed ftz r ∧ raises f mode q r c (∃ n, f.read c = .fin n q) fl

/-- An element of a paired-half operand (R86, R374): the format, and the element flushed under ftz and negated. -/
def halfFormat (cx : Ctx) : Format := if cx.x.func.getLsbD 0 then brain else half
def element (cx : Ctx) (v : QWord) (e sel : Nat) : Val :=
  let x := (halfFormat cx).read ((halfFormat cx).flushed (cx.t.fmode.getLsbD 2) (v.toNat / 2 ^ (16 * e) % 65536))
  if cx.x.func.getLsbD sel then x.negate else x

/-- What `HADD2`, `HMUL2` and `HFMA2` compute for an element, and whether that is invalid (R104, R374). -/
def pairOp (mode : Nat) : Instr → Option (Val → Val → Val → Val × Bool)
  | .hadd2 _ | .hadd2Ext _ => some (fun x y _ => (sumOf mode [x, y], clash [x, y] || x.signals || y.signals))
  | .hmul2 _ | .hmul2Ext _ => some (fun x y _ => (mulOf x y, zeroInf x y || x.signals || y.signals))
  | .hfma2 _ => some (fun x y z =>
      (sumOf mode [mulOf x y, z], zeroInf x y || clash [mulOf x y, z] || x.signals || y.signals || z.signals))
  | _ => none

/-- The value that a format code of `FCVT` reads (R85, R110, R112, R366). -/
def eightRead (ebits fbits bias : Nat) (c : Nat) : Val :=
  if c % 256 = 0 then .fin false 0
  else if c % 256 = 0x80 then .nan false
  else
    let n := decide (128 ≤ c % 256)
    .fin n ((if n then -1 else 1) * (1 + (c % 2 ^ fbits : Nat) / 2 ^ fbits) * (2 : ℚ) ^ ((c / 2 ^ fbits % 2 ^ ebits : Nat) - bias : Int))
def source (code : Nat) (ftz : Bool) (w : Word) : Val :=
  match code with
  | 0 => single.read (single.flushed ftz w.toNat)
  | 1 => half.read (half.flushed ftz (w.toNat % 65536))
  | 2 => brain.read (brain.flushed ftz (w.toNat % 65536))
  | 3 => eightRead 4 3 7 w.toNat
  | 4 => eightRead 5 2 15 w.toNat
  | 5 => .fin w.msb w.toInt
  | _ => .fin false w.toNat

/-- A conversion into F8A or F8B: the nearest code, of two that are equally near the even one; a NaN gives 0x80 with nv, an infinity
the largest value of its sign with nx (R113). -/
def eight (ebits fbits bias : Nat) (v : Val) (c : Nat) (fl : FFlags) : Prop :=
  match v with
  | .nan _ => c = 0x80 ∧ fl = 0x01
  | .inf n => c = (if n then 0xFF else 0x7F) ∧ fl = 0x10
  | .fin _ q =>
    let least := (eightRead ebits fbits bias 0x01).num
    let most := (eightRead ebits fbits bias 0x7F).num
    let val := fun (d : Nat) => (eightRead ebits fbits bias d).num
    c < 256 ∧ c ≠ 0x80 ∧
      (∀ d < 256, d ≠ 0x80 → d ≠ c → |val c - q| < |val d - q| ∨ |val c - q| = |val d - q| ∧ c % 2 = 0) ∧
      fl = (if most < |q| then 0x14 else if val c = q then 0 else if |q| < least then 0x18 else 0x10)

/-- The integer that a value rounds to in a mode (R101). -/
def toWhole (mode : Nat) (q : ℚ) : Int :=
  match mode with
  | 0 => if q - ⌊q⌋ < 1 / 2 ∨ q - ⌊q⌋ = 1 / 2 ∧ ⌊q⌋ % 2 = 0 then ⌊q⌋ else ⌊q⌋ + 1
  | 1 => if q < 0 then ⌈q⌉ else ⌊q⌋
  | 2 => ⌈q⌉
  | _ => ⌊q⌋

/-- A conversion into S32 or U32 (R111). -/
def whole (mode : Nat) (lo hi : Int) (v : Val) : Word × FFlags :=
  match v with
  | .nan _ => (0, 1)
  | .inf n => (BitVec.ofInt 32 (if n then lo else hi), 1)
  | .fin _ q =>
    let i := toWhole mode q
    if i < lo then (BitVec.ofInt 32 lo, 1) else if hi < i then (BitVec.ofInt 32 hi, 1)
    else (BitVec.ofInt 32 i, if (i : ℚ) = q then 0 else 0x10)

/-- `FMIN` and `FMAX`: −0 below +0, a NaN yields to the other operand, nothing is rounded (R107). -/
def place (w : Word) : Int := if w.msb then -((w.extractLsb' 0 31).toNat : Int) - 1 else (w.extractLsb' 0 31).toNat
def extreme (greatest : Bool) (a b : Word) : Word :=
  if isNan a && isNan b then 0x7FC00000 else if isNan a then b else if isNan b then a
  else if decide (place a < place b) != greatest then a else b

/-- The exact value of an arithmetic instruction on finite operands, and the sign of the result where that value is zero
(R103, R104). -/
def exact (i : Instr) (cx : Ctx) : Option (ℚ × Bool) :=
  let fin := fun (w : Word) => !isNan w && !isInf w
  let a := argA cx
  let b := argB cx
  let c := argC cx
  let sum := fun (x y : ℚ) (sx sy : Bool) => some (x + y, if sx = sy then sx else decide (rm cx = 3))
  match i with
  | .fadd _ | .faddExt _ => if fin a && fin b then sum (val32 a) (val32 b) a.msb b.msb else none
  | .fsub _ | .fsubExt _ => if fin a && fin b then sum (val32 a) (-val32 b) a.msb (!b.msb) else none
  | .fmul _ | .fmulExt _ => if fin a && fin b then some (val32 a * val32 b, a.msb != b.msb) else none
  | .ffma _ => if fin a && fin b && fin c then sum (val32 a * val32 b) (val32 c) (a.msb != b.msb) c.msb else none
  | _ => none

/-- The class of an FP32 code (R85): 0 NaN, 1 −∞, 2 negative, 3 zero, 4 positive, 5 +∞. -/
def classOf (w : Word) : Nat :=
  if isNan w then 0 else if isInf w then (if w.msb then 1 else 5) else if isZero w then 3 else if w.msb then 2 else 4

/-- Codes in the order of their values, both zeros as one. -/
def key (w : Word) : Int := if w.msb then -((w.extractLsb' 0 31).toNat : Int) else (w.extractLsb' 0 31).toNat

/-- `FCMP` (R107, R363). -/
def fcmp (cc : Nat) (a b : Word) : Bool :=
  let un := isNan a || isNan b
  match cc with
  | 0 => !un && key a = key b
  | 1 => un || key a ≠ key b
  | 2 => !un && key a < key b
  | 3 => !un && key a ≤ key b
  | 4 => !un && key a > key b
  | 5 => !un && key a ≥ key b
  | 6 => un
  | _ => !un

/-- nv of `FCMP` (R106). -/
def fcmpNv (cc : Nat) (a b : Word) : Bool := isSnan a || isSnan b || (decide (2 ≤ cc ∧ cc ≤ 5) && (isNan a || isNan b))

/-- The operands that each instruction of R109 and its neighbours has. -/
def floatArgs (i : Instr) (cx : Ctx) : List Word :=
  match i with
  | .fadd _ | .faddExt _ | .fsub _ | .fsubExt _ | .fmul _ | .fmulExt _ => [argA cx, argB cx]
  | .ffma _ => [argA cx, argB cx, argC cx]
  | .frnd _ | .frcp _ | .frsq _ | .fsqrt _ | .fex2 _ | .flg2 _ | .fsin _ | .fcos _ => [argA cx]
  | _ => []

/-- What an add of an infinity gives: the canonical NaN and nv for two of opposite signs, else the infinity (R106). -/
def addInf (x y : Word) : Option (Word × FFlags) :=
  if isInf x && isInf y && x.msb != y.msb then some (0x7FC00000, 1)
  else if isInf x then some (x, 0) else if isInf y then some (y, 0) else none

/-- The infinity of a sign. -/
def infOf (neg : Bool) : Word := if neg then 0xFF800000 else 0x7F800000

/-- The results on infinite operands, those of the invalid operations of R106, and the special results of R109, as a code and
flags, where no operand is a NaN. -/
def special (i : Instr) (cx : Ctx) : Option (Word × FFlags) :=
  let a := argA cx
  let b := argB cx
  let c := argC cx
  let sgn : Word := a &&& 0x80000000
  let nan : Option (Word × FFlags) := some (0x7FC00000, 1)
  match i with
  | .fadd _ | .faddExt _ => addInf a b
  | .fsub _ | .fsubExt _ => addInf a (b ^^^ 0x80000000)
  | .fmul _ | .fmulExt _ => if isInf a && isZero b || isZero a && isInf b then nan
      else if isInf a || isInf b then some (infOf (a.msb != b.msb), 0) else none
  | .ffma _ => if isInf a && isZero b || isZero a && isInf b then nan
      else if isInf a || isInf b then addInf (infOf (a.msb != b.msb)) c
      else if isInf c then some (c, 0) else none
  | .frnd _ => if isInf a then some (a, 0) else none
  | .frcp _ => if isZero a then some (sgn ||| 0x7F800000, 2) else if isInf a then some (sgn, 0) else none
  | .frsq _ => if isZero a then some (sgn ||| 0x7F800000, 2) else if a.msb then nan else if isInf a then some (0, 0) else none
  | .fsqrt _ => if isZero a then some (a, 0) else if a.msb then nan else if isInf a then some (a, 0) else none
  | .fex2 _ => if isInf a then some (if a.msb then 0 else a, 0) else none
  | .flg2 _ => if isZero a then some (0xFF800000, 2) else if a.msb then nan else if isInf a then some (a, 0)
      else if a = 0x3F800000 then some (0, 0) else none
  | .fsin _ => if isInf a then nan else if (val32 a).den = 1 then some (sgn, 0) else none
  | .fcos _ => if isInf a then nan else if (val32 a + 1 / 2).den = 1 then some (0, 0)
      else if (val32 a).den = 1 then some (if (val32 a).num % 2 = 0 then 0x3F800000 else 0xBF800000, 0) else none
  | _ => none

/-- The functions of R108: `y` is the exact value at `x`. -/
def function (i : Instr) (x y : ℝ) : Prop :=
  match i with
  | .frcp _ => y = 1 / x
  | .frsq _ => y = 1 / Real.sqrt x
  | .fsqrt _ => y = Real.sqrt x
  | .fex2 _ => y = (2 : ℝ) ^ x
  | .flg2 _ => y = Real.logb 2 x
  | .fsin _ => y = Real.sin (Real.pi * x)
  | .fcos _ => y = Real.cos (Real.pi * x)
  | _ => False

/-- The operands of the functions for which the statement below names the exact value: all of the reciprocal and the roots; integers
for `FEX2`, powers of two for `FLG2` and halves of an odd number for `FSIN`. -/
def algebraic (i : Instr) (x : ℚ) : Prop :=
  match i with
  | .frcp _ | .frsq _ | .fsqrt _ => True
  | .fex2 _ => x.den = 1
  | .flg2 _ => ∃ k : Int, x = (2 : ℚ) ^ k
  | .fsin _ => (x + 1 / 2).den = 1
  | _ => False

/-- The code of an integer's residues modulo 257, 255 and 256 (R116). -/
def rz (i : Int) : Nat := (i % 257).toNat * 65536 + (i % 255).toNat * 256 + (i % 256).toNat

/-- The integer operation whose residues a residue instruction computes (R117). -/
def residueOp : Instr → Option (Int → Int → Int)
  | .radd _ | .raddExt _ => some (· + ·)
  | .rmul _ | .rmulExt _ => some (· * ·)
  | _ => none

end Sys2Proof.Spec

/-- Every float, paired-half and residue instruction whose sources can be read completes: its destination takes its value,
the flags are ORed into `$fflags`, and the thread goes on behind it (R106). -/
def Obligations.FloatResults : Prop :=
  ∀ (s s1 : State) (k : Nat) (t : Thread) (i : Instr) (c0 cx : Ctx) (f : Ctx → Nat × FFlags),
    s.runs k t i → s.reads k t i c0 cx s1 → Spec.floatResult i = some f →
    exec i s = .next (goesOn k t i ((cx.dst s1 (BitVec.ofNat 128 (f cx).1)).raise k (f cx).2))

/-- `FADD`, `FSUB`, `FMUL` and `FFMA` on finite operands write the exact result, rounded once in the instruction's mode and,
under ftz, flushed to a zero of its sign where it is subnormal; nx is raised exactly when what is written is not the exact
result, of when the result overflows, uf when it is tiny and inexact or flushed, and nv and dz are not raised. So does each element of `HADD2`, `HMUL2` and `HFMA2`, the flags of both ORed, `HDOT2` with
the exact sum of two products and c, and `FCVT` into FP32, FP16 and BF16, on every operand: a NaN gives the canonical one, an infinity
itself, and nv is raised for a signalling NaN, zero times infinity and infinities of opposite signs (R100 to R106, R110, R366, R374; that a magnitude which overflows
to nearest raises of in every mode is log 12). -/
def Obligations.FloatArithmeticRoundsOnce : Prop :=
  ∀ (s s1 : State) (k : Nat) (t : Thread) (i : Instr) (c0 cx : Ctx) (q : ℚ) (z : Bool),
    s.runs k t i → s.reads k t i c0 cx s1 →
    (Spec.exact i cx = some (q, z) →
      ∃ (r w : Word) (fl : FFlags),
        exec i s = .next (goesOn k t i ((cx.dst s1 (Spec.up32 w)).raise k fl)) ∧ Spec.rounds (Spec.rm cx) q z r ∧
        w = (if t.fmode.getLsbD 2 && Spec.isSub r then r &&& 0x80000000 else r) ∧
        fl.getLsbD 0 = false ∧ fl.getLsbD 1 = false ∧
        Spec.raises Spec.single (Spec.rm cx) q r.toNat w.toNat (Spec.isInf w = false ∧ Spec.val32 w = q) fl) ∧
    (∀ op, Spec.pairOp (Spec.rm cx) i = some op →
      let v := fun (e : Nat) => op (Spec.element cx cx.va e 1) (Spec.element cx cx.vb e 2) (Spec.element cx cx.vc e 3)
      ∃ (c0 c1 : Nat) (f0 f1 : FFlags),
        exec i s = .next (goesOn k t i ((cx.dst s1 (BitVec.ofNat 128 (c0 + 65536 * c1))).raise k (f0 ||| f1))) ∧
        Spec.writes (Spec.halfFormat cx) (Spec.rm cx) (t.fmode.getLsbD 2) (v 0).1 (v 0).2 c0 f0 ∧
        Spec.writes (Spec.halfFormat cx) (Spec.rm cx) (t.fmode.getLsbD 2) (v 1).1 (v 1).2 c1 f1) ∧
    (∀ x, i = .hdot2 x →
      let a := fun (e : Nat) => Spec.element cx cx.va e 1
      let b := fun (e : Nat) => Spec.element cx cx.vb e 2
      let z := Spec.single.read (Spec.arg t false (x.func.getLsbD 3) cx.vc).toNat
      let l := [Spec.mulOf (a 0) (b 0), Spec.mulOf (a 1) (b 1), z]
      ∃ (c : Nat) (fl : FFlags),
        exec i s = .next (goesOn k t i ((cx.dst s1 (BitVec.ofNat 128 c)).raise k fl)) ∧
        Spec.writes Spec.single (Spec.rm cx) (t.fmode.getLsbD 2) (Spec.sumOf (Spec.rm cx) l)
          (Spec.zeroInf (a 0) (b 0) || Spec.zeroInf (a 1) (b 1) || Spec.clash l || [a 0, b 0, a 1, b 1, z].any Spec.Val.signals) c fl) ∧
    (∀ x f, i = .fcvt x → [Spec.single, Spec.half, Spec.brain][x.func.toNat / 8 % 8]? = some f →
      let v := Spec.source (x.func.toNat % 8) (t.fmode.getLsbD 2) (Spec.lo32 cx.va)
      ∃ (c : Nat) (fl : FFlags),
        exec i s = .next (goesOn k t i ((cx.dst s1 (BitVec.ofNat 128 c)).raise k fl)) ∧
        Spec.writes f (Spec.rm cx) (t.fmode.getLsbD 2) v v.signals c fl)

/-- Special operands and the functions: with a NaN the canonical NaN, and nv exactly when one is signalling (or, for `FFMA`, when it
multiplies zero by infinity); an invalid operation gives the canonical NaN and nv; an operation on infinities its infinity; and the
special results of the functions are those of R109. On every other operand the reciprocal and the roots write their exact value, rounded
once in the mode and flushed under ftz, and nx says whether it is another; `FEX2`, `FLG2`, `FSIN` and `FCOS` write the rounding of a value
that lies within 2^−64 of the exact one's magnitude of it, or of the exact one itself where `Spec.algebraic` says so, and raise nx on every
other operand; of and uf are raised as for an arithmetic result (R106, R108, R109; of by log 12). -/
def Obligations.FloatSpecialOperands : Prop :=
  ∀ (s s1 : State) (k : Nat) (t : Thread) (i : Instr) (c0 cx : Ctx),
    s.runs k t i → s.reads k t i c0 cx s1 →
    ((Spec.floatArgs i cx).any Spec.isNan = true →
      exec i s = .next (goesOn k t i ((cx.dst s1 0x7FC00000).raise k
        (if (Spec.floatArgs i cx).any Spec.isSnan || (decide ((Spec.floatArgs i cx).length = 3) &&
            (Spec.isInf (Spec.argA cx) && Spec.isZero (Spec.argB cx) || Spec.isZero (Spec.argA cx) && Spec.isInf (Spec.argB cx)))
          then 1 else 0)))) ∧
    (∀ w fl, (Spec.floatArgs i cx).any Spec.isNan = false → Spec.special i cx = some (w, fl) →
      exec i s = .next (goesOn k t i ((cx.dst s1 (Spec.up32 w)).raise k fl))) ∧
    (∀ v : ℝ, (Spec.floatArgs i cx).any Spec.isNan = false → Spec.special i cx = none → Spec.function i (Spec.val32 (Spec.argA cx)) v →
      ∃ (y : ℝ) (r w : Word) (fl : FFlags),
        exec i s = .next (goesOn k t i ((cx.dst s1 (Spec.up32 w)).raise k fl)) ∧
        |y - v| ≤ |v| / 2 ^ 64 ∧ (Spec.algebraic i (Spec.val32 (Spec.argA cx)) → y = v) ∧ Spec.rounds (Spec.rm cx) y false r ∧
        w = (if t.fmode.getLsbD 2 && Spec.isSub r then r &&& 0x80000000 else r) ∧ fl.getLsbD 0 = false ∧ fl.getLsbD 1 = false ∧
        (Spec.algebraic i (Spec.val32 (Spec.argA cx)) → (fl.getLsbD 4 = false ↔ Spec.isInf w = false ∧ (Spec.val32 w : ℝ) = v)) ∧
        (¬ Spec.algebraic i (Spec.val32 (Spec.argA cx)) → fl.getLsbD 4 = true) ∧ (fl.getLsbD 2 = true ↔ Spec.overflows Spec.single (Spec.rm cx) y) ∧
        (fl.getLsbD 3 = true ↔ Spec.tiny Spec.single (Spec.rm cx) y ∧ fl.getLsbD 4 = true ∨ w ≠ r))

/-- `FCMP` compares by value, with both zeros equal and a NaN unordered, into a predicate; `FCLASS` writes the one-hot class
of the operand as stored, and `NMSEL` selects by it, both with no flag raised. `FMIN` and `FMAX` return an operand, −0 below +0, and
the other one of a NaN; `FRND` gives the integral value of its operand's sign with no flag; and `FCVT` into F8A and F8B gives the
nearest code and into S32 and U32 the rounded integer or the nearer end of its range (R85, R107, R111 to R113, R362, R363, R370, R371,
R394). -/
def Obligations.FloatCompareAndClass : Prop :=
  ∀ (s s1 : State) (k : Nat) (t : Thread) (x : ExtOp) (c0 cx : Ctx),
    (∀ (i : Instr) (greatest : Bool), s.runs k t i → s.reads k t i c0 cx s1 →
      (greatest = false ∧ ((∃ o, i = .fmin o) ∨ i = .fminExt x) ∨ greatest = true ∧ ((∃ o, i = .fmax o) ∨ i = .fmaxExt x)) →
      exec i s = .next (goesOn k t i ((cx.dst s1 (Spec.up32 (Spec.extreme greatest (Spec.argA cx) (Spec.argB cx)))).raise k
        (if Spec.isSnan (Spec.argA cx) || Spec.isSnan (Spec.argB cx) then 1 else 0)))) ∧
    (s.runs k t (.frnd x) → s.reads k t (.frnd x) c0 cx s1 → Spec.isNan (Spec.argA cx) = false → Spec.isInf (Spec.argA cx) = false →
      ∃ w, exec (.frnd x) s = .next (goesOn k t (.frnd x) ((cx.dst s1 (Spec.up32 w)).raise k 0)) ∧ w.msb = (Spec.argA cx).msb ∧
        Spec.isNan w = false ∧ Spec.isInf w = false ∧ Spec.val32 w = Spec.toWhole (Spec.rm cx) (Spec.val32 (Spec.argA cx))) ∧
    (s.runs k t (.fcvt x) → s.reads k t (.fcvt x) c0 cx s1 →
      let v := Spec.source (x.func.toNat % 8) (t.fmode.getLsbD 2) (Spec.lo32 cx.va)
      let n := x.func.toNat / 8 % 8
      (n = 3 ∨ n = 4 → ∃ (c : Nat) (fl : FFlags),
        exec (.fcvt x) s = .next (goesOn k t (.fcvt x) ((cx.dst s1 (BitVec.ofNat 128 c)).raise k fl)) ∧
        (if n = 3 then Spec.eight 4 3 7 v c fl else Spec.eight 5 2 15 v c fl)) ∧
      (n = 5 ∨ n = 6 →
        let r := if n = 5 then Spec.whole (Spec.rm cx) (-2147483648) 2147483647 v else Spec.whole (Spec.rm cx) 0 4294967295 v
        exec (.fcvt x) s = .next (goesOn k t (.fcvt x) ((cx.dst s1 (Spec.up32 r.1)).raise k
          (r.2 ||| if v.signals then 1 else 0))))) ∧
    (s.runs k t (.fcmp x) → s.reads k t (.fcmp x) c0 cx s1 →
      let a := Spec.arg t false false cx.va
      let b := Spec.arg t false false cx.vb
      exec (.fcmp x) s = .next (goesOn k t (.fcmp x)
        ((cx.dstPred s1 (Spec.fcmp (x.func.toNat % 8) a b)).raise k (if Spec.fcmpNv (x.func.toNat % 8) a b then 1 else 0)))) ∧
    (s.runs k t (.fclass x) → s.reads k t (.fclass x) c0 cx s1 →
      exec (.fclass x) s = .next (goesOn k t (.fclass x) (cx.dst s1 (1#128 <<< Spec.classOf (Spec.lo32 cx.va))))) ∧
    (s.runs k t (.nmsel x) → s.reads k t (.nmsel x) c0 cx s1 →
      exec (.nmsel x) s = .next (goesOn k t (.nmsel x)
        (cx.dst s1 (if x.func.getLsbD (Spec.classOf (Spec.lo32 cx.va)) then cx.vb else cx.vc))))

/-- The residues of a sum and of a product are those that `RADD` and `RMUL` compute, where an immediate b is an integer that is converted
first, with of and nx outside the residue range; an operand a or b that is no integer's code gives 0xFFFF_FFFF with nv. `RCVT.s2r` writes the residues of its operand, with of and nx outside the residue range; `.r2s` and `.r2f` give back
the integer of that range whose residues they read, and for any other code their error result with nv (R116 to R119). -/
def Obligations.ResidueArithmetic : Prop :=
  ∀ (s s1 : State) (k : Nat) (t : Thread) (i : Instr) (c0 cx : Ctx), s.runs k t i → s.reads k t i c0 cx s1 →
    (∀ (f : Int → Int → Int), Spec.residueOp i = some f →
      let spoilt := fun (v : QWord) => ∀ m : Int, Spec.lo32 v ≠ BitVec.ofNat 32 (Spec.rz m)
      let wide : FFlags := if -8388480 ≤ cx.x.imm.toInt ∧ cx.x.imm.toInt ≤ 8388479 then 0 else 0x14
      (∀ m n : Int, cx.x.b ≠ .imm → Spec.lo32 cx.va = BitVec.ofNat 32 (Spec.rz m) → Spec.lo32 cx.vb = BitVec.ofNat 32 (Spec.rz n) →
        exec i s = .next (goesOn k t i ((cx.dst s1 (BitVec.ofNat 128 (Spec.rz (f m n)))).raise k 0))) ∧
      (∀ m : Int, cx.x.b = .imm → Spec.lo32 cx.va = BitVec.ofNat 32 (Spec.rz m) →
        exec i s = .next (goesOn k t i ((cx.dst s1 (BitVec.ofNat 128 (Spec.rz (f m cx.x.imm.toInt)))).raise k wide))) ∧
      (cx.x.b ≠ .imm → spoilt cx.va ∨ spoilt cx.vb → exec i s = .next (goesOn k t i ((cx.dst s1 0xFFFFFFFF).raise k 1))) ∧
      (cx.x.b = .imm → spoilt cx.va → exec i s = .next (goesOn k t i ((cx.dst s1 0xFFFFFFFF).raise k (1 ||| wide))))) ∧
    (∀ (x : ExtOp) (m : Int), i = .rcvt x → x.func = 1 → -8388480 ≤ m → m ≤ 8388479 → cx.va = BitVec.ofNat 128 (Spec.rz m) →
      exec i s = .next (goesOn k t i ((cx.dst s1 (Spec.up32 (BitVec.ofInt 32 m))).raise k 0))) ∧
    (∀ (x : ExtOp), i = .rcvt x → x.func = 0 →
      exec i s = .next (goesOn k t i ((cx.dst s1 (BitVec.ofNat 128 (Spec.rz (Spec.lo32 cx.va).toInt))).raise k
        (if -8388480 ≤ (Spec.lo32 cx.va).toInt ∧ (Spec.lo32 cx.va).toInt ≤ 8388479 then 0 else 0x14)))) ∧
    (∀ (x : ExtOp) (m : Int), i = .rcvt x → x.func = 2 → -8388480 ≤ m → m ≤ 8388479 → cx.va = BitVec.ofNat 128 (Spec.rz m) →
      ∃ w, exec i s = .next (goesOn k t i ((cx.dst s1 (Spec.up32 w)).raise k 0)) ∧ w.msb = decide (m < 0) ∧ Spec.isNan w = false ∧
        Spec.isInf w = false ∧ Spec.val32 w = m) ∧
    (∀ (x : ExtOp), i = .rcvt x → x.func = 1 ∨ x.func = 2 → (∀ m : Int, Spec.lo32 cx.va ≠ BitVec.ofNat 32 (Spec.rz m)) →
      exec i s = .next (goesOn k t i ((cx.dst s1 (if x.func = 1 then 0x80000000 else 0x7FC00000)).raise k 1)))

/-- What a value's instruction leaves: of thread `k` the destination and the sticky flags change; every other register of
it, every other thread, every byte of memory and the device's own registers stay (R36, R58, R106). -/
def Obligations.ValueFrame : Prop :=
  ∀ (s s1 : State) (k : Nat) (t : Thread) (i : Instr) (c0 cx : Ctx), s.runs k t i → s.reads k t i c0 cx s1 →
    (∀ f, Spec.intResult i = some f → ∃ u, exec i s = .next u ∧
      u.archOf k = some (t.arch.write i.ext.d i.shape.d.cls (f i.ext cx.va cx.vb cx.vc)) ∧
      OthersKept s u k ∧ BytesKept s u ∧ DeviceKept s u) ∧
    (∀ f, Spec.floatResult i = some f → ∃ u, exec i s = .next u ∧
      u.archOf k = some { t.arch.write i.ext.d i.shape.d.cls (BitVec.ofNat 128 (f cx).1) with fflags := t.fflags ||| (f cx).2 } ∧
      OthersKept s u k ∧ BytesKept s u ∧ DeviceKept s u)

/-- An instruction whose guard is false, the team operations apart, does nothing: the thread goes on behind it as it was,
the instruction counting toward the reach of its latches and ending none (R37, R57). -/
def Obligations.GuardFalse : Prop :=
  ∀ (s : State) (k : Nat) (t : Thread) (i : Instr),
    i.isThread = true → (∀ w, i ≠ .ill w) → ¬ (0x69 ≤ i.opc ∧ i.opc ≤ 0x6D) → s.atTurn k t → i.wf = true → i.regsOk t.regsN = true →
    privCheck i t = none → guardOf t i.ext = false →
    exec i s = .next (goesOn k t i (s.setThread k (begun t)))

/-! ## Traps, handlers and the control and system classes (R49 to R52, R88, R92, R95, R275 to R282) -/

namespace Sys2Proof.Spec

/-- Task `ti` ends for a cause: an earlier cause stays, each of its threads is exited, and each of its commands is complete
(R278). -/
def ended (s u : State) (ti : Nat) (c : EndCause) : Prop :=
  ∀ T, s.tasks[ti]? = some T → T.phase ≠ .complete →
    (∃ T', u.tasks[ti]? = some T' ∧ T'.cause = some (T.cause.getD c)) ∧
    (∀ (j : Nat) (v : Thread), u.threads[j]? = some v → v.task = ti → v.st = .exited) ∧
    (∀ (j : Nat) (d : Cmd), u.cmds[j]? = some d → d.task = ti → d.st = .complete)

/-- The CSRs that a thread reads, by number (R59, R279). -/
def csr (s : State) (t : Thread) (n : Nat) : Option DWord :=
  match n with
  | 0x000 => some (t.tid.setWidth 64)
  | 0x001 => some (t.ntid.setWidth 64)
  | 0x002 => (s.tasks[t.task]?).map (fun x => x.num.setWidth 64)
  | 0x003 => some (BitVec.ofNat 64 (t.core % 48))
  | 0x004 => some (BitVec.ofNat 64 (t.core / 48))
  | 0x005 => some (s.pkg.index.setWidth 64)
  | 0x006 => some (BitVec.ofNat 64 t.part)
  | 0x007 => some (BitVec.ofNat 64 t.slot)
  | 0x008 => some (BitVec.ofNat 64 (t.slot % 64))
  | 0x009 => some (BitVec.ofNat 64 (t.tid.toNat % t.tsize))
  | 0x00A => some (BitVec.ofNat 64 t.tsize)
  | 0x00B => some t.recAddr
  | 0x010 => some s.time
  | 0x011 => some s.cycle
  | 0x020 => some (t.fmode.setWidth 64)
  | 0x021 => some (t.fflags.setWidth 64)
  | 0x030 => some (BitVec.ofNat 64 t.shadow.length)
  | 0x031 => some t.lk
  | 0x800 => some (s.pkg.tpolicy.setWidth 64)
  | 0x801 => some s.pkg.hvec
  | 0x810 => some t.trec[0]
  | 0x811 => some t.trec[1]
  | 0x812 => some t.trec[2]
  | 0x813 => some t.trec[3]
  | 0x814 => some t.trec[4]
  | 0x815 => some t.trec[5]
  | 0x816 => some t.trec[6]
  | 0x817 => some t.trec[7]
  | 0x818 => some t.epc
  | 0x819 => some (t.hact.setWidth 64)
  | 0x820 => some t.hscr[0]
  | 0x821 => some t.hscr[1]
  | 0x822 => some t.hscr[2]
  | 0x823 => some t.hscr[3]
  | _ => none

/-- The registers after a write of the RW fields of a CSR (R59, R279, R353). -/
def csrSet (a : Arch) (n : Nat) (v : DWord) : Option Arch :=
  match n with
  | 0x020 => some { a with fmode := v.setWidth 3 }
  | 0x021 => some { a with fflags := v.setWidth 5 }
  | 0x031 => some { a with lk := v }
  | 0x818 => some { a with epc := v }
  | 0x819 => some { a with hact := v.setWidth 2 }
  | 0x820 => some { a with hscr := a.hscr.set 0 v }
  | 0x821 => some { a with hscr := a.hscr.set 1 v }
  | 0x822 => some { a with hscr := a.hscr.set 2 v }
  | 0x823 => some { a with hscr := a.hscr.set 3 v }
  | _ => none

/-- The thread parks: nothing of the instruction has happened, its pc stays and no latch can be read (R40). -/
def parked (s : State) (k : Nat) (w : Wait) : State := (s.park k w).closeIssue

/-- The byte offset of a direct transfer, and the target (R343, R344). -/
def branch (t : Thread) : Instr → Option DWord
  | .bra off => some (t.pc + off.signExtend 64 * 4)
  | .braExt x => some (t.pc + x.imm.signExtend 64 * 4)
  | .brc off _ _ => some (t.pc + off.signExtend 64 * 4)
  | .brcExt x => some (t.pc + x.imm.signExtend 64 * 4)
  | .call off => some (t.pc + off.signExtend 64 * 4)
  | .callExt x => some (t.pc + x.imm.signExtend 64 * 4)
  | _ => none

/-- `BRA` and `BRC` that transfer: the predicate of `BRC` XOR its negate bit (R344). -/
def taken (t : Thread) : Instr → Option Bool
  | .bra _ | .braExt _ => some true
  | .brc _ neg p => some (t.pred p.val != neg)
  | .brcExt x => (match x.d with | .reg n => some (t.pred (n.val % 8) != decide (8 ≤ n.val)) | _ => none)
  | _ => none

/-- The thread once a call has pushed the return address and taken its transfer, S being its stack's bytes: with more than 16 entries, the newest
16 stay on chip and the entry before them goes to the spill area (R51, R52). -/
def called (s u : State) (k : Nat) (t : Thread) (ret target : DWord) : Prop :=
  u.archOf k = some { t.arch with lk := ret, shadow := ret :: t.shadow } ∧ OthersKept s u k ∧ DeviceKept s u ∧
  (∃ s2, u = goesTo target k s2) ∧ u.threads[k]?.map (fun v => (v.pc, v.latches)) = some (target, []) ∧ (t.shadow.length < 16 → BytesKept s u) ∧
  (16 ≤ t.shadow.length → s.canonical →
    let off := s.stackOf t - 4096 + 8 * (t.shadow.length - 16)
    BytesKeptBut s u (.stack k off) 8 ∧
    u.bytesAt (.stack k off) 8 = leBytes 8 (t.shadow.getD 15 0).toNat)

end Sys2Proof.Spec

/-- The words of a trap record (R276): code, length, supervisor and deferred bits, aux and detail; the pc; the address;
the resume pc; `$tid` and `$task`; slot, partition, core, die and package; the time; and zero. -/
def Obligations.TrapRecordFields : Prop :=
  ∀ (s : State) (t : Thread) (T : Task) (e : TrapInfo) (len : Nat) (pc epc : DWord) (d : Bool),
    s.tasks[t.task]? = some T → e.code < 256 → len < 8 → t.slot < 384 → t.part < 4 → t.core < 192 →
    trapRecord s t e len pc epc d = #v[
      e.detail ++ e.aux ++ 0#3 ++ BitVec.ofBool d ++ BitVec.ofBool t.sup ++ BitVec.ofNat 3 len ++ BitVec.ofNat 8 e.code,
      pc, e.addr, epc, T.num ++ t.tid,
      0#15 ++ s.pkg.index ++ 0#6 ++ BitVec.ofNat 2 (t.core / 48) ++ 0#2 ++ BitVec.ofNat 6 (t.core % 48) ++ 0#6 ++
        BitVec.ofNat 2 t.part ++ 0#7 ++ BitVec.ofNat 9 t.slot,
      s.time, 0]

/-- What a trap's policy does. 10 enters the handler in one step: the record in `$trec0` to `$trec7`, `$epc` from it, `$hact` 0,
supervisor mode, the pc at `$hvec`; every other register keeps its value, as do the other threads and memory; no latch can be
read, and an open region is abandoned, the resume pc then being its `ABEGIN`. In supervisor mode the task ends with ENDED and 0x100
plus the code; TENURE ends it with TENURE; 00 ends it with ENDED and the code, or with DEADLOCK, whose detail 0 is the
model's choice (log 30); 01 ends the thread; and 11 holds it with
its record, as 10 does while a stop request waits for the thread. The registers are stated for a thread with no read outstanding, since
those return first (R37, R151, R164, R276 to R278, R280, R283). -/
def Obligations.TrapPolicies : Prop :=
  (∀ (s : State) (k : Nat) (t : Thread) (i : Instr) (e : TrapInfo),
    s.atTurn k t → t.sup = false → t.pend = [] → t.pnum ∉ s.front.stopReq → t.stopReq = false → e.code ≠ 0x06 → e.code < 24 →
    (s.pkg.tpolicy >>> (2 * e.code)).setWidth 2 = 2#2 →
    let next := if e.afterPc then t.pc + BitVec.ofNat 64 i.len else t.pc
    let epc := match t.region with | some r => r.abegin | none => next
    let u := trapsAt s k t i e
    u.archOf k = some { t.arch with trec := trapRecord s t e (i.len / 4) t.pc epc false, epc := epc, hact := 0, sup := true } ∧
    u.threads[k]?.map (fun v => (v.pc, v.latches, v.region, v.st)) = some (s.pkg.hvec, [], none, .ready) ∧
    OthersKept s u k ∧ BytesKept s u ∧ DeviceKept s u) ∧
  (∀ (s : State) (k : Nat) (t : Thread) (i : Instr) (e : TrapInfo), s.atTurn k t →
    let u := trapsAt s k t i e
    let policy := (s.pkg.tpolicy >>> (2 * e.code)).setWidth 2
    let next := if e.afterPc then t.pc + BitVec.ofNat 64 i.len else t.pc
    let epc := match t.region with | some r => r.abegin | none => next
    (t.sup = true → Spec.ended s u t.task ⟨0x0B, 0x100 + e.code, 0⟩) ∧
    (t.sup = false → e.code = 0x06 → Spec.ended s u t.task ⟨0x04, 0, 0⟩) ∧
    (t.sup = false → e.code ≠ 0x06 → policy = 0#2 →
      Spec.ended s u t.task (if e.code = 0x12 then ⟨0x0C, 0, 0⟩ else ⟨0x0B, e.code, 0⟩)) ∧
    (t.sup = false → e.code ≠ 0x06 → policy = 1#2 → u.threads[k]?.map (fun v => v.st) = some .exited) ∧
    (t.sup = false → e.code ≠ 0x06 → policy = 3#2 ∨ policy = 2#2 ∧ (t.pnum ∈ s.front.stopReq ∨ t.stopReq = true) →
      u.threads[k]?.map (fun v => (v.st, v.pc)) = some (.trapped, epc) ∧
      (t.pend = [] → u.archOf k = some { t.arch with trec := trapRecord s t e (i.len / 4) t.pc epc false })))

/-- The decode checks come first, whatever the guard: an operand or destination register that the thread does not have is
ILLEGAL_FIELD, and then a missing privilege is PRIVILEGE: `ERET` and a supervisor CSR in task mode, with the CSR's number, and
a write to a CSR whose fields are all RO (R22, R57, R60, R95, R279). -/
def Obligations.DecodeAndPrivilegeTraps : Prop :=
  ∀ (s : State) (k : Nat) (t : Thread), s.atTurn k t →
    (∀ i : Instr, i.isThread = true → (∀ w, i ≠ .ill w) → i.wf = true → i.regsOk t.regsN = false →
      exec i s = .next (trapsAt s k t i (mkTrap 0x02 0))) ∧
    (∀ x : ExtOp, (Instr.eret x).wf = true → t.sup = false → exec (.eret x) s = .next (trapsAt s k t (.eret x) (mkTrap 0x09 0))) ∧
    (∀ x : ExtOp, (Instr.csrr x).wf = true → (Instr.csrr x).regsOk t.regsN = true → t.sup = false → 0x800 ≤ x.imm.toNat →
      exec (.csrr x) s = .next (trapsAt s k t (.csrr x) ⟨0x09, 0, x.imm, 0, false⟩)) ∧
    (∀ x : ExtOp, (Instr.csrw x).wf = true → (Instr.csrw x).regsOk t.regsN = true →
      (t.sup = false ∧ 0x800 ≤ x.imm.toNat ∨ (x.imm ∈ [0x000, 0x001, 0x002, 0x003, 0x004, 0x005, 0x006, 0x007, 0x008, 0x009,
        0x00A, 0x00B, 0x010, 0x011, 0x030, 0x800, 0x801, 0x810, 0x811, 0x812, 0x813, 0x814, 0x815, 0x816, 0x817])) →
      exec (.csrw x) s = .next (trapsAt s k t (.csrw x) ⟨0x09, 0, x.imm, 0, false⟩)) ∧
    (∀ w : Word, w.toNat / 4 % 128 = 0 →
      exec (.ill w) s = .next (s.takeTrap k (mkTrap 0x01 0) (lenWords (w.toNat % 4)) t.pc t.pc false).closeIssue)

/-- `ERET` in supervisor mode: with `$hact` 00 the thread leaves supervisor mode and goes on at `$epc`, every other register
as it was; 01 ends the thread; 10 ends the task with the record's code as its detail, and status DEADLOCK where that is the code; 11 ends it with 0x1FF
(R281). -/
def Obligations.EretReturns : Prop :=
  ∀ (s : State) (k : Nat) (t : Thread) (x : ExtOp), s.runs k t (.eret x) → t.sup = true → t.region = none →
    ∃ u, exec (.eret x) s = .next u ∧
      (t.hact = 0 → u.archOf k = some { t.arch with sup := false } ∧
        u.threads[k]?.map (fun v => (v.pc, v.latches)) = some (t.epc, []) ∧ OthersKept s u k ∧ BytesKept s u ∧ DeviceKept s u) ∧
      (t.hact = 1 → u.threads[k]?.map (fun v => v.st) = some .exited) ∧
      (t.hact = 2 → Spec.ended s u t.task
        ⟨if t.trec[0].toNat % 256 = 0x12 then 0x0C else 0x0B, t.trec[0].toNat % 256, 0⟩) ∧
      (t.hact = 3 → Spec.ended s u t.task ⟨0x0B, 0x1FF, 0⟩)

/-- `BRA`, `BRC` and `CALL`: where the guard is true, a transfer that is taken goes to pc + 4·offset, whatever word stands there and
aligned as the pc is, where that is mapped executable, and traps UNMAPPED_TARGET where it is not; `CALL` traps STACK at a depth of 528,
and otherwise writes the return address to `lk` and pushes it; a branch that is taken inside an open region traps ATOMIC_REGION; and
a `BRC` that is not taken, and each form with its guard false, goes on. `LAND` goes on as a `NOP` does (R50 to R52, R164, R343, R344). -/
def Obligations.DirectTransfers : Prop :=
  (∀ (s : State) (k : Nat) (t : Thread), (s.runs k t .land → exec .land s = .next (goesOn k t .land (s.begin k t .land))) ∧
    (s.runs k t .nop → exec .nop s = .next (goesOn k t .nop (s.begin k t .nop)))) ∧
  ∀ (s : State) (k : Nat) (t : Thread) (i : Instr) (target : DWord), s.clear k t i → Spec.branch t i = some target →
    let call := (∃ off, i = .call off) ∨ ∃ x, i = .callExt x
    (t.pc.toNat % 4 = 0 → target.toNat % 4 = 0) ∧
    (guardOf t i.ext = false → exec i s = .next (goesOn k t i (s.setThread k (begun t)))) ∧
    (guardOf t i.ext = true →
      (Spec.taken t i = some false → exec i s = .next (goesOn k t i (s.begin k t i))) ∧
      (Spec.taken t i = some true → t.region.isSome = true → exec i s = .next (trapsAt s k t i (mkTrap 0x0A 0))) ∧
      (Spec.taken t i = some true ∧ t.region = none ∨ call → s.codePlace t target.toNat = none →
        exec i s = .next (trapsAt s k t i (mkTrap 0x05 target))) ∧
      (Spec.taken t i = some true → t.region = none → (s.codePlace t target.toNat).isSome = true →
        exec i s = .next (goesTo target k (s.begin k t i))) ∧
      (call → (s.codePlace t target.toNat).isSome = true → 528 ≤ t.shadow.length → exec i s = .next (trapsAt s k t i (mkTrap 0x13 0))) ∧
      (call → (s.codePlace t target.toNat).isSome = true → t.shadow.length < 528 →
        ∃ u, exec i s = .next u ∧ Spec.called s u k t (t.pc + BitVec.ofNat 64 i.len) target))

/-- `JMP` and `CALLI` check their target in order: a multiple of 4, mapped executable, its word not poisoned (unit 0) nor behind a link
that is down (its unit), and a `LAND`. Where all hold, `JMP` completes at the target, and `CALLI` completes there with the return address
pushed as `CALL` pushes it, or traps STACK at a depth of 528 (R49, R52, R263, R267, R275, R287, R346, R376). -/
def Obligations.IndirectTransfers : Prop :=
  ∀ (s s1 : State) (k : Nat) (t : Thread) (i : Instr) (c0 cx : Ctx),
    s.runs k t i → s.reads k t i c0 cx s1 → ((∃ x, i = .jmp x) ∨ ∃ x, i = .calli x) →
    let target : DWord := cx.va.setWidth 64 + i.ext.imm.signExtend 64
    (target.toNat % 4 ≠ 0 → exec i s = .next (trapsAt s k t i (mkTrap 0x04 target))) ∧
    (target.toNat % 4 = 0 → s.codePlace t target.toNat = none → exec i s = .next (trapsAt s k t i (mkTrap 0x05 target))) ∧
    (∀ p, target.toNat % 4 = 0 → s.codePlace t target.toNat = some p →
      (∀ u, s.pkg.linkFault p 4 false = some u → exec i s = .next (trapsAt s k t i ⟨0x16, target, BitVec.ofNat 32 u, 0, false⟩)) ∧
      (s.pkg.linkFault p 4 false = none → s.homeBad p 4 = true → exec i s = .next (trapsAt s k t i ⟨0x16, target, 0, 0, false⟩)) ∧
      (s.pkg.linkFault p 4 false = none → s.homeBad p 4 = false →
        (s.wordAt p ≠ 0x00000118 → exec i s = .next (trapsAt s k t i (mkTrap 0x03 target))) ∧
        (s.wordAt p = 0x00000118 →
          (∀ x, i = .jmp x → exec (.jmp x) s = .next (goesTo target k (s.begin k t (.jmp x)))) ∧
          (∀ x, i = .calli x → 528 ≤ t.shadow.length → exec (.calli x) s = .next (trapsAt s k t (.calli x) (mkTrap 0x13 0))) ∧
          (∀ x, i = .calli x → t.shadow.length < 528 →
            ∃ u, exec (.calli x) s = .next u ∧ Spec.called s u k t (t.pc + 12) target))))

/-- `RET` with the shadow stack's top entry equal to `lk` pops it and goes to `lk`; an empty stack traps RET_UNDERFLOW and
another entry RET_MISMATCH, with nothing changed by the return itself (R51, R402). -/
def Obligations.Returns : Prop :=
  ∀ (s : State) (k : Nat) (t : Thread) (x : ExtOp), s.runs k t (.ret x) →
    (t.shadow = [] → exec (.ret x) s = .next (trapsAt s k t (.ret x) (mkTrap 0x14 t.lk))) ∧
    (∀ top rest, t.shadow = top :: rest →
      (top ≠ t.lk → exec (.ret x) s = .next (trapsAt s k t (.ret x) (mkTrap 0x15 t.lk))) ∧
      (top = t.lk → rest.length ∉ t.shadowBad → s.codePlace t t.lk.toNat = none →
        exec (.ret x) s = .next (trapsAt s k t (.ret x) (mkTrap 0x05 t.lk))) ∧
      (top = t.lk → rest.length ∉ t.shadowBad → (s.codePlace t t.lk.toNat).isSome = true →
        ∃ u, exec (.ret x) s = .next u ∧ u.archOf k = some { t.arch with shadow := rest } ∧
          u.threads[k]?.map (fun v => v.pc) = some t.lk ∧ OthersKept s u k ∧ BytesKept s u ∧ DeviceKept s u))

/-- The other control instructions: `NOP` and `LAND` change nothing; `REFORM` files the thread behind itself with a release
cycle h away; `EXIT` makes it wait for its accesses before it enters Exited; `BBC` adds one to a counter of the die; and
`DBG.tag` sets the debug tag (R33, R48, R300, R301, R378, R395). -/
def Obligations.ControlInstructions : Prop :=
  ∀ (s : State) (k : Nat) (t : Thread) (x : ExtOp),
    (s.runs k t .nop → exec .nop s = .next (goesOn k t .nop (s.begin k t .nop))) ∧
    (s.runs k t (.nopExt x) → exec (.nopExt x) s = .next (goesOn k t (.nopExt x) (s.begin k t (.nopExt x)))) ∧
    (s.runs k t .land → exec .land s = .next (goesOn k t .land (s.begin k t .land))) ∧
    (s.runs k t (.reform x) → exec (.reform x) s =
      .next (((((s.begin k t (.reform x)).unfile k).modThread k (fun u => { u with latches := [] })).fileAt k (t.pc + 12)
        (s.time.toNat + x.imm.toNat % 512) true).closeIssue)) ∧
    (s.runs k t (.exit x) → ∃ u, exec (.exit x) s = .next u ∧ u.archOf k = some t.arch ∧
      u.threads[k]?.map (fun v => (v.st, v.pc)) = some (.exiting, t.pc) ∧ OthersKept s u k ∧ BytesKept s u ∧ DeviceKept s u) ∧
    (s.runs k t (.bbc x) → ∃ u, exec (.bbc x) s = .next u ∧ u.archOf k = some t.arch ∧ OthersKept s u k ∧ BytesKept s u ∧
      (let n := 256 * (t.core / 48) + x.imm.toNat % 256
       u.pkg = { s.pkg with bbc := aset s.pkg.bbc n ((aget s.pkg.bbc n).getD 0 + 1) })) ∧
    (s.runs k t (.dbgTag x) → ∃ u, exec (.dbgTag x) s = .next u ∧ u.archOf k = some { t.arch with tag := x.imm.setWidth 16 } ∧
      OthersKept s u k ∧ BytesKept s u ∧ DeviceKept s u)

/-- `TRAP`, `SYSC` and `DBG.brk` complete and raise their trap: TRAP_INSN and SUPERVISOR_CALL with the operand in aux, and
BREAKPOINT, each with the resume pc behind the instruction (R282, R300, R410, R414). -/
def Obligations.SoftwareTraps : Prop :=
  ∀ (s : State) (k : Nat) (t : Thread) (x : ExtOp),
    (s.runs k t (.trap x) → exec (.trap x) s = .next (trapsAt s k t (.trap x) ⟨0x10, 0, 0, x.imm.setWidth 16, true⟩)) ∧
    (s.runs k t (.sysc x) → exec (.sysc x) s = .next (trapsAt s k t (.sysc x) ⟨0x17, 0, 0, x.imm.setWidth 16, true⟩)) ∧
    (s.runs k t (.dbgBrk x) → exec (.dbgBrk x) s = .next (trapsAt s k t (.dbgBrk x) ⟨0x11, 0, 0, 0, true⟩))

/-- `CSRR` delivers the CSR that its number names, and `CSRW` writes its RW fields and nothing else (R59, R60, R279, R352,
R353). -/
def Obligations.ControlAndStatusRegisters : Prop :=
  ∀ (s s1 : State) (k : Nat) (t : Thread) (x : ExtOp) (c0 cx : Ctx),
    (s.runs k t (.csrr x) → s.reads k t (.csrr x) c0 cx s1 → ∀ v, Spec.csr s t x.imm.toNat = some v →
      exec (.csrr x) s = .next (goesOn k t (.csrr x) (cx.dst s1 (v.setWidth 128)))) ∧
    (s.runs k t (.csrw x) → s.reads k t (.csrw x) c0 cx s1 → ∀ a, Spec.csrSet t.arch x.imm.toNat (Spec.lo64 cx.va) = some a →
      ∃ u, exec (.csrw x) s = .next u ∧ u.archOf k = some a ∧ OthersKept s u k ∧ BytesKept s u ∧ DeviceKept s u)

/-- Where a thread stands behind its instruction and after a transfer: its pc, with every register, every other thread, every
byte of memory and the device as its meaning left them; after a transfer no latch can be read (R27, R37). -/
def Obligations.GoingOnAndTransfers : Prop :=
  ∀ (s' : State) (k : Nat) (t v : Thread) (i : Instr) (target : DWord), s'.threads[k]? = some v → v.region = none →
    ((goesOn k t i s').threads[k]?.map (fun u => u.pc) = some (t.pc + BitVec.ofNat 64 i.len) ∧
      (∀ j, (goesOn k t i s').archOf j = s'.archOf j) ∧ BytesKept s' (goesOn k t i s') ∧ DeviceKept s' (goesOn k t i s')) ∧
    ((goesTo target k s').threads[k]?.map (fun u => (u.pc, u.latches)) = some (target, []) ∧
      (∀ j, (goesTo target k s').archOf j = s'.archOf j) ∧ BytesKept s' (goesTo target k s') ∧ DeviceKept s' (goesTo target k s'))

/-! ## The memory and atomic classes (R89, R90, R127 to R129, R133, R158 to R168) -/

namespace Sys2Proof.Spec

/-- The address qa + sext(imm32), and the bytes of an access (R89). -/
def ea (cx : Ctx) : DWord := cx.va.setWidth 64 + cx.x.imm.signExtend 64
def size (x : ExtOp) : Nat := 2 ^ (x.func.toNat % 8)

/-- The copy of a line that a core may still use: its L1's, and otherwise its die's (R137, R161). -/
def copy (s : State) (t : Thread) (line : Nat) : Option Lease := (s.leaseOf t.core line).or (s.remoteOf t.core line)

/-- The bytes that a thread-path load returns: those of the leased copy that its core or its die holds and may still use, and otherwise
those of the home (R158 to R161). -/
def loaded (s : State) (t : Thread) (pl : Place) (n : Nat) : List Byte :=
  match pl with
  | .dev pa true => (match copy s t (pa / 128) with | some l => (l.data.drop (pa % 128)).take n | none => s.bytesAt pl n)
  | _ => s.bytesAt pl n

/-- Byte `j` of what it returns is poisoned (R284). -/
def badByte (s : State) (t : Thread) (pl : Place) (j : Nat) : Bool :=
  match pl with
  | .dev pa true => (match copy s t (pa / 128) with | some l => decide ((pa + j) / 32 ∈ l.bad) | none => s.homeBad (pl.plus j) 1)
  | _ => s.homeBad (pl.plus j) 1

/-- Writes that satisfy a test are performed at a scope: no copy within it, of a core or of a die's remote data, still holds a value that
they replaced (R137, R143, R157). -/
def performed (u : State) (core scope : Nat) (f : WriteSrc → Prop) : Prop :=
  (∀ l ∈ u.mem.leases, 2 ≤ scope ∨ scope = 1 ∧ l.core / 48 = core / 48 ∨ l.core = core → ∀ w ∈ l.lacks, ¬ f w) ∧
    ∀ l ∈ u.mem.remote, 2 ≤ scope ∨ l.core = core / 48 → ∀ w ∈ l.lacks, ¬ f w

/-- The value of loaded bytes: sign-extended to a single, or zero-extended (R381). -/
def extended (sx : Bool) (n : Nat) (bs : List Byte) : QWord :=
  if sx then ((BitVec.ofNat (8 * n) (leNat bs)).signExtend 32).setWidth 128 else BitVec.ofNat 128 (leNat bs)

/-- A value that an instruction reads has reached its destination: at once, or, where reads return late and the destination
is a register, as a result that is outstanding (R288; when reads return is the model's log 5). -/
def delivered (s u : State) (k : Nat) (t : Thread) (i : Instr) (v : QWord) : Prop :=
  OthersKept s u k ∧
  (s.late = false ∨ (∀ n, i.ext.d ≠ .reg n) → u.archOf k = some (t.arch.write i.ext.d i.shape.d.cls v)) ∧
  (∀ n, s.late = true → i.ext.d = .reg n → u.archOf k = some t.arch ∧ ∃ w p, u.threads[k]? = some w ∧ p ∈ w.pend ∧
    p.first = n.val ∧ p.n = i.shape.d.cls.regs ∧ p.val = lowCls i.shape.d.cls v ∧ p.poison = none ∧ p.returned = false)

/-- The instruction ends with a failing read: the trap at once, or, where reads return late and the destination is a register, a result
outstanding that will report it (R287, R288; log 5). -/
def fails (s : State) (k : Nat) (t : Thread) (i : Instr) (e : TrapInfo) : Prop :=
  (s.late = false ∨ (∀ n, i.ext.d ≠ .reg n) → exec i s = .next (trapsAt s k t i e)) ∧
  (∀ n, s.late = true → i.ext.d = .reg n → ∃ u w p, exec i s = .next u ∧ u.archOf k = some t.arch ∧ OthersKept s u k ∧ BytesKept s u ∧ DeviceKept s u ∧
    u.threads[k]? = some w ∧ p ∈ w.pend ∧ p.first = n.val ∧ p.n = i.shape.d.cls.regs ∧ p.poison = some e ∧ p.returned = false)

/-- Bytes have been stored at a place, and no others changed: what a writer leaves that is neither a thread nor an engine. -/
def stored (s u : State) (pl : Place) (bs : List Byte) : Prop := BytesKeptBut s u pl bs.length ∧ u.bytesAt pl bs.length = bs

/-- Several stores of a thread, at places that share no byte: their bytes stand there, and no others changed, but for the elements that
one of them has left undefined (R245). -/
def puts (s u : State) (W : List (Place × List Byte)) : Prop :=
  let undef := fun (q : Place) => ∃ w ∈ W, s.undefinedBy w.1 w.2.length q
  (∀ q, (∀ w ∈ W, ¬ q.within w.1 w.2.length) → ¬ undef q → u.byteAt q = s.byteAt q) ∧
    ∀ w ∈ W, ∀ (j : Nat) (b : Byte), w.2[j]? = some b → ¬ undef (w.1.plus j) → u.byteAt (w.1.plus j) = b

/-- The wait for tile-store lines (R133). -/
def landing (pl : Place) (n : Nat) : Wait :=
  match pl with
  | .tile _ off => .presence (off / 128) ((off + n - 1) / 128 + 1 - off / 128)
  | _ => .memory

end Sys2Proof.Spec

/-- The checks of a thread's access of 1 to 16 bytes and the place that it reaches: the window of its address, its alignment,
the spill area, and tenure, in that order; in supervisor mode the rights of the page stand for tenure, which is the model's reading
(log 11), as it is that the rights of overlapping regions add up (log 10), and a page in migration is an invalid entry, as to every
walker (R127, R129, R148, R151, R153, R280). -/
def Obligations.AccessChecks : Prop :=
  ∀ (s : State) (k : Nat) (t : Thread) (T : Task) (a : DWord) (n : Nat) (w : Bool),
    s.tasks[t.task]? = some T → n ∈ [1, 2, 4, 8, 16] →
    let inTile := 0xFF00000000000000 ≤ a.toNat ∧ a.toNat < 0xFF00000000000000 + T.tileWindow
    let inStack := 0xFE00000000000000 ≤ a.toNat ∧ a.toNat < 0xFE00000000000000 + T.stackBytes
    let tenured := ∃ r ∈ T.tenure ++ [⟨T.desc.codebase, T.desc.codesize, false⟩], r.base ≤ a.toNat ∧ a.toNat < r.base + r.size ∧ (w = true → r.rw = true)
    T.stackBytes ≤ 0x100000 → T.tileWindow ≤ 0x100000 →
    (2 ^ 56 ≤ a.toNat → ¬ inTile → ¬ inStack → s.resolve k t a n n w = .error ⟨0x08, a, 0, 0, false⟩) ∧
    (a.toNat < 2 ^ 56 ∨ inTile ∧ (s.tileOf t.task t.core).isSome = true ∨ inStack → a.toNat % n ≠ 0 →
      s.resolve k t a n n w = .error ⟨0x07, a, 0, 0, false⟩) ∧
    (inStack → a.toNat % n = 0 → T.stackBytes < a.toNat - 0xFE00000000000000 + n + 4096 → s.resolve k t a n n w = .error ⟨0x13, a, 0, 0, false⟩) ∧
    (inStack → a.toNat % n = 0 → a.toNat - 0xFE00000000000000 + n + 4096 ≤ T.stackBytes →
      s.resolve k t a n n w = .ok (.stack k (a.toNat - 0xFE00000000000000))) ∧
    (∀ i, inTile → a.toNat % n = 0 → s.tileOf t.task t.core = some i → s.resolve k t a n n w = .ok (.tile i (a.toNat - 0xFF00000000000000))) ∧
    (a.toNat < 2 ^ 56 → a.toNat % n = 0 → t.sup = false → ¬ tenured → s.resolve k t a n n w = .error ⟨0x06, a, 0, 0, false⟩) ∧
    (∀ e, a.toNat < 2 ^ 56 → a.toNat % n = 0 → t.sup = false → tenured → T.tlbOf a.toNat = some e →
      s.resolve k t a n n w = .ok (if e.host then .host (e.pa + (a.toNat - e.va)) else .dev (e.pa + (a.toNat - e.va)) (!e.bias))) ∧
    (a.toNat < 2 ^ 56 → a.toNat % n = 0 → t.sup = true →
      (∀ l, s.walk T.desc.ptroot a.toNat = some l → l.mig = false → l.tlb.r = true → (w = true → l.tlb.w = true) →
        s.resolve k t a n n w = .ok (if l.tlb.host then .host (l.tlb.pa + (a.toNat - l.tlb.va))
          else .dev (l.tlb.pa + (a.toNat - l.tlb.va)) (!l.tlb.bias))) ∧
      ((∀ l, s.walk T.desc.ptroot a.toNat = some l → l.mig = true ∨ l.tlb.r = false ∨ w = true ∧ l.tlb.w = false) →
        s.resolve k t a n n w = .error ⟨0x06, a, 0, 0, false⟩))

/-- `LD`, both forms, outside a region: the trap of its checks; a wait for lines that have not landed; and otherwise the value of its bytes,
zero- or sign-extended, in its destination, with no byte and nothing of the device changed. A link that is down, and the first poisoned byte, are reported with their unit, at the load where reads return at
once, and by the outstanding result where they return late. `LD.cmp` outside a region traps ATOMIC_REGION before it reads
anything (R89, R129, R133, R153, R158, R263, R267, R287, R288, R381, R383; when reads return is log 5). -/
def Obligations.Loads : Prop :=
  (∀ (s : State) (k : Nat) (t : Thread) (x : ExtOp), s.atTurn k t → (Instr.ldExt x).wf = true → (Instr.ldExt x).regsOk t.regsN = true →
    guardOf t x = true → t.region = none → x.func.toNat / 16 = 3 → (begun t).reports (.ldExt x) = false →
    exec (.ldExt x) s = .next (trapsAt s k t (.ldExt x) (mkTrap 0x0A 0))) ∧
  ∀ (s s1 : State) (k : Nat) (t : Thread) (i : Instr) (c0 cx : Ctx),
    s.runs k t i → s.reads k t i c0 cx s1 → (∃ d a off, i = .ld d a off) ∨ (∃ x, i = .ldExt x) → t.region = none →
    i.ext.func.toNat / 16 ≠ 3 →
    let n := Spec.size i.ext
    (∀ e, s.resolve k t (Spec.ea cx) n n false = .error e → exec i s = .next (trapsAt s k t i e)) ∧
    (∀ pl, s.resolve k t (Spec.ea cx) n n false = .ok pl →
      (s.absentAt pl n = true → exec i s = .next (Spec.parked s k (Spec.landing pl n))) ∧
      (s.absentAt pl n = false → s.pkg.linkFault pl n false = none → (∀ j < n, Spec.badByte s t pl j = false) →
        ∃ u, exec i s = .next u ∧ Spec.delivered s u k t i (Spec.extended (i.ext.func.getLsbD 3) n (Spec.loaded s t pl n)) ∧
          BytesKept s u ∧ DeviceKept s u) ∧
      (∀ v, s.absentAt pl n = false → s.pkg.linkFault pl n false = some v →
        Spec.fails s k t i ⟨0x16, Spec.ea cx, BitVec.ofNat 32 v, 0, false⟩) ∧
      (∀ j < n, s.absentAt pl n = false → s.pkg.linkFault pl n false = none →
        Spec.badByte s t pl j = true → (∀ h < j, Spec.badByte s t pl h = false) →
        Spec.fails s k t i ⟨0x16, Spec.ea cx + BitVec.ofNat 64 j, BitVec.ofNat 32 pl.unit, 0, false⟩))

/-- `ST`, both forms, outside a region: the trap of its checks; a wait for lines that have not landed; UNCORRECTABLE behind
a link that is down or where the second tier has no space; and otherwise its data at its address, no other byte, register, thread or
part of the device changed, but for an element to which addends stand that no `FENCEX` orders, which is left undefined (R89, R129, R133,
R158, R245, R263, R267, R409; when an element is reached, log 38). -/
def Obligations.Stores : Prop :=
  ∀ (s s1 : State) (k : Nat) (t : Thread) (i : Instr) (c0 cx : Ctx),
    s.runs k t i → s.reads k t i c0 cx s1 → (∃ d a off, i = .st d a off) ∨ (∃ x, i = .stExt x) → t.region = none →
    let n := Spec.size i.ext
    (∀ e, s.resolve k t (Spec.ea cx) n n true = .error e → exec i s = .next (trapsAt s k t i e)) ∧
    (∀ pl, s.resolve k t (Spec.ea cx) n n true = .ok pl →
      (s.absentAt pl n = true → exec i s = .next (Spec.parked s k (Spec.landing pl n))) ∧
      (∀ v, s.absentAt pl n = false → s.pkg.linkFault pl n true = some v →
        exec i s = .next (trapsAt s k t i ⟨0x16, Spec.ea cx, BitVec.ofNat 32 v, 0, false⟩)) ∧
      (s.absentAt pl n = false → s.pkg.linkFault pl n true = none →
        ∃ u, exec i s = .next u ∧ u.archOf k = some t.arch ∧ OthersKept s u k ∧ DeviceKept s u ∧
          (s.canonical → StoredBy s u pl (leBytes n cx.vb.toNat))))

namespace Sys2Proof.Spec

/-- A line's bytes with those at an offset replaced. -/
def patch (line : List Byte) (off : Nat) (bs : List Byte) : List Byte := line.take off ++ bs ++ line.drop (off + bs.length)

/-- The line once the stores among the accesses have been made in order (R163). -/
def lineAfter (line : List Byte) : List RegionAcc → List Byte
  | [] => line
  | .store off n v :: l => lineAfter (patch line off (leBytes n v.toNat)) l
  | .load .. :: l => lineAfter line l

/-- A byte of an element that one of the stores among the accesses leaves undefined (R245). -/
def undefinedIn (s : State) (line : Place) (accs : List RegionAcc) (q : Place) : Prop :=
  ∃ o n v, RegionAcc.store o n v ∈ accs ∧ s.undefinedBy (line.plus o) n q

/-- Each `.cmp` load of the accesses finds what it expects in the line before any store (R163). -/
def matched (line : List Byte) (accs : List RegionAcc) : Bool :=
  accs.all (fun a => match a with | .load off n _ _ _ _ (some e) => leNat ((line.drop off).take n) = e.toNat | _ => true)

/-- The registers once each load has given its value, from the line that it sees: the stores before it where the region has
matched, and none otherwise (R163). -/
def regionRegs (m : Bool) (line : List Byte) (A : Arch) : List RegionAcc → Arch
  | [] => A
  | .store off n v :: l => regionRegs m (if m then patch line off (leBytes n v.toNat) else line) A l
  | .load off n sx d c lo _ :: l =>
    let v := if sx then ((BitVec.ofNat (8 * n) (leNat ((line.drop off).take n))).signExtend 32).setWidth 128
      else BitVec.ofNat 128 (leNat ((line.drop off).take n))
    regionRegs m line (if lo then A else { A with regs := writeRegs A.regs d v.toNat c }) l

/-- The parameter of a `LDC`, `KEYEMIT` or `SPAN`: its offset and bytes in the task's launch-time copy (R180, R230). -/
def paramOf (T : Task) (off n : Nat) : Nat := leNat (T.param.read (T.desc.param + off) n)
def paramBad (T : Task) (off n : Nat) : Bool := T.param.poisoned (T.desc.param + off) n

/-- A field of `n` bytes of a structure. -/
def field (d : List Byte) (off n : Nat) : Nat := leNat ((d.drop off).take n)

/-- A frame descriptor that an instruction names can be read (R231, R377): `fa` is its address, `pl` its place and `d` its
bytes. -/
def frame (s : State) (k : Nat) (t : Thread) (T : Task) (x : ExtOp) (fa : DWord) (pl : Place) (d : List Byte) : Prop :=
  let off := x.imm.toNat % 4096
  s.tasks[t.task]? = some T ∧ off + 8 ≤ T.desc.nparam ∧ off % 8 = 0 ∧ paramBad T off 8 = false ∧ fa.toNat = paramOf T off 8 ∧
    fa.toNat + 128 ≤ 2 ^ 56 ∧ s.resolve k t fa 128 128 false = .ok pl ∧ s.pkg.linkFault pl 128 false = none ∧
    s.homeBad pl 128 = false ∧ d = s.bytesAt pl 128

/-- The reserved bits of a frame descriptor are zero (R227). -/
def frameOk (d : List Byte) : Prop :=
  field d 0x28 2 / 2 = 0 ∧ field d 0x2C 4 = 0 ∧ field d 0x30 8 / 2 ^ 27 = 0 ∧ ∀ b ∈ d.drop 0x48, b = 0

/-- An integer nearest to a number, the even one of two (R124). -/
def nearest (y : ℚ) (q : Int) : Prop := |y - q| ≤ 1 / 2 ∧ (|y - q| = 1 / 2 → q % 2 = 0)

/-- The partial sums of an element that satisfy a test, their sum, and the exceptions that they have counted: addends that are no finite
number, and addends that overflow (R124, R244). -/
def sums (s : State) (a : Nat) (f : GrcEntry → Bool) : List GrcEntry := s.mem.grc.filter (fun e => decide (e.addr = a) && f e)
def partials (s : State) (a : Nat) (f : GrcEntry → Bool) : BitVec 128 := ((sums s a f).map (fun e => e.v)).sum
def counts (s : State) (a : Nat) (f : GrcEntry → Bool) : Nat × Nat :=
  (((sums s a f).map (fun e => e.nf)).sum, ((sums s a f).map (fun e => e.ov)).sum)

/-- Partial sums reach the home element with nothing in their way: the element has not been left undefined by an unordered write, no unit
of the caches that hold them is poisoned, and no other element and no counter among them overlaps it (R244, R245, R284). -/
def mergeable (s : State) (a : Nat) (f : GrcEntry → Bool) : Prop :=
  ∀ e ∈ s.mem.grc, f e = true → e.bad = false ∧ (e.counter + 8 ≤ a ∨ a + 16 ≤ e.counter) ∧
    (e.addr = a ∧ e.torn = false ∨ e.addr + 16 ≤ a ∨ a + 16 ≤ e.addr)

/-- The home element takes some partial sums (R244). -/
def merged (s u : State) (a : Nat) (f : GrcEntry → Bool) : Prop :=
  u.bytesAt (.dev a true) 16 = leBytes 16 (BitVec.ofNat 128 (leNat (s.bytesAt (.dev a true) 16)) + partials s a f).toNat

/-- A scope of codes 0 and 1 holds the core's own die, and the others every die of the package (R143). -/
def inScope (core die scope : Nat) : Bool := decide (2 ≤ scope) || decide (die = core / 48)

/-- A scope holds the home of a device address: that of a line of another package by its hops, of one of this package by its die (R143,
R266). -/
def homeIn (s : State) (core a scope : Nat) : Prop :=
  if farBase ≤ a then
    let hops := (s.pkg.scope.getD ((a - farBase) / 2 ^ 40) 0).toNat
    scope = 7 ∨ 3 ≤ scope ∧ 1 ≤ hops ∧ hops ≤ scope - 2
  else inScope core (homeDie a) scope = true

/-- The region of a `GRED` address, when the checks of R243 pass: `a` is its element's address, `c` its descriptor's, and `d` the
descriptor's bytes. -/
def region (s : State) (t : Thread) (ea : DWord) (a c : Nat) (d : List Byte) : Prop :=
  let lg := ea.toNat / 2 ^ 56
  let g := ea.toNat % 2 ^ 56
  let base := g / 2 ^ lg * 2 ^ lg
  16 ≤ lg ∧ lg ≤ 40 ∧ ea.toNat % 16 = 0 ∧ s.resolveGlobal t (BitVec.ofNat 64 g) 16 true = .ok (.dev a true) ∧
    s.resolveGlobal t (BitVec.ofNat 64 base) 128 true = .ok (.dev c true) ∧ s.pkg.linkFault (.dev a true) 16 true = none ∧
    s.pkg.linkFault (.dev c true) 128 false = none ∧ s.homeBad (.dev c true) 128 = false ∧ d = s.bytesAt (.dev c true) 128 ∧
    field d 0 8 / 256 = 1 ∧ 1 ≤ field d 8 8 ∧ field d 8 8 ≤ (2 ^ lg - 128) / 16 ∧ (∀ b ∈ d.drop 0x18, b = 0) ∧
    base + 128 ≤ g ∧ (g - base - 128) / 16 < field d 8 8

/-- The anchor of a reducing region (R123). -/
def anchor (d : List Byte) : Int := ((BitVec.ofNat 8 (field d 0 1)).toInt : Int)

/-- The new value of an `ATOM` on singles or pairs of `w` bits, or none where nothing is written (R336). -/
def atom (w op : Nat) (old y c : BitVec w) : Option (BitVec w) :=
  match op with
  | 0 => some y
  | 1 => some (old + y)
  | 2 => some (old &&& y)
  | 3 => some (old ||| y)
  | 4 => some (old ^^^ y)
  | 5 => some (if y.slt old then y else old)
  | 6 => some (if old.slt y then y else old)
  | 7 => some (if y.ult old then y else old)
  | 8 => some (if old.ult y then y else old)
  | _ => if old = c then some y else none

/-- The 128-byte line of a place. -/
def lineOf (pl : Place) : Place :=
  match pl with
  | .dev pa b => .dev (pa / 128 * 128) b
  | .host pa => .host (pa / 128 * 128)
  | .tile i o => .tile i (o / 128 * 128)
  | .stack k o => .stack k (o / 128 * 128)

/-- The words of a barrier (R191). -/
def barrier (pending phase flags : Nat) : List Byte := leBytes 8 pending ++ leBytes 4 phase ++ leBytes 4 flags

end Sys2Proof.Spec

/-- Atomic regions: `ABEGIN` opens one on its line, be it global, of the tile store or of a stack, and traps where one is open; `LD` and `ST` join it with their data and destination, up to eight, within
the line and with mod zero, and are turned away otherwise; and `ACOMMIT` performs them as one: the `.cmp` loads decide, the stores
are made only where all match, each load's value reaches its registers, and the region is closed, an empty one with its predicate
true; a line that holds poison, wherever it stands, makes it trap with nothing performed (R163, R164, R245, R287, R328, R329). -/
def Obligations.AtomicRegions : Prop :=
  (∀ (s : State) (k : Nat) (t : Thread) (x : ExtOp) (r : Region), s.atTurn k t → (Instr.abegin x).wf = true → (Instr.abegin x).regsOk t.regsN = true →
    guardOf t x = true → t.region = some r → (begun t).reports (.abegin x) = false → (begun t).blocked (.abegin x) = false →
    (∀ n ∈ (Instr.abegin x).regsRead, n ∉ t.badRegs) → exec (.abegin x) s = .next (trapsAt s k t (.abegin x) (mkTrap 0x0A 0))) ∧
  ∀ (s s1 : State) (k : Nat) (t : Thread) (i : Instr) (c0 cx : Ctx), s.runs k t i → s.reads k t i c0 cx s1 →
    (∀ (x : ExtOp) (T : Task), i = .abegin x → s.tasks[t.task]? = some T →
      let a := (Spec.ea cx).toNat
      let inTile := 0xFF00000000000000 ≤ a ∧ a < 0xFF00000000000000 + T.tileWindow ∧ (s.tileOf t.task t.core).isSome = true
      let inStack := 0xFE00000000000000 ≤ a ∧ a < 0xFE00000000000000 + T.stackBytes
      let opened : State := goesOn k t i (s1.modThread k (fun u => { u with region := some ⟨t.pc, Spec.ea cx, []⟩ }))
      (2 ^ 56 ≤ a → ¬ inTile → ¬ inStack → exec i s = .next (trapsAt s k t i ⟨0x08, Spec.ea cx, 0, 0, false⟩)) ∧
      (a < 2 ^ 56 ∨ inTile ∨ inStack → a % 128 ≠ 0 → exec i s = .next (trapsAt s k t i ⟨0x07, Spec.ea cx, 0, 0, false⟩)) ∧
      (inTile ∨ inStack → a % 128 = 0 → exec i s = .next opened) ∧
      (∀ e, a < 2 ^ 56 → a % 128 = 0 → T.tlbOf a = some e →
        exec i s = .next (if e.host then trapsAt s k t i (mkTrap 0x0A 0) else opened)) ∧
      (a < 2 ^ 56 → a % 128 = 0 → T.tlbOf a = none → s.walk T.desc.ptroot a = none → exec i s = .next opened)) ∧
    (∀ r : Region, t.region = some r → (∃ d a off, i = .ld d a off) ∨ (∃ x, i = .ldExt x) ∨ (∃ d a off, i = .st d a off) ∨ (∃ x, i = .stExt x) →
      let n := Spec.size i.ext
      let a := Spec.ea cx
      let bad := 8 ≤ r.accs.length ∨ i.ext.mod ≠ 0 ∨ a.toNat < r.line.toNat ∨ r.line.toNat + 128 < a.toNat + n
      (bad → exec i s = .next (trapsAt s k t i (mkTrap 0x0A 0))) ∧
      (∀ pl, ¬ bad → (∃ d a off, i = .st d a off) ∨ (∃ x, i = .stExt x) → s.resolve k t a n n true = .ok pl →
        exec i s = .next (goesOn k t i (s1.modThread k (fun u => { u with region := some { r with
          accs := r.accs ++ [.store (a.toNat - r.line.toNat) n (BitVec.ofNat 128 (cx.vb.toNat % 2 ^ (8 * n)))] } })))) ∧
      (∀ pl, ¬ bad → (∃ d a off, i = .ld d a off) ∨ (∃ x, i = .ldExt x) → i.regsWritten.any (fun d => decide (d ∈ r.pending)) = false →
        s.resolve k t a n n false = .ok pl →
        exec i s = .next (goesOn k t i (s1.modThread k (fun u => { u with region := some { r with
          accs := r.accs ++ [.load (a.toNat - r.line.toNat) n (i.ext.func.getLsbD 3) (match i.ext.d with | .reg m => m.val | _ => 0)
            i.shape.d.cls.regs (match i.ext.d with | .reg _ => false | _ => true)
            (if i.ext.func.toNat / 16 = 3 then some (BitVec.ofNat 128 (cx.vb.toNat % 2 ^ (8 * n))) else none)] } }))))) ∧
    (∀ x : ExtOp, i = .acommit x → t.region = none → exec i s = .next (trapsAt s k t i (mkTrap 0x0A 0))) ∧
    (∀ (x : ExtOp) (r : Region) (p : Fin 128), i = .acommit x → x.d = .reg p → t.region = some r → r.accs = [] →
      ∃ u, exec i s = .next u ∧ u.archOf k = some (t.arch.writePred p.val true) ∧ OthersKept s u k ∧ BytesKept s u ∧ DeviceKept s u ∧
        u.threads[k]?.map (fun v => v.region) = some none) ∧
    (∀ (x : ExtOp) (r : Region) (b : RegionAcc) (l : List RegionAcc) (pl : Place) (p : Fin 128), i = .acommit x → x.d = .reg p → t.region = some r →
      r.accs = b :: l → (∀ a ∈ r.accs, a.span.1 + a.span.2.1 ≤ 128) → (∀ o n d c lo e, RegionAcc.load o n true d c lo e ∈ r.accs → c = 1) →
      s.resolve k t (r.line + BitVec.ofNat 64 b.span.1) b.span.2.1 b.span.2.1 false = .ok pl →
      let line := pl.shift (-(b.span.1 : Int))
      (∀ j < 128, s.absentAt line 128 = false → s.pkg.linkFault line 128 true = none → s.pkg.linkFault line 128 false = none →
        s.homeBad (line.plus j) 1 = true → (∀ h < j, s.homeBad (line.plus h) 1 = false) →
        exec i s = .next (trapsAt s k t i ⟨0x16, r.line + BitVec.ofNat 64 j, BitVec.ofNat 32 line.unit, 0, false⟩)) ∧
      (s.absentAt line 128 = false → s.pkg.linkFault line 128 true = none → s.pkg.linkFault line 128 false = none → s.homeBad line 128 = false →
      s.late = false → s.canonical →
      let m := Spec.matched (s.bytesAt line 128) r.accs
      ∃ u, exec i s = .next u ∧ OthersKept s u k ∧ DeviceKept s u ∧
        u.archOf k = some ((Spec.regionRegs m (s.bytesAt line 128) t.arch r.accs).writePred p.val m) ∧
        u.threads[k]?.map (fun v => v.region) = some none ∧
        (m = false → BytesKept s u) ∧
        (m = true → (∀ q : Place, ¬ q.within line 128 → ¬ Spec.undefinedIn s line r.accs q → u.byteAt q = s.byteAt q) ∧
          ∀ (j : Nat) (b : Byte), (Spec.lineAfter (s.bytesAt line 128) r.accs)[j]? = some b → ¬ Spec.undefinedIn s line r.accs (line.plus j) →
            u.byteAt (line.plus j) = b)))

/-- `LDC` delivers bytes of the task's launch-time parameter area, or traps APERTURE, MISALIGNED_DATA or UNCORRECTABLE;
`CHCTL` reports a channel's entries or room, or marks it external, or traps CHANNEL; and `PRF`, `WBACK` and `FENCE` change no
register, no byte and nothing of the device, `PRF` even where its base cannot be read; a `FENCE` with release leaves the thread's stores
performed at its scope. At a `WBACK` of a device line whose home its scope holds the thread waits for the acknowledgement of the write, or
traps where no link reaches the home; any other line is left as it stands, whatever link leads to it (R40, R137, R143, R157, R167, R168,
R180, R196, R263, R266, R267, R289, R384, R398, R417; when the acknowledgement comes is the model's log 5, that codes 0 and 1 hold the
core's own die and that the copies which lack a store end its log 6, and on which die a second-tier line is homed its log 37). -/
def Obligations.ParametersChannelsAndHints : Prop :=
  ∀ (s s1 : State) (k : Nat) (t : Thread) (x : ExtOp) (c0 cx : Ctx),
    (s.runs k t (.ldc x) → s.reads k t (.ldc x) c0 cx s1 → ∀ T, s.tasks[t.task]? = some T →
      let off := x.imm.toNat % 4096
      let n := Spec.size x
      (T.desc.nparam < off + n → exec (.ldc x) s = .next (trapsAt s k t (.ldc x) ⟨0x08, BitVec.ofNat 64 off, 0, 0, false⟩)) ∧
      (off + n ≤ T.desc.nparam → off % n ≠ 0 → exec (.ldc x) s = .next (trapsAt s k t (.ldc x) ⟨0x07, BitVec.ofNat 64 off, 0, 0, false⟩)) ∧
      (off + n ≤ T.desc.nparam → off % n = 0 → Spec.paramBad T off n = true → Spec.fails s k t (.ldc x) ⟨0x16, BitVec.ofNat 64 off, 0, 0, false⟩) ∧
      (off + n ≤ T.desc.nparam → off % n = 0 → Spec.paramBad T off n = false →
        ∃ u, exec (.ldc x) s = .next u ∧ Spec.delivered s u k t (.ldc x) (BitVec.ofNat 128 (Spec.paramOf T off n)) ∧ BytesKept s u ∧ DeviceKept s u)) ∧
    (s.runs k t (.chctl x) → s.reads k t (.chctl x) c0 cx s1 → ∀ n : Fin 128, x.a = .reg n false →
      (s.chanAt t n.val = none → exec (.chctl x) s = .next (trapsAt s k t (.chctl x) ⟨0x0D, 0, BitVec.ofNat 32 n.val, 0, false⟩)) ∧
      (x.func = 2 → 1 < cx.vb.toNat → exec (.chctl x) s = .next (trapsAt s k t (.chctl x) ⟨0x0D, 0, BitVec.ofNat 32 n.val, 0, false⟩)) ∧
      (∀ j h, s.chanAt t n.val = some (j, h) →
        (x.func = 0 → exec (.chctl x) s = .next (goesOn k t (.chctl x) (cx.dst s1 (BitVec.ofNat 128 (h.vals.length + h.spill.length))))) ∧
        (x.func = 1 → exec (.chctl x) s = .next (goesOn k t (.chctl x) (cx.dst s1 (BitVec.ofNat 128 (h.depth - h.vals.length))))) ∧
        (x.func = 2 → cx.vb.toNat ≤ 1 → exec (.chctl x) s = .next (goesOn k t (.chctl x)
          (cx.dst (s1.setChan j { h with ext := decide (cx.vb ≠ 0) }) (if h.ext then 1 else 0)))))) ∧
    (s.atTurn k t → (Instr.prf x).wf = true → (Instr.prf x).regsOk t.regsN = true → guardOf t x = true → (begun t).reports (.prf x) = false →
      (begun t).blocked (.prf x) = false →
      (t.region.isSome = true → exec (.prf x) s = .next (trapsAt s k t (.prf x) (mkTrap 0x0A 0))) ∧
      (t.region = none → ∃ u, exec (.prf x) s = .next u ∧ u.archOf k = some t.arch ∧ OthersKept s u k ∧ BytesKept s u ∧ DeviceKept s u)) ∧
    (s.runs k t (.wback x) → s.reads k t (.wback x) c0 cx s1 → ∀ e, s.resolve k t (Spec.ea cx) 1 1 false = .error e →
      exec (.wback x) s = .next (trapsAt s k t (.wback x) e)) ∧
    (∀ i ∈ [Instr.prf x, .wback x, .fence x], s.runs k t i → s.reads k t i c0 cx s1 →
      let reached := fun (pl : Place) => ∃ a c, pl = .dev a c ∧ Spec.homeIn s t.core a (x.mod.toNat % 8)
      (∀ pl, i = .wback x → s.resolve k t (Spec.ea cx) 1 1 false = .ok pl →
        (∀ v, reached pl → s.pkg.linkFault pl 1 true = some v →
          exec i s = .next (trapsAt s k t i ⟨0x16, Spec.ea cx, BitVec.ofNat 32 v, 0, false⟩)) ∧
        (¬ reached pl → exec i s = .next (goesOn k t i s1))) ∧
      ((i = .wback x → ∃ pl, s.resolve k t (Spec.ea cx) 1 1 false = .ok pl ∧ (¬ reached pl ∨ s.pkg.linkFault pl 1 true = none)) →
        ∃ u, exec i s = .next u ∧ u.archOf k = some t.arch ∧ OthersKept s u k ∧ BytesKept s u ∧ DeviceKept s u ∧
          (i = .fence x → 16 ≤ x.mod.toNat → Spec.performed u t.core (x.mod.toNat % 8) (fun w => w = .thread k)) ∧
          (∀ pl, i = .wback x → s.resolve k t (Spec.ea cx) 1 1 false = .ok pl → reached pl →
            u.threads[k]?.map (fun v => (v.st, v.pc)) = some (.parked (.writeBack (!s.late)), t.pc))))

/-- `LOCK` and `UNLOCK` answer with the status of R141, decided in the order of its table, and a status of 0 alone adds or
removes the task's pin of the line; no byte changes (R141, R142, R386; that a line of a host-biased page is pinned like any other is the
model's log 8, on which die a second-tier line is homed its log 37). -/
def Obligations.Pins : Prop :=
  ∀ (s s1 : State) (k : Nat) (t : Thread) (T : Task) (x : ExtOp) (i : Instr) (c0 cx : Ctx), i = .lock x ∨ i = .unlock x →
    s.runs k t i → s.reads k t i c0 cx s1 → s.tasks[t.task]? = some T →
    (∀ e, s.resolve k t (Spec.ea cx) 1 1 false = .error e → exec i s = .next (trapsAt s k t i e)) ∧
    (∀ pl, s.resolve k t (Spec.ea cx) 1 1 false = .ok pl →
      let mine := s.mem.pins.filter (fun p => decide (p.task = t.task))
      let st : Nat := match pl with
        | .dev a _ =>
          if mine.any (fun p => decide (p.line = a / 128)) then (if i = .lock x then 1 else 0)
          else if i = .unlock x then 1
          else if T.desc.pinq ≤ (mine.filter (fun p => decide (p.die = homeDie a))).length then 2
          else if 8 ≤ s.mem.pinnedWays (a / 128) then 3 else 0
        | _ => 4
      ∃ u, exec i s = .next u ∧ Spec.delivered s u k t i (BitVec.ofNat 128 st) ∧ BytesKept s u ∧ DeviceKept s u ∧
        (st ≠ 0 → u.mem.pins = s.mem.pins) ∧
        (∀ a c, st = 0 → pl = .dev a c → ∀ p, p ∈ u.mem.pins ↔
          (p ∈ s.mem.pins ∧ ¬ (p.task = t.task ∧ p.line = a / 128)) ∨ (i = .lock x ∧ p = ⟨t.task, homeDie a, a / 128⟩)))

/-- `KEYEMIT` counts one pair in its frame, sets ovf where the frame is full, and otherwise stores the key and the payload at
the old count; a descriptor that breaks R227 is ENGINE_PARAM. `SPAN` delivers the entry of its tile, and 0 beyond the last one
(R227, R228, R231, R240, R245, R377, R406). -/
def Obligations.KeysAndSpans : Prop :=
  ∀ (s s1 : State) (k : Nat) (t : Thread) (T : Task) (x : ExtOp) (i : Instr) (c0 cx : Ctx) (fa : DWord) (pl : Place) (d : List Byte),
    i = .keyemit x ∨ i = .span x → s.runs k t i → s.reads k t i c0 cx s1 → t.sup = false → Spec.frame s k t T x fa pl d →
    (¬ Spec.frameOk d → exec i s = .next (trapsAt s k t i ⟨0x0E, fa, 0, 0, false⟩)) ∧
    (i = .keyemit x → Spec.field d 0x20 4 = 0 ∨ Spec.field d 0 8 % 8 ≠ 0 ∨ Spec.field d 8 8 % 4 ≠ 0 →
      exec i s = .next (trapsAt s k t i ⟨0x0E, fa, 0, 0, false⟩)) ∧
    (let kbuf := Spec.field d 0 8
     let pbuf := Spec.field d 8 8
     let cap := Spec.field d 0x20 4
     let c := Spec.field d 0x24 4
     i = .keyemit x → s.pkg.linkFault pl 128 true = none → Spec.frameOk d → cap ≠ 0 → kbuf % 8 = 0 → pbuf % 4 = 0 → kbuf + 8 * cap ≤ 2 ^ 56 → pbuf + 4 * cap ≤ 2 ^ 56 →
     T.inTenure kbuf (8 * cap) true = true → T.inTenure pbuf (4 * cap) true = true → s.canonical →
     (cap ≤ c → ∃ u, exec i s = .next u ∧ u.archOf k = some t.arch ∧ OthersKept s u k ∧
       StoredBy s u (pl.plus 0x24) (leBytes 4 (min (c + 1) 0xFFFFFFFF) ++ leBytes 4 (Spec.field d 0x28 4 / 2 * 2 + 1))) ∧
     (∀ pk pp, c < cap → s.resolve k t (BitVec.ofNat 64 (kbuf + 8 * c)) 8 8 true = .ok pk →
       s.resolve k t (BitVec.ofNat 64 (pbuf + 4 * c)) 4 4 true = .ok pp → s.pkg.linkFault pk 8 true = none → s.pkg.linkFault pp 4 true = none →
       (∀ q : Place, q.within pk 8 → ¬ q.within pp 4 ∧ ¬ q.within (pl.plus 0x24) 8) → (∀ q : Place, q.within pp 4 → ¬ q.within (pl.plus 0x24) 8) →
       ∃ u, exec i s = .next u ∧ u.archOf k = some t.arch ∧ OthersKept s u k ∧
         Spec.puts s u [(pk, leBytes 8 cx.va.toNat), (pp, leBytes 4 cx.vb.toNat),
           (pl.plus 0x24, leBytes 4 (min (c + 1) 0xFFFFFFFF) ++ leBytes 4 (Spec.field d 0x28 4))])) ∧
    (let ntiles := Spec.field d 0x30 2 % 4096 * (Spec.field d 0x30 4 / 4096 % 4096)
     let tile := cx.va.toNat % 2 ^ 32
     let e : DWord := BitVec.ofNat 64 (Spec.field d 0x38 8 + 8 * tile)
     -- the state once the descriptor has been read
     let s2 := (s.homeLoad t.core pl 128).1
     i = .span x → Spec.frameOk d →
     (ntiles ≤ tile → ∃ u, exec i s = .next u ∧ Spec.delivered s u k t i 0 ∧ BytesKept s u ∧ DeviceKept s u) ∧
     (∀ f, tile < ntiles → s.resolve k t e 8 8 false = .error f → exec i s = .next (trapsAt s k t i f)) ∧
     (∀ pe, tile < ntiles → s.resolve k t e 8 8 false = .ok pe → s.absentAt pe 8 = false → s.pkg.linkFault pe 8 false = none →
       (∀ j < 8, Spec.badByte s2 t pe j = false) →
       ∃ u, exec i s = .next u ∧ Spec.delivered s u k t i (BitVec.ofNat 128 (leNat (Spec.loaded s2 t pe 8))) ∧ BytesKept s u ∧ DeviceKept s u))

/-- Gradient reduction. `GRED.add` adds its addend, quantised once, to the element's partial sum of the die, counts one that is no finite
number or overflows, and writes no register; while the die's cache has room, no byte changes, but those of an element that a write has
reached in no order with it, which is undefined from then on. `GRED.res` first lets the home element take the partial sums of its scope,
their exceptions reaching the region's counters, and delivers the element rounded once to FP32. `FENCEX` with release leaves the earlier
class's writes performed at its scope; with earlier class g it lets the home elements take the partial sums of its scope that hold addends
of the thread's own; with later class t no lease from before the earlier class's writes serves the core any more, and with later class m
its weight cache is empty. Regions that overlap keep their exceptions apart (R123, R124, R126, R156, R157, R167, R226, R241, R243 to R245; which writes are the earlier class's, and that
scope codes 0 and 1 hold the sums of the core's own die, is the model's reading, log 6; when two writes are unordered, log 38). -/
def Obligations.GradientReduction : Prop :=
  ∀ (s s1 : State) (k : Nat) (t : Thread) (x : ExtOp) (c0 cx : Ctx) (a c : Nat) (d : List Byte),
    let die := t.core / 48
    let inside := fun (e : GrcEntry) => Spec.inScope t.core e.die (x.mod.toNat % 8)
    (s.runs k t (.gredAdd x) → s.reads k t (.gredAdd x) c0 cx s1 → Spec.region s t (Spec.ea cx) a c d →
      (s.mem.grc.filter (fun e => decide (e.die = die))).length < 1048576 →
      ∃ (u : State) (q : Int) (nf ov : Nat), exec (.gredAdd x) s = .next u ∧ u.archOf k = some t.arch ∧ OthersKept s u k ∧ DeviceKept s u ∧
        (∀ q : Place, ¬ q.within (.dev a true) 16 → u.byteAt q = s.byteAt q) ∧
        (s.mem.unordered (s.sortBefore t.task) (.dev a true) 16 = false → BytesKept s u) ∧
        (∀ f : Nat → Nat → Bool, f die (c + 0x10) = true →
          let g := fun (e : GrcEntry) => f e.die e.counter
          Spec.partials u a g = Spec.partials s a g + BitVec.ofInt 128 q ∧ Spec.counts u a g = ((Spec.counts s a g).1 + nf, (Spec.counts s a g).2 + ov)) ∧
        (∀ b (f : Nat → Nat → Bool), b ≠ a ∨ f die (c + 0x10) = false →
          let g := fun (e : GrcEntry) => f e.die e.counter
          Spec.partials u b g = Spec.partials s b g ∧ Spec.counts u b g = Spec.counts s b g) ∧
        (∃ e ∈ u.mem.grc, e.die = die ∧ e.addr = a ∧ e.counter = c + 0x10) ∧
        (let w := Spec.lo32 cx.vb
         let y : ℚ := Spec.val32 w * (2 : ℚ) ^ (64 - Spec.anchor d)
         if Spec.isNan w ∨ Spec.isInf w then q = 0 ∧ nf = 1 ∧ ov = 0
         else nf = 0 ∧ (Spec.nearest y q ∧ |q| < 2 ^ 100 ∧ ov = 0 ∨ q = 0 ∧ ov = 1 ∧ ∃ r, Spec.nearest y r ∧ 2 ^ 100 ≤ |r|))) ∧
    (s.runs k t (.gredRes x) → s.reads k t (.gredRes x) c0 cx s1 → Spec.region s t (Spec.ea cx) a c d → s.canonical → s.late = false →
      s.homeBad (.dev a true) 16 = false → Spec.mergeable s a (fun e => decide (e.addr = a) && inside e) →
      ∃ (u : State) (w : Word) (fl : FFlags), exec (.gredRes x) s = .next u ∧ OthersKept s u k ∧ DeviceKept s u ∧
        u.archOf k = some { t.arch.write x.d .v (Spec.up32 w) with fflags := t.fflags ||| fl } ∧
        (let V := BitVec.ofNat 128 (leNat (s.bytesAt (.dev a true) 16)) + Spec.partials s a inside
         Spec.rounds 0 ((V.toInt * (2 : ℚ) ^ (Spec.anchor d - 64) : ℚ) : ℝ) false w) ∧
        Spec.merged s u a inside ∧ Spec.partials u a inside = 0 ∧ Spec.counts u a inside = (0, 0) ∧
        (∀ n, (∀ e ∈ Spec.sums s a inside, e.counter = n) →
          let old := s.bytesAt (.dev n true) 8
          Spec.sums s a inside ≠ [] → u.bytesAt (.dev n true) 8 =
            leBytes 4 (min (Spec.field old 0 4 + (Spec.counts s a inside).1) 0xFFFFFFFF) ++
            leBytes 4 (min (Spec.field old 4 4 + (Spec.counts s a inside).2) 0xFFFFFFFF))) ∧
    (s.runs k t (.fencex x) → s.reads k t (.fencex x) c0 cx s1 →
      let own := fun (e : GrcEntry) => decide (k ∈ e.ks) && inside e
      ∃ u, exec (.fencex x) s = .next u ∧ u.archOf k = some t.arch ∧ OthersKept s u k ∧ DeviceKept s u ∧
        (x.func.toNat % 8 ≠ 4 → BytesKept s u ∧ u.mem.grc = s.mem.grc) ∧
        (16 ≤ x.mod.toNat → Spec.performed u t.core (x.mod.toNat % 8) (fun w => s.earlierWrite k t (x.func.toNat % 8) w = true)) ∧
        (x.func.toNat % 8 = 4 →
          (s.canonical → ∀ b, Spec.mergeable s b own → Spec.merged s u b own) ∧
          (∀ b, Spec.partials u b (fun _ => true) + Spec.partials s b own = Spec.partials s b (fun _ => true)) ∧
          ∀ e ∈ u.mem.grc, k ∈ e.ks → inside e = false) ∧
        (x.func.toNat / 8 = 2 → ∀ w ∈ u.wcache, w.core ≠ t.core) ∧
        (x.func.toNat % 8 ≠ 0 → x.func.toNat / 8 = 0 →
          ∀ w ∈ s.earlierWrites k t (x.func.toNat % 8), w.rts < u.clockOf t.core))

/-- `ATOM`: the trap of its checks, a wait for lines that have not landed, and otherwise one indivisible access: the old value is
delivered and the new one stored, with no other byte changed; an unequal `.cas` stores nothing, and `.fadd` rounds to nearest, with the
canonical NaN and the infinities of R106; no link, no second-tier space, or poison anywhere in its line is UNCORRECTABLE with nothing
written (R100, R106, R162, R245, R263, R267, R287, R335 to R337; the address reported of poison that it does not access is log 32). -/
def Obligations.Atomics : Prop :=
  ∀ (s s1 : State) (k : Nat) (t : Thread) (x : ExtOp) (c0 cx : Ctx), s.runs k t (.atom x) → s.reads k t (.atom x) c0 cx s1 →
    let n := if x.func.toNat / 16 = 1 then 8 else 4
    let a : DWord := if x.b = .imm then cx.va.setWidth 64 else Spec.ea cx
    (∀ e, s.resolve k t a n n true = .error e → exec (.atom x) s = .next (trapsAt s k t (.atom x) e)) ∧
    (∀ pl, s.resolve k t a n n true = .ok pl →
      (s.absentAt pl n = true → exec (.atom x) s = .next (Spec.parked s k (Spec.landing pl n))) ∧
      (∀ v, s.absentAt pl n = false → s.pkg.linkFault pl n true = some v → s.pkg.linkFault pl n false = some v ∨ s.homeBad pl n = false →
        Spec.fails s k t (.atom x) ⟨0x16, a, BitVec.ofNat 32 v, 0, false⟩) ∧
      (∀ j < 128, s.absentAt pl n = false → s.pkg.linkFault pl n true = none → s.homeBad pl n = false →
        s.homeBad ((Spec.lineOf pl).plus j) 1 = true → (∀ h < j, s.homeBad ((Spec.lineOf pl).plus h) 1 = false) →
        Spec.fails s k t (.atom x) ⟨0x16, BitVec.ofNat 64 (a.toNat / 128 * 128 + j), BitVec.ofNat 32 pl.unit, 0, false⟩) ∧
      (∀ j < n, s.absentAt pl n = false → s.pkg.linkFault pl n true = none →
        s.homeBad (pl.plus j) 1 = true → (∀ h < j, s.homeBad (pl.plus h) 1 = false) →
        Spec.fails s k t (.atom x) ⟨0x16, a + BitVec.ofNat 64 j, BitVec.ofNat 32 pl.unit, 0, false⟩) ∧
      (s.absentAt pl n = false → s.pkg.linkFault pl n true = none → s.homeBad pl n = false → s.homeBad (Spec.lineOf pl) 128 = false → s.canonical →
        let old := leNat (s.bytesAt pl n)
        ∃ u, exec (.atom x) s = .next u ∧ Spec.delivered s u k t (.atom x) (BitVec.ofNat 128 old) ∧ DeviceKept s u ∧
          (x.func.toNat % 16 ≠ 10 →
            match Spec.atom (8 * n) (x.func.toNat % 16) (BitVec.ofNat _ old) (cx.vb.setWidth _) (cx.vc.setWidth _) with
            | some v => StoredBy s u pl (leBytes n v.toNat)
            | none => BytesKept s u) ∧
          (x.func.toNat % 16 = 10 → ∃ w : Word, StoredBy s u pl (leBytes 4 w.toNat) ∧
            let p : Word := BitVec.ofNat 32 old
            let y := Spec.lo32 cx.vb
            (Spec.isNan p ∨ Spec.isNan y → w = 0x7FC00000) ∧
            (Spec.isNan p = false → Spec.isNan y = false → Spec.isInf p = false → Spec.isInf y = false →
              Spec.rounds 0 ((Spec.val32 p + Spec.val32 y : ℚ) : ℝ) (p.msb && y.msb) w) ∧
            (∀ r, Spec.isNan p = false → Spec.isNan y = false → Spec.addInf p y = some r → w = r.1))))

/-- `BAREXP` and `BARARV`: the checks of R338 in order, and otherwise the step of R192 on the barrier's 16 bytes, with no register
written and no other byte changed (R191, R192, R245, R338). -/
def Obligations.Barriers : Prop :=
  ∀ (s s1 : State) (k : Nat) (t : Thread) (x : ExtOp) (i : Instr) (c0 cx : Ctx), i = .barexp x ∨ i = .bararv x →
    s.runs k t i → s.reads k t i c0 cx s1 →
    let a : DWord := Spec.lo64 cx.va
    let n := if x.b = .imm then x.imm.toNat else cx.vb.toNat % 2 ^ 64
    (0xFE00000000000000 ≤ a.toNat → a.toNat < 0xFF00000000000000 → exec i s = .next (trapsAt s k t i ⟨0x08, a, 0, 0, false⟩)) ∧
    (∀ e, ¬ (0xFE00000000000000 ≤ a.toNat ∧ a.toNat < 0xFF00000000000000) → s.resolve k t a 16 16 true = .error e →
      exec i s = .next (trapsAt s k t i e)) ∧
    (∀ pl, ¬ (0xFE00000000000000 ≤ a.toNat ∧ a.toNat < 0xFF00000000000000) → s.resolve k t a 16 16 true = .ok pl →
      s.absentAt pl 16 = false → s.pkg.linkFault pl 16 false = none → s.pkg.linkFault pl 16 true = none → s.homeBad pl 16 = false → s.canonical →
      ∀ pending phase flags, pending < 2 ^ 64 → phase < 2 ^ 32 → flags < 2 ^ 32 → s.bytesAt pl 16 = Spec.barrier pending phase flags →
      (8 ≤ flags → exec i s = .next (trapsAt s k t i ⟨0x0E, a, 0, 0, false⟩)) ∧
      (flags < 8 → ∃ u, exec i s = .next u ∧ u.archOf k = some t.arch ∧ OthersKept s u k ∧ DeviceKept s u ∧
        (i = .barexp x → StoredBy s u pl (if 2 ^ 64 ≤ pending + n then Spec.barrier (2 ^ 64 - 1) phase (flags ||| 2)
          else Spec.barrier (pending + n) phase flags)) ∧
        (i = .bararv x → StoredBy s u pl (if pending < n then Spec.barrier 0 ((phase + 1) % 2 ^ 32) (flags ||| 1)
          else Spec.barrier (pending - n) (if pending = n then (phase + 1) % 2 ^ 32 else phase) flags))))

namespace Sys2Proof.Spec

/-- The address that a `TWAIT` reads, and the bytes there (R189, R416). -/
def watched (x : ExtOp) (va : QWord) : DWord := if x.func.toNat % 4 = 1 then BitVec.ofNat 64 (va.toNat % 2 ^ 48) else lo64 va
def watchedBytes (x : ExtOp) : Nat := if x.func.toNat % 4 = 0 then (if x.func.getLsbD 5 then 8 else 4) else 16

/-- Its condition, by form: an unsigned comparison; a token whose record is not PENDING and has its sequence or a later one; and a
phase that is not the one named (R184, R189, R190). -/
def condition (x : ExtOp) (va vb : QWord) (bs : List Byte) : Bool :=
  match x.func.toNat % 4 with
  | 0 =>
    let m := leNat bs
    let v := vb.toNat % 2 ^ (8 * watchedBytes x)
    match x.func.toNat / 4 % 4 with
    | 0 => decide (m = v)
    | 1 => decide (m ≠ v)
    | 2 => decide (v ≤ m)
    | _ => decide (m < v)
  | 1 => decide (leNat (bs.take 1) ≠ 0 ∧ (leNat ((bs.drop 6).take 2) + 2 ^ 16 - (lo64 va).toNat / 2 ^ 48) % 2 ^ 16 < 2 ^ 15)
  | _ => decide (leNat ((bs.drop 8).take 4) ≠ vb.toNat % 2 ^ 32)

/-- A thread of a member's team (R41). -/
def mate (s : State) (t : Thread) (j : Nat) (v : Thread) : Prop :=
  s.threads[j]? = some v ∧ 1 < t.tsize ∧ v.task = t.task ∧ v.node = none ∧ v.tid.toNat / t.tsize = t.tid.toNat / t.tsize

/-- Thread `j` has arrived at rendezvous `n` and waits there with what it brought. -/
def arrived (v : Thread) (n : Nat) (a : Arrival) : Prop := v.st = .parked (.rendezvous a) ∧ v.tcount = n

/-- The step of the tree of R412: the left operand is of the lower index, and the float operations keep subnormals and round to
nearest whatever `$fmode` says. -/
def combines (op : Nat) (l r v : Word) (fl : FFlags) : Prop :=
  match op with
  | 0 =>
    let x := single.read l.toNat
    let y := single.read r.toNat
    writes single 0 false (sumOf 0 [x, y]) (clash [x, y] || x.signals || y.signals) v.toNat fl
  | 1 => v = extreme false l r ∧ fl = if isSnan l || isSnan r then 1 else 0
  | 2 => v = extreme true l r ∧ fl = if isSnan l || isSnan r then 1 else 0
  | 3 => v = l + r ∧ fl = 0
  | 4 => v = l &&& r ∧ fl = 0
  | 5 => v = l ||| r ∧ fl = 0
  | 6 => v = l ^^^ r ∧ fl = 0
  | 7 => v = (if l.slt r then l else r) ∧ fl = 0
  | 8 => v = (if l.slt r then r else l) ∧ fl = 0
  | 9 => v = (if l.ult r then l else r) ∧ fl = 0
  | _ => v = (if l.ult r then r else l) ∧ fl = 0

/-- The tree of R46: the value that stands at node `i` after `l` levels, and the flags raised on the way to it. -/
def tree (op : Nat) (sup : Nat → Option DWord) : Nat → Nat → Option Word → FFlags → Prop
  | 0, i, o, fl => o = (sup i).map (fun v => v.setWidth 32) ∧ fl = 0
  | l + 1, i, o, fl => ∃ p q fp fq, tree op sup l i p fp ∧ tree op sup l (i + 2 ^ l) q fq ∧
    match p, q with
    | some a, some b => ∃ v f, combines op a b v f ∧ o = some v ∧ fl = fp ||| fq ||| f
    | some a, none => o = some a ∧ fl = fp ||| fq
    | none, q => o = q ∧ fl = fp ||| fq

/-- The registers of member `m` of a team of `T` once its rendezvous is complete, from what the members supply and, for `XRED`, the value
`o` of the tree's root with its flags, a NaN made canonical (R45, R46, R100). -/
def received (A : Arch) (T m : Nat) (sup : Nat → Option DWord) (o : Option Word) (fl : FFlags) (a : Arrival) : Arch :=
  let put := fun (v : DWord) (pair : Bool) => A.write (.reg (Fin.ofNat 128 a.dst)) (if pair then .q else .v) (v.setWidth 128)
  if !a.supplies then A
  else match a.key.1 with
  | 0x6A => put ((sup (m ^^^ a.key.2.2)).getD a.fallback) a.pair
  | 0x6B => put ((if a.index < T then sup a.index else none).getD a.fallback) a.pair
  | 0x6C =>
    (match a.key.2.1 with
    | 0 => A.writePred a.dst (decide (∀ j < T, sup j ≠ some 0))
    | 1 => A.writePred a.dst (decide (∃ j < T, sup j ≠ none ∧ sup j ≠ some 0))
    | _ => put (BitVec.ofNat 64 (((List.range T).filter (fun j => decide (sup j ≠ none ∧ sup j ≠ some 0))).map (2 ^ ·)).sum) true)
  | 0x6D =>
    let canon := fun (w : Word) => if a.key.2.1 ≤ 2 ∧ isNan w then 0x7FC00000 else w
    { put ((o.map (fun w => (canon w).setWidth 64)).getD a.fallback) false with fflags := A.fflags ||| fl }
  | _ => A

end Sys2Proof.Spec

/-- `TWAIT`: the null token is complete; the trap of its checks; a wait for lines that have not landed; a true condition goes on with
true; a false one goes on with false where the hint is 0, and parks otherwise, with its pc at the `TWAIT`. An address condition reads as
a load does, and a token's record and a barrier are read at their home (R184, R189, R190, R416; the home read is the model's log 6). -/
def Obligations.Waits : Prop :=
  ∀ (s s1 : State) (k : Nat) (t : Thread) (x : ExtOp) (p : Fin 128) (c0 cx : Ctx), s.runs k t (.twait x) → s.reads k t (.twait x) c0 cx s1 → x.d = .reg p →
    let a := Spec.watched x cx.va
    let n := Spec.watchedBytes x
    let form := x.func.toNat % 4
    let inStack := x.func.toNat % 4 = 2 ∧ 0xFE00000000000000 ≤ a.toNat ∧ a.toNat < 0xFF00000000000000
    let null := x.func.toNat % 4 = 1 ∧ Spec.lo64 cx.va = 0
    (null → exec (.twait x) s = .next (goesOn k t (.twait x) (cx.dstPred s1 true))) ∧
    (¬ null → inStack → exec (.twait x) s = .next (trapsAt s k t (.twait x) ⟨0x08, a, 0, 0, false⟩)) ∧
    (∀ e, ¬ null → ¬ inStack → s.resolve k t a n n false = .error e → exec (.twait x) s = .next (trapsAt s k t (.twait x) e)) ∧
    (∀ pl, ¬ null → ¬ inStack → s.resolve k t a n n false = .ok pl →
      (s.absentAt pl n = true → exec (.twait x) s = .next (Spec.parked s k (Spec.landing pl n))) ∧
      (s.absentAt pl n = false → s.pkg.linkFault pl n false = none →
        (∀ j < n, (if form = 0 then Spec.badByte s t pl j else s.homeBad (pl.plus j) 1) = false) →
        ∃ u, exec (.twait x) s = .next u ∧ OthersKept s u k ∧ BytesKept s u ∧ DeviceKept s u ∧
          (let c := Spec.condition x cx.va cx.vb (if form = 0 then Spec.loaded s t pl n else s.bytesAt pl n)
           (c = true ∨ x.imm = 0 → u.archOf k = some (t.arch.writePred p.val c)) ∧
           (c = false → x.imm ≠ 0 → u.archOf k = some t.arch ∧
             ∃ v w, u.threads[k]? = some v ∧ v.pc = t.pc ∧ v.latches = [] ∧ v.st = .parked (.twait w) ∧ w.dst = p.val ∧ w.hint = x.imm.toNat ∧
               w.start = s.time.toNat))))

/-- Team operations: `TLEAVE` makes the member leave; a member that has left, and a bad mask of `XCHG`, trap TEAM whatever the guard;
an arrival counts, and waits while some member of the team has still to come; where it is the last and all agree, every participant
whose guard was true gets the result of R45 and R46, and nobody else changes; and where they do not agree, every participant raises TEAM
with its destination unwritten (stated for the policies that keep a thread). A thread of a node's batch is a team of its own (R41 to
R46, R200, R412, R413). -/
def Obligations.TeamOperations : Prop :=
  ∀ (s s1 : State) (k : Nat) (t : Thread) (x : ExtOp) (i : Instr) (c0 cx : Ctx) (g : Bool), s.clear k t i → guardOf t i.ext = g →
    (g = true → s.reads k t i c0 cx s1) → t.node = none ∨ t.tsize = 1 → t.tsize ∈ [1, 2, 4, 8, 16, 32, 64] →
    let n := t.tcount + 1
    let badMask := i = .xchg x ∧ (x.imm.toNat % 64 = 0 ∨ t.tsize ≤ x.imm.toNat % 64)
    let trap : State := trapsAt s k t i ⟨0x0C, 0, BitVec.ofNat 32 n, 0, false⟩
    (i = .tleave x → g = true → (t.left = true → exec i s = .next trap) ∧
      (t.left = false → ∃ u, exec i s = .next u ∧ u.archOf k = some t.arch ∧ OthersKept s u k ∧ BytesKept s u ∧ DeviceKept s u ∧
        u.threads[k]?.map (fun v => (v.left, v.tcount)) = some (true, t.tcount))) ∧
    (i ∈ [Instr.tsync x, .xchg x, .xshf x, .xvote x, .xred x] →
      (t.left = true ∨ badMask → exec i s = .next trap) ∧
      (t.left = false → ¬ badMask → (∃ j v, j ≠ k ∧ Spec.mate s t j v ∧ v.st ≠ .exited ∧ v.tcount < n ∧ v.left = false) →
        ∃ u, exec i s = .next u ∧ u.archOf k = some t.arch ∧ OthersKept s u k ∧ BytesKept s u ∧ DeviceKept s u ∧
          ∃ v a, u.threads[k]? = some v ∧ v.pc = t.pc ∧ Spec.arrived v n a ∧ a.supplies = g ∧ a.key.1 = i.opc) ∧
      (t.left = false → ¬ badMask → (∀ j v, j ≠ k → Spec.mate s t j v → v.st = .exited ∨ n ≤ v.tcount ∨ v.left = true) →
        (∀ j v, Spec.mate s t j v → v.tsize = t.tsize) →
        (∀ j v j' v', Spec.mate s t j v → Spec.mate s t j' v' → v.tid = v'.tid → j = j') →
        let mine : Arrival := ⟨(i.opc, x.func.toNat, if i = .xchg x then x.imm.toNat % 64 else 0), g, x.func.getLsbD 0, Spec.lo64 cx.va, Spec.lo64 cx.vc,
          (Spec.lo32 cx.vb).toNat, (match x.d with | .reg m => m.val | _ => 0), i.len⟩
        ((∀ j v a, j ≠ k → Spec.mate s t j v → Spec.arrived v n a → a.key = mine.key) →
          ∀ sup : Nat → Option DWord,
            (∀ m y, sup m = some y ↔ (g = true ∧ m = t.tid.toNat % t.tsize ∧ y = mine.value) ∨
              ∃ j v a, j ≠ k ∧ Spec.mate s t j v ∧ Spec.arrived v n a ∧ a.supplies = true ∧ m = v.tid.toNat % t.tsize ∧ y = a.value) →
            (i = .xred x → ∀ m y, sup m = some y → y.toNat < 2 ^ 32) →
            ∃ u o fl, exec i s = .next u ∧ BytesKept s u ∧ DeviceKept s u ∧ (i = .xred x → Spec.tree x.func.toNat sup 6 0 o fl) ∧
              u.archOf k = some (Spec.received t.arch t.tsize (t.tid.toNat % t.tsize) sup o fl mine) ∧
              (∀ j v a, j ≠ k → Spec.mate s t j v → Spec.arrived v n a →
                u.archOf j = some (Spec.received v.arch t.tsize (v.tid.toNat % t.tsize) sup o fl a)) ∧
              (∀ j v, j ≠ k → s.threads[j]? = some v → (¬ ∃ a, Spec.mate s t j v ∧ Spec.arrived v n a) → u.archOf j = s.archOf j)) ∧
        ((∃ j v a, j ≠ k ∧ Spec.mate s t j v ∧ Spec.arrived v n a ∧ a.key ≠ mine.key) →
          (s.pkg.tpolicy >>> 24).setWidth 2 = 2#2 ∨ (s.pkg.tpolicy >>> 24).setWidth 2 = 3#2 →
          t.sup = false → t.pend = [] → (∀ j v a, j ≠ k → Spec.mate s t j v → Spec.arrived v n a → v.sup = false ∧ v.pend = []) →
          let kept := fun (v : Thread) => (v.regs, v.preds, v.lk, v.shadow, v.fmode, v.fflags)
          let pc := fun (v : Thread) => match v.region with | some r => r.abegin | none => v.pc
          let left := fun (u : State) (j : Nat) => u.threads[j]?.map (fun v => (kept v, v.trec, decide (v.st = .trapped) || v.sup))
          ∃ u, exec i s = .next u ∧ BytesKept s u ∧ DeviceKept s u ∧
            left u k = some (kept t, trapRecord s t ⟨0x0C, 0, BitVec.ofNat 32 n, 0, false⟩ (i.len / 4) t.pc (pc t) false, true) ∧
            (∀ j v a, j ≠ k → Spec.mate s t j v → Spec.arrived v n a →
              left u j = some (kept v, trapRecord s v ⟨0x0C, 0, BitVec.ofNat 32 n, 0, false⟩ (a.len / 4) v.pc (pc v) false, true)) ∧
            (∀ j v, j ≠ k → s.threads[j]? = some v → (¬ ∃ a, Spec.mate s t j v ∧ Spec.arrived v n a) → u.archOf j = s.archOf j))))

namespace Sys2Proof.Spec

/-- The token of a task's next record: its address, and its sequence number (R184, R186). -/
def token (T : Task) : DWord := BitVec.ofNat 64 (T.desc.tokpool + 16 * T.tokNext + T.tokSeq % 2 ^ 16 * 2 ^ 48)

/-- A record has been taken: the pool's index and sequence number have advanced, the number past 0 (R186). -/
def took (T T' : Task) : Prop :=
  T'.tokNext = (T.tokNext + 1) % T.desc.ntok ∧ T'.tokSeq = (if T.tokSeq = 65535 then 1 else T.tokSeq + 1)

/-- A stop request waits for a thread, on its partition or its section (R224, R302). -/
def stopWaits (s : State) (t : Thread) : Bool := decide (t.pnum ∈ s.front.stopReq) || t.stopReq

/-- One more command stands behind the others, for a thread's task, core and address, with its token and block. -/
def queued (s u : State) (k : Nat) (t : Thread) (kind : CmdKind) (a tok : DWord) (block : List Byte) (st : CmdSt) : Prop :=
  u.cmds.length = s.cmds.length + 1 ∧ u.cmds.take s.cmds.length = s.cmds ∧
    ∃ c, u.cmds[s.cmds.length]? = some c ∧ c.kind = kind ∧ c.task = t.task ∧ c.k = k ∧ c.core = t.core ∧ c.addr = a ∧ c.tok = tok ∧ c.block = block ∧ c.st = st

end Sys2Proof.Spec

/-- `MMA`, `SORT`, `COLL` and `COPY`: their checks in order (an address outside the tile window is ENGINE_PARAM for a copy, and so is a
task without a token pool for each), and otherwise one command queued with its block as read, its token taken from the pool and in its
destination (R186, R206, R233, R252, R268, R349, R350, R390, R405; what a copy's chain
may say of entries that reach beyond it is the model's choice, log 50). -/
def Obligations.EngineCommands : Prop :=
  ∀ (s s1 : State) (k : Nat) (t : Thread) (T : Task) (x : ExtOp) (i : Instr) (kind : CmdKind) (n : Nat) (c0 cx : Ctx),
    s.runs k t i → s.reads k t i c0 cx s1 → s.tasks[t.task]? = some T →
    (i, kind, n) ∈ [(Instr.mma x, CmdKind.mma, 128), (.sort x, .sort, 64), (.coll x, .coll, 64), (.copy x, .copy, 128)] →
    let a := Spec.lo64 cx.va
    (∀ e, s.resolve k t a n n false = .error e → exec i s = .next (trapsAt s k t i e)) ∧
    (∀ pl, s.resolve k t a n n false = .ok pl →
      (T.desc.ntok = 0 ∨ kind = .copy ∧ a.toNat < 0xFF00000000000000 → exec i s = .next (trapsAt s k t i ⟨0x0E, a, 0, 0, false⟩)) ∧
      (T.desc.ntok ≠ 0 → T.tokFree = true →
        (kind ≠ .copy → s.absentAt pl n = false → s.pkg.linkFault pl n false = none → (∀ j < n, Spec.badByte s t pl j = false) →
          ∃ u T', exec i s = .next u ∧ u.archOf k = some (t.arch.write x.d .q ((Spec.token T).setWidth 128)) ∧ OthersKept s u k ∧
            Spec.queued s u k t kind a (Spec.token T) (Spec.loaded s t pl n) .queued ∧ u.tasks[t.task]? = some T' ∧ Spec.took T T') ∧
        (∀ s2 b, kind = .copy → 0xFF00000000000000 ≤ a.toNat → s1.readChain k cx.t a 256 [] = .ok s2 b → chainFail b = none →
          ∃ u T', exec i s = .next u ∧ u.archOf k = some (t.arch.write x.d .q ((Spec.token T).setWidth 128)) ∧ OthersKept s u k ∧
            Spec.queued s u k t .copy a (Spec.token T) b .queued ∧ u.tasks[t.task]? = some T' ∧ Spec.took T T')))

/-- `SPAWN` reads a descriptor and a list of tokens and begins a task of the parent's with them, its token in its destination;
`EMIT` moves a record to the oldest free pool slot and appends the slot to its node's queue, or waits for a slot, behind emitters that have
parked before it, or holds one while its record is awaited, or traps ENGINE_PARAM;
and `NEVAL` waits for lines of its handle's entry and descriptor that have not landed, and then joins a row to the open tile of its handle,
which closes at 64 rows or where a stop request waits for the thread, or opens one where none is open, and parks (R133, R181, R186, R188,
R199, R224, R302, R358, R393, R407; which joiner's descriptor a tile runs with is the model's choice, log 44). -/
def Obligations.SpawnEmitNeval : Prop :=
  ∀ (s s1 : State) (k : Nat) (t : Thread) (T : Task) (x : ExtOp) (c0 cx : Ctx), s.tasks[t.task]? = some T →
    (∀ s2 s3 d toks, s.runs k t (.spawn x) → s.reads k t (.spawn x) c0 cx s1 →
      s1.rangeCheck cx (Spec.lo64 cx.va) 256 64 64 = none →
      (x.func.toNat ≠ 0 → s1.rangeCheck cx (Spec.lo64 cx.vc) (8 * x.func.toNat) 8 8 = none) →
      (T.desc.ntok = 0 → exec (.spawn x) s = .next (trapsAt s k t (.spawn x) ⟨0x0E, Spec.lo64 cx.va, 0, 0, false⟩)) ∧
      (T.desc.ntok ≠ 0 → T.tokFree = true → s1.loadMany k cx.t (Spec.lo64 cx.va) 64 4 = .ok (s2, d) →
        s2.loadMany k cx.t (Spec.lo64 cx.vc) 8 x.func.toNat = .ok (s3, toks) → s.liveTasks < Config.maxTasks →
        ∃ u C, exec (.spawn x) s = .next u ∧ u.archOf k = some (t.arch.write x.d .q ((Spec.token T).setWidth 128)) ∧ OthersKept s u k ∧
          u.tasks.length = s.tasks.length + 1 ∧ u.tasks[s.tasks.length]? = some C ∧ C.parent = some t.task ∧ C.tok = some (Spec.token T) ∧
          C.raw = spawnDesc d toks x.func.toNat ∧ C.prio ≤ T.prio)) ∧
    (s.runs k t (.emit x) → s.reads k t (.emit x) c0 cx s1 →
      (T.graph = none → exec (.emit x) s = .next (trapsAt s k t (.emit x) (mkTrap 0x0E 0))) ∧
      (∀ g : Graph, T.graph = some g →
        let waiting := s.threads.any (fun v => v.task = t.task && (match v.st with | .parked (.emit _) => true | _ => false))
        (g.nodes[x.imm.toNat % 65536]? = none → exec (.emit x) s = .next (trapsAt s k t (.emit x) (mkTrap 0x0E 0))) ∧
        (∀ nd, g.nodes[x.imm.toNat % 65536]? = some nd → s1.rangeCheck cx (Spec.lo64 cx.va) nd.recsize 4 4 = none →
          (g.free.length ≤ s.heldSlots t.task ∨ waiting = true ∧ (∀ is, s.front.issue = some is → is.wake = false) →
            exec (.emit x) s = .next (Spec.parked s k (.emit (x.imm.toNat % 65536)))) ∧
          (∀ w, s.heldSlots t.task < g.free.length → waiting = false → s1.loadMany k cx.t (Spec.lo64 cx.va) 4 (nd.recsize / 4) = .error (.wait w) →
            exec (.emit x) s = .next (Spec.parked s k (.slot (x.imm.toNat % 65536) w))) ∧
          (∀ slot rest s2 bs s3, g.free = slot :: rest → s.heldSlots t.task < g.free.length → waiting = false →
            s1.loadMany k cx.t (Spec.lo64 cx.va) 4 (nd.recsize / 4) = .ok (s2, bs) →
            (s2.useFree (g.slotsize - nd.recsize)).storeWords k cx.t (BitVec.ofNat 64 (g.pool + g.slotsize * slot))
              (bs ++ freeBytes s2.freeCtr (g.slotsize - nd.recsize)) (g.slotsize / 4) = .ok s3 →
            ∃ u U, exec (.emit x) s = .next u ∧ u.archOf k = some t.arch ∧ OthersKept s u k ∧ DeviceKept s u ∧ BytesKept s3 u ∧
              (let nd' : Node := { nd with recs := nd.recs ++ [(slot, s.time.toNat)] }
               u.tasks[t.task]? = some U ∧ U.graph = some { g with free := rest, nodes := g.nodes.set (x.imm.toNat % 65536) nd' }))))) ∧
    (∀ w, s.runs k t (.neval x) → s.reads k t (.neval x) c0 cx s1 → s1.nevalAbsent cx = some w → exec (.neval x) s = .next (Spec.parked s k w)) ∧
    (∀ s2 a d, s.runs k t (.neval x) → s.reads k t (.neval x) c0 cx s1 → s1.nevalAbsent cx = none → s1.nevalFetch cx = .ok (s2, a, d) →
      (nevDescOk d = false → exec (.neval x) s = .next (trapsAt s k t (.neval x) ⟨0x0E, BitVec.ofNat 64 a, 0, 0, false⟩)) ∧
      (∀ va vd : Fin 128, x.a = .reg va false → x.d = .reg vd → nevDescOk d = true →
        (∀ j < nevIn d, va.val + j < 128 ∧ hasReg t.regsN (va.val + j) = true ∧ va.val + j ∉ t.badRegs) → (∀ j < nevOut d, vd.val + j < 128 ∧ hasReg t.regsN (vd.val + j) = true) →
        ∃ u nt row, exec (.neval x) s = .next u ∧ u.archOf k = some t.arch ∧ OthersKept s u k ∧ BytesKept s u ∧
          u.threads[k]?.map (fun v => (v.st, v.pc)) = some (.parked .neval, t.pc) ∧
          nt ∈ u.ntiles ∧ nt.live = true ∧ nt.task = t.task ∧ nt.core = t.core ∧ nt.handle = x.imm.toNat % 64 ∧ row ∈ nt.rows ∧ row.k = k ∧
          row.dst = vd.val ∧ row.x = (List.range (nevIn d)).map (fun (j : Nat) => t.regs.getD (va.val + j) 0) ∧
          (let joins := fun (m : NTile) => m.live = true ∧ m.closed = false ∧ m.task = t.task ∧ m.core = t.core ∧ m.handle = x.imm.toNat % 64
           (∀ n m, s.ntiles[n]? = some m → joins m → (∀ h < n, ∀ m', s.ntiles[h]? = some m' → ¬ joins m') →
             u.ntiles = s.ntiles.set n { m with rows := m.rows ++ [row], closed := decide (64 ≤ m.rows.length + 1) || Spec.stopWaits s t }) ∧
           ((∀ m ∈ s.ntiles, ¬ joins m) → u.ntiles = s.ntiles ++ [⟨t.task, t.core, x.imm.toNat % 64, s.time.toNat, Spec.stopWaits s t, [row], d, true⟩]))))

/-! ## Device events: resets, the boot sequence and the control window (R294 to R305) -/

namespace Sys2Proof.Spec

/-- Nothing of the device is left, every window register stands at its Reset value, and the boot sequence is about to run (R294, R295). -/
def cleared (u : State) : Prop :=
  u.threads = [] ∧ u.tasks = [] ∧ u.cmds = [] ∧ u.tiles = [] ∧ u.accs = [] ∧ u.ntiles = [] ∧ u.power = [] ∧ u.front = Front.reset ∧
    u.win = { Win.reset with state := 1 }

/-- An image that is there: a header of 64 bytes with the magic, and behind it a body of the size that it gives and a signature (R296). -/
def imageThere (bs : List Byte) : Prop :=
  64 ≤ bs.length ∧ leNat (bs.take 4) = 0x4D484E47 ∧ 64 + leNat ((bs.drop 8).take 4) + 9092 ≤ bs.length

/-- What an address field of the window names (R294). -/
def named (a : Nat) : Place := if 2 ^ 63 ≤ a then .host (a % 2 ^ 63) else .dev (a % 2 ^ 52) true

/-- Exactly `n` bytes. -/
def sized (n : Nat) (bs : List Byte) : List Byte := (List.range n).map (fun (j : Nat) => bs.getD j 0)

/-- The first 256 bytes of a report (R297; the bytes that its cfg field is taken over are the model's, log 8). -/
def reportHead (s : State) : List Byte :=
  let fw := s.pkg.flash.take (64 + leNat ((s.pkg.flash.drop 8).take 4))
  let cfg := s.pkg.scope ++ leBytes 8 s.pkg.tpolicy.toNat ++ leBytes 8 s.pkg.hvec.toNat ++ leBytes 8 s.win.savebase.toNat ++ leBytes 8 s.win.savesize.toNat
  leBytes 4 1 ++ leBytes 4 0 ++ leBytes 8 Config.serial.toNat ++ leBytes 4 s.pkg.sigidx ++ leBytes 44 0 ++ s.bytesAt (named s.win.attnonce.toNat) 64 ++
    shake256 fw ++ shake256 cfg

/-- The partition that the window selects. -/
def selected (s : State) (p : Nat) : Prop := s.win.core.toNat < 48 ∧ p = 4 * (48 * s.win.die.toNat + s.win.core.toNat) + s.win.part.toNat

/-- The partition is stopped: a stop is in effect, none of its threads can issue or is issuing, and none waits in supervisor mode
(R283, R302). -/
def halted (s : State) (p : Nat) : Prop :=
  p ∈ s.front.stopReq ∧ (∀ t ∈ s.threads, t.pnum = p → t.st ≠ .ready ∧ ∀ w, t.st = .parked w → t.sup = false) ∧
    ∀ is, s.front.issue = some is → is.part ≠ p

/-- The policy of the code in a thread's trap record (R278). -/
def policyOf (s : State) (t : Thread) : BitVec 2 := (s.pkg.tpolicy >>> (2 * (t.trec[0].toNat % 256))).setWidth 2

/-- Thread `k` stands in the selected slot of partition `p`, and no other one does. -/
def inSlot (s : State) (p k : Nat) (t : Thread) : Prop :=
  s.threads[k]? = some t ∧ t.resident = true ∧ t.pnum = p ∧ t.slot = s.win.slot.toNat ∧
    ∀ j v, s.threads[j]? = some v → v.resident = true → v.pnum = p → v.slot = t.slot → j = k

/-- A window write has been refused (R294). -/
def refused (s : State) : State := { s with win := { s.win with refused := true } }

end Sys2Proof.Spec

/-- `POWER_ON`, `COLD_RESET` and `WARM_RESET` clear the device but for the signature index. A cold reset keeps host memory and the memory of
other packages, and a warm one the bytes of device memory and of host memory (those of a sum held in a cache apart, which R295 does not
settle); a reset write while state is 1 is ignored. `BOOT` runs its checks in order and makes the package ready with what the firmware
gives; `ATTESTATION_START` takes the window to busy or exhausted, and `ATTESTATION_COMPLETE` writes the report and spends an index (R294 to R297; the layout of what the
report's cfg digest is taken over is the model's choice, log 8, and what memory holds behind a cold reset its log 2, and that reserved header bytes hinder
no boot its log 48). A link that has not trained has no capacity, the scope table holds hop
distances of 1 to 4 or 0xFF and 0 for the package's own (R144, R266); that without a working Plogon link no other package is reached is the
model's reading of R267 (log 31). -/
def Obligations.ResetsBootAndAttestation : Prop :=
  ∀ s : State,
    (∃ u, exec .powerOn s = .next u ∧ Spec.cleared u ∧ u.pkg.sigidx = s.pkg.sigidx) ∧
    (s.win.state ≠ 1 → ∃ u, exec .coldReset s = .next u ∧ Spec.cleared u ∧ u.pkg.sigidx = s.pkg.sigidx ∧ u.mem.host = s.mem.host ∧
      (s.canonical → ∀ a, u.mem.dev.get a = if farBase ≤ a then s.mem.dev.get a else State.reset.mem.dev.get a)) ∧
    (s.win.state ≠ 1 → s.canonical → ∃ u, exec .warmReset s = .next u ∧ Spec.cleared u ∧ u.pkg.sigidx = s.pkg.sigidx ∧
      (∀ a, u.mem.host.get a = s.mem.host.get a) ∧
      ∀ a, (∀ g ∈ s.mem.grc, ¬ (g.addr ≤ a ∧ a < g.addr + 16) ∧ ¬ (g.counter ≤ a ∧ a < g.counter + 8)) → u.mem.dev.get a = s.mem.dev.get a) ∧
    (s.win.state = 1 → exec .coldReset s = .next s ∧ exec .warmReset s = .next s) ∧
    (∀ r, s.win.state = 1 →
      let fails := fun (c : Byte) => exec (.boot r) s = .next { s with win := { s.win with state := 3, fail := c } }
      (¬ Spec.imageThere r.image → fails 1) ∧
      (Spec.imageThere r.image → imageVerifies r.image = false → fails 2) ∧
      (Spec.imageThere r.image → imageVerifies r.image = true → leNat ((r.image.drop 4).take 4) < Config.minVersion → fails 3) ∧
      (Spec.imageThere r.image → imageVerifies r.image = true → Config.minVersion ≤ leNat ((r.image.drop 4).take 4) →
        (r.hbmOk = false → fails 4) ∧
        (r.hbmOk = true → ∃ u, exec (.boot r) s = .next u ∧ u.win = { s.win with state := 2, savebase := r.savebase, savesize := r.savesize } ∧
          u.pkg.index = r.pkg ∧ u.pkg.tpolicy = r.tpolicy ∧ u.pkg.hvec = r.hvec ∧ u.pkg.unalloc = r.unalloc ∧ u.pkg.flash = r.image ∧
          u.pkg.scope.length = 512 ∧ u.pkg.cap.length = 4 ∧ u.pkg.cxlUp.length = 4 ∧ u.pkg.plogonUp.length = 12 ∧
          (∀ p < 512, let b := r.scope.getD p 0
            u.pkg.scope.getD p 0 = if p = r.pkg.toNat then 0 else if 1 ≤ b.toNat ∧ b.toNat ≤ 4 then b else 0xFF) ∧
          (∀ l < 4, u.pkg.cxlUp.getD l false = r.cxlUp.getD l false ∧
            u.pkg.cap.getD l 0 = if r.cxlUp.getD l false then r.cap.getD l 0 else 0) ∧
          (∀ l < 12, u.pkg.plogonUp.getD l false = r.plogonUp.getD l false) ∧
          ((∃ l < 12, r.plogonUp.getD l false = true) → u.pkg.noRoute = []) ∧
          ((∀ l < 12, r.plogonUp.getD l false = false) → ∀ p, p ∈ u.pkg.noRoute ↔ p < 512 ∧ p ≠ r.pkg.toNat) ∧
          u.mem = s.mem ∧ u.threads = s.threads ∧ u.tasks = s.tasks))) ∧
    (s.win.attst ≠ 1 → exec .attestationStart s = .next { s with win := { s.win with attst := if s.pkg.sigidx < 2 ^ 20 then 1 else 3 } }) ∧
    (s.win.attst = 1 → exec .attestationStart s = .next s ∧
      (s.canonical → ∃ u, exec .attestationComplete s = .next u ∧ u.win = { s.win with attst := 2 } ∧ u.pkg = { s.pkg with sigidx := s.pkg.sigidx + 1 } ∧
        Spec.stored s u (Spec.named s.win.attout.toNat)
          (Spec.reportHead s ++ Spec.sized 9732 (Config.reportSignature s.pkg.sigidx (Spec.reportHead s)))))

/-- The debug controls. `PARTITION_STOP` stops the ready threads of the selected partition that stand outside a latch chain and
supervisor mode, and closes the Coelostat tiles that hold its threads; `PARTITION_RESUME` and `PARTITION_STEP` make the stopped ones ready
at their pcs, and let one that was stopped in Trapped enter its handler; `END_THREAD` ends a thread that policy 11 holds, and `RELEASE`
takes it from Trapped at its pc; the two are refused without such a thread of a stopped partition. A `THREAD_WINDOW_WRITE` of a writable
field of a thread of a stopped partition with nothing outstanding has its effect, a pc written to a parked thread being where it goes on
at the resume, and one while the partition runs is refused (R224, R283, R302, R303, R305; that a released thread stands stopped until the
resume, and how a parked one takes its new pc, is the model's reading, log 21). -/
def Obligations.DebugControls : Prop :=
  ∀ (s : State) (p : Nat), Spec.selected s p →
    (p ∉ s.front.stopReq → ∃ u, exec .partitionStop s = .next u ∧ p ∈ u.front.stopReq ∧ ∀ (k : Nat) (t : Thread), s.threads[k]? = some t →
      (t.pnum = p → t.st = .ready → t.inChain = false → t.sup = false →
        ∃ v, u.threads[k]? = some v ∧ v.st = .stopped ∧ v.latches = [] ∧ v.arch = t.arch ∧ (t.region = none → v.pc = t.pc)) ∧
      (t.pnum ≠ p ∨ t.st ≠ .ready → u.threads[k]? = some t) ∧
      (t.pnum = p → ∀ (i : Nat) (n : NTile), s.ntiles[i]? = some n → n.live = true → (∃ r ∈ n.rows, r.k = k) →
        u.ntiles[i]? = some { n with closed := true })) ∧
    (p ∈ s.front.stopReq → exec .partitionStop s = .next s) ∧
    (p ∈ s.front.stopReq → ∃ u, exec .partitionResume s = .next u ∧ p ∉ u.front.stopReq ∧ ∀ (k : Nat) (t : Thread), s.threads[k]? = some t →
      (t.pnum = p → t.st = .stopped → t.stopReq = false → ∃ v, u.threads[k]? = some v ∧ v.st = .ready ∧ v.pc = t.pc ∧ v.arch = t.arch) ∧
      (t.pnum = p → t.st = .trapped → t.stopReq = false → Spec.policyOf s t = 2#2 →
        ∃ v, u.threads[k]? = some v ∧ v.st = .ready ∧ v.pc = s.pkg.hvec ∧
          v.arch = { t.arch with trec := t.trec.set 3 t.pc, epc := t.pc, hact := 0, sup := true }) ∧
      (t.pnum ≠ p ∨ t.st ≠ .stopped ∧ (t.st ≠ .trapped ∨ Spec.policyOf s t ≠ 2#2) → u.threads[k]? = some t)) ∧
    (p ∉ s.front.stopReq → exec .partitionResume s = .next s) ∧
    (Spec.halted s p → ∃ u, exec .partitionStep s = .next u ∧ p ∉ u.front.stopReq ∧ p ∈ u.front.step1 ∧ ∀ (k : Nat) (t : Thread), s.threads[k]? = some t →
      t.pnum = p → t.st = .stopped → t.stopReq = false → ∃ v, u.threads[k]? = some v ∧ v.st = .ready ∧ v.pc = t.pc ∧ v.arch = t.arch) ∧
    (¬ Spec.halted s p → exec .partitionStep s = .next s ∧ exec .endThread s = .next (Spec.refused s) ∧ exec .release s = .next (Spec.refused s) ∧
      ∀ off v, off % 8 = 0 → off < 0x300 → exec (.threadWindowWrite off v) s = .next (Spec.refused s)) ∧
    ((∀ t ∈ s.threads, t.resident = true → t.pnum = p → t.slot ≠ s.win.slot.toNat) →
      exec .endThread s = .next (Spec.refused s) ∧ exec .release s = .next (Spec.refused s)) ∧
    (∀ (k : Nat) (t : Thread), Spec.halted s p → Spec.inSlot s p k t →
      (t.st = .trapped → Spec.policyOf s t = 3#2 → ∃ u v, exec .endThread s = .next u ∧ u.threads[k]? = some v ∧ v.st = .exited) ∧
      (t.st ≠ .trapped ∨ Spec.policyOf s t ≠ 3#2 →
        exec .endThread s = .next (Spec.refused s) ∧ exec .release s = .next (Spec.refused s)) ∧
      (t.st = .trapped → Spec.policyOf s t = 3#2 → t.inChain = false → t.sup = false → t.region = none →
        ∃ u v, exec .release s = .next u ∧ u.threads[k]? = some v ∧ v.st = .stopped ∧ v.pc = t.pc ∧ v.arch = t.arch) ∧
      (∀ w : BitVec 64, ((∀ p, t.st ≠ .parked p) → exec (.threadWindowWrite 0x00 w) s = .next (s.setThread k { t with pc := w })) ∧
        (∀ a, t.st = .parked (.rendezvous a) →
          exec (.threadWindowWrite 0x00 w) s = .next (s.setThread k { t with pc := w, st := .stopped, tcount := t.tcount - 1 })) ∧
        (∀ d, t.st = .parked (.twait d) → ∃ u v, exec (.threadWindowWrite 0x00 w) s = .next u ∧ u.threads[k]? = some v ∧ v.pc = w ∧ v.st = .stopped ∧
          v.arch = t.arch) ∧
        (t.st = .parked .neval → ∃ u v, exec (.threadWindowWrite 0x00 w) s = .next u ∧ u.threads[k]? = some v ∧ v.pc = w ∧ v.st = .parked .neval ∧
          ∀ n ∈ u.ntiles, ∀ r ∈ n.rows, r.k = k → r.len = 0) ∧
        exec (.threadWindowWrite 0x18 w) s = .next (s.setThread k { t with lk := w }) ∧
        exec (.threadWindowWrite 0x20 w) s = .next (s.setThread k { t with preds := (w >>> 16).setWidth 7, fmode := (w >>> 32).setWidth 3, fflags := (w >>> 40).setWidth 5 }) ∧
        (∀ off, off ∈ [0x08, 0x10, 0x28] → exec (.threadWindowWrite off w) s = .next (Spec.refused s)) ∧
        (∀ r, r % 2 = 0 → r + 1 < t.regsN → t.regsN ≤ 128 → t.pend = [] → t.st = .stopped →
          ∃ u v, exec (.threadWindowWrite (0x100 + 4 * r) w) s = .next u ∧ u.threads[k]? = some v ∧ v.arch = t.arch.write (.reg (Fin.ofNat 128 r)) .q (w.setWidth 128))))

/-- The other registers of the control window: a write of the budget is clipped, a write of a basic-block counter makes its sum the
value, a write of spbase or of splg's word empties the Spectrograph's ring, and `CONTROL_WINDOW_WRITE` stores what the register at
its offset holds, acts as the event of that register, or is ignored, as is one of other than 8 bytes. `SPECTROGRAPH_SAMPLE` counts the open issue of its partition when the
tag of its lowest-lane member matches, and at every 2^spint-th such issue writes a record to the ring, or counts a drop when the ring is
full (R294, R299, R301). -/
def Obligations.WindowWritesAndSampling : Prop :=
  (∀ (s : State) (p : Fin 768) (is : Issue) (t : Thread), s.front.issue = some is → is.part = p.val → is.counted = false → s.threads[is.lead]? = some t →
      let hit := t.tag &&& s.win.tagmask = s.win.tagval
      let n := (aget s.front.spcount p.val).getD 0 + 1
      let due := hit ∧ s.win.spint ≠ 0 ∧ n % 2 ^ s.win.spint.toNat = 0
      let full := (s.win.sphead - s.win.sptail).toNat = 2 ^ s.win.splg.toNat
      let pl := Spec.named (s.win.spbase.toNat + 32 * (s.win.sphead.toNat % 2 ^ s.win.splg.toNat))
      ∃ u, exec (.spectrographSample p) s = .next u ∧ u.front.issue = some { is with counted := true } ∧ u.threads = s.threads ∧ u.tasks = s.tasks ∧
        (hit → aget u.front.spcount p.val = some n) ∧ (¬ due → u.win = s.win ∧ u.mem = s.mem) ∧
        (due → full → u.mem = s.mem ∧ u.win = { s.win with spdrop := if s.win.spdrop = 0xFFFFFFFF then s.win.spdrop else s.win.spdrop + 1 }) ∧
        (due → ¬ full → s.canonical → u.win = { s.win with sphead := s.win.sphead + 1 } ∧ BytesKeptBut s u pl 32 ∧
          ∃ rest : List Byte, rest.length = 8 ∧ u.bytesAt pl 32 = leBytes 8 s.time.toNat ++ leBytes 8 t.pc.toNat ++
            leBytes 4 ((s.tasks[t.task]?.map (fun x => x.num.toNat)).getD 0) ++ leBytes 4 t.tid.toNat ++ rest)) ∧
  ∀ (s : State) (v : BitVec 64),
    (∀ c, s.win.core.toNat < 48 → c = 48 * s.win.die.toNat + s.win.core.toNat →
      ∃ u, exec (.budgetWrite v) s = .next u ∧ (u.powerOf c).budget = min v.toNat 200000000 ∧ (u.powerOf c).used = (s.powerOf c).used ∧
        ∀ d, d ≠ c → u.powerOf d = s.powerOf d) ∧
    (∀ i : BitVec 8, ∃ u, exec (.bbcCounterWrite i v) s = .next u ∧ u.bbcRead i.toNat = v ∧ ∀ j < 256, j ≠ i.toNat → u.bbcRead j = s.bbcRead j) ∧
    exec (.spectrographRingConfig false v) s = .next { s with win := { s.win with spbase := v, sphead := 0, sptail := 0 } } ∧
    exec (.spectrographRingConfig true v) s = .next { s with win := { s.win with
      splg := v.setWidth 5, spint := (v >>> 8).setWidth 5, tagmask := (v >>> 16).setWidth 16, tagval := (v >>> 32).setWidth 16, sphead := 0, sptail := 0 } } ∧
    (∀ off, exec (.controlWindowWrite off none) s = .next s) ∧
    (let put := fun (off : BitVec 16) (w : Win) => exec (.controlWindowWrite off (some v)) s = .next { s with win := w }
     let same := fun (off : BitVec 16) (i : Instr) => exec (.controlWindowWrite off (some v)) s = exec i s
     put 0x010 { s.win with mqbase := v } ∧ put 0x018 { s.win with mqlg := v.setWidth 4 } ∧ put 0x020 { s.win with mqtail := v.setWidth 32 } ∧
     put 0x040 { s.win with attnonce := v } ∧ put 0x048 { s.win with attout := v } ∧ put 0x118 { s.win with sptail := v.setWidth 32 } ∧
     put 0x120 { s.win with spdrop := v.setWidth 32 } ∧
     put 0x200 { s.win with die := v.setWidth 2, core := (v >>> 8).setWidth 6, part := (v >>> 16).setWidth 2, slot := (v >>> 24).setWidth 9 } ∧
     (∀ d : Fin 4, put (BitVec.ofNat 16 (0x060 + 8 * d.val)) { s.win with ecc := s.win.ecc.set d v }) ∧
     put 0x210 (if v.getLsbD 1 then { s.win with refused := false } else s.win) ∧
     (v.toNat % 4 = 1 → same 0x008 .warmReset) ∧ (v.toNat % 4 = 2 → same 0x008 .coldReset) ∧ (v.toNat % 4 = 0 ∨ v.toNat % 4 = 3 → put 0x008 s.win) ∧
     (v.toNat % 2 = 1 → same 0x050 .attestationStart) ∧
     same 0x100 (.spectrographRingConfig false v) ∧ same 0x108 (.spectrographRingConfig true v) ∧ same 0x300 (.budgetWrite v) ∧
     (v = 1 → same 0x208 .partitionStop) ∧ (v = 2 → same 0x208 .partitionResume) ∧ (v = 4 → same 0x208 .partitionStep) ∧ (v = 8 → same 0x208 .endThread) ∧
     (v = 16 → same 0x208 .release) ∧
     (∀ i : BitVec 8, same (BitVec.ofNat 16 (0x1000 + 8 * i.toNat)) (.bbcCounterWrite i v)) ∧
     (∀ off, off % 8 = 0 → off < 0x300 → same (BitVec.ofNat 16 (0x2000 + off)) (.threadWindowWrite off v)) ∧
     (∀ off : BitVec 16, off.toNat % 8 ≠ 0 ∨ off.toNat ∈ [0x000, 0x028, 0x030, 0x038, 0x058, 0x110, 0x308, 0x310, 0x318, 0x320] ∨ 0x2300 ≤ off.toNat ∨
       0x400 ≤ off.toNat ∧ off.toNat < 0x1000 → put off s.win))

/-! ## Device events: the management queue (R152 to R155, R174, R204) -/

namespace Sys2Proof.Spec

/-- The bytes of an entry of the management queue (R204). -/
def entry (code a0 a1 a2 a3 record seq : Nat) : List Byte :=
  leBytes 8 code ++ leBytes 8 a0 ++ leBytes 8 a1 ++ leBytes 8 a2 ++ leBytes 8 a3 ++ leBytes 8 record ++ leBytes 8 seq ++ leBytes 8 0

/-- The package is ready and its next entry in queue order has the bytes `e`. -/
def entryIs (s : State) (e : List Byte) : Prop :=
  s.win.state = 2 ∧ s.win.mqhead ≠ s.win.mqtail ∧ s.bytesAt (named (s.win.mqbase.toNat + 64 * (s.win.mqhead.toNat % 2 ^ s.win.mqlg.toNat))) 64 = e

/-- The entry has been taken, and its completion record holds a status (R184, R204). -/
def answered (s u : State) (record seq st : Nat) : Prop :=
  u.win = { s.win with mqhead := s.win.mqhead + 1 } ∧ u.bytesAt (named record) 16 = leBytes 8 (st + seq * 2 ^ 48) ++ leBytes 8 0

/-- A configuration block of a queue (R174). -/
def queueBlock (ring tail head root lg cap : Nat) : List Byte :=
  leBytes 8 ring ++ leBytes 8 tail ++ leBytes 8 head ++ leBytes 8 root ++ leBytes 8 (lg + 256 * cap) ++ leBytes 24 0

/-- A live task holds the page that an entry maps (R149, R152). -/
def held (s : State) (l : Leaf) : Prop := ∃ T ∈ s.tasks, T.phase ≠ .complete ∧ ∃ e ∈ T.tlb, ∃ m, s.walk T.tlbRoot e.va = some m ∧ m.entry = l.entry

/-- Two extents have a byte in common. -/
def share (p : Place) (n : Nat) (q : Place) (m : Nat) : Prop := ∃ x : Place, x.within p n ∧ x.within q m

end Sys2Proof.Spec

/-- The commands of the management queue, each taken in queue order: `QUEUE_SET` sets a queue from its block with its head at 0,
`QUEUE_STOP` stops one, `MIGRATE` and `BIAS` begin an operation on a page, or answer TENURE_HELD where a live task holds it,
`CANCEL` stops a task's threads and commands with cause CANCELLED, `WATCHDOG` sets the interval, and any other command is answered
BAD_PARAM (R152 to R155, R174, R204; records are named as the window names addresses, log 18). -/
def Obligations.ManagementCommands : Prop :=
  ∀ (s : State) (record seq a0 a1 a2 a3 : Nat), s.canonical → seq < 2 ^ 16 → record < 2 ^ 64 → a0 < 2 ^ 64 → a1 < 2 ^ 64 → a2 < 2 ^ 64 → a3 < 2 ^ 64 →
    let e := fun (code : Nat) => Spec.entry code a0 a1 a2 a3 record seq
    (∀ ring tail head root lg cap, Spec.entryIs s (e 1) → a0 < 64 → s.bytesAt (Spec.named a1) 64 = Spec.queueBlock ring tail head root lg cap →
      s.homeBad (Spec.named a1) 64 = false → ring < 2 ^ 64 → tail < 2 ^ 64 → head < 2 ^ 64 → root < 2 ^ 64 → ring % 256 = 0 → tail % 128 = 0 → head % 4 = 0 →
      tail / 128 ≠ head / 128 → 4 ≤ lg → lg ≤ 16 → cap ≤ 15 →
      ∃ u q, exec .queueSet s = .next u ∧ Spec.answered s u record seq 1 ∧ u.queue? a0 = some q ∧ q.set = true ∧ q.stopped = false ∧ q.ring = ring ∧
        q.tailaddr = tail ∧ q.headaddr = head ∧ q.ptroot = root ∧ q.lgsize = lg ∧ q.pcap = cap ∧ q.head = 0) ∧
    (∀ q, Spec.entryIs s (e 2) → a0 < 64 → s.queue? a0 = some q →
      ∃ u, exec .queueStop s = .next u ∧ Spec.answered s u record seq 1 ∧ u.queue? a0 = some { q with stopped := true } ∧ u.tasks = s.tasks) ∧
    (∀ l, s.walk a0 a1 = some l → l.tlb.va = a1 →
      (Spec.entryIs s (e 3) → a2 % l.tlb.size = 0 → a2 + l.tlb.size ≤ 0xC000000000 →
        (Spec.held s l → ∃ u, exec .migrate s = .next u ∧ Spec.answered s u record seq 0x0D ∧ u.pkg = s.pkg) ∧
        (¬ Spec.held s l → s.pkg.pageOps = [] → ∃ u, exec .migrate s = .next u ∧ u.win.mqhead = s.win.mqhead + 1 ∧
          u.pkg.pageOps = [⟨true, a0, a1, a2, record, seq, true⟩] ∧ leNat (u.bytesAt (Spec.named l.entry) 8) / 2 ^ 8 % 2 = 1) ∧
        (¬ Spec.held s l → ∀ o ∈ s.pkg.pageOps, o.started = true → o.ptroot = a0 → o.va = a1 → ∃ u, exec .migrate s = .next u ∧
          u.pkg.pageOps = s.pkg.pageOps ++ [⟨true, a0, a1, a2, record, seq, false⟩] ∧ BytesKept s u)) ∧
      (Spec.entryIs s (e 4) → a2 < 2 →
        (Spec.held s l → ∃ u, exec .bias s = .next u ∧ Spec.answered s u record seq 0x0D ∧ u.pkg = s.pkg) ∧
        (¬ Spec.held s l → s.pkg.pageOps = [] → ∃ u, exec .bias s = .next u ∧ u.win.mqhead = s.win.mqhead + 1 ∧ BytesKept s u ∧
          u.pkg.pageOps = [⟨false, a0, a1, a2, record, seq, true⟩]))) ∧
    (∀ (ti : Nat) (T : Task), Spec.entryIs s (e 5) → s.tasks[ti]? = some T → T.phase ≠ .complete → T.num.toNat = a0 →
      (∀ j V, s.tasks[j]? = some V → V.phase ≠ .complete → V.num.toNat = a0 → j = ti) →
      ∃ u U, exec .cancel s = .next u ∧ Spec.answered s u record seq 1 ∧ u.tasks[ti]? = some U ∧ U.cause = some (T.cause.getD ⟨0x08, 0, 0⟩) ∧
        (∀ v ∈ u.threads, v.task = ti → v.st = .exited) ∧ ∀ c ∈ u.cmds, c.task = ti → c.st = .complete) ∧
    (Spec.entryIs s (e 6) → 100 ≤ a0 → a0 ≤ 10000000 →
      ∃ u, exec .watchdog s = .next u ∧ Spec.answered s u record seq 1 ∧ u.pkg = { s.pkg with watchdog := a0 }) ∧
    (∀ bs : List Byte, Spec.entryIs s bs → leNat ((bs.drop 0x28).take 8) = record → leNat ((bs.drop 0x30).take 2) = seq →
      leNat (bs.take 1) = 0 ∨ 6 < leNat (bs.take 1) ∨ leNat ((bs.drop 1).take 7) ≠ 0 ∨ leNat ((bs.drop 0x32).take 14) ≠ 0 ∨
        leNat (bs.take 1) ∈ [1, 2] ∧ 64 ≤ leNat ((bs.drop 8).take 8) ∨
        leNat (bs.take 1) = 6 ∧ (leNat ((bs.drop 8).take 8) < 100 ∨ 10000000 < leNat ((bs.drop 8).take 8)) →
      ∃ u, exec .mqInvalidCommand s = .next u ∧ Spec.answered s u record seq 0x06 ∧ u.pkg = s.pkg ∧ u.tasks = s.tasks ∧ u.threads = s.threads)

/-- `MIGRATION_COMPLETE` of the one operation under way: its page's bytes stand in the new frame, the entry names that frame with mig
clear, the record says DONE and nothing is under way any more; `BIAS_FLIP_COMPLETE` likewise writes the new bias (R153, R154; bytes
that the entry or the record itself takes are those; where the completion record stands, and that additions to statistics records wait for
a migration of theirs and are made behind it, is the model's reading, log 18). -/
def Obligations.PageOperationsComplete : Prop :=
  ∀ (s : State) (o : PageOp) (l : Leaf), s.canonical → s.pkg.pageOps = [o] → o.started = true → s.walk o.ptroot o.va = some l → s.mem.grc = [] →
    o.seq < 2 ^ 16 →
    (o.mig = true → ∃ u, exec .migrationComplete s = .next u ∧ u.pkg.pageOps = [] ∧ u.pkg.stats.Sublist s.pkg.stats) ∧
    let done := fun (u : State) => u.pkg = { s.pkg with pageOps := [] } ∧ u.bytesAt (Spec.named o.record) 16 = leBytes 8 (1 + o.seq * 2 ^ 48) ++ leBytes 8 0
    (o.mig = true → s.pkg.stats = [] → o.target % l.tlb.size = 0 → o.target + l.tlb.size ≤ 0xC000000000 →
      ∃ u, exec .migrationComplete s = .next u ∧ done u ∧
        (∀ j < l.tlb.size, ¬ (Place.dev (o.target + j) true).within (Spec.named l.entry) 8 → ¬ (Place.dev (o.target + j) true).within (Spec.named o.record) 16 →
          u.byteAt (.dev (o.target + j) true) = s.byteAt ((l.tlb.place l.tlb.va).plus j)) ∧
        (¬ Spec.share (Spec.named l.entry) 8 (Spec.named o.record) 16 →
          let e := leNat (u.bytesAt (Spec.named l.entry) 8)
          e / 2 ^ 8 % 2 = 0 ∧ e / 2 ^ 6 % 4 = 0 ∧ e / 2 ^ 12 % 2 ^ 40 = o.target / 2 ^ 12)) ∧
    (o.mig = false → o.target < 2 →
      ∃ u, exec .biasFlipComplete s = .next u ∧ done u ∧
        (¬ Spec.share (Spec.named l.entry) 8 (Spec.named o.record) 16 → leNat (u.bytesAt (Spec.named l.entry) 8) / 2 ^ 5 % 2 = o.target))

/-! ## Device events: the launch, placement and end of tasks (R149, R175, R176, R181, R182, R187, R289 to R293) -/

namespace Sys2Proof.Spec

/-- The record of a token as a task's page tables show it: not in migration, not poisoned, complete for that token, with a status
(R153, R184). -/
def tokenHas (s : State) (root : Nat) (tok : DWord) (st : Nat) : Prop :=
  s.migAt root (tok.toNat % 2 ^ 48) 16 2 = false ∧ ∃ bs ts, s.devRead root (tok.toNat % 2 ^ 48) 16 = some (bs, ts) ∧ ts.any id = false ∧
    leNat (bs.take 1) = st ∧ st ≠ 0 ∧ (leNat ((bs.drop 6).take 2) + 2 ^ 16 - tok.toNat / 2 ^ 48) % 2 ^ 16 < 2 ^ 15

/-- A page that a launch needs: mapped by a valid leaf with the rights, not in migration and not in a bias flip (R149). -/
def usable (s : State) (root : Nat) (w x : Bool) (a : Nat) : Prop :=
  ∃ l, s.walk root a = some l ∧ l.tlb.r = true ∧ (w = true → l.tlb.w = true) ∧ (x = true → l.tlb.x = true) ∧ l.mig = false ∧
    ∀ o ∈ s.pkg.pageOps, o.mig = false → o.started = true → ∀ m, s.walk o.ptroot o.va = some m → m.entry ≠ l.entry

/-- A page that fails step 2 of R149: no valid leaf, or one without the rights. -/
def unfit (s : State) (root : Nat) (w x : Bool) (a : Nat) : Prop :=
  ∀ l, s.walk root a = some l → l.tlb.r = false ∨ (w = true ∧ l.tlb.w = false) ∨ (x = true ∧ l.tlb.x = false)

/-- The regions of a task in the order of R149, each as base, size, write and execute right: its tenure list, then its code region. -/
def regions (T : Task) : List (Nat × Nat × Bool × Bool) :=
  T.tenure.map (fun r => (r.base, r.size, r.rw, false)) ++ [(T.desc.codebase, T.desc.codesize, false, true)]

/-- Every page of a region can be held now. -/
def regionFree (s : State) (root : Nat) (r : Nat × Nat × Bool × Bool) : Prop :=
  ∀ a, r.1 ≤ a → a < r.1 + r.2.1 → usable s root r.2.2.1 r.2.2.2 a

/-- Translations hold exactly pages of some regions, and each of their pages (R149, steps 4 and 5). -/
def holds (s : State) (root : Nat) (rs : List (Nat × Nat × Bool × Bool)) (tlb : List Tlb) : Prop :=
  (∀ e ∈ tlb, ∃ r ∈ rs, ∃ a l, r.1 ≤ a ∧ a < r.1 + r.2.1 ∧ s.walk root a = some l ∧ e = l.tlb) ∧
    ∀ r ∈ rs, ∀ a, r.1 ≤ a → a < r.1 + r.2.1 → ∃ l, s.walk root a = some l ∧ l.tlb ∈ tlb

/-- No page of a task's status record, or of its token's record, is in migration (R153). -/
def statusFree (s : State) (T : Task) : Prop :=
  s.migAt T.tlbRoot T.desc.status 16 2 = false ∧ ∀ k, T.tok = some k → s.migAt T.tlbRoot (k.toNat % 2 ^ 48) 16 2 = false

/-- A task has completed with a status, a detail and a count: it holds nothing, and its status record says so (R184, R187). -/
def completed (s u : State) (ti : Nat) (T : Task) (st detail count : Nat) : Prop :=
  (∃ U, u.tasks[ti]? = some U ∧ U.phase = .complete ∧ U.tlb = []) ∧
    (T.tok = none → T.graph = none → T.desc.status ≠ 0 → T.desc.status % 16 = 0 → T.desc.status < 2 ^ 48 →
      u.mem.dev = (s.devWrite T.tlbRoot T.desc.status (leBytes 8 (st + detail % 2 ^ 32 * 2 ^ 16 + T.desc.sseq % 2 ^ 16 * 2 ^ 48) ++ leBytes 8 count)).mem.dev)

/-! ### The checks before launch (R177 to R179, R193, R197, R198, R418, R419) -/

/-- The first failing one of some checks in their order. -/
def firstOf (l : List (Option (Nat × Nat))) : Option (Nat × Nat) := l.findSome? id

/-- BAD_PARAM with a detail, where a rule is broken. -/
def rule (detail : Nat) (ok : Bool) : Option (Nat × Nat) := if ok then none else some (6, detail)

/-- A field of `n` bytes of a structure: poison comes before what the rule says of it. -/
def fieldRule (ts : List Bool) (off n detail : Nat) (ok : Bool) : Option (Nat × Nat) :=
  if ((ts.drop off).take n).any id then some (5, detail) else rule detail ok

/-- A number of registers (R20). -/
def registers (n : Nat) : Bool := decide (16 ≤ n ∧ n ≤ 128 ∧ n % 8 = 0)

/-- The descriptor's own fields in ascending offset (R177, R179); a reserved gap is one field, named by its lowest byte (log 15). -/
def descRules (b : List Byte) (root : Nat) : Option (Nat × Nat) :=
  let f := field b
  let zero := fun (off n : Nat) => rule off (decide (f off n = 0))
  firstOf ([rule 0 (decide (1 ≤ f 0 4)), rule 4 (registers (f 4 1)), rule 5 (decide (f 5 1 % 8 ≤ 6)), rule 5 (decide (f 5 1 / 8 = 0)),
    rule 6 (decide (f 6 1 / 128 = 0)), rule 7 (decide (f 7 1 / 8 = 0)), rule 8 (decide (2 ≤ f 8 2 ∧ f 8 2 ≤ 256)),
    rule 0xA (decide (8 ≤ f 0xA 2 ∧ f 0xA 2 ≤ 512)), rule 0xC (decide (f 0xC 2 ≤ 8192)),
    rule 0xE (decide (f 6 1 / 64 % 2 = 1 → f 0xE 2 ≤ 2047)), rule 0x10 (decide (f 0x10 8 % 4 = 0)), rule 0x18 (decide (f 0x18 8 % 65536 = 0)),
    rule 0x20 (decide (f 0x20 8 ≠ 0 ∧ f 0x20 8 % 65536 = 0)), rule 0x28 (decide (f 0x28 8 % 65536 = 0 ∧ f 0x28 8 = root))] ++
   [rule 0x30 (decide (f 0x30 8 % 16 = 0)), rule 0x38 (decide (f 0x38 2 ≤ 1024)), zero 0x3C 4, rule 0x40 (decide (f 0x40 8 % 8 = 0)),
    rule 0x48 (decide (f 0x48 4 % 8 = 0 ∧ f 0x48 4 ≤ 4096)), zero 0x4C 4, rule 0x58 (decide (f 0x58 8 % 65536 = 0)),
    rule 0x60 (decide (f 0x60 8 % 65536 = 0)), rule 0x68 (decide (f 0x68 8 % 16 = 0 ∧ f 0x68 8 < 2 ^ 48)),
    rule 0x70 (decide (f 0x70 4 ∈ [0, 64, 128, 256, 512, 1024, 2048, 4096, 8192, 16384, 32768, 65536])), zero 0x74 4,
    rule 0x78 (decide (f 0x78 8 % 8 = 0)), rule 0x80 (decide (f 0x80 8 % 16 = 0 ∧ f 0x80 8 < 2 ^ 48)), rule 0xD0 (decide (f 0xD0 1 % 8 ≤ 4)),
    rule 0xD0 (decide (f 0xD0 2 / 8 = 0)), rule 0xD4 (decide (f 0xD4 44 = 0))])

/-- The tenure list: base and size of each entry, and its regions as base, size and right to write (R149, R178). -/
def tenureRules (n : Nat) (bs : List Byte) (ts : List Bool) : Option (Nat × Nat) :=
  firstOf ((List.range n).flatMap (fun i =>
    let size := field bs (16 * i + 8) 8 / 2 * 2
    [fieldRule ts (16 * i) 8 (0x10000 + 16 * i) (decide (field bs (16 * i) 8 % 65536 = 0)),
     fieldRule ts (16 * i + 8) 8 (0x10000 + 16 * i + 8) (decide (size ≠ 0 ∧ size % 65536 = 0))]))
def tenureRegions (n : Nat) (bs : List Byte) : List (Nat × Nat × Bool) :=
  (List.range n).map (fun i => (field bs (16 * i) 8, field bs (16 * i + 8) 8 / 2 * 2, decide (field bs (16 * i + 8) 8 % 2 = 1)))

/-- Every byte of an extent lies in a region that may be written. -/
def writable (rs : List (Nat × Nat × Bool)) (a n : Nat) : Bool :=
  (List.range n).all (fun j => rs.any (fun r => r.2.2 && decide (r.1 ≤ a + j ∧ a + j < r.1 + r.2.1)))

/-- The bytes of the rings of channel `n` and of the lower-numbered declared ones, each rounded to 128 (R193). -/
def ringSum (bs : List Byte) (n : Nat) : Nat :=
  ((List.range (n + 1)).map (fun m =>
    let e := field bs (8 * m) 8
    if e % 2 = 0 then 0 else (2 ^ (e / 8 % 16) * (4 * 2 ^ (e / 2 % 4)) + 127) / 128 * 128)).sum

/-- The channel table (R193): width and depth, the ring's place, and the threshold of each declared entry; an undeclared one is zero. -/
def channelRules (tile : Nat) (bs : List Byte) (ts : List Bool) : Option (Nat × Nat) :=
  firstOf ((List.range 32).flatMap (fun n =>
    let e := field bs (8 * n) 8
    let r := fun (off k : Nat) (ok : Bool) => fieldRule ts (8 * n + off) k (0x100 + 8 * n + off) ok
    let v := decide (e % 2 = 1)
    [r 0 1 (if v then decide (e / 2 % 4 ≠ 3 ∧ 1 ≤ e / 8 % 16 ∧ e / 8 % 16 ≤ 12) else decide (e % 256 = 0)),
     r 1 2 (if v then decide (ringSum bs n ≤ tile ∧ 128 * (e / 256 % 65536) = tile - ringSum bs n) else decide (e / 256 % 65536 = 0)),
     r 3 1 (decide (e / 2 ^ 24 % 256 = 0)), r 4 2 (if v then decide (e / 2 ^ 32 % 65536 ≠ 0) else decide (e / 2 ^ 32 % 65536 = 0)),
     r 6 2 (decide (e / 2 ^ 48 % 65536 = 0))]))

/-- The graph descriptor (R197) and the node table (R198). -/
def graphRules (bs : List Byte) (ts : List Bool) : Option (Nat × Nat) :=
  let f := field bs
  let r := fun (off n : Nat) (ok : Bool) => fieldRule ts off n (0x200 + off) ok
  firstOf [r 0 8 (decide (f 0 8 % 64 = 0)), r 8 4 (decide (1 ≤ f 8 4 ∧ f 8 4 ≤ 65536)), r 0xC 4 (decide (f 0xC 4 ∈ [64, 128, 192, 256])),
    r 0x10 8 (decide (f 0x10 8 % 256 = 0)), r 0x18 4 (decide (1 ≤ f 0x18 4 ∧ f 0x18 4 ≤ 2 ^ 20)), r 0x1C 4 (decide (f 0x1C 4 = 0))]
def nodeRules (nnodes slotsize : Nat) (bs : List Byte) (ts : List Bool) : Option (Nat × Nat) :=
  firstOf ((List.range nnodes).flatMap (fun i =>
    let f := fun (off n : Nat) => field bs (64 * i + off) n
    let r := fun (off n : Nat) (ok : Bool) => fieldRule ts (64 * i + off) n (0x100000 + 64 * i + off) ok
    [r 0 8 (decide (f 0 8 % 4 = 0)), r 8 2 (decide (4 ≤ f 8 2 ∧ f 8 2 ≤ slotsize ∧ f 8 2 % 4 = 0)), r 0xA 1 (decide (1 ≤ f 0xA 1 ∧ f 0xA 1 ≤ 64)),
     r 0xB 1 (registers (f 0xB 1)), r 0xC 2 (decide (1 ≤ f 0xC 2)), r 0xE 2 (decide (f 0xE 2 = 0)), r 0x10 8 true, r 0x18 40 (decide (f 0x18 40 = 0))]))

/-- A structure that can be read is checked; one that cannot is named by a detail. -/
def structRule (s : State) (root a n detail : Nat) (k : List Byte → List Bool → Option (Nat × Nat)) : Option (Nat × Nat) :=
  match s.devRead root a n with
  | none => some (6, detail)
  | some (bs, ts) => k bs ts

/-- What the checks of R179 and R419 find first: a status, BAD_PARAM (6) or POISON (5), with a detail. -/
def launchFault (s : State) (root : Nat) (b : List Byte) : Option (Nat × Nat) :=
  let f := field b
  let n := f 0x38 2
  (descRules b root).or (structRule s root (f 0x30 8) (16 * n) 0x30 (fun tb tt =>
    let rs := tenureRegions n tb
    let must := fun (a k detail : Nat) => rule detail (writable rs a k)
    firstOf [tenureRules n tb tt,
      firstOf ((List.range (f 0xD0 1 % 8)).map (fun i =>
        let tok := f (0xB0 + 8 * i) 8
        if tok = 0 then none
        else (rule (0xB0 + 8 * i) (decide (tok % 16 = 0))).or (structRule s root (tok % 2 ^ 48) 16 (0xB0 + 8 * i) (fun _ ts => fieldRule ts 0 16 (0xB0 + 8 * i) true)))),
      structRule s root (f 0x40 8) (f 0x48 4) 0x40 (fun _ _ => none),
      (if f 0x50 8 = 0 then none else structRule s root (f 0x50 8) 256 0x50 (channelRules (128 * f 0xC 2))),
      (if f 0x90 8 = 0 then none else structRule s root (f 0x90 8) 32 0x90 (fun gb gt => (graphRules gb gt).or
        (structRule s root (field gb 0 8) (64 * field gb 8 4) 0x200 (nodeRules (field gb 8 4) (field gb 0xC 4))))),
      must (f 0x68 8) (16 * f 0x70 4) 0x68, must (f 0x58 8) (f 0x60 8) 0x58,
      (if f 0x90 8 = 0 then none else structRule s root (f 0x90 8) 32 0x90 (fun gb _ =>
        (must (field gb 0x10 8) (field gb 0xC 4 * field gb 0x18 4) 0x210).or
          (structRule s root (field gb 0 8) (64 * field gb 8 4) 0x200 (fun nb _ =>
            firstOf ((List.range (field gb 8 4)).map (fun i => must (field nb (64 * i + 0x10) 8) (4 * field gb 0x18 4) (0x100000 + 64 * i + 0x10)))))))]))

/-- A thread at the start of its life: at its entry, its registers 0 but for the stack pointer q124, and ready, or stopped with its
partition (R21, R35). -/
def fresh (T : Task) (v : Thread) (node : Option Nat) (tid ntid core part slot : Nat) (entry : DWord) : Prop :=
  v.node = node ∧ v.tid = BitVec.ofNat 32 tid ∧ v.ntid = BitVec.ofNat 32 ntid ∧ v.core = core ∧ v.part = part ∧ v.slot = slot ∧ v.pc = entry ∧
    v.regs = writeRegs (Vector.replicate 128 0) 124 (0xFE00000000000000 + 4096 * T.desc.stack - 4096) 2 ∧ v.preds = 0 ∧ v.shadow = [] ∧
    (v.st = .ready ∨ v.st = .stopped)

end Sys2Proof.Spec

/-- `TAIL_STORE_RECALL` reads a queue's tail word again. `SUBMISSION_SLOT_READ` reads the next descriptor, which begins launch with its
bytes and is checked at once, and steps the head; it stops a queue whose tail is too far ahead, or whose slot cannot be read or holds
poison, and does nothing while the host port runs CXL.io only. A task in its launch checks, which `TASK_DEPENDENCES_COMPLETE` makes again
where a migration kept them back, completes with the status and the detail of the first rule that R179 and R419 find broken, or goes on
to wait for its dependences with its tenure list read.
`TASK_DEPENDENCES_COMPLETE` ends the wait with every token DONE, and completes the task with DEP_FAILED and the index of the first token
that has another status. `TENURE_GRANT` holds every page of every region; it holds those of the regions before one that has a page in
migration or in a bias flip, and waits; and it completes the task with a tenure failure that names the first failing region and
address (R149, R154, R175 to R179, R181, R184, R193, R197, R198, R261, R418, R419; the form of the QUEUE_ERROR report is the model's,
log 41, and the lowest index of several failed tokens its reading, log 41; which byte of a reserved field is named, log 15; the waits for a
migration, log 18). -/
def Obligations.TaskLaunch : Prop :=
  ∀ s : State,
    (∀ (q : Fin 64) (x : Queue) (v : Nat), s.queue? q.val = some x → 64 ≤ s.pkg.port.1 → s.pkg.port.2.2 = true →
      s.migAt x.ptroot x.tailaddr 4 1 = false → s.devNat x.ptroot x.tailaddr 4 = some v →
      ∃ u, exec (.tailStoreRecall q) s = .next u ∧ u.queue? q.val = some { x with tail := BitVec.ofNat 32 v } ∧ u.tasks = s.tasks ∧ u.mem = s.mem) ∧
    (¬ (64 ≤ s.pkg.port.1 ∧ s.pkg.port.2.2 = true) → ∀ q : Fin 64, exec (.submissionSlotRead q) s = .next s ∧ exec (.tailStoreRecall q) s = .next s) ∧
    (∀ (q : Fin 64) (x : Queue), s.queue? q.val = some x → x.stopped = false → x.head ≠ x.tail → s.win.state = 2 → 64 ≤ s.pkg.port.1 → s.pkg.port.2.2 = true →
      let a := x.ring + 256 * (x.head.toNat % 2 ^ x.lgsize)
      let still := s.migAt x.ptroot a 256 2 = false ∧ s.migAt x.ptroot x.headaddr 4 1 = false ∧ (s.tasks.filter (fun t => t.phase ≠ .complete)).length < 65536
      let failed := ∃ u, exec (.submissionSlotRead q) s = .next u ∧ u.queue? q.val = some { x with stopped := true } ∧
        u.pkg.qerrors = s.pkg.qerrors ++ [q.val] ∧ u.tasks = s.tasks
      (2 ^ x.lgsize < (x.tail - x.head).toNat → failed) ∧
      ((x.tail - x.head).toNat ≤ 2 ^ x.lgsize → still → s.devRead x.ptroot a 256 = none → failed) ∧
      (∀ bs ts, (x.tail - x.head).toNat ≤ 2 ^ x.lgsize → still → s.devRead x.ptroot a 256 = some (bs, ts) →
        (ts.any id = true → failed) ∧
        (ts.any id = false → (leNat ((bs.drop 6).take 1) / 32 % 2 = 1 → ∀ t ∈ s.tasks, t.queue = some q.val → t.phase = .complete) →
          ∃ u T, exec (.submissionSlotRead q) s = .next u ∧ u.queue? q.val = some { x with head := x.head + 1 } ∧ u.tasks.length = s.tasks.length + 1 ∧
            u.tasks[s.tasks.length]? = some T ∧ T.raw = bs ∧ T.queue = some q.val ∧ T.tlbRoot = x.ptroot ∧
            T.prio = min (leNat ((bs.drop 6).take 1) % 16) x.pcap ∧
            ∃ v N, N.raw = bs ∧ N.desc = parseDesc bs ∧ N.phase = .check ∧ N.tlbRoot = x.ptroot ∧
              exec (.taskDependencesComplete s.tasks.length) { s with tasks := s.tasks ++ [N], serial := s.serial + 1 } = .next v ∧ u.tasks = v.tasks))) ∧
    (∀ (ti : Nat) (T : Task), s.tasks[ti]? = some T → T.phase = .check → T.desc = parseDesc T.raw → T.raw.length = 256 → Spec.statusFree s T →
      (∀ e, Spec.descRules T.raw T.tlbRoot = some e → ∃ u, exec (.taskDependencesComplete ti) s = .next u ∧ Spec.completed s u ti T e.1 e.2 0) ∧
      (Spec.descRules T.raw T.tlbRoot = none → s.structsWait T.tlbRoot T.desc = true → exec (.taskDependencesComplete ti) s = .next s) ∧
      (s.structsWait T.tlbRoot T.desc = false →
        (∀ e, Spec.launchFault s T.tlbRoot T.raw = some e → ∃ u, exec (.taskDependencesComplete ti) s = .next u ∧ Spec.completed s u ti T e.1 e.2 0) ∧
        (Spec.launchFault s T.tlbRoot T.raw = none → ∃ u U, exec (.taskDependencesComplete ti) s = .next u ∧ u.tasks[ti]? = some U ∧ U.phase = .waitDeps ∧
          u.mem = s.mem ∧ u.threads = s.threads ∧ ∀ bs ts, s.devRead T.tlbRoot (Spec.field T.raw 0x30 8) (16 * Spec.field T.raw 0x38 2) = some (bs, ts) →
            U.tenure.map (fun r => (r.base, r.size, r.rw)) = Spec.tenureRegions (Spec.field T.raw 0x38 2) bs))) ∧
    (∀ (ti : Nat) (T : Task), s.tasks[ti]? = some T → T.phase = .waitDeps →
      let deps := T.desc.deps.take T.desc.ndep
      ((∀ d ∈ deps, d = 0 ∨ Spec.tokenHas s T.tlbRoot d 1) →
        exec (.taskDependencesComplete ti) s = .next (s.modTask ti (fun t => { t with phase := .waitTenure }))) ∧
      (∀ (i st : Nat) (d : DWord), deps[i]? = some d → d ≠ 0 → st ≠ 1 → Spec.tokenHas s T.tlbRoot d st → Spec.statusFree s T →
        (∀ j e, j < i → deps[j]? = some e → e = 0 ∨ ∀ w, Spec.tokenHas s T.tlbRoot e w → w = 1) →
        ∃ u, exec (.taskDependencesComplete ti) s = .next u ∧ Spec.completed s u ti T 9 i 0)) ∧
    (∀ (ti : Nat) (T : Task), s.tasks[ti]? = some T → T.phase = .waitTenure →
      let rs := Spec.regions T
      ((∀ r ∈ rs, Spec.regionFree s T.tlbRoot r) →
        ∃ u U, exec (.tenureGrant ti) s = .next u ∧ u.tasks[ti]? = some U ∧ U.phase = .placing ∧ u.mem = s.mem ∧ Spec.holds s T.tlbRoot rs U.tlb) ∧
      (∀ i base size w x, rs[i]? = some (base, size, w, x) → (∀ r ∈ rs.take i, Spec.regionFree s T.tlbRoot r) →
        ((∀ a, base ≤ a → a < base + size → ¬ Spec.unfit s T.tlbRoot w x a) → ¬ Spec.regionFree s T.tlbRoot (base, size, w, x) →
          ∃ u U, exec (.tenureGrant ti) s = .next u ∧ u.tasks[ti]? = some U ∧ U.phase = .waitTenure ∧ u.mem = s.mem ∧
            Spec.holds s T.tlbRoot (rs.take i) U.tlb) ∧
        (∀ a, base ≤ a → a < base + size → Spec.unfit s T.tlbRoot w x a → (∀ b, base ≤ b → b < a → ¬ Spec.unfit s T.tlbRoot w x b) → Spec.statusFree s T →
          ∃ u, exec (.tenureGrant ti) s = .next u ∧ Spec.completed s u ti T 0x0A i a)))

/-- `TEAM_PLACEMENT` places the next team whole, its threads in the slots named and in ascending number, and the task runs once its last
thread is placed; `TASK_COMPLETE`, once every thread has exited and every command is complete, and no page of its records is in
migration, releases what the task held, writes its status record and sends its interrupt (R21, R153, R182, R187). -/
def Obligations.TaskPlacementAndCompletion : Prop :=
  ∀ (s : State) (ti : Nat) (T : Task), s.tasks[ti]? = some T →
    (∀ (core : Fin 192) (part : Fin 4) (slot : Fin 384), T.phase = .placing → T.blend = none → T.nextTid < T.desc.nthreads → T.desc.tlog2 ≤ 6 →
      s.mayUse ti core.val = true → s.mayServe ti core.val = true → slot.val % 2 ^ T.desc.tlog2 = 0 →
      (∀ i < 2 ^ T.desc.tlog2, ∀ t ∈ s.threads, t.resident = true → t.core = core.val → t.part = part.val → t.slot ≠ slot.val + i) →
      let n := min (2 ^ T.desc.tlog2) (T.desc.nthreads - T.nextTid)
      ∃ u U, exec (.teamPlacement ti core part slot) s = .next u ∧ u.threads.length = s.threads.length + n ∧ (∀ j < s.threads.length, u.threads[j]? = s.threads[j]?) ∧
        (∀ i < n, ∃ v, u.threads[s.threads.length + i]? = some v ∧ v.task = ti ∧
          Spec.fresh T v none (T.nextTid + i) T.desc.nthreads core.val part.val (slot.val + i) T.desc.entry) ∧
        u.tasks[ti]? = some U ∧ U.nextTid = T.nextTid + n ∧ U.phase = (if T.desc.nthreads ≤ T.nextTid + n then .running else .placing)) ∧
    (T.phase = .running → (∀ t ∈ s.threads, t.task = ti → t.st = .exited) → (∀ c ∈ s.cmds, c.task = ti → c.st = .complete) → T.graph = none → Spec.statusFree s T →
      ∃ u U, exec (.taskComplete ti) s = .next u ∧ u.tasks[ti]? = some U ∧ U.phase = .complete ∧ U.tlb = [] ∧ (∀ p ∈ u.mem.pins, p.task ≠ ti) ∧
        (∀ a ∈ u.tiles, a.task = ti → a.live = false) ∧ (∀ a ∈ u.accs, a.task ≠ ti) ∧ u.threads = s.threads ∧
        (T.desc.msix = true → u.pkg.msix = s.pkg.msix ++ [T.desc.vector]) ∧ (T.desc.msix = false → u.pkg.msix = s.pkg.msix) ∧
        (T.tok = none → T.desc.status ≠ 0 → T.desc.status % 16 = 0 → T.desc.status < 2 ^ 48 →
          u.mem.dev = (s.devWrite T.tlbRoot T.desc.status
            (leBytes 8 ((T.cause.getD ⟨1, 0, 0⟩).st % 256 + (T.cause.getD ⟨1, 0, 0⟩).detail % 2 ^ 32 * 2 ^ 16 + T.desc.sseq % 2 ^ 16 * 2 ^ 48) ++ leBytes 8 T.exits)).mem.dev))

/-- `PREEMPT_SECTION`, for a waiter with no qualifying core and the victim's section chosen by R289: a replayable victim is killed, its
threads discarded, its commands cancelled, its tile allocations and accumulators dropped, and it begins launch again from its descriptor;
a section whose threads all stand at a boundary, with nothing outstanding and no engine command, is saved, where the pool has room for
it, and nobody else is touched. A thread record holds the thread's fields where R291 places them. `SECTION_RESUME` brings a saved section
back on an allowed core, each thread on its partition and home lane with what its record in the save area holds, its tag 0; a held one
returns to Trapped, where its policy is applied again (R24, R283, R289, R291 to R293, R300; the pool's layout is the model's, log 9, and
that a resumed thread's fields and a held thread's policy are read from the save area as it then stands is its reading, log 29). -/
def Obligations.PreemptionAndResume : Prop :=
  (∀ (t : Thread) (sc : Nat × Nat) (pad : List Byte), pad.length = 192 → t.regsN ≤ 128 → sc.1 < 4 → sc.2 < 16 → t.part < 4 → t.shadow.length < 65536 →
    let f := fun (o n : Nat) => leNat (((threadRecord t sc pad).drop o).take n)
    f 0 8 = t.pc.toNat ∧ f 8 4 = t.tid.toNat ∧ f 0xC 1 % 4 = sc.1 ∧ f 0xD 1 % 16 = sc.2 ∧ f 0xE 1 % 4 = t.part ∧ f 0xF 1 % 64 = t.slot % 64 ∧
      f 0x18 8 = t.lk.toNat ∧ f 0x22 1 = t.preds.toNat + 128 ∧ f 0x24 1 % 8 = t.fmode.toNat ∧ f 0x25 1 % 32 = t.fflags.toNat ∧
      (∀ r : Fin 128, r.val < t.regsN → f (0x100 + 4 * r.val) 4 = t.regs[r].toNat) ∧
      (t.regsN < 128 → ∀ r : Fin 128, 124 ≤ r.val → f (0x30 + 4 * (r.val - 124)) 4 = t.regs[r].toNat) ∧
      (sc.1 = 2 → ∀ i : Fin 8, f (0xC0 + 8 * i.val) 8 = t.trec[i].toNat)) ∧
  ∀ (s : State) (ti : Nat) (T : Task), s.tasks[ti]? = some T →
    (∀ w core, (∀ t ∈ s.threads, t.resident = true → t.stopReq = false) → s.preemptTarget w = some (ti, core) →
      (T.desc.replay = true → ∃ u U, exec (.preemptSection w) s = .next u ∧ u.tasks[ti]? = some U ∧ U.replayed = true ∧ U.raw = T.raw ∧
        (U.phase = .check ∨ U.phase = .waitDeps ∨ U.phase = .complete) ∧ U.launchNo = s.serial ∧ U.nextTid = 0 ∧ U.exits = 0 ∧ U.sections = [] ∧ U.tlb = [] ∧
        (∀ (k : Nat) (t : Thread), s.threads[k]? = some t → t.task = ti → t.node ≠ some 65536 → ∃ v, u.threads[k]? = some v ∧ v.st = .exited) ∧
        (∀ (c : Nat) (x : Cmd), s.cmds[c]? = some x → x.task = ti → x.st ≠ .complete →
          ∃ y, u.cmds[c]? = some y ∧ y.st = .complete ∧ (x.st ≠ .ended → y.result.st = 8)) ∧
        (∀ (j : Nat) (a : Tile), s.tiles[j]? = some a → a.task = ti → ∃ b, u.tiles[j]? = some b ∧ b.live = false) ∧ (∀ a ∈ u.accs, a.task ≠ ti)) ∧
      (∀ R j, T.desc.replay = false → T.blend = none → s.tileOf ti core = some j →
        (∀ t ∈ s.threads, t.task = ti → t.core = core → t.resident = true → t.st = .ready ∧ t.latches = [] ∧ t.sup = false ∧ t.region = none ∧ t.pend = [] ∧ t.regsN = R) →
        (∀ c ∈ s.cmds, c.task = ti → c.core = core → c.st = .complete ∨
          c.kind = .coll ∧ ∀ o ∈ [8, 0x18, 0x20], leNat ((c.block.drop o).take 8) < 0xFF00000000000000) →
        4194304 + s.pkg.saveNext + (saveLayout (s.sectionThreads ti core).length R T.desc.tile 0 0 (s.accOf ti core).isSome).size ≤ s.win.savesize.toNat →
        ∃ u U sec, exec (.preemptSection w) s = .next u ∧ u.tasks[ti]? = some U ∧ U.sections = T.sections ++ [sec] ∧ sec.core = core ∧ sec.tile = j ∧
          (u.tiles[j]?.map (·.live)) = some false ∧
          ∀ (k : Nat) (t : Thread), s.threads[k]? = some t →
            (t.task = ti → t.core = core → t.resident = true → k ∈ sec.threads ∧ ∃ v, u.threads[k]? = some v ∧ v.st = .saved 0 0 ∧ v.arch = t.arch ∧ v.pc = t.pc) ∧
            (t.task ≠ ti ∨ t.core ≠ core → u.threads[k]? = some t))) ∧
    (∀ (i : Nat) (core : Fin 192) (shift : List Nat) (sec : Section), T.sections[i]? = some sec → T.phase ≠ .complete → sec.threads.Nodup → shift.length = sec.threads.length →
      T.desc.allows core.val = true → s.tileOf ti core.val = none → s.tileUsed core.val + (s.tiles[sec.tile]?.map (·.size)).getD 0 ≤ 1048576 →
      s.mayServe ti core.val = true → s.resumeFits core.val ((sec.threads.filterMap (fun k => s.threads[k]?)).zip shift) = true → s.accsFit ti T.desc core.val sec = true →
      sec.regs ≤ 128 →
      ∃ u U, exec (.sectionResume ti i core shift) s = .next u ∧ u.tasks[ti]? = some U ∧ U.sections = T.sections.eraseIdx i ∧
        ∀ (j k h : Nat) (t : Thread), sec.threads[j]? = some k → shift[j]? = some h → s.threads[k]? = some t →
          let record := s.bytesAt (Spec.named (sec.header + sec.lay.thr + j * (256 + 4 * sec.regs))) (256 + 4 * sec.regs)
          let f := fun (o n : Nat) => leNat ((record.drop o).take n)
          let pc := BitVec.ofNat 64 (f 0 8)
          ∃ v, u.threads[k]? = some v ∧ v.core = core.val ∧ v.part = t.part ∧ v.slot = 64 * h + t.slot % 64 ∧ v.tag = 0 ∧ v.tid = t.tid ∧
            v.lk = BitVec.ofNat 64 (f 0x18 8) ∧ v.preds = BitVec.ofNat 7 (f 0x22 1) ∧ v.fmode = BitVec.ofNat 3 (f 0x24 1) ∧ v.fflags = BitVec.ofNat 5 (f 0x25 1) ∧
            (∀ r : Fin 128, r.val < sec.regs → v.regs[r] = BitVec.ofNat 32 (f (0x100 + 4 * r.val) 4)) ∧
            (∀ r : Fin 128, sec.regs ≤ r.val → 124 ≤ r.val → v.regs[r] = BitVec.ofNat 32 (f (0x30 + 4 * (r.val - 124)) 4)) ∧
            ((¬ ∃ c, t.st = .saved 2 c) → (t.region = none → v.pc = pc) ∧ (v.st = .ready ∨ v.st = .stopped)) ∧
            ((∃ c, t.st = .saved 2 c) →
              let policy := (s.pkg.tpolicy >>> (2 * (f 0xC0 1))).setWidth 2
              (policy ≠ 2#2 → v.st = .trapped ∧ v.pc = pc ∧ ∀ i : Fin 8, v.trec[i] = BitVec.ofNat 64 (f (0xC0 + 8 * i.val) 8)) ∧
              (policy = 2#2 → v.st = .trapped ∨ v.pc = s.pkg.hvec ∧ v.epc = pc ∧ v.sup = true)))

/-! ## Device events of threads (R27, R31, R40, R48, R132, R190, R195, R288) -/

namespace Sys2Proof.Spec

/-- The address and the bytes that a parked `TWAIT` reads, and its condition on them (R184, R189, R190). -/
def waitAddr (w : TWaitRec) : DWord := if w.form = 1 then BitVec.ofNat 64 (w.addr.toNat % 2 ^ 48) else w.addr
def waitBytes (w : TWaitRec) : Nat := if w.form = 0 then (if w.wide then 8 else 4) else 16
def waitHolds (w : TWaitRec) (bs : List Byte) : Bool :=
  match w.form with
  | 0 =>
    let v := w.val.toNat % 2 ^ (8 * waitBytes w)
    match w.cc with
    | 0 => decide (leNat bs = v)
    | 1 => decide (leNat bs ≠ v)
    | 2 => decide (v ≤ leNat bs)
    | _ => decide (leNat bs < v)
  | 1 => decide (leNat (bs.take 1) ≠ 0 ∧ (leNat ((bs.drop 6).take 2) + 2 ^ 16 - w.addr.toNat / 2 ^ 48) % 2 ^ 16 < 2 ^ 15)
  | _ => decide (leNat ((bs.drop 8).take 4) ≠ w.val.toNat % 2 ^ 32)

/-- Thread `k` has left a wait, with registers `A`, at `pc`: ready, or stopped with its section (R35, R40). -/
def woken (u : State) (k : Nat) (A : Arch) (pc : DWord) : Prop := ∃ v, u.threads[k]? = some v ∧ v.arch = A ∧ v.pc = pc ∧ (v.st = .ready ∨ v.st = .stopped)

end Sys2Proof.Spec

/-- `LOAD_DATA_RETURN` lands a thread's earliest outstanding result in its registers, a poisoned one leaving them unchanged and marked;
`COPY_DATA_LANDING` sets the presence bit of a line once no copy still has to fill it; `EXIT_COMPLETE` raises the completion counter by
one and the thread enters Exited; `BIN_AGE_EXPIRY` makes a bin with a member at its release cycle eligible; and `MEMORY_WAIT_SPLIT` parks
the members of a group whose operands have stayed pending for 16 cycles (R27, R31, R40, R48, R132, R287). -/
def Obligations.ThreadEvents : Prop :=
  ∀ s : State,
    (∀ (k : Nat) (t : Thread) (pre post : List Pend) (p : Pend), s.threads[k]? = some t → t.pend = pre ++ p :: post → (∀ q ∈ pre, q.returned = true) → p.returned = false →
      ∃ u v, exec (.loadDataReturn k) s = .next u ∧ u.threads[k]? = some v ∧ OthersKept s u k ∧ BytesKept s u ∧ DeviceKept s u ∧
        (p.poison = none → v.pend = pre ++ post ∧ v.arch = { t.arch with regs := writeRegs t.regs p.first p.val.toNat p.n }) ∧
        (p.poison ≠ none → v.pend = pre ++ { p with returned := true } :: post ∧ v.arch = t.arch)) ∧
    (∀ (c line : Nat) (x : Cmd) (a : Tile), s.cmds[c]? = some x → x.kind = .copy → x.st ≠ .complete → line ∈ x.copy.landing → line ∉ s.copyRemaining x → s.tiles[x.tile]? = some a →
      ∃ u b y, exec (.copyDataLanding c line) s = .next u ∧ u.tiles[x.tile]? = some b ∧ b.mem = a.mem ∧ u.cmds[c]? = some y ∧ line ∉ y.copy.landing ∧
        ((∀ d z, d ≠ c → s.cmds[d]? = some z → z.kind = .copy → z.st ≠ .complete → z.tile = x.tile → line ∉ z.copy.landing) → b.absent = a.absent.filter (fun l => decide (l ≠ line))) ∧
        ((∃ d z, d ≠ c ∧ s.cmds[d]? = some z ∧ z.kind = .copy ∧ z.st ≠ .complete ∧ z.tile = x.tile ∧ line ∈ z.copy.landing) → b.absent = a.absent)) ∧
    (∀ (k : Nat) (t : Thread) (T : Task) (l : Leaf) (n : Nat), s.threads[k]? = some t → t.st = .exiting → s.tasks[t.task]? = some T → T.blend = none → s.canonical →
      s.walk T.desc.ptroot T.desc.ccount = some l → l.mig = false → l.tlb.r = true → l.tlb.w = true → T.desc.ccount % 8 = 0 → n < 2 ^ 64 →
      s.pkg.linkFault (l.tlb.place T.desc.ccount) 8 true = none → s.homeBad (l.tlb.place T.desc.ccount) 8 = false → s.bytesAt (l.tlb.place T.desc.ccount) 8 = leBytes 8 n →
      ∃ u v U, exec (.exitComplete k) s = .next u ∧ u.threads[k]? = some v ∧ v.st = .exited ∧ u.tasks[t.task]? = some U ∧ U.exits = T.exits + 1 ∧
        u.bytesAt (l.tlb.place T.desc.ccount) 8 = leBytes 8 ((n + 1) % 2 ^ 64) ∧ ∀ j, j ≠ k → u.threads[j]? = s.threads[j]?) ∧
    (∀ (p : Fin 768) (b : Nat) (x : Bin), s.front.bins[b]? = some x → x.part = p.val → x.elig = none → (∃ m ∈ x.members, m.release ≤ s.time.toNat) →
      ∃ u, exec (.binAgeExpiry p b) s = .next u ∧ u.front.bins = s.front.bins.set b { x with elig := some s.time.toNat } ∧ u.threads = s.threads ∧ BytesKept s u ∧ DeviceKept s u) ∧
    (∀ (p : Fin 768) (g : Nat) (x : Group), s.front.groups[g]? = some x → x.part = p.val → x.earliest + 16 ≤ s.time.toNat → (∀ k ∈ x.members, k < s.threads.length) →
      (∃ k ∈ x.members, s.pendingOps k = true) → (∃ k ∈ x.members, s.pendingOps k = false) →
      (∀ (k : Nat) (t : Thread), k ∈ x.members → s.pendingOps k = true → s.threads[k]? = some t → t.inChain = false) →
      ∃ u, exec (.memoryWaitSplit p g) s = .next u ∧ ∀ (k : Nat) (t : Thread), s.threads[k]? = some t →
        (k ∈ x.members → s.pendingOps k = true → ∃ v, u.threads[k]? = some v ∧ v.st = .parked .memory ∧ v.pc = t.pc ∧ v.arch = t.arch ∧ v.latches = []) ∧
        (k ∉ x.members ∨ s.pendingOps k = false → u.threads[k]? = some t))

/-- `TWAIT_REEVALUATE` reads a parked `TWAIT`'s address again: a true condition wakes the thread behind the instruction with true, a
false one leaves it parked; `TWAIT_TIMEOUT`, once the hinted time has run out, wakes it with what the condition then is, and before that
changes nothing; and `CHANNEL_SPILL` lets a push that waits for nothing else, behind no push that parked earlier, go on to spill once it
has been parked, and its channel full, for the threshold, and changes nothing before that (R58, R189, R190, R195; that a token's record
and a barrier are read at their home is the model's, log 6, as is the timeout's event, log 35, and from when the threshold counts, log 43). -/
def Obligations.WaitEvents : Prop :=
  ∀ (s : State) (k : Nat) (t : Thread), s.threads[k]? = some t → t.pnum ∉ s.front.stopReq →
    (∀ (w : TWaitRec) (pl : Place), t.st = .parked (.twait w) → t.region = none → ¬ (w.form = 1 ∧ w.addr = 0) →
      ¬ (w.form = 2 ∧ 0xFE00000000000000 ≤ w.addr.toNat ∧ w.addr.toNat < 0xFF00000000000000) →
      s.resolve k t (Spec.waitAddr w) (Spec.waitBytes w) (Spec.waitBytes w) false = .ok pl → s.absentAt pl (Spec.waitBytes w) = false →
      s.pkg.linkFault pl (Spec.waitBytes w) false = none →
      (∀ j < Spec.waitBytes w, (if w.form = 0 then Spec.badByte s t pl j else s.homeBad (pl.plus j) 1) = false) →
      let c := Spec.waitHolds w (if w.form = 0 then Spec.loaded s t pl (Spec.waitBytes w) else s.bytesAt pl (Spec.waitBytes w))
      (∃ u, exec (.twaitReevaluate k) s = .next u ∧ OthersKept s u k ∧ BytesKept s u ∧ DeviceKept s u ∧
        (c = true → Spec.woken u k (t.arch.writePred w.dst true) w.next) ∧
        (c = false → ∃ v, u.threads[k]? = some v ∧ v.arch = t.arch ∧ v.pc = t.pc ∧ v.st = t.st)) ∧
      (w.hint ≠ 0xFFFFFFFF → w.start + w.hint ≤ s.time.toNat →
        ∃ u, exec (.twaitTimeout k) s = .next u ∧ OthersKept s u k ∧ BytesKept s u ∧ DeviceKept s u ∧ Spec.woken u k (t.arch.writePred w.dst c) w.next) ∧
      (w.hint = 0xFFFFFFFF ∨ s.time.toNat < w.start + w.hint → exec (.twaitTimeout k) s = .next s)) ∧
    (∀ (c i : Nat) (h : Chan), s.channelWait k t = some (c, true) → s.chanAt t c = some (i, h) →
      (s.time.toNat < max t.parkedAt h.full + h.thresh → exec (.channelSpill k) s = .next s) ∧
      (s.front.issue = none → max t.parkedAt h.full + h.thresh ≤ s.time.toNat →
        (∀ (j : Nat) (v : Thread), s.threads[j]? = some v → v.task = t.task → v.core = t.core → v.parkNo < t.parkNo → s.channelWait j v ≠ some (c, true)) →
        (s.setChan i { h with due := true }).waitNow k t = none →
        ∃ u v is, exec (.channelSpill k) s = .next u ∧ u.threads[k]? = some v ∧ v.st = .ready ∧ v.pc = t.pc ∧ u.front.issue = some is ∧ is.left = [k] ∧ is.wake = true ∧
          ((u.chanAt v c).map (fun e => (e.1, e.2.due))) = some (i, true)))

/-! ## Device events of graphs, of the deadlock watchdog and of Coelostat (R200, R203, R224, R225) -/

namespace Sys2Proof.Spec

/-- A batch of `q` records of node `n` launches: a thread for each of the oldest records, in queue order by ascending number, in the
slots named, each with its record's address, and the records leave the queue (R200). -/
def launched (s u : State) (ti node core part : Nat) (slots : List Nat) (T : Task) (g : Graph) (n : Node) (q : Nat) : Prop :=
  u.threads.length = s.threads.length + q ∧ (∀ j < s.threads.length, u.threads[j]? = s.threads[j]?) ∧
  (∀ j < q, ∃ v, u.threads[s.threads.length + j]? = some v ∧ v.task = ti ∧ fresh T v (some node) j q core part (slots.getD j 0) n.entry ∧ v.regsN = n.regs ∧ v.tsize = 1 ∧
    v.recAddr = BitVec.ofNat 64 (g.pool + g.slotsize * (n.recs.getD j (0, 0)).1)) ∧
  ∃ U, u.tasks[ti]? = some U ∧ U.graph = some { g with nodes := g.nodes.set node { n with recs := n.recs.drop q } }

/-- Slots for a batch: `q` free ones of one partition, on distinct home lanes (R200). -/
def slotsFor (s : State) (core part q : Nat) (slots : List Nat) : Prop :=
  slots.length = q ∧ (slots.map (· % 64)).Nodup ∧ ∀ h ∈ slots, h < 384 ∧ ∀ t ∈ s.threads, t.resident = true → t.core = core → t.part = part → t.slot ≠ h

/-- A node has a batch ready, whole or by its timeout (R200). -/
def batchReady (n : Node) (now : Nat) : Prop := n.batch ≤ n.recs.length ∨ ∃ r rest, n.recs = r :: rest ∧ r.2 + n.timeout ≤ now

/-- The exact sum of a chunk's products; an integer zero has no sign (R119, R122). -/
def total (whole : Bool) (l : List Val) : Val :=
  match l with
  | [] => .fin false 0
  | _ => match sumOf 0 l with
    | .fin n q => .fin (if whole ∧ q = 0 then false else n) q
    | v => v

/-- A code is a value rounded once to nearest-even, a NaN the canonical one (R100, R101). -/
def encodes (f : Format) (v : Val) (c : Nat) : Prop :=
  match v with
  | .nan _ => c = f.nan
  | .inf n => c = (if n then f.top else 0) + f.inf
  | .fin z q => roundsIn f 0 (q : ℝ) z c

/-- What the model's form of a fetched weight stands for. -/
def meant : FVal → Val
  | .nan g => .nan g
  | .inf n => .inf n
  | .fin n m e => .fin n ((if n then -1 else 1) * (m : ℚ) * (2 : ℚ) ^ e)

/-- The value of a weight's code, and the value that a layer takes an input as: converted to the weights' type (R113, R223, R225). -/
def weight (f8 : Bool) (c : Nat) : Val := if f8 then eightRead 4 3 7 c else brain.read c
def converted (f8 : Bool) (x : Nat) (v : Val) : Prop :=
  ∃ c, (if f8 then ∃ fl, eight 4 3 7 (single.read x) c fl else encodes brain (single.read x) c) ∧ v = weight f8 c

/-- The activations of R225 on a sum. -/
def above (q : ℚ) : Val → Prop
  | .nan _ => False
  | .inf n => n = false
  | .fin _ x => q < x
def below (q : ℚ) : Val → Prop
  | .nan _ => False
  | .inf n => n = true
  | .fin _ x => x < q
def activates (act acc y : Nat) : Prop :=
  let v := single.read acc
  (v.isNan = true → y = single.nan) ∧
    (v.isNan = false → match act with
      | 0 => y = acc
      | 1 => (above 0 v → y = acc) ∧ (¬ above 0 v → y = 0)
      | 2 => (below 0 v → encodes single (mulOf v (.fin false (1 / 16))) y) ∧ (¬ below 0 v → y = acc)
      | _ => (below 0 v → y = 0) ∧ (above 1 v → y = 0x3F800000) ∧ (¬ below 0 v → ¬ above 1 v → y = acc))

/-- One output of a layer (R225): from its bias, each chunk of 32 or 64 products summed exactly and added with one rounding. -/
def output (f8 : Bool) (act bias : Nat) (ws xs : List Val) (y : Nat) : Prop :=
  let len := if f8 then 64 else 32
  let ps := (ws.zip xs).map (fun e : Val × Val => mulOf e.1 e.2)
  let chunks := (ws.length + len - 1) / len
  ∃ acc : Nat → Nat, acc 0 = bias ∧ activates act (acc chunks) y ∧
    ∀ c < chunks, encodes single (sumOf 0 [single.read (acc c), total false ((ps.drop (len * c)).take len)]) (acc (c + 1))

/-- One layer of one row (R225): every output from the row's own values and the layer's weights alone. -/
def layer (w : LayerW) (x y : List Nat) : Prop :=
  y.length = w.outs.length ∧ ∃ xs : List Val, xs.length = x.length ∧ (∀ (i c : Nat) (v : Val), x[i]? = some c → xs[i]? = some v → converted w.f8 c v) ∧
    ∀ (o : Nat) (e : Nat × List FVal) (c : Nat), w.outs[o]? = some e → y[o]? = some c → output w.f8 w.act e.1 (e.2.map meant) xs c

/-- The layers of a descriptor, as its fields and the memory that the engine reads give them (R223). -/
def layersOf (s : State) (task tile : Nat) (d : List Byte) (ls : List LayerW) : Prop :=
  let f := fun (o n : Nat) => leNat ((d.drop o).take n)
  let width := fun (l : Nat) => f (0x10 + 24 * l) 1 % 128
  ls.length = f 0 1 % 8 ∧ ∀ (l : Nat) (w : LayerW), ls[l]? = some w →
    let inputs := if l = 0 then f 1 1 % 64 else width (l - 1)
    let size := if w.f8 then 1 else 2
    w.f8 = decide (f (0x11 + 24 * l) 1 % 2 = 1) ∧ w.act = f (0x11 + 24 * l) 1 / 2 % 4 ∧ w.outs.length = width l ∧
      ∀ (o : Nat) (e : Nat × List FVal), w.outs[o]? = some e →
        s.engNat task tile (f (0x20 + 24 * l) 8 + 4 * o) 4 false = .ok e.1 ∧ e.2.length = inputs ∧
        ∃ row, s.engRead task tile (f (0x18 + 24 * l) 8 + size * inputs * o) (size * inputs) false = .ok row ∧
          ∀ (i : Nat) (v : FVal), e.2[i]? = some v → meant v = weight w.f8 (leNat ((row.drop (size * i)).take size))

end Sys2Proof.Spec

/-- `NODE_BATCH_LAUNCH` launches a whole batch of a node's oldest records, and `NODE_BATCH_TIMEOUT` all of its records once the oldest has
waited its timeout, where no other node that is ready has an older record; `WATCHDOG_EXPIRY` of a set of tasks that has been deadlocked
for the interval raises DEADLOCK at every thread of the set that stands in a counted wait (stated under policy 11, which holds it);
`NEVAL_TILE_TIMEOUT` closes a tile 128 cycles after its first joiner; and `NEVAL_TILE_RUN` fetches the layers of the descriptor (what the
core's weight cache does not hold, as the engine reads it), evaluates every row layer by layer from its own inputs, writes each member's
outputs and wakes it behind its `NEVAL` (R200, R203, R223 to R225, R278; that one descriptor serves all of a tile's members is log 44). -/
def Obligations.GraphsDeadlockAndEvaluation : Prop :=
  ∀ s : State,
    (∀ (ti node : Nat) (core : Fin 192) (part : Fin 4) (slots : List Nat) (T : Task) (g : Graph) (n : Node), s.tasks[ti]? = some T → T.phase = .running → T.graph = some g →
      g.nodes[node]? = some n → (∀ j m, j ≠ node → g.nodes[j]? = some m → Spec.batchReady m s.time.toNat → (n.recs.map (·.2)).headD 0 ≤ (m.recs.map (·.2)).headD 0) →
      s.mayUse ti core.val = true →
      (n.batch ≤ n.recs.length → Spec.slotsFor s core.val part.val n.batch slots →
        ∃ u, exec (.nodeBatchLaunch ti node core part slots) s = .next u ∧ Spec.launched s u ti node core.val part.val slots T g n n.batch) ∧
      (n.recs.length < n.batch → Spec.batchReady n s.time.toNat → Spec.slotsFor s core.val part.val n.recs.length slots →
        ∃ u, exec (.nodeBatchTimeout ti node core part slots) s = .next u ∧ Spec.launched s u ti node core.val part.val slots T g n n.recs.length)) ∧
    (∀ ts : List Nat, ts ≠ [] → (∀ ti ∈ ts, s.taskDead ts (1000 * s.pkg.watchdog) ti = true) → s.pkg.tpolicy.toNat / 2 ^ 36 % 4 = 3 →
      (∀ t ∈ s.threads, t.task ∈ ts → t.sup = false) →
      ∃ u, exec (.watchdogExpiry ts) s = .next u ∧ ∀ (k : Nat) (t : Thread) (d : DeadWait), s.threads[k]? = some t → t.task ∈ ts →
        s.counted k t = some d → ∃ v, u.threads[k]? = some v ∧ v.st = .trapped ∧ (t.region = none → v.pc = t.pc) ∧ v.trec[0].toNat % 256 = 0x12 ∧ v.trec[1] = t.pc ∧ v.trec[2] = d.addr) ∧
    (∀ (i : Nat) (n : NTile), s.ntiles[i]? = some n → n.live = true → n.closed = false → n.opened + 128 ≤ s.time.toNat →
      ∃ u, exec (.nevalTileTimeout i) s = .next u ∧ u.ntiles = s.ntiles.set i { n with closed := true } ∧ u.threads = s.threads ∧ BytesKept s u) ∧
    (∀ (i tile : Nat) (n : NTile) (s2 : State) (ls : List LayerW), s.ntiles[i]? = some n → n.live = true → n.closed = true → s.tileOf n.task n.core = some tile →
      s.nevWaits tile n.desc = false → (n.rows.map (·.k)).Nodup →
      State.fetchLayers { s with ntiles := s.ntiles.modify i (fun (x : NTile) => { x with live := false, rows := [] }) } n.task n.core tile n.desc 0 (nevLayers n.desc) = .ok (s2, ls) →
      ((∀ w ∈ s.wcache, w.core ≠ n.core) → Spec.layersOf s n.task tile n.desc ls) ∧
      ∃ u, exec (.nevalTileRun i) s = .next u ∧ BytesKept s u ∧ ∀ (r : NRow) (t : Thread), r ∈ n.rows → s.threads[r.k]? = some t → t.st = .parked .neval → t.region = none →
        ∃ (ys : Nat → List Nat) (outs : List Nat), ys 0 = r.x.map (·.toNat) ∧ (∀ (l : Nat) (w : LayerW), ls[l]? = some w → Spec.layer w (ys l) (ys (l + 1))) ∧ outs = ys ls.length ∧
        Spec.woken u r.k { t.arch with regs := writeRegs t.regs r.dst (outs.foldr (fun w v => w + 2 ^ 32 * v) 0) outs.length } (t.pc + BitVec.ofNat 64 r.len))

/-! ## Device events of the matrix engines (R207, R210 to R213, R215 to R218, R220, R298) -/

namespace Sys2Proof.Spec

/-- What a command's engine reads at an address, as a number. -/
def readAt (s : State) (x : Cmd) (a n : Nat) : Nat :=
  match s.engNat x.task x.tile a n false with
  | .ok v => v
  | .error _ => 0

/-- The value of an operand's code; element `k` tells the half of an I4 pair (R114). -/
def operand (ty code k : Nat) : Val :=
  match ty with
  | 0 => brain.read code
  | 1 => half.read code
  | 2 => eightRead 4 3 7 code
  | 3 => eightRead 5 2 15 code
  | 4 => let v := max (BitVec.ofNat 8 code).toInt (-127); .fin (decide (v < 0)) v
  | _ => let v := max (BitVec.ofNat 4 (code / 16 ^ (k % 2))).toInt (-7); .fin (decide (v < 0)) v

def operandSize (ty : Nat) : Nat := if ty ≤ 1 then 2 else 1

/-- Bits of the 8 bytes at an offset of a block: `n` of them from bit `lo` on. -/
def bits (b : List Byte) (off lo n : Nat) : Nat := field b off 8 / 2 ^ lo % 2 ^ n

/-- The checks of a parameter block in ascending offset and bit position (R208 to R210), each with the byte of its field, the last of
those that it combines (R418; which byte of a reserved field and which of a level entry is named is the model's reading, logs 15, 22
and 42). `partner` tells whether the task's coremask holds the other core of the pair. -/
def blockRules (b : List Byte) (partner : Bool) : Option (Nat × Nat) :=
  let w := bits b
  let atype := w 0 0 4
  let btype := w 0 4 4
  let dtype := w 0 8 3
  let sparse := w 0 15 2
  let nlev := w 0 19 3
  let dlev := w 0 22 3
  let tm := w 8 0 8
  let tn := w 8 8 10
  let tk := w 8 18 13
  let esize := fun (ty : Nat) => if ty ≤ 1 then 2 else 1
  let dsize := if dtype = 0 then 4 else if dtype ≤ 2 then 2 else 1
  let whole := fun (k : Nat) => (atype = 5 ∨ btype = 5 → k % 2 = 0) ∧ (sparse = 1 → k % 4 = 0) ∧ (sparse = 2 → k % 8 = 0)
  firstOf ([rule 0 (decide (atype ≤ 5)), rule 0 (decide ((atype, btype) ∈ [(0, 0), (1, 1), (2, 2), (2, 3), (3, 2), (3, 3), (4, 4), (4, 5), (5, 4), (5, 5)])),
    rule 1 (decide (dtype ≤ 4)), rule 1 (decide (w 0 11 2 ≤ 2)), rule 1 (decide (sparse ≤ 2)), rule 2 (decide (w 0 17 1 = 1 → partner = true)),
    rule 2 (decide (1 ≤ nlev ∧ nlev ≤ 5)), rule 2 (decide (dlev ≤ nlev)), rule 3 (decide (w 0 25 39 = 0)), rule 8 (decide (1 ≤ tm ∧ tm ≤ 128)),
    rule 9 (decide (1 ≤ tn ∧ tn ≤ (if w 0 17 1 = 1 then 512 else 256))), rule 0xA (decide ((1 ≤ tk ∧ tk ≤ 4096) ∧ whole tk)),
    rule 0xB (decide (w 8 31 1 = 0)), rule 0xC (decide (w 8 32 8 * 512 + tm * min tn 256 * 4 ≤ 131072)), rule 0xD (decide (w 8 40 24 = 0)),
    rule 0x1C (decide (sparse = 2 → field b 0x1C 4 % 2 = 0)), rule 0x20 (decide (field b 0x20 8 % esize atype = 0)),
    rule 0x28 (decide (field b 0x28 8 % esize btype = 0)), rule 0x30 (decide (field b 0x30 8 % dsize = 0)),
    rule 0x38 (decide (w 0 18 1 = 1 → field b 0x38 8 % 4 = 0)), rule 0x40 (decide (sparse = 2 → field b 0x40 8 % 2 = 0)),
    rule 0x48 (decide (field b 0x48 4 % esize atype = 0)), rule 0x4C (decide (field b 0x4C 4 % esize btype = 0)),
    rule 0x50 (decide (field b 0x50 4 % dsize = 0)), rule 0x54 (decide (field b 0x54 4 = 0))] ++
   (List.range 5).flatMap (fun l =>
    let o := 0x58 + 8 * l
    let bound := w o 0 12
    let start := w o 12 12
    let dm := w o 24 13
    let dn := w o 37 13
    let dk := w o 50 14
    if l < nlev then
      [rule o (decide (1 ≤ bound)), rule (o + 1) (decide (start < bound)), rule (o + 3) (decide (l < dlev → dm = 0)), rule (o + 4) (decide (l < dlev → dn = 0)),
        rule (o + 6) (decide ((dlev ≤ l → dk = 0) ∧ whole dk))]
    else [rule o (decide (bound = 0)), rule (o + 1) (decide (start = 0)), rule (o + 3) (decide (dm = 0)), rule (o + 4) (decide (dn = 0)), rule (o + 6) (decide (dk = 0))]))

/-- Element `k` of a row of A or a column of B (R212). -/
def operandAt (s : State) (x : Cmd) (ty base ld r k : Nat) : Val :=
  operand ty (readAt s x (base + r * ld + if ty = 5 then k / 2 else k * operandSize ty) (operandSize ty)) k

/-- The values of a row of A for a step, each with its dense place behind k0: 0 outside the matrix (R213), and under sparsity the stored
values of each group at the positions that its metadata name (R214). -/
def rowTerms (s : State) (x : Cmd) (m k0 : Nat) : List (Nat × Val) :=
  let b := x.block
  let a := fun (j : Nat) => operandAt s x (mAtype b) (mAbase b) (mAlda b) m j
  let g := if mSparse b = 1 then 4 else 8
  if mSparse b = 0 then (List.range (mTk b)).map (fun k => (k, if m < mMtot b ∧ k0 + k < mKtot b then a (k0 + k) else .fin false 0))
  else (List.range (mTk b / g)).flatMap (fun q =>
    let n := k0 / g + q
    let w := if g = 4 then readAt s x (mMdbase b + m * mMdld b + n / 2) 1 / 16 ^ (n % 2) else readAt s x (mMdbase b + m * mMdld b + 2 * n) 2
    let pos := fun (v : Nat) => if g = 4 then w / 4 ^ v % 4 else w / 8 ^ v % 8
    if m < mMtot b ∧ g * n < mKtot b then
      (List.range (g / 2)).map (fun v => (g * q + pos v, if g * n + pos v < mKtot b then a (g / 2 * n + v) else .fin false 0))
    else [])

def columnTerm (s : State) (x : Cmd) (n k : Nat) : Val :=
  let b := x.block
  if n < mNtot b ∧ k < mKtot b then operandAt s x (mBtype b) (mBbase b) (mBldb b) n k else .fin false 0

/-- A scale, 1.0 in a command without scales and beyond the extent (R213). -/
def scaleTerm (s : State) (x : Cmd) (place : Nat) (inside : Bool) : Val :=
  if mScaled x.block && inside then single.read (readAt s x (mSbase x.block + 4 * place) 4) else .fin false 1

/-- The length of a chunk along K (R121). -/
def chunk (b : List Byte) : Nat := if mAtype b ≤ 1 then 32 else if mAtype b ≤ 3 then 64 else 512

/-- One chunk of a step (R212): acc := rne(acc + sa·sb·S). -/
def chunkStep (s : State) (x : Cmd) (m n k0 c : Nat) (old new : Word) : Prop :=
  let b := x.block
  let ps := ((rowTerms s x m k0).filter (fun e => e.1 / chunk b = c)).map (fun e => mulOf e.2 (columnTerm s x n (k0 + e.1)))
  let sc := mulOf (scaleTerm s x m (decide (m < mMtot b))) (scaleTerm s x (mMtot b + n) (decide (n < mNtot b)))
  encodes single (sumOf 0 [single.read old.toNat, mulOf sc (total (decide (4 ≤ mAtype b)) ps)]) new.toNat

/-- A step on one element: its chunks in ascending order (R212). -/
def stepped (s : State) (x : Cmd) (m n k0 : Nat) (old new : Word) : Prop :=
  let chunks := (mTk x.block + chunk x.block - 1) / chunk x.block
  ∃ w : Nat → Word, w 0 = old ∧ w chunks = new ∧ ∀ c < chunks, chunkStep s x m n k0 c (w c) (w (c + 1))

/-- An element of D: its size, its address, its value from its code, and the codes that a value is drained as (R113, R215). -/
def dsize (ty : Nat) : Nat := if ty = 0 then 4 else if ty ≤ 2 then 2 else 1
def daddr (x : Cmd) (m n : Nat) : Nat := mDbase x.block + m * mDld x.block + n * dsize (mDtype x.block)
def dread (ty code : Nat) : Val :=
  match ty with
  | 0 => single.read code
  | 1 => half.read code
  | 2 => brain.read code
  | 3 => eightRead 4 3 7 code
  | _ => eightRead 5 2 15 code
def drainsAs (ty : Nat) (v : Val) (c : Nat) : Prop :=
  match ty with
  | 0 => encodes single v c
  | 1 => encodes half v c
  | 2 => encodes brain v c
  | 3 => ∃ fl, eight 4 3 7 v c fl
  | _ => ∃ fl, eight 5 2 15 v c fl

/-- An accumulator element at a group's first iteration: 0, or D converted to FP32 exactly (R211). -/
def begins (s : State) (x : Cmd) (m n : Nat) (w : Word) : Prop :=
  if mInit x.block ∧ m < mMtot x.block ∧ n < mNtot x.block then
    match dread (mDtype x.block) (readAt s x (daddr x m n) (dsize (mDtype x.block))) with
    | .nan _ => isNan w = true
    | v => encodes single v w.toNat
  else w = 0

/-- Where column `n` of a tile stands: the core whose accumulators hold it, and the word of its element in row `m` (R216, R217). -/
def columnCore (x : Cmd) (n : Nat) : Nat := if mPair x.block then x.core / 2 * 2 + n / 256 else x.core
def accWord (x : Cmd) (m n : Nat) : Nat := 128 * mAccbase x.block + m * min (mTn x.block) 256 + n % 256

/-- The pieces of memory that a drained element takes. -/
def drainPieces (s : State) (x : Cmd) (m n : Nat) : List Piece :=
  match s.engPieces x.task x.tile (daddr x m n) (dsize (mDtype x.block)) true false with
  | .ok ps => ps
  | .error _ => []

/-- The cores that run a command, each with its columns (R217), and what leave is charged for them from an index vector on: the first
eight K-steps (R220, R298). -/
def shares (x : Cmd) : List (Nat × Nat) :=
  let tn := mTn x.block
  if mPair x.block then (x.core / 2 * 2, min tn 256) :: (if 256 < tn then [(x.core / 2 * 2 + 1, tn - 256)] else []) else [(x.core, tn)]
def leaveUnits (b : List Byte) (v : List Nat) (cols : Nat) : Nat :=
  let e := if mAtype b ≤ 1 then 8 else if mAtype b ≤ 3 then 4 else if mAtype b = 5 ∧ mBtype b = 5 then 1 else 2
  let m := mTm b * cols * chunk b / (if mSparse b = 0 then 1 else 2)
  min 8 ((mmaTotal b - linearIdx b v 0 1) * ((mTk b + chunk b - 1) / chunk b)) * (e * m)

end Sys2Proof.Spec

/-- `MMA_START` takes the command that its core's idle engine picks: one whose block breaks a check completes with BAD_PARAM and the
detail of the first one; any other begins to run at its start vector, or where it was suspended, once its engines are between commands, no closed
Coelostat tile goes first and the budget of every core of it covers its first eight K-steps, which it is charged; it waits while the
budget does not, and one that had begun before a pre-emption goes on without being charged again (log 40). `MMA_ITERATION` performs one
iteration whole, on one core or on both cores of a pair: every accumulator element goes through the chunks of its step, the last iteration
of a group drains, and nothing else changes but what R245 leaves undefined; the command moves to the next index vector
or ends with DONE and its number of iterations; and an iteration that meets a fault does nothing but end it with one of the faults.
`MMA_COMPLETE` writes the token (R206 to R213, R215 to R218, R220, R224, R298). The model's choices in it: the details of a
failed check (logs 15, 22, 42), what a chunk is charged and that it is the command picked that waits (log 22), and that the partner's
accumulators of another task keep their values, where R217 speaks of whatever the partner held (log 42); and that a continued command keeps
its accumulators at its first iteration and counts it by its index, with cause 0 at a failed link (log 46). -/
def Obligations.MatrixCommands : Prop :=
  ∀ (s : State) (core : Fin 192) (c : Nat) (x : Cmd), s.cmds[c]? = some x →
    (s.mmaNext core.val = some c → s.mmaIdle core.val = true → x.core = core.val →
      let partner := (s.tasks[x.task]?.map (fun T => T.desc.allows (if core.val % 2 = 0 then core.val + 1 else core.val - 1))).getD false
      (∀ e, Spec.blockRules x.block partner = some e → ∃ u y, exec (.mmaStart core) s = .next u ∧ u.cmds[c]? = some y ∧ y.st = .complete ∧ y.result = ⟨e.1, e.2, 0⟩ ∧ u.accs = s.accs) ∧
      (Spec.blockRules x.block partner = none →
        (mPair x.block = true → s.mmaIdle (partnerOf core.val) = true ∧
          (core.val % 2 = 1 → ∀ d z, s.mmaNext (core.val - 1) = some d → s.cmds[d]? = some z → mPair z.block = false)) →
        (∀ n ∈ s.ntiles, n.live = true → n.closed = true → n.core ≠ core.val ∧ (mPair x.block = true → n.core ≠ partnerOf core.val)) →
        let v := if x.mma.vec = [] then startVec x.block else x.mma.vec
        let starts := fun (u : State) => ∃ y, exec (.mmaStart core) s = .next u ∧ u.cmds[c]? = some y ∧ y.st = .running ∧ y.leave = true ∧ y.mma.vec = v ∧
          y.block = x.block ∧ (x.mma.vec = [] → y.mma.first = true) ∧ (x.mma.vec ≠ [] → y.mma.first = x.mma.first) ∧
          (x.leave = true → x.mma.vec ≠ [] → y.mma.est = x.mma.est) ∧ BytesKept s u
        (x.leave = true → ∃ u, starts u ∧ u.power = s.power) ∧
        (x.leave = false → (∀ h ∈ Spec.shares x, Spec.leaveUnits x.block v h.2 ≤ (s.powerOf h.1).remain) →
          ∃ u, starts u ∧ ∀ h ∈ Spec.shares x, (u.powerOf h.1).used = (s.powerOf h.1).used + BitVec.ofNat 64 (Spec.leaveUnits x.block v h.2)) ∧
        (x.leave = false → (∃ h ∈ Spec.shares x, (s.powerOf h.1).remain < Spec.leaveUnits x.block v h.2) → exec (.mmaStart core) s = .next s))) ∧
    (s.mmaAt core.val .running = some c → 1 ≤ mTn x.block → mTn x.block ≤ (if mPair x.block then 512 else 256) →
      let b := x.block
      let v := x.mma.vec
      let fresh := if x.mma.first then !mCont b else groupFirst b v
      let last := groupLast b v
      let m0 := coord (lDm b) v 0
      let n0 := coord (lDn b) v 0
      let k0 := coord (lDk b) v 0
      let bad := (halvesOf x).flatMap (fun h => (s.halfIter x v fresh last h).bad)
      let drains := fun (m n : Nat) => last = true ∧ mDrain b ≠ 2 ∧ m < mTm b ∧ n < mTn b ∧ m0 + m < mMtot b ∧ n0 + n < mNtot b
      let undef := fun (q : Place) => ∃ m n p, drains m n ∧ p ∈ Spec.drainPieces s x (m0 + m) (n0 + n) ∧ s.undefinedBy p.place p.n q
      s.mmaWaits x v fresh last = false →
      (bad = [] → s.canonical → ∃ u y, exec (.mmaIteration core) s = .next u ∧ u.cmds[c]? = some y ∧ y.mma.done = linearIdx b v 0 1 + 1 ∧
        (∀ w, nextVec b v 0 = some w → y.st = .running ∧ y.mma.vec = w) ∧
        (nextVec b v 0 = none → y.st = .ended ∧ y.result = ⟨1, 0, mmaTotal b⟩) ∧
        (∀ m n a, m < mTm b → n < mTn b → s.accOf x.task (Spec.columnCore x n) = some a →
          ∃ a' old, u.accOf x.task (Spec.columnCore x n) = some a' ∧
            (if fresh then Spec.begins s x (m0 + m) (n0 + n) old else old = a.word (Spec.accWord x m n)) ∧
            Spec.stepped s x (m0 + m) (n0 + n) k0 old (a'.word (Spec.accWord x m n)) ∧
            (drains m n →
              (∀ i j, drains i j → (i, j) ≠ (m, n) → ∀ p ∈ Spec.drainPieces s x (m0 + m) (n0 + n), ∀ q ∈ Spec.drainPieces s x (m0 + i) (n0 + j),
                ¬ Spec.share p.place p.n q.place q.n) →
              (∀ p ∈ Spec.drainPieces s x (m0 + m) (n0 + n), ∀ j < p.n, ¬ undef (p.place.plus j)) →
              ∃ code, (Spec.drainPieces s x (m0 + m) (n0 + n)).flatMap (fun p => u.bytesAt p.place p.n) = leBytes (Spec.dsize (mDtype b)) code ∧
                Spec.drainsAs (mDtype b) (let acc := Spec.single.read (a'.word (Spec.accWord x m n)).toNat
                  if mDrain b = 0 then acc
                  else Spec.sumOf 0 [Spec.dread (mDtype b) (Spec.readAt s x (Spec.daddr x (m0 + m) (n0 + n)) (Spec.dsize (mDtype b))), acc]) code)) ∧
        (∀ k a, s.accOf x.task k = some a → ∃ a', u.accOf x.task k = some a' ∧
          ∀ i, (∀ m n, m < mTm b → n < mTn b → Spec.columnCore x n = k → i ≠ Spec.accWord x m n) → a'.word i = a.word i) ∧
        (∀ t k, t ≠ x.task → u.accOf t k = s.accOf t k) ∧
        (∀ q : Place, (∀ m n, drains m n → ∀ p ∈ Spec.drainPieces s x (m0 + m) (n0 + n), ¬ q.within p.place p.n) → ¬ undef q → u.byteAt q = s.byteAt q)) ∧
      (bad ≠ [] → ∃ u y f, exec (.mmaIteration core) s = .next u ∧ u.cmds[c]? = some y ∧ y.st = .ended ∧ f ∈ bad ∧
        y.result = ⟨f.st, f.cause + f.opnd * 256, linearIdx b v 0 1⟩ ∧ u.accs = s.accs ∧ BytesKept s u)) ∧
    (s.mmaAt core.val .ended = some c → x.result.st ≠ 4 →
      ∃ u y, exec (.mmaComplete core) s = .next u ∧ u.cmds[c]? = some y ∧ y.st = .complete ∧ y.result = x.result ∧ u.threads = s.threads ∧
        u.mem.dev = (s.devWrite ((s.tasks[x.task]?.map (fun t => t.desc.ptroot)).getD 0) (x.tok.toNat % 2 ^ 48)
          (leBytes 8 (x.result.st % 256 + x.result.detail % 2 ^ 32 * 2 ^ 16 + x.tok.toNat / 2 ^ 48 % 2 ^ 16 * 2 ^ 48) ++ leBytes 8 x.result.count)).mem.dev)

/-! ## Device events of the copy engines (R192, R252 to R260) -/

/-- `COPY_START` takes the next command of an idle engine and charges its core, once the core's budget covers the charge, but not one that
had begun before a pre-emption; `COPY_RUN` ends the command at an END entry, and reads the run that it stands in whole and writes the
rest of it, up to a block of the second tier that a later run goes on to fill, where no byte of it fails; `COPY_COND_REEVALUATE` goes on behind a COND that holds and waits
on at one that does not; `COPY_COND_TIMEOUT` ends the command with ENGINE_FAULT, cause 5; `COPY_BARRIER_ARRIVAL` arrives on the barrier
with the execution's bytes and goes on; and `COPY_COMPLETE` writes the token (R192, R252, R255, R257, R259, R260, R263, R298). The
model's choices in it: an arrival keeps reserved flags (log 42), where a run is cut at a block of the second tier (logs 26, 32), the wait
for the budget and the leave that a resumed command keeps (log 40). -/
def Obligations.CopyCommands : Prop :=
  ∀ (s : State) (e : Fin 16) (c : Nat) (x : Cmd), s.cmds[c]? = some x →
    let r := x.copy
    let en := chainEntry x.block r.entry
    (s.copyAt e.val .running = none → s.copyAt e.val .ended = none → s.pick false (fun y => copyEngine y = e.val && s.readyCmd .copy y) = some c →
      (x.leave = true → ∃ u, exec (.copyStart e) s = .next u ∧ u.cmds[c]? = some { x with st := .running, head := false } ∧ u.power = s.power ∧ BytesKept s u) ∧
      (x.leave = false → 65536 ≤ (s.powerOf x.core).remain →
        ∃ u, exec (.copyStart e) s = .next u ∧ u.cmds[c]? = some { x with st := .running, leave := true, head := false } ∧
          (u.powerOf x.core).used = (s.powerOf x.core).used + 65536 ∧ BytesKept s u) ∧
      (x.leave = false → (s.powerOf x.core).remain < 65536 → exec (.copyStart e) s = .next s)) ∧
    (s.copyAt e.val .running = some c → r.wait = none → r.arrive = false →
      (entryKindOf en = 5 → ∃ u y, exec (.copyRun e) s = .next u ∧ u.cmds[c]? = some y ∧ y.st = .ended ∧ y.result = ⟨1, 0, r.done⟩ ∧ BytesKept s u) ∧
      (entryKindOf en = 1 → r.boff < moveTotal en →
        let run := moveRun en
        let rest := run - r.boff % run
        let n := rest - s.tierTail x rest
        let ends := runAddrs x.block r.entry r.iter (r.boff / run)
        let a := ends.1 + r.boff % run
        let d := ends.2 + r.boff % run
        let more := rest - r.read.length
        ∀ bs s2, s.tierTail x rest < rest → r.read.length ≤ rest → s.copyWindow x ends.1 run false = true → s.copyWindow x ends.2 run true = true →
          s.engAbsent x.tile (a + r.read.length) more (s.copyOwn x) = false → s.engAbsent x.tile d n (s.copyOwn x) = false →
          (more ≠ 0 → s.copyGood x (a + r.read.length) more false = (more, none)) → s.copyGood x d n true = (n, none) →
          (if more = 0 then .ok [] else s.engRead x.task x.tile (a + r.read.length) more true) = Except.ok bs →
          s.engWrite c x.task x.tile d ((r.read ++ bs).take n) true = .ok s2 →
          ∃ u y, exec (.copyRun e) s = .next u ∧ BytesKept s2 u ∧ u.cmds[c]? = some y ∧ y.copy.done = r.done + n ∧ y.copy.read = (r.read ++ bs).drop n ∧
            (r.boff + n < moveTotal en → y.copy.boff = r.boff + n ∧ y.copy.entry = r.entry) ∧
            (moveTotal en ≤ r.boff + n → fieldAt en 0x20 8 = 0 → y.copy.boff = 0 ∧ y.copy.entry = r.entry + 1) ∧
            (moveTotal en ≤ r.boff + n → fieldAt en 0x20 8 ≠ 0 → y.copy.arrive = true))) ∧
    (∀ w, s.copyAt e.val .running = some c → r.wait = some w →
      (s.condTest x en = .holds true → ∃ u y, exec (.copyCondReevaluate e) s = .next u ∧ u.cmds[c]? = some y ∧ y.copy.entry = r.entry + 1 ∧ y.copy.wait = none ∧ BytesKept s u) ∧
      (s.condTest x en = .holds false → fieldAt en 0 1 / 128 = 1 → ∃ u, exec (.copyCondReevaluate e) s = .next u ∧ u.cmds[c]? = some x ∧ BytesKept s u) ∧
      (s.condTest x en = .holds false → fieldAt en 0x18 4 ≠ 0xFFFFFFFF → w + fieldAt en 0x18 4 ≤ s.time.toNat →
        ∃ u y, exec (.copyCondTimeout e) s = .next u ∧ u.cmds[c]? = some y ∧ y.st = .ended ∧ y.result = ⟨7, 5 + r.entry * 256, r.done⟩ ∧ BytesKept s u)) ∧
    (s.copyAt e.val .running = some c → r.arrive = true →
      let a := fieldAt en 0x20 8
      let m := moveTotal en
      ∀ ps p ph f s2, p < 2 ^ 64 → ph < 2 ^ 32 → f < 2 ^ 32 → s.engAbsent x.tile a 16 (s.copyOwn x) = false → s.engPieces x.task x.tile a 16 true true = .ok ps →
        s.engRead x.task x.tile a 16 true = .ok (Spec.barrier p ph f) →
        s.engWrite c x.task x.tile a (if p < m then Spec.barrier 0 ((ph + 1) % 2 ^ 32) (f ||| 1) else Spec.barrier (p - m) (if p = m then (ph + 1) % 2 ^ 32 else ph) f) true = .ok s2 →
        ∃ u y, exec (.copyBarrierArrival e) s = .next u ∧ BytesKept s2 u ∧ u.cmds[c]? = some y ∧ y.copy.arrive = false ∧ y.copy.entry = r.entry + 1 ∧ y.copy.boff = 0) ∧
    (s.copyAt e.val .ended = some c → x.result.st ≠ 4 → x.result.st = 1 ∨ s.engAbsent x.tile x.addr.toNat 128 (s.copyOwn x) = false →
      ∃ u y, exec (.copyComplete e) s = .next u ∧ u.cmds[c]? = some y ∧ y.st = .complete ∧ y.result = x.result ∧
      y.copy.landing = [] ∧ u.threads = s.threads ∧
      (x.result.st = 1 → u.mem.dev = (s.devWrite ((s.tasks[x.task]?.map (fun t => t.desc.ptroot)).getD 0) (x.tok.toNat % 2 ^ 48)
        (leBytes 8 (1 + x.result.detail % 2 ^ 32 * 2 ^ 16 + x.tok.toNat / 2 ^ 48 % 2 ^ 16 * 2 ^ 48) ++ leBytes 8 x.result.count)).mem.dev))

/-! ## Device events of Catalogue and of the collective units (R231 to R239, R250, R268 to R273) -/

namespace Sys2Proof.Spec

/-- Digit `d` of a pair of key and payload (R235), and its tile (R229). -/
def digit (d : Nat) (p : Nat × Nat) : Nat := if d ≤ 3 then p.2 / 256 ^ d % 256 else p.1 / 256 ^ (d - 4) % 256
def tileField (p : Nat × Nat) : Nat := p.1 / 2 ^ 40 % 2 ^ 24

/-- Pairs in ascending order of a digit, those of one digit in the order that they had (R235). -/
def scattered (d : Nat) (ps qs : List (Nat × Nat)) : Prop :=
  qs.Pairwise (fun p q => digit d p ≤ digit d q) ∧ ∀ v, qs.filter (fun p => decide (digit d p = v)) = ps.filter (fun p => decide (digit d p = v))

/-- The bytes of the span table (R236). -/
def spans (ps : List (Nat × Nat)) (ntiles : Nat) : List Byte :=
  (List.range ntiles).flatMap (fun t =>
    leBytes 4 (ps.filter (fun p => decide (tileField p < t))).length ++ leBytes 4 (ps.filter (fun p => decide (tileField p ≤ t))).length)

/-- A 32-bit counter of a unit of the statistics record, saturating (R248). -/
def counted (o : Nat) (b : List Byte) : List Byte :=
  b.take o ++ leBytes 4 (min (leNat ((b.drop o).take 4) + 1) 0xFFFFFFFF) ++ b.drop (o + 4)

/-- The second unit of the record behind a pass of index `i` (R250). -/
def passCounted (fseq i : Nat) (skipped : Bool) (b : List Byte) : List Byte :=
  let prog := leNat ((b.drop 0x1C).take 4)
  if fseq = prog % 2 ^ 16 ∧ i < prog / 2 ^ 16 % 16 then counted 8 b
  else (if 1 ≤ i ∧ i ≤ 12 then counted (if skipped then 4 else 0) b else b).take 0x1C ++ leBytes 4 (prog / 2 ^ 20 * 2 ^ 20 + fseq + (i + 1) * 2 ^ 16)

/-- Between two states the bytes stand but for a change of the second unit of the frame's record, where it has one. -/
def recorded (s u : State) (c : Nat) (x : Cmd) (f : List Byte → List Byte) : Prop :=
  (frameStats x.frame = 0 → BytesKept s u) ∧
    (∀ b s', frameStats x.frame ≠ 0 → s.engRead x.task x.tile (frameStats x.frame + 32) 32 false = .ok b →
      s.engWrite c x.task x.tile (frameStats x.frame + 32) (f b) false = .ok s' → BytesKept s' u)

/-- The source of a collective's member, by its rank: what this member has read, or what the member of that rank brings (R271). -/
def memberSource (rank : Nat) (own : List Byte) (peers : List Peer) (r : Nat) : List Byte :=
  if r = rank then own else sized own.length (((peers.find? (fun p => decide (p.rank = r))).map (·.src)).getD [])

/-- Part `i` of `n` bytes as a number. -/
def part (bs : List Byte) (n i : Nat) : Nat := leNat ((bs.drop (n * i)).take n)

/-- What the bytes at dst come to (R247, R271, R272): the sums of the tree by rank over the least power of two of places, the sums modulo
2^128, the sources in the order of the ranks, the root's source, or at the root alone each pixel through the slabs in ascending rank. -/
def collected (op nmem root rank : Nat) (src : Nat → List Byte) (n : Nat) (out : List Byte) : Prop :=
  match op with
  | 0 => out.length = n / 4 * 4 ∧ ∀ i < n / 4, ∃ v fl,
      tree 0 (fun r => if r < nmem then some (BitVec.ofNat 64 (part (src r) 4 i)) else none) (Nat.clog 2 nmem) 0 (some v) fl ∧
        part out 4 i = if isNan v then 0x7FC00000 else v.toNat
  | 1 => out.length = n / 16 * 16 ∧ ∀ i < n / 16, part out 16 i = ((List.range nmem).map (fun r => part (src r) 16 i)).sum % 2 ^ 128
  | 2 => out = (List.range nmem).flatMap src
  | 3 => out = src root
  | _ => if rank ≠ root then out = [] else out.length = n / 16 * 16 ∧ ∀ i < n / 16, ∃ (C : Nat → Nat → Nat) (T : Nat → Nat),
      T 0 = 0x3F800000 ∧ part out 4 (4 * i + 3) = T nmem ∧
        (∀ j < nmem, encodes single (mulOf (single.read (T j)) (single.read (part (src j) 4 (4 * i + 3)))) (T (j + 1))) ∧
        ∀ k < 3, C k 0 = 0 ∧ part out 4 (4 * i + k) = C k nmem ∧ ∀ j < nmem,
          encodes single (sumOf 0 [mulOf (single.read (T j)) (single.read (part (src j) 4 (4 * i + k))), single.read (C k j)]) (C k (j + 1))

end Sys2Proof.Spec

/-- `SORT_START` takes the next command of an idle engine once its core's budget covers the charge; it ends with what its checks come to,
or in mode 10 without a pass, or begins at pass 0 with the frame's count of pairs; one that a pre-emption suspended goes on uncharged and is counted.
`SORT_PASS` counts the digits in pass 0, skips a digit pass that moves nothing, and otherwise writes the pairs, stably ordered by the digit,
to the other buffer pair; the last writing pass writes the span table too, pass 13 moves the pairs back to the primary pair, and each is
counted in the statistics record. `SORT_COMPLETE` completes the command, and begins its blend task where it has one. `COLL_START` takes a
command, once the budget covers it, which ends with what its checks come to, waits for lines that have not landed, and once every member
has launched ends DONE with its operation's bytes at dst, or with ENGINE_FAULT where members disagree; it ends CANCELLED as soon as another
member has ended early; `COLL_COMPLETE` completes it (R233 to R237, R247, R250, R268 to R273, R298). The model's choices in it: the count
of a collective that is done is a free value (log 4), count 0 and the early end where another member ended early or members disagree
(log 28), the wait for the budget and the leave that a resumed sort keeps (log 40), the order in which an exchange's pairs arrive (log
20). -/
def Obligations.SortAndCollectiveCommands : Prop :=
  (∀ (d : Nat) (ps : List Pair), (scatter d ps).Perm ps ∧ Spec.scattered d ps (scatter d ps)) ∧
  ∀ (s : State) (die : Fin 4) (c : Nat) (x : Cmd), s.cmds[c]? = some x →
    let covered := 65536 ≤ (s.powerOf x.core).remain
    (s.sortAt die.val .running = none → s.sortAt die.val .ended = none → s.pick false (fun y => y.core / 48 = die.val && s.readyCmd .sort y) = some c →
      (¬ covered → x.leave = false → exec (.sortStart die) s = .next s) ∧
      (x.leave = true → ∃ u y, exec (.sortStart die) s = .next u ∧ u.cmds[c]? = some y ∧ y.st = .running ∧ y.sort = x.sort ∧
        u.power = s.power ∧ Spec.recorded s u c x (Spec.counted 0xC)) ∧
      (∀ r, covered → x.leave = false → s.sortCheck { x with block := x.block.take 64 } = .fail r →
        ∃ u y, exec (.sortStart die) s = .next u ∧ u.cmds[c]? = some y ∧ y.st = .ended ∧ y.result = r ∧ BytesKept s u) ∧
      (∀ fr w, covered → x.leave = false → s.sortCheck { x with block := x.block.take 64 } = .ok fr w →
        (sortMode (x.block.take 64) ≠ 2 →
          ∃ u y, exec (.sortStart die) s = .next u ∧ u.cmds[c]? = some y ∧ y.st = .running ∧ y.sort.next = 0 ∧ y.sort.n = min (frameCount fr) (frameCap fr) ∧
            y.block = x.block.take 64 ++ fr ++ w ∧ BytesKept s u) ∧
        (sortMode (x.block.take 64) = 2 →
          ∃ u y, exec (.sortStart die) s = .next u ∧ u.cmds[c]? = some y ∧ y.st = .ended ∧ y.result = ⟨1, 0, min (frameCount fr) (frameCap fr)⟩ ∧ BytesKept s u))) ∧
    (s.sortAt die.val .running = some c →
      let r := x.sort
      let i := r.next
      let fseq := frameSeq x.frame
      let pass := fun (f : State → Cmd → Prop) => ∃ u y, exec (.sortPass die) s = .next u ∧ u.cmds[c]? = some y ∧ f u y
      let done := fun (y : Cmd) => y.st = .ended ∧ y.result = ⟨1, 0, r.n⟩
      let on := fun (y : Cmd) => if 12 ≤ i ∧ y.sort.alt = false ∧ y.sort.wrote = true then done y else y.st = .running
      (1 ≤ i → i ≤ 12 → r.skips (i - 1) = true → pass (fun u y => Spec.recorded s u c x (Spec.passCounted fseq i true) ∧ y.sort = { r with next := i + 1 } ∧ on y)) ∧
      (∀ ps, s.readPairs x r.alt = .ok ps →
        (i = 0 → r.wrote = false → pass (fun u y => Spec.recorded s u c x (Spec.passCounted fseq 0 false) ∧ y.st = .running ∧
          y.sort.next = (if sortResume x.block then min (leNat ((x.block.drop 1).take 1) % 16) 13 else 1) ∧
          ∀ d v, d < 12 → v < 256 → (y.sort.hist.getD d []).getD v 0 = (ps.filter (fun p => decide (Spec.digit d p = v))).length)) ∧
        (∀ qs s2, 1 ≤ i → i ≤ 12 → r.skips (i - 1) = false → Spec.scattered (i - 1) ps qs →
          let span := r.alt = true ∧ ∀ d, i ≤ d → d < 12 → r.skips d = true
          (¬ span → s.sortWrites c x (pairWrites x.frame (!r.alt) qs) = .ok s2 →
            pass (fun u y => Spec.recorded s2 u c x (Spec.passCounted fseq i false) ∧ y.sort.alt = !r.alt ∧ y.sort.wrote = true ∧ y.sort.next = i + 1 ∧ on y)) ∧
          (span → s.sortWrites c x (pairWrites x.frame false qs ++ [(frameSpan x.frame, Spec.spans qs (frameTiles x.frame))]) = .ok s2 →
            pass (fun u y => Spec.recorded s2 u c x (Spec.passCounted fseq i false) ∧ y.sort.alt = false ∧ y.sort.wrote = true ∧ y.sort.next = i + 1 ∧ on y))) ∧
        (∀ s2, 13 ≤ i → r.alt = true → s.sortWrites c x (pairWrites x.frame false ps ++ [(frameSpan x.frame, Spec.spans ps (frameTiles x.frame))]) = .ok s2 →
          pass (fun u y => Spec.recorded s2 u c x (Spec.passCounted fseq 13 false) ∧ done y)) ∧
        (∀ s2, 13 ≤ i → r.alt = false → s.sortWrites c x [(frameSpan x.frame, Spec.spans ps (frameTiles x.frame))] = .ok s2 →
          pass (fun u y => Spec.recorded s2 u c x (Spec.passCounted fseq 14 false) ∧ done y)))) ∧
    (s.sortAt die.val .ended = some c → (x.result.st ≠ 1 ∧ x.result.st ≠ 4 ∨ x.result.st = 1 ∧ sortMode x.block = 0) →
      ∃ u y, exec (.sortComplete die) s = .next u ∧ u.cmds[c]? = some y ∧ y.st = .complete ∧ y.result = x.result ∧ u.threads = s.threads) ∧
    (∀ T : Task, s.sortAt die.val .ended = some c → x.result.st = 1 → sortMode x.block ≠ 0 → s.tasks[x.task]? = some T →
      (s.tasks.filter (fun t => t.phase ≠ .complete)).length < 65536 →
      ∃ u y C, exec (.sortComplete die) s = .next u ∧ u.cmds[c]? = some y ∧ y.st = .complete ∧ y.result = x.result ∧ u.tasks[s.tasks.length]? = some C ∧
        C.raw = x.wave ∧ C.prio ≤ T.prio ∧ C.blend.map (·.pix) = some (framePix x.frame)) ∧
    (∀ peers, s.collAt die.val .running = none → s.collAt die.val .ended = none → s.pick false (fun y => y.core / 48 = die.val && s.readyCmd .coll y) = some c →
      (¬ covered → exec (.collStart die peers) s = .next s) ∧
      ∀ r, covered → s.collCheck x = .fail r → ∃ u y, exec (.collStart die peers) s = .next u ∧ u.cmds[c]? = some y ∧ y.st = .ended ∧ y.result = r) ∧
    (∀ peers : List Peer, s.collAt die.val .running = some c →
      let ends := fun (r : Result) => ∃ u y, exec (.collStart die peers) s = .next u ∧ u.cmds[c]? = some y ∧ y.st = .ended ∧ y.result = r
      (∀ r, s.collCheck x = .fail r → ends r) ∧ (s.collCheck x = .wait → exec (.collStart die peers) s = .next s) ∧
      ∀ rank, s.collCheck x = .ok rank →
        (peersAll x.block rank peers = false →
          ((∃ p ∈ peersOf x.block rank peers, p.early = true) → ends ⟨8, 0, 0⟩) ∧
          ((∀ p ∈ peersOf x.block rank peers, p.early = false) → exec (.collStart die peers) s = .next s)) ∧
        (peersAll x.block rank peers = true →
          ((∃ p ∈ peersOf x.block rank peers, peerAgrees x.block p = false) → ends ⟨7, 6, 0⟩) ∧
          ((∀ p ∈ peersOf x.block rank peers, peerAgrees x.block p = true) →
            ((∃ p ∈ peersOf x.block rank peers, p.early = true) → ends ⟨8, 0, 0⟩) ∧
            ((∀ p ∈ peersOf x.block rank peers, p.early = false) →
              (s.collWaits x = true → exec (.collStart die peers) s = .next s) ∧
              (∀ own, s.collWaits x = false → collOp x.block ≠ 4 →
                (if collBytes x.block = 0 then .ok [] else s.engRead x.task x.tile (collSrc x.block) (collBytes x.block) false) = Except.ok own →
                ∃ out, Spec.collected (collOp x.block) (collNmem x.block) (collRoot x.block) rank (Spec.memberSource rank own peers) (collBytes x.block) out ∧
                ∀ s2, s.sortWrites c x [(collDst x.block, out)] = .ok s2 →
                ∃ u y, exec (.collStart die peers) s = .next u ∧ u.cmds[c]? = some y ∧ y.st = .ended ∧ y.result.st = 1 ∧ BytesKept s2 u) ∧
              (∀ own s2, s.collWaits x = false → collOp x.block = 4 → s.framePairs x = .ok own →
                s.appendPairs c x ((arriving rank own peers).filter (fun p => decide (pairTile p % collNmem x.block = rank))) = .ok s2 →
                ∃ u y, exec (.collStart die peers) s = .next u ∧ u.cmds[c]? = some y ∧ y.st = .ended ∧ y.result.st = 1 ∧ BytesKept s2 u))))) ∧
    (s.collAt die.val .ended = some c → x.result.st ≠ 4 → ∃ u y, exec (.collComplete die) s = .next u ∧ u.cmds[c]? = some y ∧ y.st = .complete ∧ y.result = x.result ∧
      u.threads = s.threads)

/-! ## Device events from outside (R161, R170, R171, R244, R261, R267, R284, R298) -/

/-- What reaches the device from outside its threads and engines: `GRC_EVICT_MERGE` adds a partial sum to its element,
`POWER_PERIOD` begins every core's period at a multiple of 1,000, `SOFT_ERROR` is counted where it is corrected and poisons its unit, register or partial sum
elsewhere, `LINK_FAILURE` takes a link down, `HOST_MEMORY_ACCESS` and `PLOGON_REMOTE_ACCESS` read, write or operate on bytes in HBM4E,
`READ_LEASE_EXPIRY` ends a leased copy, and `HOST_PORT_TRAINING` sets the port's rate, width and mode (R161, R170, R171, R244,
R261, R263, R267, R284, R298; that the last Plogon link cuts every other package off is the model's reading, log 31; that an error in the
second tier poisons its 512-byte block, log 32; how a carried charge shows in deficit, log 40; that nothing is served in state 3, log
25). -/
def Obligations.OutsideEvents : Prop :=
  ∀ s : State,
    let reach := fun (a n : Nat) => s.pkg.paOk 0 a n = true ∨ s.pkg.paOk 1 a n = true
    (∀ (die : Fin 4) (addr : Nat) (g : GrcEntry), s.canonical → s.mem.grc.filter (fun e => decide (e.die = die.val ∧ e.addr = addr)) = [g] →
      g.torn = false → addr + 16 ≤ g.counter ∨ g.counter + 8 ≤ addr →
      let word := fun (v : State) (a n : Nat) => leNat (v.bytesAt (.dev a true) n)
      ∃ u, exec (.grcEvictMerge die addr) s = .next u ∧ word u addr 16 = (word s addr 16 + g.v.toNat) % 2 ^ 128 ∧
        word u g.counter 4 = min (word s g.counter 4 + g.nf) 0xFFFFFFFF ∧ word u (g.counter + 4) 4 = min (word s (g.counter + 4) 4 + g.ov) 0xFFFFFFFF ∧
        (∀ q : Place, ¬ q.within (.dev addr true) 16 → ¬ q.within (.dev g.counter true) 8 → u.byteAt q = s.byteAt q) ∧
        (∀ e ∈ u.mem.grc, e.die = die.val → e.addr = addr → e.v = 0 ∧ e.nf = 0 ∧ e.ov = 0) ∧ u.threads = s.threads) ∧
    (s.time.toNat % 1000 = 0 → s.period ≠ s.time.toNat / 1000 → ∀ core, ∃ u, exec .powerPeriod s = .next u ∧ u.period = s.time.toNat / 1000 ∧
      let p := s.powerOf core
      let q := u.powerOf core
      q.budget = p.budget ∧ q.used = p.used ∧ q.wcycles = p.wcycles ∧
        (p.owed < p.budget → q.remain = p.budget - p.owed ∧ q.owed = 0 ∧ q.deficit = p.owed) ∧
        (p.budget ≤ p.owed → q.remain = 0 ∧ q.owed = p.owed - p.budget ∧ q.deficit = p.owed - p.budget) ∧
        q.overruns = if p.owed = 0 then p.overruns else p.overruns + 1) ∧
    (s.time.toNat % 1000 ≠ 0 ∨ s.period = s.time.toNat / 1000 → exec .powerPeriod s = .next s) ∧
    (∀ d : Fin 4, let v : BitVec 64 := if s.win.ecc[d] = BitVec.allOnes 64 then BitVec.allOnes 64 else s.win.ecc[d] + 1
      ∃ u, exec (.softError (.corrected d)) s = .next u ∧ u.win = { s.win with ecc := s.win.ecc.set d v } ∧ u.mem = s.mem) ∧
    (∀ n : Nat, 32 * n + 32 ≤ 0xC000000000 → ∃ u, exec (.softError (.device n)) s = .next u ∧ u.homeBad (.dev (32 * n) true) 32 = true ∧ BytesKept s u) ∧
    (∀ n : Nat, 0x10000000000 ≤ 32 * n → s.pkg.paOk 1 (32 * n) 32 = true →
      ∃ u, exec (.softError (.device n)) s = .next u ∧ (∀ j < 16, u.homeBad (.dev (512 * (n / 16) + 32 * j) true) 32 = true) ∧ BytesKept s u) ∧
    (∀ n : Nat, ∃ u, exec (.softError (.host n)) s = .next u ∧ u.homeBad (.host (32 * n)) 32 = true ∧ BytesKept s u) ∧
    (∀ (i n : Nat) (a : Tile), s.tiles[i]? = some a → a.live = true → 32 * n < a.size →
      ∃ u, exec (.softError (.tile i n)) s = .next u ∧ u.homeBad (.tile i (32 * n)) 32 = true ∧ BytesKept s u) ∧
    (∀ (i n : Nat) (a : Acc), s.accs[i]? = some a → 32 * n < 131072 → ∃ u b, exec (.softError (.acc i n)) s = .next u ∧ u.accs[i]? = some b ∧ n ∈ b.bad ∧ b.words = a.words) ∧
    (∀ (k n : Nat) (t : Thread) (T : Task), s.threads[k]? = some t → s.tasks[t.task]? = some T → 32 * n < T.stackBytes →
      ∃ u, exec (.softError (.stack k n)) s = .next u ∧ u.homeBad (.stack k (32 * n)) 32 = true ∧ BytesKept s u) ∧
    (∀ (k : Nat) (n : Fin 128) (t : Thread), s.threads[k]? = some t → hasReg t.regsN n.val = true →
      ∃ u v, exec (.softError (.reg k n)) s = .next u ∧ u.threads[k]? = some v ∧ n.val ∈ v.badRegs ∧ v.arch = t.arch) ∧
    (∀ (d : Fin 4) (addr : Nat), ∃ u, exec (.softError (.partialSum d addr)) s = .next u ∧ (∀ g ∈ u.mem.grc, g.die = d.val → g.addr = addr → g.bad = true) ∧ BytesKept s u) ∧
    (∀ (i : Nat) (n : Fin 4) (l : Lease), s.mem.leases[i]? = some l → ∃ u v, exec (.softError (.lease i n)) s = .next u ∧ u.mem.leases[i]? = some v ∧
      (4 * l.line + n.val) ∈ v.bad ∧ v.data = l.data ∧ v.core = l.core ∧ v.line = l.line ∧ BytesKept s u) ∧
    (∀ (i : Nat) (n : Fin 4) (l : Lease), s.mem.remote[i]? = some l → ∃ u v, exec (.softError (.remoteCopy i n)) s = .next u ∧ u.mem.remote[i]? = some v ∧
      (4 * l.line + n.val) ∈ v.bad ∧ v.data = l.data ∧ v.core = l.core ∧ v.line = l.line ∧ BytesKept s u) ∧
    (∀ i w, s.wcache[i]? = some w → ∃ u, exec (.softError (.weight i)) s = .next u ∧ u.wcache[i]? = some { w with bad := true } ∧ BytesKept s u) ∧
    (∀ l : Fin 4, ∃ u, exec (.linkFailure (.cxl l)) s = .next u ∧ u.pkg = { s.pkg with cxlUp := s.pkg.cxlUp.set l.val false }) ∧
    (∀ p : Fin 512, ∃ u, exec (.linkFailure (.route p)) s = .next u ∧ p.val ∈ u.pkg.noRoute ∧ ∀ q ∈ s.pkg.noRoute, q ∈ u.pkg.noRoute) ∧
    (∀ l : Fin 12, ∃ u, exec (.linkFailure (.plogon l)) s = .next u ∧ u.pkg.plogonUp = s.pkg.plogonUp.set l.val false ∧
      ((∃ b ∈ s.pkg.plogonUp.set l.val false, b = true) → u.pkg.noRoute = s.pkg.noRoute) ∧
      ((∀ b ∈ s.pkg.plogonUp.set l.val false, b = false) → ∀ p < 512, p ≠ s.pkg.index.toNat → p ∈ u.pkg.noRoute)) ∧
    (64 ≤ s.pkg.port.1 → s.pkg.port.2.2 = true → s.win.state ≠ 3 →
      (∀ a n, a + n ≤ 0xC000000000 → s.homeBad (.dev a true) n = false →
        ∃ u, exec (.hostMemoryAccess (.read a n)) s = .next u ∧ u.pkg.hostData = s.bytesAt (.dev a true) n ∧ BytesKept s u ∧ u.threads = s.threads) ∧
      (∀ a bs, a + bs.length ≤ 0xC000000000 → s.canonical →
        ∃ u, exec (.hostMemoryAccess (.write a bs)) s = .next u ∧ Spec.stored s u (.dev a true) bs ∧ u.threads = s.threads ∧ u.pkg = s.pkg)) ∧
    (s.win.state = 3 → ∀ y, exec (.plogonRemoteAccess y) s = .next s) ∧
    (∀ a n, s.win.state ≠ 3 → reach a n → s.homeBad (.dev a true) n = false →
      ∃ u, exec (.plogonRemoteAccess (.load a n)) s = .next u ∧ u.pkg.remoteData = s.bytesAt (.dev a true) n ∧ BytesKept s u) ∧
    (∀ a bs, s.win.state ≠ 3 → reach a bs.length → s.canonical → ∃ u, exec (.plogonRemoteAccess (.store a bs)) s = .next u ∧ Spec.stored s u (.dev a true) bs ∧ u.pkg = s.pkg) ∧
    (∀ (op : BitVec 4) (wide : Bool) (a : Nat) (y c : BitVec 64), let n := if wide then 8 else 4
      s.win.state ≠ 3 → op.toNat ≤ 10 → (wide = true → op.toNat ≠ 10) → reach a n → a % n = 0 → s.homeBad (.dev (a / 128 * 128) true) 128 = false → s.canonical →
      let old := leNat (s.bytesAt (.dev a true) n)
      ∃ u, exec (.plogonRemoteAccess (.atom op wide a y c)) s = .next u ∧ u.pkg.remoteData = s.bytesAt (.dev a true) n ∧
        (op.toNat ≠ 10 → match Spec.atom (8 * n) op.toNat (BitVec.ofNat _ old) (y.setWidth _) (c.setWidth _) with
          | some v => Spec.stored s u (.dev a true) (leBytes n v.toNat)
          | none => BytesKept s u) ∧
        (op.toNat = 10 → ∃ w : Word, Spec.stored s u (.dev a true) (leBytes 4 w.toNat) ∧
          let p : Word := BitVec.ofNat 32 old
          let q : Word := y.setWidth 32
          (Spec.isNan p ∨ Spec.isNan q → w = 0x7FC00000) ∧
          (Spec.isNan p = false → Spec.isNan q = false → Spec.isInf p = false → Spec.isInf q = false →
            Spec.rounds 0 (Spec.val32 p + Spec.val32 q) (p.msb && q.msb) w) ∧
          (Spec.isNan p = false → Spec.isNan q = false → ∀ r, Spec.addInf p q = some r → w = r.1))) ∧
    (∀ (core : Fin 192) (line : Nat) (l : Lease), s.mem.leases.find? (fun l => l.core = core.val && l.line = line) = some l →
      ∃ u, exec (.readLeaseExpiry core line) s = .next u ∧ u.leaseOf core.val line = none ∧ l.rts < u.clockOf core.val ∧ BytesKept s u) ∧
    (∀ rate width flit, width ∈ [1, 2, 4, 8] → rate ≤ 64 ∨ rate = 128 →
      exec (.hostPortTraining rate width flit) s = .next { s with pkg := { s.pkg with port := (rate, width, flit) } })
end

