-- ==== Sys2Proof/Laws/State.lean ====
section
/-! SUPPORT. One lemma for each field after each of the plain updates of the state, and the registers after each of the
plain updates of a thread. -/

namespace Sys2Proof.Machine

@[simp] theorem State.setThread_threads (s : State) (k : Nat) (t : Thread) : (s.setThread k t).threads = s.threads.set k t := rfl
@[simp] theorem State.setThread_tasks (s : State) (k : Nat) (t : Thread) : (s.setThread k t).tasks = s.tasks := rfl
@[simp] theorem State.setThread_cmds (s : State) (k : Nat) (t : Thread) : (s.setThread k t).cmds = s.cmds := rfl
@[simp] theorem State.setThread_tiles (s : State) (k : Nat) (t : Thread) : (s.setThread k t).tiles = s.tiles := rfl
@[simp] theorem State.setThread_accs (s : State) (k : Nat) (t : Thread) : (s.setThread k t).accs = s.accs := rfl
@[simp] theorem State.setThread_ntiles (s : State) (k : Nat) (t : Thread) : (s.setThread k t).ntiles = s.ntiles := rfl
@[simp] theorem State.setThread_wcache (s : State) (k : Nat) (t : Thread) : (s.setThread k t).wcache = s.wcache := rfl
@[simp] theorem State.setThread_power (s : State) (k : Nat) (t : Thread) : (s.setThread k t).power = s.power := rfl
@[simp] theorem State.setThread_mem (s : State) (k : Nat) (t : Thread) : (s.setThread k t).mem = s.mem := rfl
@[simp] theorem State.setThread_front (s : State) (k : Nat) (t : Thread) : (s.setThread k t).front = s.front := rfl
@[simp] theorem State.setThread_win (s : State) (k : Nat) (t : Thread) : (s.setThread k t).win = s.win := rfl
@[simp] theorem State.setThread_pkg (s : State) (k : Nat) (t : Thread) : (s.setThread k t).pkg = s.pkg := rfl
@[simp] theorem State.setThread_time (s : State) (k : Nat) (t : Thread) : (s.setThread k t).time = s.time := rfl
@[simp] theorem State.setThread_cycle (s : State) (k : Nat) (t : Thread) : (s.setThread k t).cycle = s.cycle := rfl
@[simp] theorem State.setThread_period (s : State) (k : Nat) (t : Thread) : (s.setThread k t).period = s.period := rfl
@[simp] theorem State.setThread_agenda (s : State) (k : Nat) (t : Thread) : (s.setThread k t).agenda = s.agenda := rfl
@[simp] theorem State.setThread_late (s : State) (k : Nat) (t : Thread) : (s.setThread k t).late = s.late := rfl
@[simp] theorem State.setThread_fill (s : State) (k : Nat) (t : Thread) : (s.setThread k t).fill = s.fill := rfl
@[simp] theorem State.setThread_freeCtr (s : State) (k : Nat) (t : Thread) : (s.setThread k t).freeCtr = s.freeCtr := rfl
@[simp] theorem State.setThread_serial (s : State) (k : Nat) (t : Thread) : (s.setThread k t).serial = s.serial := rfl

@[simp] theorem State.modThread_threads (s : State) (k : Nat) (f : Thread → Thread) : (s.modThread k f).threads = s.threads.modify k f := rfl
@[simp] theorem State.modThread_tasks (s : State) (k : Nat) (f : Thread → Thread) : (s.modThread k f).tasks = s.tasks := rfl
@[simp] theorem State.modThread_cmds (s : State) (k : Nat) (f : Thread → Thread) : (s.modThread k f).cmds = s.cmds := rfl
@[simp] theorem State.modThread_tiles (s : State) (k : Nat) (f : Thread → Thread) : (s.modThread k f).tiles = s.tiles := rfl
@[simp] theorem State.modThread_accs (s : State) (k : Nat) (f : Thread → Thread) : (s.modThread k f).accs = s.accs := rfl
@[simp] theorem State.modThread_ntiles (s : State) (k : Nat) (f : Thread → Thread) : (s.modThread k f).ntiles = s.ntiles := rfl
@[simp] theorem State.modThread_wcache (s : State) (k : Nat) (f : Thread → Thread) : (s.modThread k f).wcache = s.wcache := rfl
@[simp] theorem State.modThread_power (s : State) (k : Nat) (f : Thread → Thread) : (s.modThread k f).power = s.power := rfl
@[simp] theorem State.modThread_mem (s : State) (k : Nat) (f : Thread → Thread) : (s.modThread k f).mem = s.mem := rfl
@[simp] theorem State.modThread_front (s : State) (k : Nat) (f : Thread → Thread) : (s.modThread k f).front = s.front := rfl
@[simp] theorem State.modThread_win (s : State) (k : Nat) (f : Thread → Thread) : (s.modThread k f).win = s.win := rfl
@[simp] theorem State.modThread_pkg (s : State) (k : Nat) (f : Thread → Thread) : (s.modThread k f).pkg = s.pkg := rfl
@[simp] theorem State.modThread_time (s : State) (k : Nat) (f : Thread → Thread) : (s.modThread k f).time = s.time := rfl
@[simp] theorem State.modThread_cycle (s : State) (k : Nat) (f : Thread → Thread) : (s.modThread k f).cycle = s.cycle := rfl
@[simp] theorem State.modThread_period (s : State) (k : Nat) (f : Thread → Thread) : (s.modThread k f).period = s.period := rfl
@[simp] theorem State.modThread_agenda (s : State) (k : Nat) (f : Thread → Thread) : (s.modThread k f).agenda = s.agenda := rfl
@[simp] theorem State.modThread_late (s : State) (k : Nat) (f : Thread → Thread) : (s.modThread k f).late = s.late := rfl
@[simp] theorem State.modThread_fill (s : State) (k : Nat) (f : Thread → Thread) : (s.modThread k f).fill = s.fill := rfl
@[simp] theorem State.modThread_freeCtr (s : State) (k : Nat) (f : Thread → Thread) : (s.modThread k f).freeCtr = s.freeCtr := rfl
@[simp] theorem State.modThread_serial (s : State) (k : Nat) (f : Thread → Thread) : (s.modThread k f).serial = s.serial := rfl

@[simp] theorem State.modTask_threads (s : State) (i : Nat) (f : Task → Task) : (s.modTask i f).threads = s.threads := rfl
@[simp] theorem State.modTask_tasks (s : State) (i : Nat) (f : Task → Task) : (s.modTask i f).tasks = s.tasks.modify i f := rfl
@[simp] theorem State.modTask_cmds (s : State) (i : Nat) (f : Task → Task) : (s.modTask i f).cmds = s.cmds := rfl
@[simp] theorem State.modTask_tiles (s : State) (i : Nat) (f : Task → Task) : (s.modTask i f).tiles = s.tiles := rfl
@[simp] theorem State.modTask_accs (s : State) (i : Nat) (f : Task → Task) : (s.modTask i f).accs = s.accs := rfl
@[simp] theorem State.modTask_ntiles (s : State) (i : Nat) (f : Task → Task) : (s.modTask i f).ntiles = s.ntiles := rfl
@[simp] theorem State.modTask_wcache (s : State) (i : Nat) (f : Task → Task) : (s.modTask i f).wcache = s.wcache := rfl
@[simp] theorem State.modTask_power (s : State) (i : Nat) (f : Task → Task) : (s.modTask i f).power = s.power := rfl
@[simp] theorem State.modTask_mem (s : State) (i : Nat) (f : Task → Task) : (s.modTask i f).mem = s.mem := rfl
@[simp] theorem State.modTask_front (s : State) (i : Nat) (f : Task → Task) : (s.modTask i f).front = s.front := rfl
@[simp] theorem State.modTask_win (s : State) (i : Nat) (f : Task → Task) : (s.modTask i f).win = s.win := rfl
@[simp] theorem State.modTask_pkg (s : State) (i : Nat) (f : Task → Task) : (s.modTask i f).pkg = s.pkg := rfl
@[simp] theorem State.modTask_time (s : State) (i : Nat) (f : Task → Task) : (s.modTask i f).time = s.time := rfl
@[simp] theorem State.modTask_cycle (s : State) (i : Nat) (f : Task → Task) : (s.modTask i f).cycle = s.cycle := rfl
@[simp] theorem State.modTask_period (s : State) (i : Nat) (f : Task → Task) : (s.modTask i f).period = s.period := rfl
@[simp] theorem State.modTask_agenda (s : State) (i : Nat) (f : Task → Task) : (s.modTask i f).agenda = s.agenda := rfl
@[simp] theorem State.modTask_late (s : State) (i : Nat) (f : Task → Task) : (s.modTask i f).late = s.late := rfl
@[simp] theorem State.modTask_fill (s : State) (i : Nat) (f : Task → Task) : (s.modTask i f).fill = s.fill := rfl
@[simp] theorem State.modTask_freeCtr (s : State) (i : Nat) (f : Task → Task) : (s.modTask i f).freeCtr = s.freeCtr := rfl
@[simp] theorem State.modTask_serial (s : State) (i : Nat) (f : Task → Task) : (s.modTask i f).serial = s.serial := rfl

@[simp] theorem State.modCmd_threads (s : State) (i : Nat) (f : Cmd → Cmd) : (s.modCmd i f).threads = s.threads := rfl
@[simp] theorem State.modCmd_tasks (s : State) (i : Nat) (f : Cmd → Cmd) : (s.modCmd i f).tasks = s.tasks := rfl
@[simp] theorem State.modCmd_cmds (s : State) (i : Nat) (f : Cmd → Cmd) : (s.modCmd i f).cmds = s.cmds.modify i f := rfl
@[simp] theorem State.modCmd_tiles (s : State) (i : Nat) (f : Cmd → Cmd) : (s.modCmd i f).tiles = s.tiles := rfl
@[simp] theorem State.modCmd_accs (s : State) (i : Nat) (f : Cmd → Cmd) : (s.modCmd i f).accs = s.accs := rfl
@[simp] theorem State.modCmd_ntiles (s : State) (i : Nat) (f : Cmd → Cmd) : (s.modCmd i f).ntiles = s.ntiles := rfl
@[simp] theorem State.modCmd_wcache (s : State) (i : Nat) (f : Cmd → Cmd) : (s.modCmd i f).wcache = s.wcache := rfl
@[simp] theorem State.modCmd_power (s : State) (i : Nat) (f : Cmd → Cmd) : (s.modCmd i f).power = s.power := rfl
@[simp] theorem State.modCmd_mem (s : State) (i : Nat) (f : Cmd → Cmd) : (s.modCmd i f).mem = s.mem := rfl
@[simp] theorem State.modCmd_front (s : State) (i : Nat) (f : Cmd → Cmd) : (s.modCmd i f).front = s.front := rfl
@[simp] theorem State.modCmd_win (s : State) (i : Nat) (f : Cmd → Cmd) : (s.modCmd i f).win = s.win := rfl
@[simp] theorem State.modCmd_pkg (s : State) (i : Nat) (f : Cmd → Cmd) : (s.modCmd i f).pkg = s.pkg := rfl
@[simp] theorem State.modCmd_time (s : State) (i : Nat) (f : Cmd → Cmd) : (s.modCmd i f).time = s.time := rfl
@[simp] theorem State.modCmd_cycle (s : State) (i : Nat) (f : Cmd → Cmd) : (s.modCmd i f).cycle = s.cycle := rfl
@[simp] theorem State.modCmd_period (s : State) (i : Nat) (f : Cmd → Cmd) : (s.modCmd i f).period = s.period := rfl
@[simp] theorem State.modCmd_agenda (s : State) (i : Nat) (f : Cmd → Cmd) : (s.modCmd i f).agenda = s.agenda := rfl
@[simp] theorem State.modCmd_late (s : State) (i : Nat) (f : Cmd → Cmd) : (s.modCmd i f).late = s.late := rfl
@[simp] theorem State.modCmd_fill (s : State) (i : Nat) (f : Cmd → Cmd) : (s.modCmd i f).fill = s.fill := rfl
@[simp] theorem State.modCmd_freeCtr (s : State) (i : Nat) (f : Cmd → Cmd) : (s.modCmd i f).freeCtr = s.freeCtr := rfl
@[simp] theorem State.modCmd_serial (s : State) (i : Nat) (f : Cmd → Cmd) : (s.modCmd i f).serial = s.serial := rfl

@[simp] theorem State.modTile_threads (s : State) (i : Nat) (f : Tile → Tile) : (s.modTile i f).threads = s.threads := rfl
@[simp] theorem State.modTile_tasks (s : State) (i : Nat) (f : Tile → Tile) : (s.modTile i f).tasks = s.tasks := rfl
@[simp] theorem State.modTile_cmds (s : State) (i : Nat) (f : Tile → Tile) : (s.modTile i f).cmds = s.cmds := rfl
@[simp] theorem State.modTile_tiles (s : State) (i : Nat) (f : Tile → Tile) : (s.modTile i f).tiles = s.tiles.modify i f := rfl
@[simp] theorem State.modTile_accs (s : State) (i : Nat) (f : Tile → Tile) : (s.modTile i f).accs = s.accs := rfl
@[simp] theorem State.modTile_ntiles (s : State) (i : Nat) (f : Tile → Tile) : (s.modTile i f).ntiles = s.ntiles := rfl
@[simp] theorem State.modTile_wcache (s : State) (i : Nat) (f : Tile → Tile) : (s.modTile i f).wcache = s.wcache := rfl
@[simp] theorem State.modTile_power (s : State) (i : Nat) (f : Tile → Tile) : (s.modTile i f).power = s.power := rfl
@[simp] theorem State.modTile_mem (s : State) (i : Nat) (f : Tile → Tile) : (s.modTile i f).mem = s.mem := rfl
@[simp] theorem State.modTile_front (s : State) (i : Nat) (f : Tile → Tile) : (s.modTile i f).front = s.front := rfl
@[simp] theorem State.modTile_win (s : State) (i : Nat) (f : Tile → Tile) : (s.modTile i f).win = s.win := rfl
@[simp] theorem State.modTile_pkg (s : State) (i : Nat) (f : Tile → Tile) : (s.modTile i f).pkg = s.pkg := rfl
@[simp] theorem State.modTile_time (s : State) (i : Nat) (f : Tile → Tile) : (s.modTile i f).time = s.time := rfl
@[simp] theorem State.modTile_cycle (s : State) (i : Nat) (f : Tile → Tile) : (s.modTile i f).cycle = s.cycle := rfl
@[simp] theorem State.modTile_period (s : State) (i : Nat) (f : Tile → Tile) : (s.modTile i f).period = s.period := rfl
@[simp] theorem State.modTile_agenda (s : State) (i : Nat) (f : Tile → Tile) : (s.modTile i f).agenda = s.agenda := rfl
@[simp] theorem State.modTile_late (s : State) (i : Nat) (f : Tile → Tile) : (s.modTile i f).late = s.late := rfl
@[simp] theorem State.modTile_fill (s : State) (i : Nat) (f : Tile → Tile) : (s.modTile i f).fill = s.fill := rfl
@[simp] theorem State.modTile_freeCtr (s : State) (i : Nat) (f : Tile → Tile) : (s.modTile i f).freeCtr = s.freeCtr := rfl
@[simp] theorem State.modTile_serial (s : State) (i : Nat) (f : Tile → Tile) : (s.modTile i f).serial = s.serial := rfl

@[simp] theorem State.useFree_threads (s : State) (n : Nat) : (s.useFree n).threads = s.threads := rfl
@[simp] theorem State.useFree_tasks (s : State) (n : Nat) : (s.useFree n).tasks = s.tasks := rfl
@[simp] theorem State.useFree_cmds (s : State) (n : Nat) : (s.useFree n).cmds = s.cmds := rfl
@[simp] theorem State.useFree_tiles (s : State) (n : Nat) : (s.useFree n).tiles = s.tiles := rfl
@[simp] theorem State.useFree_accs (s : State) (n : Nat) : (s.useFree n).accs = s.accs := rfl
@[simp] theorem State.useFree_ntiles (s : State) (n : Nat) : (s.useFree n).ntiles = s.ntiles := rfl
@[simp] theorem State.useFree_wcache (s : State) (n : Nat) : (s.useFree n).wcache = s.wcache := rfl
@[simp] theorem State.useFree_power (s : State) (n : Nat) : (s.useFree n).power = s.power := rfl
@[simp] theorem State.useFree_mem (s : State) (n : Nat) : (s.useFree n).mem = s.mem := rfl
@[simp] theorem State.useFree_front (s : State) (n : Nat) : (s.useFree n).front = s.front := rfl
@[simp] theorem State.useFree_win (s : State) (n : Nat) : (s.useFree n).win = s.win := rfl
@[simp] theorem State.useFree_pkg (s : State) (n : Nat) : (s.useFree n).pkg = s.pkg := rfl
@[simp] theorem State.useFree_time (s : State) (n : Nat) : (s.useFree n).time = s.time := rfl
@[simp] theorem State.useFree_cycle (s : State) (n : Nat) : (s.useFree n).cycle = s.cycle := rfl
@[simp] theorem State.useFree_period (s : State) (n : Nat) : (s.useFree n).period = s.period := rfl
@[simp] theorem State.useFree_agenda (s : State) (n : Nat) : (s.useFree n).agenda = s.agenda := rfl
@[simp] theorem State.useFree_late (s : State) (n : Nat) : (s.useFree n).late = s.late := rfl
@[simp] theorem State.useFree_fill (s : State) (n : Nat) : (s.useFree n).fill = s.fill := rfl
@[simp] theorem State.useFree_freeCtr (s : State) (n : Nat) : (s.useFree n).freeCtr = s.freeCtr + n := rfl
@[simp] theorem State.useFree_serial (s : State) (n : Nat) : (s.useFree n).serial = s.serial := rfl

/-! ## Threads -/

@[simp] theorem Thread.setPc_arch (t : Thread) (p : DWord) : (t.setPc p).arch = t.arch := rfl
@[simp] theorem Thread.ageLatches_arch (t : Thread) : t.ageLatches.arch = t.arch := rfl
@[simp] theorem Thread.pushLatch_arch (t : Thread) (v : QWord) (b : Bool) : (t.pushLatch v b).arch = t.arch := rfl
@[simp] theorem Thread.interrupted_arch (t : Thread) : t.interrupted.arch = t.arch := rfl
@[simp] theorem Thread.observe_arch (t : Thread) (l : List Nat) : (t.observe l).arch = t.arch := rfl
@[simp] theorem Thread.setRegs_arch (t : Thread) (n c : Nat) (v : QWord) :
    (t.setRegs n c v).arch = { t.arch with regs := writeRegs t.regs n v.toNat c } := rfl
@[simp] theorem Thread.raise_arch (t : Thread) (f : FFlags) :
    (t.raise f).arch = { t.arch with fflags := t.fflags ||| f } := rfl
@[simp] theorem begun_arch (t : Thread) : (begun t).arch = t.arch := rfl

@[simp] theorem Thread.setPc_stack (t : Thread) (p : DWord) : (t.setPc p).stack = t.stack := rfl
@[simp] theorem Thread.ageLatches_stack (t : Thread) : t.ageLatches.stack = t.stack := rfl
@[simp] theorem Thread.pushLatch_stack (t : Thread) (v : QWord) (b : Bool) : (t.pushLatch v b).stack = t.stack := rfl
@[simp] theorem Thread.interrupted_stack (t : Thread) : t.interrupted.stack = t.stack := rfl
@[simp] theorem Thread.observe_stack (t : Thread) (l : List Nat) : (t.observe l).stack = t.stack := rfl
@[simp] theorem Thread.setRegs_stack (t : Thread) (n c : Nat) (v : QWord) : (t.setRegs n c v).stack = t.stack := rfl
@[simp] theorem Thread.raise_stack (t : Thread) (f : FFlags) : (t.raise f).stack = t.stack := rfl
@[simp] theorem begun_stack (t : Thread) : (begun t).stack = t.stack := rfl

@[simp] theorem Thread.setPred_stack (t : Thread) (p : Nat) (b : Bool) : (t.setPred p b).stack = t.stack := by
  unfold Thread.setPred; split <;> rfl

/-! ## Threads of a state by number -/

theorem State.archOf_setThread (s : State) (k j : Nat) (t : Thread) :
    (s.setThread k t).archOf j = if k = j ∧ j < s.threads.length then some t.arch else s.archOf j := by
  simp only [State.archOf, State.setThread_threads, List.getElem?_set]
  split <;> split <;> simp_all

theorem State.archOf_modThread (s : State) (k j : Nat) (f : Thread → Thread) :
    (s.modThread k f).archOf j = if k = j then s.threads[j]?.map (fun t => (f t).arch) else s.archOf j := by
  simp only [State.archOf, State.modThread_threads, List.getElem?_modify]
  split <;> simp_all [Function.comp_def]

/-- A change that keeps every thread's registers keeps those of the state. -/
theorem State.archOf_modThread_same (s : State) (k j : Nat) (f : Thread → Thread) (h : ∀ t, (f t).arch = t.arch) :
    (s.modThread k f).archOf j = s.archOf j := by
  rw [State.archOf_modThread]; split
  · simp [State.archOf, h]
  · rfl

end Sys2Proof.Machine
end

