-- ==== Sys2Proof/Laws/Run.lean ====
section
/-! SUPPORT. What filing, parking, and the end of an issue can change, said once; and what a thread instruction comes to
when nothing keeps it from its own effect. -/

namespace Sys2Proof.Machine

/-! ## What the front end can change -/

/-- A thread but for where it stands: state, pc, latches, open region and parking. -/
def Thread.calm (t : Thread) : Thread := { t with st := .ready, pc := 0, latches := [], region := none, parkedAt := 0, parkNo := 0 }

def Tile.calm (a : Tile) : Tile := { a with chans := a.chans.map (fun (h : Chan) => { h with due := false }) }

/-- A state but for the front end, where each thread stands, pushes under way, and the next serial number. -/
def State.calm (s : State) : State :=
  { s with threads := s.threads.map Thread.calm, tiles := s.tiles.map Tile.calm, front := Front.reset, serial := 0 }

theorem calm_threads {s s' : State} (h : s'.calm = s.calm) (j : Nat) :
    s'.threads[j]?.map Thread.calm = s.threads[j]?.map Thread.calm := by
  have := congrArg (fun x : State => x.threads[j]?) h
  simpa [State.calm] using this

theorem calm_archOf {s s' : State} (h : s'.calm = s.calm) (j : Nat) : s'.archOf j = s.archOf j := by
  have := congrArg (Option.map Thread.arch) (calm_threads h j)
  have e : Thread.arch ∘ Thread.calm = Thread.arch := rfl
  simpa only [State.archOf, Option.map_map, e] using this

theorem calm_mem {s s' : State} (h : s'.calm = s.calm) : s'.mem = s.mem := by
  have := congrArg State.mem h; exact this
theorem calm_tasks {s s' : State} (h : s'.calm = s.calm) : s'.tasks = s.tasks := by
  have := congrArg State.tasks h; exact this
theorem calm_cmds {s s' : State} (h : s'.calm = s.calm) : s'.cmds = s.cmds := by
  have := congrArg State.cmds h; exact this
theorem calm_pkg {s s' : State} (h : s'.calm = s.calm) : s'.pkg = s.pkg := by
  have := congrArg State.pkg h; exact this
theorem calm_win {s s' : State} (h : s'.calm = s.calm) : s'.win = s.win := by
  have := congrArg State.win h; exact this
theorem calm_ntiles {s s' : State} (h : s'.calm = s.calm) : s'.ntiles = s.ntiles := by
  have := congrArg State.ntiles h; exact this
theorem calm_accs {s s' : State} (h : s'.calm = s.calm) : s'.accs = s.accs := by
  have := congrArg State.accs h; exact this
theorem calm_time {s s' : State} (h : s'.calm = s.calm) : s'.time = s.time := by
  have := congrArg State.time h; exact this
theorem calm_cycle {s s' : State} (h : s'.calm = s.calm) : s'.cycle = s.cycle := by
  have := congrArg State.cycle h; exact this
theorem calm_power {s s' : State} (h : s'.calm = s.calm) : s'.power = s.power := by
  have := congrArg State.power h; exact this

theorem calm_tileMem {s s' : State} (h : s'.calm = s.calm) (i : Nat) :
    s'.tiles[i]?.map (fun a => a.mem) = s.tiles[i]?.map (fun a => a.mem) := by
  have := congrArg (fun x : State => x.tiles[i]?.map (fun a => a.mem)) h
  have e : (fun a : Tile => a.mem) ∘ Tile.calm = fun a => a.mem := rfl
  simpa only [State.calm, List.getElem?_map, Option.map_map, e] using this

theorem calm_stack {s s' : State} (h : s'.calm = s.calm) (i : Nat) :
    s'.threads[i]?.map (fun t => t.stack) = s.threads[i]?.map (fun t => t.stack) := by
  have := congrArg (Option.map Thread.stack) (calm_threads h i)
  have e : Thread.stack ∘ Thread.calm = Thread.stack := rfl
  simpa only [Option.map_map, e] using this

theorem calm_byteAt {s s' : State} (h : s'.calm = s.calm) (pl : Place) : s'.byteAt pl = s.byteAt pl := by
  cases pl with
  | dev a b => simp only [State.byteAt, calm_mem h]
  | host a => simp only [State.byteAt, calm_mem h]
  | tile i off =>
    have := congrArg (Option.map (fun m : Store => m.get off)) (calm_tileMem h i)
    simp only [Option.map_map, Function.comp_def] at this
    simp only [State.byteAt, this]
  | stack k off =>
    have := congrArg (Option.map (fun m : Store => m.get off)) (calm_stack h k)
    simp only [Option.map_map, Function.comp_def] at this
    simp only [State.byteAt, this]

theorem calm_tid {s s' : State} (h : s'.calm = s.calm) (j : Nat) {t : Thread} (ht : s.threads[j]? = some t) :
    ∃ u, s'.threads[j]? = some u ∧ u.calm = t.calm := by
  have := calm_threads h j
  rw [ht] at this
  simpa using this

/-! ## The operations of the front end -/

theorem map_modify_same {α β : Type} (g : α → β) (f : α → α) (h : ∀ x, g (f x) = g x) :
    ∀ (l : List α) (k : Nat), (l.modify k f).map g = l.map g := by
  intro l k
  apply List.ext_getElem?
  intro i
  simp only [List.getElem?_map, List.getElem?_modify]
  split
  · cases l[i]? <;> simp [h]
  · cases l[i]? <;> simp

theorem calm_modThread (s : State) (k : Nat) (f : Thread → Thread) (h : ∀ t, (f t).calm = t.calm) : (s.modThread k f).calm = s.calm := by
  simp only [State.calm, State.modThread, map_modify_same Thread.calm f h]

theorem calm_setThread (s : State) (k : Nat) (t u : Thread) (ht : s.threads[k]? = some t) (h : u.calm = t.calm) :
    (s.setThread k u).calm = s.calm := by
  have : (s.threads.set k u).map Thread.calm = s.threads.map Thread.calm := by
    apply List.ext_getElem?
    intro i
    simp only [List.getElem?_map, List.getElem?_set]
    split
    · subst_vars
      have := List.getElem?_eq_some_iff.mp ht
      obtain ⟨hl, _⟩ := this
      rw [List.getElem?_eq_getElem hl] at ht
      simp only [Option.some.injEq] at ht
      simp [hl, h, ht]
    · rfl
  simp only [State.calm, State.setThread, this]

theorem calm_front (s : State) (f : Front) : ({ s with front := f } : State).calm = s.calm := rfl

theorem unfile_calm (s : State) (k : Nat) : (s.unfile k).calm = s.calm := rfl
theorem stays_calm (s : State) (k : Nat) (b : Bool) : (s.stays k b).calm = s.calm := rfl

theorem interrupted_calm (t : Thread) : t.interrupted.calm = t.calm := rfl

theorem fileAt_calm (s : State) (k : Nat) (pc : DWord) (r : Nat) (b : Bool) : (s.fileAt k pc r b).calm = s.calm := by
  unfold State.fileAt
  cases h : s.threads[k]? with
  | none => rfl
  | some t =>
    dsimp only
    split
    · exact calm_setThread s k t _ h rfl
    · exact (calm_front _ _).trans (calm_setThread s k t _ h rfl)

theorem file_calm (s : State) (k : Nat) (pc : DWord) : (s.file k pc).calm = s.calm := fileAt_calm s k pc _ _

theorem park_calm (s : State) (k : Nat) (w : Wait) : (s.park k w).calm = s.calm := by
  unfold State.park
  exact (calm_modThread (s.unfile k) k
    (fun t => { t with st := .parked w, latches := t.parkLatches w, parkedAt := s.time.toNat, parkNo := s.serial }) (fun _ => rfl)).trans (unfile_calm s k)

theorem foldl_calm {α : Type} (f : State → α → State) (h : ∀ s x, (f s x).calm = s.calm) :
    ∀ (l : List α) (s : State), (l.foldl f s).calm = s.calm
  | [], _ => rfl
  | x :: l, s => (foldl_calm f h l (f s x)).trans (h s x)

theorem fileAll_calm (s : State) (ks : List Nat) : (s.fileAll ks).calm = s.calm :=
  foldl_calm _ (fun s k => file_calm s k _) ks s

theorem stopOne_calm (s : State) (k : Nat) : (s.stopOne k).calm = s.calm := by
  unfold State.stopOne
  cases h : s.threads[k]? with
  | none => rfl
  | some t =>
    dsimp only
    split
    · exact calm_setThread s k t _ h rfl
    · rfl

theorem parkOne_calm (s : State) (k : Nat) : (s.parkOne k).calm = s.calm := by
  unfold State.parkOne
  split
  · rfl
  · split
    · exact park_calm s k _
    · rfl

theorem endDue_calm (s : State) : s.endDue.calm = s.calm := by
  simp [State.endDue, State.calm, Tile.calm, Function.comp_def]

/-- The end of an issue changes nothing but where threads stand. -/
theorem closeIssue_calm (s : State) : s.closeIssue.calm = s.calm := by
  unfold State.closeIssue
  cases h : s.front.issue with
  | none => rfl
  | some i =>
    by_cases hl : (!i.left.isEmpty) = true
    · simp only [hl, if_true]
    · simp only [hl]
      have h1 : (if i.wake then ({ s with front := { s.front with issue := none } } : State).endDue
          else { s with front := { s.front with issue := none } }).calm = s.calm := by
        cases i.wake
        · rfl
        · exact endDue_calm _
      generalize (if i.wake then ({ s with front := { s.front with issue := none } } : State).endDue
          else { s with front := { s.front with issue := none } }) = s0 at h1 ⊢
      have h2 := foldl_calm _ parkOne_calm i.stay s0
      generalize i.stay.foldl State.parkOne s0 = s2 at h2 ⊢
      have h3 := foldl_calm _ stopOne_calm i.stay s2
      generalize i.stay.foldl State.stopOne s2 = s3 at h3 ⊢
      by_cases ht : (i.taken || i.wake) = true
      · simp only [ht, if_true]; exact (fileAll_calm _ _).trans (h2.trans h1)
      · simp only [ht]
        generalize i.stay.filter (fun k => (s3.threads[k]?.map (fun t => decide (t.st = .ready))).getD false) = go
        cases go
        · exact h3.trans (h2.trans h1)
        · exact (calm_front _ _).trans (h3.trans (h2.trans h1))

/-- Behind its instruction a thread has what the meaning left it, but for where it stands. -/
theorem goesOn_calm (k : Nat) (t : Thread) (i : Instr) (s' : State) : (goesOn k t i s').calm = s'.calm := by
  unfold goesOn
  rw [closeIssue_calm, stays_calm]
  exact calm_modThread s' k (fun u => { u with pc := t.pc + BitVec.ofNat 64 i.len }) (fun _ => rfl)

theorem goesTo_calm (p : DWord) (k : Nat) (s' : State) : (goesTo p k s').calm = s'.calm := by
  unfold goesTo
  rw [closeIssue_calm, stays_calm]
  exact calm_modThread s' k (fun u => { u with pc := p, latches := [] }) (fun _ => rfl)

/-! ## The meaning of a thread instruction that runs -/

/-- At its turn, with nothing before execution in its way, a thread instruction comes to its body's effect. -/
theorem runThread_runs {s s1 : State} {k : Nat} {t : Thread} {i : Instr} {c0 cx : Ctx}
    (pre : Ctx → State → Option TrapInfo) (body : Ctx → State → State × Eff)
    (h : s.runs k t i) (hr : s.reads k t i c0 cx s1) (hp : pre c0 (s.begin k t i) = none) (hT : isTeamOp i.opc = false) :
    runThread i pre body s = .next (finishMember s k i.len t.pc (body cx s1).1 (body cx s1).2) := by
  obtain ⟨⟨⟨ht, is, rest, hi, hl⟩, hwf, hregs, hpriv, hrep, hblk, hbad, hreg⟩, hg⟩ := h
  obtain ⟨hf, hc, htk⟩ := hr
  have hg' : guardOf (begun t) i.ext = true := hg
  have hpriv' : privCheck i (begun t) = none := by rw [← hpriv]; cases i <;> rfl
  have hbad' : i.regsRead.any (fun r => decide (r ∈ (begun t).badRegs)) = false := hbad
  have hregion : (match (begun t).region with
      | some r => !regionAllows i.opc i.ext || i.regsRead.any (fun n => decide (n ∈ r.pending))
      | none => false) = false := by
    show (match t.region with
      | some r => !regionAllows i.opc i.ext || i.regsRead.any (fun n => decide (n ∈ r.pending))
      | none => false) = false
    rcases hreg with ⟨h0, -⟩ | ⟨r, h0, h1, h2⟩
    · rw [h0]
    · rw [h0]; simp [h1, h2]
  have hcmp : cmpOutside i (begun t) = false := by
    show (decide (i.opc = 0x50) && decide (hintOf i.ext = 3) && t.region.isNone) = false
    rcases hreg with ⟨-, h1⟩ | ⟨r, h0, -, -⟩
    · exact h1
    · rw [h0]; simp
  have hrm : runMember i pre body s k t = .eff (body cx s1).1 (body cx s1).2 := by
    unfold runMember
    show (if !i.wf || !i.regsOk (begun t).regsN then _ else _) = _
    have e1 : (!i.wf || !i.regsOk (begun t).regsN) = false := by
      show (!i.wf || !i.regsOk t.regsN) = false
      simp [hwf, hregs]
    rw [if_neg (by rw [e1]; decide)]
    show (match privCheck i (begun t) with | some e => _ | none => _) = _
    rw [hpriv']
    dsimp only
    rw [show t.ageLatches = begun t from rfl]
    simp only [hg', hrep, hblk, hbad', hT]
    dsimp only [ctxOf] at hf
    have hb : s.setThread k (if (true && endsReach i.opc i.ext) = true then { begun t with latches := [] } else begun t) = s.begin k t i := by
      simp [State.begin]
    simp only [Bool.not_true, Bool.false_and, Bool.false_eq_true, if_false, Bool.true_or, Bool.and_false, Bool.not_false, Bool.true_and, if_true, hf]
    simp only [Bool.true_and] at hb
    rw [hb, hp]
    dsimp only
    rw [hc]
    dsimp only
    rw [htk]
    exact (if_neg (by rw [hcmp]; decide)).trans (if_neg (fun hh => absurd (hregion.symm.trans hh) (by decide)))
  unfold runThread
  rw [hi]; dsimp only; rw [hl]; dsimp only; rw [ht]; dsimp only
  rw [hrm]

end Sys2Proof.Machine
end

