-- ==== Sys2Proof/Laws/Operands.lean ====
section
/-! SUPPORT. What reading operands and delivering a result can change, said once. -/

namespace Sys2Proof.Machine

/-- A task but for its spill chunks and its watchdog; an allocation but for its rings: what a channel transfer leaves. -/
def Task.quiet (t : Task) : Task := { t with chunks := [], lastChange := 0 }
def Tile.quiet (a : Tile) : Tile := { a with chans := [] }

/-- Everything but threads, tasks' channel bookkeeping, the rings of channels and the front end is as it was. -/
structure DeviceSame (s s' : State) : Prop where
  mem : s'.mem = s.mem
  cmds : s'.cmds = s.cmds
  accs : s'.accs = s.accs
  ntiles : s'.ntiles = s.ntiles
  wcache : s'.wcache = s.wcache
  power : s'.power = s.power
  win : s'.win = s.win
  pkg : s'.pkg = s.pkg
  time : s'.time = s.time
  cycle : s'.cycle = s.cycle
  agenda : s'.agenda = s.agenda
  late : s'.late = s.late
  fill : s'.fill = s.fill
  freeCtr : s'.freeCtr = s.freeCtr
  tasks : s'.tasks.map Task.quiet = s.tasks.map Task.quiet
  tiles : s'.tiles.map Tile.quiet = s.tiles.map Tile.quiet

theorem DeviceSame.tileAt {s s' : State} (h : DeviceSame s s') (i : Nat) : s'.tiles[i]?.map Tile.quiet = s.tiles[i]?.map Tile.quiet := by
  have := congrArg (fun l => l[i]?) h.tiles
  simpa using this

theorem DeviceSame.taskAt {s s' : State} (h : DeviceSame s s') (i : Nat) : s'.tasks[i]?.map Task.quiet = s.tasks[i]?.map Task.quiet := by
  have := congrArg (fun l => l[i]?) h.tasks
  simpa using this

theorem DeviceSame.tileMem {s s' : State} (h : DeviceSame s s') (i : Nat) :
    s'.tiles[i]?.map (fun a => a.mem) = s.tiles[i]?.map (fun a => a.mem) := by
  have := congrArg (Option.map Tile.mem) (h.tileAt i)
  have e : Tile.mem ∘ Tile.quiet = fun a => a.mem := rfl
  simpa only [Option.map_map, e] using this

theorem DeviceSame.refl (s : State) : DeviceSame s s :=
  ⟨rfl, rfl, rfl, rfl, rfl, rfl, rfl, rfl, rfl, rfl, rfl, rfl, rfl, rfl, rfl, rfl⟩

theorem DeviceSame.trans {a b c : State} (h : DeviceSame a b) (g : DeviceSame b c) : DeviceSame a c :=
  ⟨g.mem.trans h.mem, g.cmds.trans h.cmds, g.accs.trans h.accs, g.ntiles.trans h.ntiles, g.wcache.trans h.wcache,
   g.power.trans h.power, g.win.trans h.win, g.pkg.trans h.pkg, g.time.trans h.time, g.cycle.trans h.cycle,
   g.agenda.trans h.agenda, g.late.trans h.late, g.fill.trans h.fill, g.freeCtr.trans h.freeCtr,
   g.tasks.trans h.tasks, g.tiles.trans h.tiles⟩

/-- A change of where threads stand is no change of the device. -/
theorem DeviceSame.of_calm {s s' : State} (h : s'.calm = s.calm) : DeviceSame s s' :=
  ⟨calm_mem h, calm_cmds h, calm_accs h, calm_ntiles h, by have := congrArg State.wcache h; exact this, calm_power h, calm_win h,
   calm_pkg h, calm_time h, calm_cycle h, by have := congrArg State.agenda h; exact this, by have := congrArg State.late h; exact this,
   by have := congrArg State.fill h; exact this, by have := congrArg State.freeCtr h; exact this,
   congrArg (List.map Task.quiet) (calm_tasks h), by
     have e : ∀ l : List Tile, l.map Tile.quiet = (l.map Tile.calm).map Tile.quiet := fun l => by
       rw [List.map_map]; rfl
     have := congrArg State.tiles h
     rw [e, e s.tiles]; exact congrArg (List.map Tile.quiet) this⟩

theorem DeviceSame.modThread (s : State) (k : Nat) (f : Thread → Thread) : DeviceSame s (s.modThread k f) :=
  ⟨rfl, rfl, rfl, rfl, rfl, rfl, rfl, rfl, rfl, rfl, rfl, rfl, rfl, rfl, rfl, rfl⟩

theorem DeviceSame.setThread (s : State) (k : Nat) (t : Thread) : DeviceSame s (s.setThread k t) :=
  ⟨rfl, rfl, rfl, rfl, rfl, rfl, rfl, rfl, rfl, rfl, rfl, rfl, rfl, rfl, rfl, rfl⟩

theorem DeviceSame.modTask (s : State) (k : Nat) (f : Task → Task) (hf : ∀ t, (f t).quiet = t.quiet) : DeviceSame s (s.modTask k f) :=
  ⟨rfl, rfl, rfl, rfl, rfl, rfl, rfl, rfl, rfl, rfl, rfl, rfl, rfl, rfl, map_modify_same Task.quiet f hf s.tasks k, rfl⟩

theorem DeviceSame.setChan (s : State) (k : Nat) (h : Chan) : DeviceSame s (s.setChan k h) :=
  ⟨rfl, rfl, rfl, rfl, rfl, rfl, rfl, rfl, rfl, rfl, rfl, rfl, rfl, rfl, rfl,
   map_modify_same Tile.quiet (fun a => { a with chans := a.chans.map (fun g => if g.c = h.c then h.behind g s.time.toNat else g) })
     (fun _ => rfl) s.tiles k⟩

theorem DeviceSame.touch (s : State) (k : Nat) : DeviceSame s (s.touch k) := DeviceSame.modTask s k _ (fun _ => rfl)

theorem DeviceSame.chunks (s : State) (k : Nat) (g : Task → List Nat) : DeviceSame s (s.modTask k (fun x => { x with chunks := g x })) :=
  DeviceSame.modTask s k _ (fun _ => rfl)

/-! ## Channels -/

theorem popChan_same {s s' : State} {t : Thread} {c : Nat} {v : QWord} (h : s.popChan t c = some (v, s')) :
    DeviceSame s s' ∧ s'.threads = s.threads ∧ s'.front = s.front := by
  unfold State.popChan at h
  split at h
  · exact absurd h (by simp)
  · split at h
    · exact absurd h (by simp)
    · simp only [Option.some.injEq, Prod.mk.injEq] at h
      obtain ⟨-, rfl⟩ := h
      exact ⟨((DeviceSame.setChan s _ _).trans (DeviceSame.chunks _ _ _)).trans (DeviceSame.touch _ _), rfl, rfl⟩

theorem pushChan_same {s s' : State} {t : Thread} {c : Nat} {v : QWord} (h : s.pushChan t c v = some s') :
    DeviceSame s s' ∧ s'.threads = s.threads ∧ s'.front = s.front := by
  unfold State.pushChan at h
  split at h
  · exact absurd h (by simp)
  · split at h
    · exact absurd h (by simp)
    · simp only [Option.some.injEq] at h
      subst h
      exact ⟨((DeviceSame.setChan s _ _).trans (DeviceSame.chunks _ _ _)).trans (DeviceSame.touch _ _), rfl, rfl⟩

theorem takeSrc_same {s s' : State} {t : Thread} {sh : SrcShape} {y : Src} {v w : QWord}
    (h : s.takeSrc t sh y v = .ok (w, s')) : DeviceSame s s' ∧ s'.threads = s.threads ∧ s'.front = s.front := by
  unfold State.takeSrc at h
  split at h
  · split at h
    · rename_i r hr
      simp only [Except.ok.injEq] at h
      subst h; exact popChan_same hr
    · exact absurd h (by simp)
  · split at h
    · split at h
      · simp only [Except.ok.injEq, Prod.mk.injEq] at h
        obtain ⟨-, rfl⟩ := h; exact ⟨.refl _, rfl, rfl⟩
      · exact absurd h (by simp)
    · exact absurd h (by simp)
  · simp only [Except.ok.injEq, Prod.mk.injEq] at h
    obtain ⟨-, rfl⟩ := h; exact ⟨.refl _, rfl, rfl⟩

/-! ## Operands -/

/-- Reading registers, latches and immediates leaves everything of the context but the three values. -/
theorem fetch_fields {cx c0 : Ctx} (h : cx.fetch = .ok c0) : ∃ a b c, c0 = { cx with va := a, vb := b, vc := c } := by
  unfold Ctx.fetch at h
  split at h
  · exact absurd h (by simp)
  · split at h
    · exact absurd h (by simp)
    · split at h
      · exact absurd h (by simp)
      · simp only [Except.ok.injEq] at h; exact ⟨_, _, _, h.symm⟩

/-- Taking the channel operands leaves everything of the context but the three values, and everything of the state but
rings and their bookkeeping. -/
theorem take_same {cx cx' : Ctx} {s s' : State} (h : cx.take s = .ok (cx', s')) :
    (∃ a b c, cx' = { cx with va := a, vb := b, vc := c }) ∧ DeviceSame s s' ∧ s'.threads = s.threads ∧ s'.front = s.front := by
  unfold Ctx.take at h
  split at h
  · exact absurd h (by simp)
  · rename_i a sa ha
    split at h
    · exact absurd h (by simp)
    · rename_i b sb hb
      split at h
      · exact absurd h (by simp)
      · rename_i c sc hc
        split at h
        · exact absurd h (by simp)
        · simp only [Except.ok.injEq, Prod.mk.injEq] at h
          obtain ⟨rfl, rfl⟩ := h
          have h1 := takeSrc_same ha
          have h2 := takeSrc_same hb
          have h3 := takeSrc_same hc
          exact ⟨⟨_, _, _, rfl⟩, (h1.1.trans h2.1).trans h3.1, h3.2.1.trans (h2.2.1.trans h1.2.1), h3.2.2.trans (h2.2.2.trans h1.2.2)⟩

/-- What the operands of an instruction at its turn leave: the context of the instruction with its three values, and a
state whose threads and device are those in which it began. -/
theorem reads_same {s s1 : State} {k : Nat} {t : Thread} {i : Instr} {c0 cx : Ctx} (h : s.reads k t i c0 cx s1) :
    (∃ a b c, c0 = { ctxOf k t i with va := a, vb := b, vc := c }) ∧ (∃ a b c, cx = { ctxOf k t i with va := a, vb := b, vc := c }) ∧
      DeviceSame s s1 ∧ s1.threads = (s.begin k t i).threads ∧ s1.front = s.front := by
  obtain ⟨hf, -, ht⟩ := h
  obtain ⟨a, b, c, rfl⟩ := fetch_fields hf
  obtain ⟨⟨a', b', c', h1⟩, h2, h3, h4⟩ := take_same ht
  exact ⟨⟨a, b, c, rfl⟩, ⟨a', b', c', h1⟩, (DeviceSame.setThread s k _).trans h2, h3, h4⟩

theorem begin_archOf (s : State) (k j : Nat) (t : Thread) (i : Instr) (ht : s.threads[k]? = some t) :
    (s.begin k t i).archOf j = s.archOf j := by
  unfold State.begin
  rw [State.archOf_setThread]
  split
  · rename_i h
    obtain ⟨rfl, -⟩ := h
    split <;> simp [State.archOf, ht]; rfl
  · rfl

theorem begin_stack (s : State) (k j : Nat) (t : Thread) (i : Instr) (ht : s.threads[k]? = some t) :
    (s.begin k t i).threads[j]?.map (fun u => u.stack) = s.threads[j]?.map (fun u => u.stack) := by
  simp only [State.begin, State.setThread_threads, List.getElem?_set]
  split
  · rename_i h; subst h
    have hl := (List.getElem?_eq_some_iff.mp ht).1
    rw [ht]; simp only [hl, if_true]; split <;> rfl
  · rfl

/-! ## What reading operands leaves of addresses and bytes -/

theorem DeviceSame.task {s s' : State} (h : DeviceSame s s') (i : Nat) (T : Task) (hT : s.tasks[i]? = some T) :
    ∃ T', s'.tasks[i]? = some T' ∧ T'.quiet = T.quiet := by
  have := h.taskAt i
  rw [hT] at this
  simpa using this

theorem DeviceSame.noTask {s s' : State} (h : DeviceSame s s') (i : Nat) (hT : s.tasks[i]? = none) : s'.tasks[i]? = none := by
  have := h.taskAt i
  rw [hT] at this
  simpa using this

theorem findIdx_map {α β : Type} (g : α → β) (f : β → Bool) : ∀ l : List α, findIdx f (l.map g) = findIdx (fun x => f (g x)) l
  | [] => rfl
  | x :: l => by simp only [List.map_cons, findIdx, findIdx_map g f l]

theorem DeviceSame.tileOf {s s' : State} (h : DeviceSame s s') (a b : Nat) : s'.tileOf a b = s.tileOf a b := by
  have e : ∀ l : List Tile, findIdx (fun x => x.live && decide (x.task = a) && decide (x.core = b)) l =
      findIdx (fun x => x.live && decide (x.task = a) && decide (x.core = b)) (l.map Tile.quiet) := by
    intro l; rw [findIdx_map]; rfl
  unfold State.tileOf
  rw [e, e s.tiles, h.tiles]

theorem DeviceSame.walk {s s' : State} (h : DeviceSame s s') (pt va : Nat) : s'.walk pt va = s.walk pt va := by
  unfold State.walk; rw [h.pkg, h.mem]

theorem DeviceSame.walkSup {s s' : State} (h : DeviceSame s s') (pt va : Nat) : s'.walkSup pt va = s.walkSup pt va := by
  unfold State.walkSup; rw [h.walk]

theorem quiet_desc {T T' : Task} (h : T'.quiet = T.quiet) : T'.desc = T.desc ∧ T'.chtab = T.chtab ∧ T'.tenure = T.tenure ∧ T'.tlb = T.tlb ∧ T'.param = T.param :=
  ⟨by have := congrArg Task.desc h; exact this, by have := congrArg Task.chtab h; exact this,
   by have := congrArg Task.tenure h; exact this, by have := congrArg Task.tlb h; exact this, by have := congrArg Task.param h; exact this⟩

theorem DeviceSame.resolveGlobal {s s' : State} (h : DeviceSame s s') (t : Thread) (ea : DWord) (n : Nat) (w : Bool) :
    s'.resolveGlobal t ea n w = s.resolveGlobal t ea n w := by
  unfold State.resolveGlobal
  cases hT : s.tasks[t.task]? with
  | none => rw [h.noTask _ hT]
  | some T =>
    obtain ⟨T', hT', hq⟩ := h.task _ T hT
    obtain ⟨h1, -, h3, h4, -⟩ := quiet_desc hq
    rw [hT']
    dsimp only
    rw [h1, h.walkSup]
    have e : T'.inTenure ea.toNat n w = T.inTenure ea.toNat n w := by unfold Task.inTenure Task.regions; rw [h3, h1]
    have e2 : T'.tlbOf ea.toNat = T.tlbOf ea.toNat := by unfold Task.tlbOf; rw [h4]
    rw [e, e2]

/-- An address reaches the same place. -/
theorem DeviceSame.resolve {s s' : State} (h : DeviceSame s s') (k : Nat) (t : Thread) (ea : DWord) (n al : Nat) (w : Bool) :
    s'.resolve k t ea n al w = s.resolve k t ea n al w := by
  unfold State.resolve
  cases hT : s.tasks[t.task]? with
  | none => rw [h.noTask _ hT]
  | some T =>
    obtain ⟨T', hT', hq⟩ := h.task _ T hT
    obtain ⟨h1, h2, -⟩ := quiet_desc hq
    rw [hT']
    dsimp only
    have e : T'.tileWindow = T.tileWindow := by unfold Task.tileWindow; rw [h1, h2]
    have e2 : T'.stackBytes = T.stackBytes := by unfold Task.stackBytes; rw [h1]
    rw [e, e2, h.tileOf, h.resolveGlobal]

theorem DeviceSame.absentAt {s s' : State} (h : DeviceSame s s') (pl : Place) (n : Nat) : s'.absentAt pl n = s.absentAt pl n := by
  unfold State.absentAt
  cases pl with
  | tile i off =>
    dsimp only
    have := congrArg (Option.map Tile.absent) (h.tileAt i)
    have e : Tile.absent ∘ Tile.quiet = Tile.absent := rfl
    simp only [Option.map_map, e] at this
    cases h1 : s.tiles[i]? <;> cases h2 : s'.tiles[i]? <;> rw [h1, h2] at this <;> simp_all
  | _ => rfl

theorem DeviceSame.homeRead {s s' : State} (h : DeviceSame s s')
    (hs : ∀ j : Nat, s'.threads[j]?.map (fun u => u.stack) = s.threads[j]?.map (fun u => u.stack)) (pl : Place) (n : Nat) :
    s'.homeRead pl n = s.homeRead pl n := by
  unfold State.homeRead
  cases pl with
  | dev a b => dsimp only; rw [h.mem]
  | host a => dsimp only; rw [h.mem]
  | tile i off =>
    have := h.tileMem i
    dsimp only
    cases h1 : s.tiles[i]? <;> cases h2 : s'.tiles[i]? <;> rw [h1, h2] at this <;> simp_all
  | stack j off =>
    have := hs j
    dsimp only
    cases h1 : s.threads[j]? <;> cases h2 : s'.threads[j]? <;> rw [h1, h2] at this <;> simp_all

theorem DeviceSame.homeBad {s s' : State} (h : DeviceSame s s')
    (hs : ∀ j : Nat, s'.threads[j]?.map (fun u => u.stack) = s.threads[j]?.map (fun u => u.stack)) (pl : Place) (n : Nat) :
    s'.homeBad pl n = s.homeBad pl n := by
  unfold State.homeBad
  cases pl with
  | dev a b => dsimp only; rw [h.mem]
  | host a => dsimp only; rw [h.mem]
  | tile i off =>
    have := h.tileMem i
    dsimp only
    cases h1 : s.tiles[i]? <;> cases h2 : s'.tiles[i]? <;> rw [h1, h2] at this <;> simp_all
  | stack j off =>
    have := hs j
    dsimp only
    cases h1 : s.threads[j]? <;> cases h2 : s'.threads[j]? <;> rw [h1, h2] at this <;> simp_all

/-! ## Results -/

/-- A result changes no device state and no thread but the instruction's own, of which registers and latches alone. -/
theorem dst_same (cx : Ctx) (s : State) (v : QWord) : DeviceSame s (cx.dst s v) ∧ (cx.dst s v).front = s.front ∧
    (∀ j, j ≠ cx.k → (cx.dst s v).threads[j]? = s.threads[j]?) := by
  unfold Ctx.dst
  dsimp only
  split
  · exact ⟨DeviceSame.modThread _ _ _, rfl, fun j hj => by simp [Ne.symm hj]⟩
  · exact ⟨DeviceSame.modThread _ _ _, rfl, fun j hj => by simp [Ne.symm hj]⟩
  · cases hp : s.pushChan cx.t _ (lowCls cx.sh.d.cls v) with
    | none => exact ⟨DeviceSame.modThread _ _ _, rfl, fun j hj => by simp [Ne.symm hj]⟩
    | some s' =>
      obtain ⟨h1, h2, h3⟩ := pushChan_same hp
      refine ⟨h1.trans (DeviceSame.modThread _ _ _), h3, fun j hj => ?_⟩
      simp [Ne.symm hj, h2]

/-- The registers of the instruction's own thread after a result (R36, R55). -/
theorem dst_archOf (cx : Ctx) (s : State) (v : QWord) (t : Thread) (ht : s.threads[cx.k]? = some t) :
    (cx.dst s v).archOf cx.k = some (t.arch.write cx.x.d cx.sh.d.cls v) := by
  unfold Ctx.dst Arch.write
  cases hd : cx.x.d with
  | reg n => simp only; rw [State.archOf_modThread]; simp [ht]; rfl
  | latchOnly => simp only; rw [State.archOf_modThread]; simp [ht]
  | push c n1 =>
    simp only
    cases hp : s.pushChan cx.t c.val (lowCls cx.sh.d.cls v) with
    | none => rw [State.archOf_modThread]; simp [ht]
    | some s' => rw [State.archOf_modThread]; simp [(pushChan_same hp).2.1, ht]

theorem Thread.setPred_arch' (t : Thread) (p : Nat) (b : Bool) : (t.setPred p b).arch = t.arch.writePred p b := by
  unfold Thread.setPred Arch.writePred; split <;> rfl

theorem dstPred_archOf (cx : Ctx) (s : State) (b : Bool) (t : Thread) (ht : s.threads[cx.k]? = some t) (n : Fin 128) (hd : cx.x.d = .reg n) :
    (cx.dstPred s b).archOf cx.k = some (t.arch.writePred n.val b) := by
  unfold Ctx.dstPred
  rw [hd]; simp only; rw [State.archOf_modThread]; simp [ht, Thread.setPred_arch']

theorem dst_stack (cx : Ctx) (s : State) (v : QWord) (j : Nat) :
    (cx.dst s v).threads[j]?.map (fun u => u.stack) = s.threads[j]?.map (fun u => u.stack) := by
  have key : ∀ (s0 : State) (f : Thread → Thread) (_ : ∀ u, (f u).stack = u.stack),
      (s0.modThread cx.k f).threads[j]?.map (fun u => u.stack) = s0.threads[j]?.map (fun u => u.stack) := by
    intro s0 f hf
    simp only [State.modThread_threads, List.getElem?_modify]
    split
    · cases s0.threads[j]? <;> simp [hf]
    · cases s0.threads[j]? <;> rfl
  unfold Ctx.dst
  dsimp only
  split
  · exact key _ _ (fun _ => rfl)
  · exact key _ _ (fun _ => rfl)
  · refine (key _ (fun u => u.pushLatch _ _) (fun _ => rfl)).trans ?_
    cases hp : s.pushChan cx.t _ (lowCls cx.sh.d.cls v) with
    | none => rfl
    | some s' => simp [(pushChan_same hp).2.1]

/-! ## Registers of 32 bits as a value (R55) -/

theorem writeRegs_other (n r : Nat) (hr : r < 128) : ∀ (c : Nat) (regs : Vector Word 128) (v : Nat), n + c ≤ 128 → (r < n ∨ n + c ≤ r) →
    (writeRegs regs n v c)[r] = regs[r] := by
  intro c
  induction c generalizing n with
  | zero => intro regs v _ _; rfl
  | succ c ih =>
    intro regs v h1 h2
    simp only [writeRegs]
    rw [ih (n + 1) _ _ (by omega) (by omega)]
    have : n % 128 = n := Nat.mod_eq_of_lt (by omega)
    simp only [this]
    rw [Vector.getElem_set_ne _ _ (by omega)]

theorem readRegs_writeRegs (n : Nat) : ∀ (c : Nat) (regs : Vector Word 128) (v : Nat), n + c ≤ 128 →
    readRegs (writeRegs regs n v c) n c = v % 2 ^ (32 * c) := by
  intro c
  induction c generalizing n with
  | zero => intro regs v _; simp [readRegs, Nat.mod_one]
  | succ c ih =>
    intro regs v h1
    simp only [readRegs, writeRegs]
    rw [ih (n + 1) _ _ (by omega)]
    have hm : n % 128 = n := Nat.mod_eq_of_lt (by omega)
    simp only [hm]
    rw [writeRegs_other (n + 1) n (by omega) c _ _ (by omega) (by omega), Vector.getElem_set_self]
    simp only [BitVec.toNat_ofNat]
    rw [show 32 * (c + 1) = 32 + 32 * c by omega, Nat.pow_add, Nat.mod_mul]

end Sys2Proof.Machine
end

