-- ==== Sys2Proof/Laws/Meaning.lean ====
section
/-! SUPPORT. What a thread instruction's meaning comes to by the end that its body names, and what its operands, its result
and its end leave as they were: said once for every instruction. -/

namespace Sys2Proof.Machine

/-! ## Meanings by their ends -/

/-- The body goes on: the thread stands behind its instruction. -/
theorem runThread_next {s s1 s2 : State} {k : Nat} {t : Thread} {i : Instr} {c0 cx : Ctx}
    {pre : Ctx → State → Option TrapInfo} {body : Ctx → State → State × Eff}
    (h : s.runs k t i) (hr : s.reads k t i c0 cx s1) (hp : pre c0 (s.begin k t i) = none) (hT : isTeamOp i.opc = false)
    (hb : body cx s1 = (s2, .next)) : runThread i pre body s = .next (goesOn k t i s2) := by
  rw [runThread_runs pre body h hr hp hT, hb]; rfl

/-- The body transfers: the thread stands at the target. -/
theorem runThread_jump {s s1 s2 : State} {k : Nat} {t : Thread} {i : Instr} {c0 cx : Ctx} {p : DWord}
    {pre : Ctx → State → Option TrapInfo} {body : Ctx → State → State × Eff}
    (h : s.runs k t i) (hr : s.reads k t i c0 cx s1) (hp : pre c0 (s.begin k t i) = none) (hT : isTeamOp i.opc = false)
    (hb : body cx s1 = (s2, .jump p)) : runThread i pre body s = .next (goesTo p k s2) := by
  rw [runThread_runs pre body h hr hp hT, hb]; rfl

/-- The body raises a trap: nothing of the instruction has happened. -/
theorem runThread_trap {s s1 s2 : State} {k : Nat} {t : Thread} {i : Instr} {c0 cx : Ctx} {e : TrapInfo}
    {pre : Ctx → State → Option TrapInfo} {body : Ctx → State → State × Eff}
    (h : s.runs k t i) (hr : s.reads k t i c0 cx s1) (hp : pre c0 (s.begin k t i) = none) (hT : isTeamOp i.opc = false)
    (hb : body cx s1 = (s2, .trap e)) : runThread i pre body s = .next (trapsAt s k t i e) := by
  rw [runThread_runs pre body h hr hp hT, hb]; rfl

/-- At its turn, with nothing before execution in its way, a thread instruction whose latches can be read and whose own
check fails takes that trap. -/
theorem runThread_pre {s : State} {k : Nat} {t : Thread} {i : Instr} {c0 : Ctx} {e : TrapInfo}
    {pre : Ctx → State → Option TrapInfo} {body : Ctx → State → State × Eff}
    (h : s.runs k t i) (hf : (ctxOf k t i).fetch = .ok c0) (hp : pre c0 (s.begin k t i) = some e) (hT : isTeamOp i.opc = false) :
    runThread i pre body s = .next (trapsAt s k t i e) := by
  obtain ⟨⟨⟨ht, is, rest, hi, hl⟩, hwf, hregs, hpriv, hrep, hblk, hbad, hreg⟩, hg⟩ := h
  have hg' : guardOf (begun t) i.ext = true := hg
  have hpriv' : privCheck i (begun t) = none := by rw [← hpriv]; cases i <;> rfl
  have hbad' : i.regsRead.any (fun r => decide (r ∈ (begun t).badRegs)) = false := hbad
  have hregion : (match (begun t).region with
      | some r => !regionAllows i.opc i.ext || i.regsRead.any (fun n => decide (n ∈ r.pending))
      | none => false) = false := by
    show (match t.region with
      | some r => !regionAllows i.opc i.ext || i.regsRead.any (fun n => decide (n ∈ r.pending))
      | none => false) = false
    rcases hreg with ⟨h0, -⟩ | ⟨r, h0, h1, h2⟩
    · rw [h0]
    · rw [h0]; simp [h1, h2]
  have hcmp : cmpOutside i (begun t) = false := by
    show (decide (i.opc = 0x50) && decide (hintOf i.ext = 3) && t.region.isNone) = false
    rcases hreg with ⟨-, h1⟩ | ⟨r, h0, -, -⟩
    · exact h1
    · rw [h0]; simp
  have hrm : runMember i pre body s k t = .eff (s.begin k t i) (.trap e) := by
    unfold runMember
    have e1 : (!i.wf || !i.regsOk (begun t).regsN) = false := by
      show (!i.wf || !i.regsOk t.regsN) = false
      simp [hwf, hregs]
    show (if !i.wf || !i.regsOk (begun t).regsN then _ else _) = _
    rw [if_neg (by rw [e1]; decide)]
    show (match privCheck i (begun t) with | some e => _ | none => _) = _
    rw [hpriv']
    dsimp only
    rw [show t.ageLatches = begun t from rfl]
    simp only [hg', hrep, hblk, hbad', hT]
    dsimp only [ctxOf] at hf
    have hb : s.setThread k (if (true && endsReach i.opc i.ext) = true then { begun t with latches := [] } else begun t) = s.begin k t i := by
      simp [State.begin]
    simp only [Bool.not_true, Bool.false_and, Bool.false_eq_true, if_false, Bool.true_or, Bool.and_false, Bool.not_false, Bool.true_and, if_true, hf]
    simp only [Bool.true_and] at hb
    rw [hb, hp]
    dsimp only
    exact (if_neg (by rw [hcmp]; decide)).trans (if_neg (fun hh => absurd (hregion.symm.trans hh) (by decide)))
  unfold runThread
  rw [hi]; dsimp only; rw [hl]; dsimp only; rw [ht]; dsimp only
  rw [hrm]; rfl

/-- A false guard suppresses the meaning (R57). -/
theorem runThread_guardFalse {s : State} {k : Nat} {t : Thread} {i : Instr}
    {pre : Ctx → State → Option TrapInfo} {body : Ctx → State → State × Eff} (ha : s.atTurn k t) (hwf : i.wf = true)
    (hregs : i.regsOk t.regsN = true) (hpriv : privCheck i t = none) (hT : isTeam i.opc = false) (hg : guardOf t i.ext = false) :
    runThread i pre body s = .next (goesOn k t i (s.setThread k (begun t))) := by
  obtain ⟨ht, is, rest, hi, hl⟩ := ha
  have hpriv' : privCheck i (begun t) = none := by rw [← hpriv]; cases i <;> rfl
  have hg' : guardOf (begun t) i.ext = false := hg
  have hrm : runMember i pre body s k t = .eff (s.setThread k (begun t)) .next := by
    unfold runMember
    have e1 : (!i.wf || !i.regsOk (begun t).regsN) = false := by
      show (!i.wf || !i.regsOk t.regsN) = false
      simp [hwf, hregs]
    show (if !i.wf || !i.regsOk (begun t).regsN then _ else _) = _
    rw [if_neg (by rw [e1]; decide)]
    show (match privCheck i (begun t) with | some e => _ | none => _) = _
    rw [hpriv']
    dsimp only
    rw [show t.ageLatches = begun t from rfl]
    simp only [hg', hT]
    rfl
  unfold runThread
  rw [hi]; dsimp only; rw [hl]; dsimp only; rw [ht]; dsimp only
  rw [hrm]; rfl

/-- A register that the thread does not have traps first (R22, R57). -/
theorem runThread_regs {s : State} {k : Nat} {t : Thread} {i : Instr}
    {pre : Ctx → State → Option TrapInfo} {body : Ctx → State → State × Eff} (ha : s.atTurn k t)
    (hregs : i.regsOk t.regsN = false) : runThread i pre body s = .next (trapsAt s k t i (mkTrap trapIllegalField 0)) := by
  obtain ⟨ht, is, rest, hi, hl⟩ := ha
  have hrm : runMember i pre body s k t = .eff s (.trap (mkTrap trapIllegalField 0)) := by
    unfold runMember
    have e1 : (!i.wf || !i.regsOk (begun t).regsN) = true := by
      show (!i.wf || !i.regsOk t.regsN) = true
      simp [hregs]
    show (if !i.wf || !i.regsOk (begun t).regsN then _ else _) = _
    rw [if_pos e1]
  unfold runThread
  rw [hi]; dsimp only; rw [hl]; dsimp only; rw [ht]; dsimp only
  rw [hrm]; rfl

/-- A missing privilege traps next (R95). -/
theorem runThread_priv {s : State} {k : Nat} {t : Thread} {i : Instr} {e : TrapInfo}
    {pre : Ctx → State → Option TrapInfo} {body : Ctx → State → State × Eff} (ha : s.atTurn k t) (hwf : i.wf = true)
    (hregs : i.regsOk t.regsN = true) (hpriv : privCheck i t = some e) : runThread i pre body s = .next (trapsAt s k t i e) := by
  obtain ⟨ht, is, rest, hi, hl⟩ := ha
  have hpriv' : privCheck i (begun t) = some e := by rw [← hpriv]; cases i <;> rfl
  have hrm : runMember i pre body s k t = .eff s (.trap e) := by
    unfold runMember
    have e1 : (!i.wf || !i.regsOk (begun t).regsN) = false := by
      show (!i.wf || !i.regsOk t.regsN) = false
      simp [hwf, hregs]
    show (if !i.wf || !i.regsOk (begun t).regsN then _ else _) = _
    rw [if_neg (by rw [e1]; decide)]
    show (match privCheck i (begun t) with | some e => _ | none => _) = _
    rw [hpriv']
  unfold runThread
  rw [hi]; dsimp only; rw [hl]; dsimp only; rw [ht]; dsimp only
  rw [hrm]; rfl

/-! ## Operands of instructions that have none -/

/-- An instruction without sources and without a push has nothing to wait for. -/
theorem reads_none (s : State) (k : Nat) (t : Thread) (i : Instr) (ha : i.shape.a = .none) (hb : i.shape.b = .none)
    (hc : i.shape.c = .none) (hB : ∃ y, i.ext.b = .src y) (hd : ∀ c n, i.ext.d ≠ .push c n) :
    s.reads k t i (ctxOf k t i) (ctxOf k t i) (s.begin k t i) := by
  obtain ⟨y, hB⟩ := hB
  have hf : (ctxOf k t i).fetch = .ok (ctxOf k t i) := by
    unfold Ctx.fetch ctxOf
    simp only [ha, hb, hc, srcVal, srcBVal, hB]
  have hch : (ctxOf k t i).channels = [] := by
    unfold Ctx.channels ctxOf
    dsimp only
    rw [ha, hb, hc, hB]
    simp only [srcChan, SrcB.src?]
    cases hdd : i.ext.d with
    | push c n => exact absurd hdd (hd c n)
    | reg n => rfl
    | latchOnly => rfl
  refine ⟨hf, by unfold Ctx.chanCheck; rw [hch]; rfl, ?_⟩
  unfold Ctx.take ctxOf
  dsimp only
  rw [ha, hb, hc]
  simp only [State.takeSrc, Ctx.pushReady]

/-- The same by the shape alone, for a well-formed instruction with no data source and no data destination. -/
theorem reads_shape (s : State) (k : Nat) (t : Thread) (i : Instr) (hwf : i.wf = true) (ha : i.shape.a = .none) (hb : i.shape.b = .none)
    (hc : i.shape.c = .none) (hi : i.shape.bImm = false) (hl : i.shape.bLit = false)
    (hd : (match i.shape.d with | .data _ => false | .token => false | _ => true) = true) :
    s.reads k t i (ctxOf k t i) (ctxOf k t i) (s.begin k t i) := by
  have hck : i.shape.check i.ext = true := by
    unfold Instr.wf at hwf; simp only [Bool.and_eq_true] at hwf; exact hwf.2
  simp only [Shape.check, Bool.and_eq_true] at hck
  obtain ⟨⟨⟨⟨⟨⟨-, hd'⟩, -⟩, hb'⟩, -⟩, -⟩, -⟩ := hck
  refine reads_none s k t i ha hb hc ?_ ?_
  · cases hB : i.ext.b with
    | src y => exact ⟨y, rfl⟩
    | imm => rw [hB] at hb'; simp [srcBOk, hi] at hb'
    | lit v => rw [hB] at hb'; simp [srcBOk, hl] at hb'
  · intro c n hD
    rw [hD] at hd'
    revert hd hd'
    cases i.shape.d <;> simp [dstOk]

/-- Where no source can be a channel, reading the operands leaves the state in which the instruction begins. -/
theorem reads_begin {s s1 : State} {k : Nat} {t : Thread} {i : Instr} {c0 cx : Ctx} (h : s.reads k t i c0 cx s1)
    (ha : ∀ c, i.shape.a ≠ .data c) (hb : ∀ c, i.shape.b ≠ .data c) (hc : ∀ c, i.shape.c ≠ .data c) :
    c0 = cx ∧ s1 = s.begin k t i := by
  obtain ⟨hf, -, ht⟩ := h
  obtain ⟨a, b, c, rfl⟩ := fetch_fields hf
  have key : ∀ (s : State) (t : Thread) (sh : SrcShape) (y : Src) (v : QWord), (∀ c, sh ≠ .data c) → s.takeSrc t sh y v = .ok (v, s) := by
    intro s t sh y v hn
    unfold State.takeSrc
    split
    · exact absurd rfl (hn _)
    · exact absurd rfl (hn _)
    · rfl
  unfold Ctx.take at ht
  dsimp only [ctxOf] at ht
  rw [key _ _ _ _ _ ha] at ht
  dsimp only at ht
  rw [key _ _ _ _ _ hb] at ht
  dsimp only at ht
  rw [key _ _ _ _ _ hc] at ht
  dsimp only at ht
  split at ht
  · exact absurd ht (by simp)
  · simp only [Except.ok.injEq, Prod.mk.injEq] at ht
    exact ⟨by rw [← ht.1]; rfl, ht.2.symm⟩

/-! ## What an instruction leaves -/

theorem DeviceSame.kept {s s' : State} (h : DeviceSame s s') : DeviceKept s s' :=
  ⟨h.accs, h.ntiles, h.cmds, h.power, h.time, h.cycle, h.win, h.pkg⟩

theorem DeviceKept.refl (s : State) : DeviceKept s s := ⟨rfl, rfl, rfl, rfl, rfl, rfl, rfl, rfl⟩

theorem DeviceKept.trans {a b c : State} (h : DeviceKept a b) (g : DeviceKept b c) : DeviceKept a c := by
  obtain ⟨h1, h2, h3, h4, h5, h6, h7, h8⟩ := h
  obtain ⟨g1, g2, g3, g4, g5, g6, g7, g8⟩ := g
  exact ⟨g1.trans h1, g2.trans h2, g3.trans h3, g4.trans h4, g5.trans h5, g6.trans h6, g7.trans h7, g8.trans h8⟩

theorem DeviceKept.of_calm {s s' : State} (h : s'.calm = s.calm) : DeviceKept s s' := (DeviceSame.of_calm h).kept

theorem OthersKept.trans {a b c : State} {k : Nat} (h : OthersKept a b k) (g : OthersKept b c k) : OthersKept a c k :=
  fun j hj => (g j hj).trans (h j hj)

theorem OthersKept.of_calm {s s' : State} {k : Nat} (h : s'.calm = s.calm) : OthersKept s s' k := fun j _ => calm_archOf h j

theorem BytesKept.trans {a b c : State} (h : BytesKept a b) (g : BytesKept b c) : BytesKept a c :=
  fun q => (g q).trans (h q)

theorem BytesKept.of_calm {s s' : State} (h : s'.calm = s.calm) : BytesKept s s' := calm_byteAt h

/-- The bytes of all memories, when devices and the threads' stacks are the same. -/
theorem BytesKept.of_same {s s' : State} (h : DeviceSame s s')
    (hs : ∀ j : Nat, s'.threads[j]?.map (fun u => u.stack) = s.threads[j]?.map (fun u => u.stack)) : BytesKept s s' := by
  intro q
  cases q with
  | dev a b => simp only [State.byteAt, h.mem]
  | host a => simp only [State.byteAt, h.mem]
  | tile i off =>
    have := congrArg (Option.map (fun m : Store => m.get off)) (h.tileMem i)
    simp only [Option.map_map, Function.comp_def] at this
    simp only [State.byteAt, this]
  | stack j off =>
    have := congrArg (Option.map (fun m : Store => m.get off)) (hs j)
    simp only [Option.map_map, Function.comp_def] at this
    simp only [State.byteAt, this]

/-- Reading operands leaves every register, every byte and the device. -/
theorem reads_kept {s s1 : State} {k : Nat} {t : Thread} {i : Instr} {c0 cx : Ctx} (ht : s.threads[k]? = some t)
    (h : s.reads k t i c0 cx s1) :
    (∀ j, s1.archOf j = s.archOf j) ∧ BytesKept s s1 ∧ DeviceKept s s1 ∧
      (∀ j : Nat, s1.threads[j]?.map (fun u => u.stack) = s.threads[j]?.map (fun u => u.stack)) := by
  obtain ⟨-, -, h1, h2, h3⟩ := reads_same h
  have hs : ∀ j : Nat, s1.threads[j]?.map (fun u => u.stack) = s.threads[j]?.map (fun u => u.stack) := by
    intro j; rw [h2]; exact begin_stack s k j t i ht
  refine ⟨fun j => ?_, .of_same h1 hs, h1.kept, hs⟩
  have : s1.archOf j = (s.begin k t i).archOf j := by simp only [State.archOf, h2]
  rw [this, begin_archOf s k j t i ht]

/-- The context that the operands leave is the instruction's own. -/
theorem reads_fields {s s1 : State} {k : Nat} {t : Thread} {i : Instr} {c0 cx : Ctx} (h : s.reads k t i c0 cx s1) :
    cx.k = k ∧ cx.t = begun t ∧ cx.i = i ∧ cx.x = i.ext ∧ cx.sh = i.shape ∧ cx.g = true := by
  obtain ⟨-, ⟨a, b, c, h⟩, -⟩ := reads_same h
  rw [h]; exact ⟨rfl, rfl, rfl, rfl, rfl, rfl⟩

/-- The thread's own slot in the state that its operands leave. -/
theorem reads_thread {s s1 : State} {k : Nat} {t : Thread} {i : Instr} {c0 cx : Ctx} (ht : s.threads[k]? = some t)
    (h : s.reads k t i c0 cx s1) :
    s1.threads[k]? = some (if endsReach i.opc i.ext then { begun t with latches := [] } else begun t) := by
  obtain ⟨-, -, -, h2, -⟩ := reads_same h
  rw [h2]
  have hl := (List.getElem?_eq_some_iff.mp ht).1
  simp only [State.begin, State.setThread_threads, List.getElem?_set, hl, if_true]

/-! ## Where a thread stands at the end of its issue -/

/-- Outside an atomic region, thread `k` stands at the pc that it had, and latches that could not be read still cannot. -/
def Stands (k : Nat) (s s' : State) : Prop :=
  ∀ v, s.threads[k]? = some v → v.region = none →
    ∃ w, s'.threads[k]? = some w ∧ w.pc = v.pc ∧ w.region = none ∧ (v.latches = [] → w.latches = [])

theorem Stands.of_eq {k : Nat} {s s' : State} (h : s'.threads[k]? = s.threads[k]?) : Stands k s s' :=
  fun v hv hr => ⟨v, h.trans hv, rfl, hr, id⟩

theorem Stands.trans {k : Nat} {a b c : State} (h : Stands k a b) (g : Stands k b c) : Stands k a c := by
  intro v hv hr
  obtain ⟨w, hw, h1, h2, h3⟩ := h v hv hr
  obtain ⟨x, hx, g1, g2, g3⟩ := g w hw h2
  exact ⟨x, hx, g1.trans h1, g2, fun e => g3 (h3 e)⟩

theorem Stands.foldl {α : Type} {k : Nat} (f : State → α → State) (h : ∀ s x, Stands k s (f s x)) :
    ∀ (l : List α) (s : State), Stands k s (l.foldl f s)
  | [], _ => .of_eq rfl
  | x :: l, s => (h s x).trans (Stands.foldl f h l (f s x))

theorem setThread_stands (s : State) (k j : Nat) (t u : Thread) (ht : s.threads[j]? = some t)
    (h : t.region = none → u.pc = t.pc ∧ u.region = none ∧ (t.latches = [] → u.latches = [])) : Stands k s (s.setThread j u) := by
  intro v hv hr
  by_cases e : j = k
  · subst e
    have hl := (List.getElem?_eq_some_iff.mp ht).1
    rw [ht] at hv; simp only [Option.some.injEq] at hv; subst hv
    obtain ⟨h1, h2, h3⟩ := h hr
    exact ⟨u, by simp [hl], h1, h2, h3⟩
  · exact ⟨v, by simp [e, hv], rfl, hr, id⟩

theorem file_own_stands (s : State) (k j : Nat) : Stands k s (s.file j ((s.threads[j]?.map (·.pc)).getD 0)) := by
  unfold State.file State.fileAt
  cases h : s.threads[j]? with
  | none => exact .of_eq rfl
  | some t =>
    dsimp only
    split
    · exact setThread_stands s k j t _ h (fun hr => by simp [Thread.interrupted, hr])
    · intro v hv hr
      exact setThread_stands s k j t { t with pc := t.pc, st := .ready } h (fun hr => ⟨rfl, hr, id⟩) v hv hr

theorem park_stands (s : State) (k j : Nat) (w : Wait) : Stands k s (s.park j w) := by
  intro v hv hr
  unfold State.park
  by_cases e : j = k
  · subst e
    refine ⟨{ v with st := .parked w, latches := v.parkLatches w, parkedAt := s.time.toNat, parkNo := s.serial }, ?_, rfl, hr,
      fun h => by simp [Thread.parkLatches, h]⟩
    simp [State.unfile, hv]
  · exact ⟨v, by simp [State.unfile, e, hv], rfl, hr, id⟩

theorem closeIssue_stands (s : State) (k : Nat) : Stands k s s.closeIssue := by
  unfold State.closeIssue
  cases h : s.front.issue with
  | none => exact .of_eq rfl
  | some i =>
    by_cases hl : (!i.left.isEmpty) = true
    · simp only [hl, if_true]; exact .of_eq rfl
    · simp only [hl]
      have h1 : Stands k s (if i.wake then ({ s with front := { s.front with issue := none } } : State).endDue
          else { s with front := { s.front with issue := none } }) := by
        cases i.wake <;> exact .of_eq rfl
      generalize (if i.wake then ({ s with front := { s.front with issue := none } } : State).endDue
          else { s with front := { s.front with issue := none } }) = s0 at h1 ⊢
      have hp : ∀ s j, Stands k s (State.parkOne s j) := by
        intro s j
        unfold State.parkOne
        split
        · exact .of_eq rfl
        · split
          · exact park_stands s k j _
          · exact .of_eq rfl
      have hs : ∀ s j, Stands k s (State.stopOne s j) := by
        intro s j
        unfold State.stopOne
        cases h : s.threads[j]? with
        | none => exact .of_eq rfl
        | some t =>
          dsimp only
          split
          · exact setThread_stands s k j t _ h (fun hr => by simp [Thread.interrupted, hr])
          · exact .of_eq rfl
      have h2 := h1.trans (Stands.foldl _ hp i.stay s0)
      generalize i.stay.foldl State.parkOne s0 = s2 at h2 ⊢
      have h3 := h2.trans (Stands.foldl _ hs i.stay s2)
      generalize i.stay.foldl State.stopOne s2 = s3 at h3 ⊢
      by_cases ht : (i.taken || i.wake) = true
      · simp only [ht, if_true]; exact h2.trans (Stands.foldl _ (fun s j => file_own_stands s k j) _ _)
      · simp only [ht]
        generalize i.stay.filter (fun k => (s3.threads[k]?.map (fun t => decide (t.st = .ready))).getD false) = go
        cases go
        · exact h3
        · exact h3.trans (.of_eq rfl)

theorem fileAt_other (s : State) (k j : Nat) (pc : DWord) (r : Nat) (b : Bool) (h : j ≠ k) : (s.fileAt j pc r b).threads[k]? = s.threads[k]? := by
  unfold State.fileAt
  cases s.threads[j]? with
  | none => rfl
  | some t => dsimp only; split <;> simp [h]

theorem park_other (s : State) (k j : Nat) (w : Wait) (h : j ≠ k) : (s.park j w).threads[k]? = s.threads[k]? := by
  simp [State.park, State.unfile, h]

theorem foldl_other {α : Type} (g : α → Prop) {k : Nat} (f : State → α → State) (h : ∀ s x, g x → (f s x).threads[k]? = s.threads[k]?) :
    ∀ (l : List α) (s : State), (∀ x ∈ l, g x) → (l.foldl f s).threads[k]? = s.threads[k]?
  | [], _, _ => rfl
  | x :: l, s, hl => (foldl_other g f h l (f s x) (fun y hy => hl y (List.mem_cons_of_mem _ hy))).trans (h s x (hl x (List.mem_cons_self ..)))

/-- The end of an issue leaves every thread that does not go on in it exactly as it was. -/
theorem closeIssue_other (s : State) (k : Nat) (hk : ∀ i, s.front.issue = some i → k ∉ i.stay) : s.closeIssue.threads[k]? = s.threads[k]? := by
  unfold State.closeIssue
  cases h : s.front.issue with
  | none => rfl
  | some i =>
    have hn : ∀ x ∈ i.stay, x ≠ k := fun x hx e => hk i h (e ▸ hx)
    by_cases hl : (!i.left.isEmpty) = true
    · simp only [hl, if_true]
    · simp only [hl]
      have h1 : (if i.wake then ({ s with front := { s.front with issue := none } } : State).endDue
          else { s with front := { s.front with issue := none } }).threads[k]? = s.threads[k]? := by
        cases i.wake <;> rfl
      generalize (if i.wake then ({ s with front := { s.front with issue := none } } : State).endDue
          else { s with front := { s.front with issue := none } }) = s0 at h1 ⊢
      have hp : ∀ s j, j ≠ k → (State.parkOne s j).threads[k]? = s.threads[k]? := by
        intro s j hj
        unfold State.parkOne
        split
        · rfl
        · split
          · exact park_other s k j _ hj
          · rfl
      have hs : ∀ s j, j ≠ k → (State.stopOne s j).threads[k]? = s.threads[k]? := by
        intro s j hj
        unfold State.stopOne
        cases s.threads[j]? with
        | none => rfl
        | some t => dsimp only; split <;> simp [hj]
      have h2 := (foldl_other (· ≠ k) _ hp i.stay s0 hn).trans h1
      generalize i.stay.foldl State.parkOne s0 = s2 at h2 ⊢
      have h3 := (foldl_other (· ≠ k) _ hs i.stay s2 hn).trans h2
      generalize i.stay.foldl State.stopOne s2 = s3 at h3 ⊢
      by_cases ht : (i.taken || i.wake) = true
      · simp only [ht, if_true]
        exact (foldl_other (· ≠ k) _ (fun s j hj => fileAt_other s k j _ _ _ hj) i.stay s2 hn).trans h2
      · simp only [ht]
        generalize i.stay.filter (fun k => (s3.threads[k]?.map (fun t => decide (t.st = .ready))).getD false) = go
        cases go
        · exact h3
        · exact h3

/-- A thread that has left bins, groups and issue does not go on in the issue. -/
theorem unfile_notStay (s : State) (k : Nat) : ∀ i, (s.unfile k).front.issue = some i → k ∉ i.stay := by
  intro i hi
  simp only [State.unfile] at hi
  cases h : s.front.issue with
  | none => rw [h] at hi; cases hi
  | some j => rw [h] at hi; simp only [Option.map_some, Option.some.injEq] at hi; subst hi; simp

/-- Behind its instruction a thread outside a region stands at the next address (R27). -/
theorem goesOn_pc (k : Nat) (t : Thread) (i : Instr) (s' : State) (v : Thread) (hv : s'.threads[k]? = some v) (hr : v.region = none) :
    (goesOn k t i s').threads[k]?.map (fun u => u.pc) = some (t.pc + BitVec.ofNat 64 i.len) := by
  unfold goesOn
  obtain ⟨w, hw, h1, -, -⟩ := closeIssue_stands ((s'.modThread k (fun u => { u with pc := t.pc + BitVec.ofNat 64 i.len })).stays k false) k
    { v with pc := t.pc + BitVec.ofNat 64 i.len } (by simp [State.stays, hv]) hr
  rw [hw]; simp [h1]

/-- After a transfer a thread outside a region stands at the target and can read no latch (R27, R37). -/
theorem goesTo_pc (p : DWord) (k : Nat) (s' : State) (v : Thread) (hv : s'.threads[k]? = some v) (hr : v.region = none) :
    (goesTo p k s').threads[k]?.map (fun u => (u.pc, u.latches)) = some (p, []) := by
  unfold goesTo
  obtain ⟨w, hw, h1, -, h3⟩ := closeIssue_stands ((s'.modThread k (fun u => { u with pc := p, latches := [] })).stays k true) k
    { v with pc := p, latches := [] } (by simp [State.stays, hv]) hr
  rw [hw]; simp [h1, h3 rfl]

end Sys2Proof.Machine
end

