-- ==== Sys2Proof/Laws/Store.lean ====
section
/-! SUPPORT. Memories: the canonical form that every operation keeps, what is read after a write, and that equal reads of
canonical cells are equal cells. -/

namespace Sys2Proof.Machine

/-! ## Canonical cells -/

theorem cellsWf_mono {lo lo' : Nat} (h : lo' ≤ lo) : ∀ {l}, cellsWf lo l = true → cellsWf lo' l = true
  | [], _ => rfl
  | (a, v) :: l, w => by
    simp only [cellsWf, Bool.and_eq_true, decide_eq_true_eq] at w ⊢
    exact ⟨⟨by omega, w.1.2⟩, w.2⟩

theorem cellSet_wf {lo a : Nat} (h : lo ≤ a) (v : Byte) : ∀ {l}, cellsWf lo l = true → cellsWf lo (cellSet l a v) = true
  | [], _ => by
    simp only [cellSet]; split <;> simp_all [cellsWf]
  | (b, w) :: l, wf => by
    simp only [cellsWf, Bool.and_eq_true, decide_eq_true_eq] at wf
    obtain ⟨⟨h1, h2⟩, h3⟩ := wf
    simp only [cellSet]
    split
    · subst_vars
      split
      · exact cellsWf_mono (by omega) h3
      · simp_all [cellsWf]
    · split
      · split
        · simp_all [cellsWf]
        · simp only [cellsWf, Bool.and_eq_true, decide_eq_true_eq]
          exact ⟨⟨h, by assumption⟩, ⟨by omega, h2⟩, h3⟩
      · simp only [cellsWf, Bool.and_eq_true, decide_eq_true_eq]
        exact ⟨⟨h1, h2⟩, cellSet_wf (by omega) v h3⟩

theorem cellPut_wf (a : Nat) (bs : List Byte) : ∀ {l}, cellsWf 0 l = true → cellsWf 0 (cellPut l a bs) = true := by
  induction bs generalizing a with
  | nil => exact fun h => h
  | cons v vs ih => exact fun h => ih (a + 1) (cellSet_wf (Nat.zero_le a) v h)

/-- Every listed cell stands at or above the bound. -/
theorem cellGet_low {lo a : Nat} (h : a < lo) : ∀ {l}, cellsWf lo l = true → cellGet l a = 0
  | [], _ => rfl
  | (b, v) :: l, w => by
    simp only [cellsWf, Bool.and_eq_true, decide_eq_true_eq] at w
    simp only [cellGet]
    rw [if_neg (by omega), if_pos (by omega)]

/-- A read of the byte written gives it; every other byte reads as before. -/
theorem cellGet_cellSet {lo : Nat} (a b : Nat) (v : Byte) : ∀ {l}, cellsWf lo l = true →
    cellGet (cellSet l a v) b = if b = a then v else cellGet l b
  | [], _ => by
    simp only [cellSet]; split
    · split <;> simp_all [cellGet]
    · simp only [cellGet]; split <;> simp_all
  | (c, w) :: l, wf => by
    simp only [cellsWf, Bool.and_eq_true, decide_eq_true_eq] at wf
    obtain ⟨⟨h1, h2⟩, h3⟩ := wf
    have ih := cellGet_cellSet a b v h3
    simp only [cellSet]
    by_cases hac : a = c
    · subst hac
      rw [if_pos rfl]
      split
      · subst_vars
        by_cases hb : b = a
        · subst hb; simp [cellGet_low (Nat.lt_succ_self b) h3]
        · simp only [cellGet, if_neg hb]
          split
          · exact cellGet_low (by omega) h3
          · rfl
      · simp only [cellGet]; split
        · rfl
        · rfl
    · rw [if_neg hac]
      by_cases hlt : a < c
      · rw [if_pos hlt]
        split
        · subst_vars
          by_cases hb : b = a
          · subst hb; simp only [cellGet, if_neg hac, if_pos hlt, if_true]
          · rw [if_neg hb]
        · simp only [cellGet]
          by_cases hb : b = a
          · simp [hb]
          · simp only [if_neg hb]
            by_cases hba : b < a
            · rw [if_pos hba, if_neg (by omega), if_pos (by omega)]
            · rw [if_neg hba]
      · rw [if_neg hlt]
        simp only [cellGet]
        by_cases hbc : b = c
        · rw [if_pos hbc, if_pos hbc, if_neg (by omega)]
        · rw [if_neg hbc, if_neg hbc]
          by_cases hb : b < c
          · rw [if_pos hb, if_pos hb, if_neg (by omega)]
          · rw [if_neg hb, if_neg hb, ih]

theorem cellGet_cellPut (a b : Nat) (bs : List Byte) : ∀ {l}, cellsWf 0 l = true →
    cellGet (cellPut l a bs) b = if a ≤ b ∧ b < a + bs.length then bs.getD (b - a) 0 else cellGet l b := by
  induction bs generalizing a with
  | nil => intro l _; simp only [cellPut, List.length_nil, Nat.add_zero]; rw [if_neg (by omega)]
  | cons v vs ih =>
    intro l h
    simp only [cellPut]
    rw [ih (a + 1) (cellSet_wf (Nat.zero_le a) v h), cellGet_cellSet a b v h]
    simp only [List.length_cons]
    by_cases h1 : a + 1 ≤ b ∧ b < a + 1 + vs.length
    · rw [if_pos h1, if_pos (by omega)]
      obtain ⟨n, hn⟩ : ∃ n, b - a = n + 1 := ⟨b - a - 1, by omega⟩
      rw [show b - (a + 1) = n by omega, hn]; rfl
    · rw [if_neg h1]
      by_cases h2 : b = a
      · subst h2; rw [if_pos rfl, if_pos (by omega)]; simp
      · rw [if_neg h2, if_neg (by omega)]

/-! ## Rising sets -/

theorem setWf_mono {lo lo' : Nat} (h : lo' ≤ lo) : ∀ {l}, setWf lo l = true → setWf lo' l = true
  | [], _ => rfl
  | a :: l, w => by
    simp only [setWf, Bool.and_eq_true, decide_eq_true_eq] at w ⊢
    exact ⟨by omega, w.2⟩

theorem sinsert_wf {lo k : Nat} (h : lo ≤ k) : ∀ {l}, setWf lo l = true → setWf lo (sinsert l k) = true
  | [], _ => by simp [sinsert, setWf, h]
  | j :: l, w => by
    simp only [setWf, Bool.and_eq_true, decide_eq_true_eq] at w
    simp only [sinsert]
    split
    · simp [setWf, w]
    · split
      · simp only [setWf, Bool.and_eq_true, decide_eq_true_eq]; exact ⟨h, by omega, w.2⟩
      · simp only [setWf, Bool.and_eq_true, decide_eq_true_eq]; exact ⟨w.1, sinsert_wf (by omega) w.2⟩

theorem filter_setWf (f : Nat → Bool) : ∀ {lo l}, setWf lo l = true → setWf lo (l.filter f) = true
  | _, [], _ => rfl
  | lo, a :: l, w => by
    simp only [setWf, Bool.and_eq_true, decide_eq_true_eq] at w
    simp only [List.filter_cons]
    split
    · simp only [setWf, Bool.and_eq_true, decide_eq_true_eq]; exact ⟨w.1, filter_setWf f w.2⟩
    · exact setWf_mono (by omega) (filter_setWf f w.2)

/-! ## Stores -/

theorem Store.empty_wf : Store.wf ⟨[], []⟩ := ⟨rfl, rfl⟩

theorem Store.put_wf {m : Store} (h : m.wf) (a : Nat) (bs : List Byte) : (m.put a bs).wf :=
  ⟨cellPut_wf a bs h.1, filter_setWf _ h.2⟩

theorem Store.putNat_wf {m : Store} (h : m.wf) (a n v : Nat) : (m.putNat a n v).wf := Store.put_wf h a _

theorem Store.poison_wf {m : Store} (h : m.wf) (u : Nat) : (m.poison u).wf := ⟨h.1, sinsert_wf (Nat.zero_le u) h.2⟩

theorem foldl_poison_wf {α : Type} (f : α → Nat) : ∀ (l : List α) {m : Store}, m.wf → (l.foldl (fun m x => m.poison (f x)) m).wf
  | [], _, h => h
  | x :: l, _, h => foldl_poison_wf f l (Store.poison_wf h (f x))

theorem Store.taint_wf {m : Store} (h : m.wf) (a : Nat) (fl : List Bool) : (m.taint a fl).wf := foldl_poison_wf _ _ h

/-- A byte of a store after a write: the byte written, or what stood there. -/
theorem Store.get_put {m : Store} (h : m.wf) (a b : Nat) (bs : List Byte) :
    (m.put a bs).get b = if a ≤ b ∧ b < a + bs.length then bs.getD (b - a) 0 else m.get b := cellGet_cellPut a b bs h.1

@[simp] theorem Store.get_poison (m : Store) (u b : Nat) : (m.poison u).get b = m.get b := rfl

theorem foldl_poison_bytes {α : Type} (f : α → Nat) : ∀ (l : List α) (m : Store), (l.foldl (fun m x => m.poison (f x)) m).bytes = m.bytes
  | [], _ => rfl
  | x :: l, m => foldl_poison_bytes f l (m.poison (f x))

@[simp] theorem Store.get_taint (m : Store) (a b : Nat) (fl : List Bool) : (m.taint a fl).get b = m.get b := by
  simp only [Store.get, Store.taint]; rw [foldl_poison_bytes]

/-! ## Equal memories are equal data -/

theorem cellGet_head {lo a : Nat} {v : Byte} {l : List Host.Cell} (_ : cellsWf lo ((a, v) :: l) = true) :
    cellGet ((a, v) :: l) a = v := by simp [cellGet]

/-- Canonical cells that read the same at every address are the same cells. -/
theorem cells_ext : ∀ {lo : Nat} {l r : List Host.Cell}, cellsWf lo l = true → cellsWf lo r = true →
    (∀ a, cellGet l a = cellGet r a) → l = r
  | _, [], [], _, _, _ => rfl
  | _, [], (b, w) :: r, _, hr, h => by
    have := h b
    simp only [cellsWf, Bool.and_eq_true, decide_eq_true_eq] at hr
    simp [cellGet] at this; exact absurd this.symm hr.1.2
  | _, (a, v) :: l, [], hl, _, h => by
    have := h a
    simp only [cellsWf, Bool.and_eq_true, decide_eq_true_eq] at hl
    simp [cellGet] at this; exact absurd this hl.1.2
  | lo, (a, v) :: l, (b, w) :: r, hl, hr, h => by
    simp only [cellsWf, Bool.and_eq_true, decide_eq_true_eq] at hl hr
    have ha := h a
    have hb := h b
    have hab : a = b := by
      rcases Nat.lt_trichotomy a b with hlt | heq | hgt
      · simp only [cellGet, if_true, if_neg (Nat.ne_of_lt hlt), if_pos hlt] at ha
        exact absurd ha hl.1.2
      · exact heq
      · simp only [cellGet, if_true, if_neg (Nat.ne_of_lt hgt), if_pos hgt] at hb
        exact absurd hb.symm hr.1.2
    subst hab
    have hv : v = w := by simpa [cellGet] using ha
    subst hv
    have : l = r := cells_ext hl.2 hr.2 (fun c => by
      have hc := h c
      simp only [cellGet] at hc
      by_cases h1 : c = a
      · subst h1; rw [cellGet_low (Nat.lt_succ_self c) hl.2, cellGet_low (Nat.lt_succ_self c) hr.2]
      · rw [if_neg h1, if_neg h1] at hc
        by_cases h2 : c < a
        · rw [cellGet_low (by omega) hl.2, cellGet_low (by omega) hr.2]
        · rwa [if_neg h2, if_neg h2] at hc)
    rw [this]

/-! ## Little-endian values (R2) -/

@[simp] theorem leBytes_length : ∀ (n v : Nat), (leBytes n v).length = n
  | 0, _ => rfl
  | n + 1, v => by simp [leBytes, leBytes_length n]

theorem leNat_leBytes : ∀ (n v : Nat), leNat (leBytes n v) = v % 2 ^ (8 * n)
  | 0, v => by simp [leBytes, leNat, Nat.mod_one]
  | n + 1, v => by
    simp only [leBytes, leNat, leNat_leBytes n, BitVec.toNat_ofNat]
    rw [show 8 * (n + 1) = 8 + 8 * n by omega, Nat.pow_add]
    rw [show (2:Nat) ^ 8 = 256 by decide, Nat.mod_mul]

@[simp] theorem cellRead_length (l : List Host.Cell) : ∀ (a n : Nat), (cellRead l a n).length = n
  | _, 0 => rfl
  | a, n + 1 => by simp [cellRead, cellRead_length l (a + 1) n]

theorem cellRead_put {l : List Host.Cell} (h : cellsWf 0 l = true) (bs : List Byte) (a : Nat) :
    cellRead (cellPut l a bs) a bs.length = bs := by
  apply List.ext_getElem (by simp)
  intro i h1 h2
  have key : ∀ (m : List Host.Cell) (a n i : Nat) (h : i < (cellRead m a n).length), (cellRead m a n)[i] = cellGet m (a + i) := by
    intro m a n
    induction n generalizing a with
    | zero => intro i h; simp [cellRead] at h
    | succ n ih =>
      intro i h
      cases i with
      | zero => rfl
      | succ i => simp only [cellRead, List.getElem_cons_succ]; rw [ih]; congr 1; omega
  rw [key, cellGet_cellPut a (a + i) bs h, if_pos (by omega)]
  simp [List.getD_eq_getElem?_getD, List.getElem?_eq_getElem h2]

/-- Reading back what was written gives it. -/
theorem Store.read_put {m : Store} (h : m.wf) (a : Nat) (bs : List Byte) : (m.put a bs).read a bs.length = bs := cellRead_put h.1 bs a

theorem Store.readNat_putNat {m : Store} (h : m.wf) (a n v : Nat) : (m.putNat a n v).readNat a n = v % 2 ^ (8 * n) := by
  have := Store.read_put h a (leBytes n v)
  rw [leBytes_length] at this
  simp only [Store.readNat, Store.putNat, this, leNat_leBytes]

end Sys2Proof.Machine
end

