-- ==== Sys2Proof/Laws/Access.lean ====
section
/-! SUPPORT. Operands that are no channel, what an access at a place does to memory and to registers, and how sound data
are delivered. -/

namespace Sys2Proof.Machine

/-! ## Operands that are no channel -/

theorem takeSrc_plain {s : State} {t : Thread} {sh : SrcShape} {y : Src} {v : QWord} (hn : ∀ c, sh ≠ .data c) :
    s.takeSrc t sh y v = .ok (v, s) := by
  unfold State.takeSrc
  split
  · exact absurd rfl (hn _)
  · exact absurd rfl (hn _)
  · rfl

/-- An operand whose field takes no channel has its value before the channels are popped. -/
theorem reads_va {s s1 : State} {k : Nat} {t : Thread} {i : Instr} {c0 cx : Ctx} (h : s.reads k t i c0 cx s1)
    (ha : ∀ c, i.shape.a ≠ .data c) : cx.va = c0.va := by
  obtain ⟨hf, -, ht⟩ := h
  obtain ⟨a, b, c, rfl⟩ := fetch_fields hf
  unfold Ctx.take at ht
  dsimp only [ctxOf] at ht
  rw [takeSrc_plain ha] at ht
  dsimp only at ht
  repeat' split at ht
  all_goals first
    | (cases ht; done)
    | (cases ht; rfl)

/-- The body parks: nothing of the instruction has happened. -/
theorem runThread_park {s s1 s2 : State} {k : Nat} {t : Thread} {i : Instr} {c0 cx : Ctx} {w : Wait}
    {pre : Ctx → State → Option TrapInfo} {body : Ctx → State → State × Eff}
    (h : s.runs k t i) (hr : s.reads k t i c0 cx s1) (hp : pre c0 (s.begin k t i) = none) (hT : isTeamOp i.opc = false)
    (hb : body cx s1 = (s2, .park w)) : runThread i pre body s = .next (s.park k w).closeIssue := by
  rw [runThread_runs pre body h hr hp hT, hb]; rfl

/-! ## Thread-path accesses -/

/-- The bytes of a place, read at its home. -/
theorem homeRead_eq (s : State) (pl : Place) (n : Nat) (hk : ∀ i off, pl = .tile i off → i < s.tiles.length)
    (ht : ∀ i off, pl = .stack i off → i < s.threads.length) :
    s.homeRead pl n = s.bytesAt pl n := by
  have key : ∀ (m : Store) (a : Nat), m.read a n = (List.range n).map (fun j => m.get (a + j)) := by
    intro m a
    have : ∀ (l : List Host.Cell) (n a : Nat), cellRead l a n = (List.range n).map (fun j => cellGet l (a + j)) := by
      intro l n
      induction n with
      | zero => intro a; rfl
      | succ n ih =>
        intro a
        rw [List.range_succ_eq_map]
        simp only [cellRead, ih, List.map_cons, List.map_map, Nat.add_zero]
        congr 1
        apply List.map_congr_left
        intro j _
        simp only [Function.comp]
        congr 1
        omega
    exact this m.bytes n a
  unfold State.homeRead State.bytesAt State.byteAt
  cases pl with
  | dev a b => simp only [key, Place.plus]
  | host a => simp only [key, Place.plus]
  | tile i off =>
    have := hk i off rfl
    simp only [Place.plus]
    rw [List.getElem?_eq_getElem this]
    simp only [key, Option.map_some, Option.getD_some]
  | stack i off =>
    have := ht i off rfl
    simp only [Place.plus]
    rw [List.getElem?_eq_getElem this]
    simp only [key, Option.map_some, Option.getD_some]

/-- A state whose memories alone differ in what caches hold. -/
def CachesOnly (s s' : State) : Prop := ∃ m : Mem, s' = { s with mem := m } ∧ m.dev = s.mem.dev ∧ m.host = s.mem.host

theorem CachesOnly.refl (s : State) : CachesOnly s s := ⟨s.mem, rfl, rfl, rfl⟩

theorem CachesOnly.trans {a b c : State} (h : CachesOnly a b) (g : CachesOnly b c) : CachesOnly a c := by
  obtain ⟨m, rfl, h2, h3⟩ := h
  obtain ⟨n, rfl, g2, g3⟩ := g
  exact ⟨n, rfl, g2.trans h2, g3.trans h3⟩

theorem raiseClock_caches (s : State) (c v : Nat) : CachesOnly s (s.raiseClock c v) := by
  unfold State.raiseClock; split
  · exact .refl s
  · exact ⟨_, rfl, rfl, rfl⟩

theorem readLine_caches (s : State) (c l : Nat) : CachesOnly s (s.readLine c l) :=
  (raiseClock_caches s c _).trans ⟨_, rfl, rfl, rfl⟩

theorem fillLease_caches (s : State) (c l : Nat) : CachesOnly s (s.fillLease c l) := by
  unfold State.fillLease; split
  · exact .refl s
  · exact ⟨_, rfl, rfl, rfl⟩

theorem keepCopy_caches (s : State) (l : Lease) : CachesOnly s (s.keepCopy l) := by
  unfold State.keepCopy; split
  · exact ⟨_, rfl, rfl, rfl⟩
  · exact .refl s

/-- A load changes no byte, no thread and nothing of the device but what the caches hold. -/
theorem loadAt_caches (s : State) (core : Nat) (pl : Place) (n : Nat) : CachesOnly s (s.loadAt core pl n).1 := by
  unfold State.loadAt
  dsimp only
  repeat' split
  all_goals first
    | exact .refl s
    | exact raiseClock_caches _ _ _
    | exact (raiseClock_caches _ _ _).trans (keepCopy_caches _ _)
    | exact (readLine_caches _ _ _).trans (fillLease_caches _ _ _)
    | exact readLine_caches _ _ _

/-- So does an indivisible access's read at the home. -/
theorem homeLoad_caches (s : State) (core : Nat) (pl : Place) (n : Nat) : CachesOnly s (s.homeLoad core pl n).1 := by
  unfold State.homeLoad
  dsimp only
  repeat' split
  all_goals first
    | exact .refl s
    | exact readLine_caches _ _ _

/-- A thread-path store writes its bytes at its place; besides, caches alone change. -/
theorem storeAt_eq (s : State) (core : Nat) (pl : Place) (bs : List Byte) :
    CachesOnly (s.homeWrite pl bs) (s.storeAt core pl bs) := by
  unfold State.storeAt
  cases pl with
  | dev pa b =>
    dsimp only [State.homeWrite]
    obtain ⟨m, h1, h2, h3⟩ := raiseClock_caches s core (s.storeTime core (pa / 128))
    rw [h1]
    refine ⟨{ m with dev := m.dev.put pa bs, stamps := _ }, rfl, ?_, h3⟩
    dsimp only; rw [h2]
  | host pa => exact .refl _
  | tile i off => exact .refl _
  | stack k off => exact .refl _

theorem overwritten_memories (m : Mem) (now : Nat) (src : Option WriteSrc) (pl : Place) (n : Nat) :
    (m.overwritten now src pl n).dev = m.dev ∧ (m.overwritten now src pl n).host = m.host := by
  cases pl <;> cases src <;> exact ⟨rfl, rfl⟩

/-- A thread's write is noted in what caches hold; besides, elements that it meets against an addend are left undefined (R245). -/
theorem noteStore_spoils (s : State) (k : Nat) (t : Thread) (pl : Place) (n : Nat) (a b : Bool) :
    ∃ u, CachesOnly s u ∧ s.noteStore k t pl n a b = u.spoil (s.mem.elements pl n) := by
  refine ⟨_, ⟨_, rfl, ?_, ?_⟩, rfl⟩
  · exact (overwritten_memories ..).1
  · exact (overwritten_memories ..).2

/-- So is a command's. -/
theorem noteOther_spoils (s : State) (src : WriteSrc) (pl : Place) (n : Nat) :
    ∃ u, CachesOnly s u ∧ s.noteOther (some src) pl n = u.spoil (s.mem.elements pl n) := by
  refine ⟨_, ⟨_, rfl, ?_, ?_⟩, rfl⟩
  · exact (overwritten_memories ..).1
  · exact (overwritten_memories ..).2

/-- A write of the host or of the device itself leaves no element undefined. -/
theorem noteOther_eq (s : State) (pl : Place) (n : Nat) : CachesOnly s (s.noteOther none pl n) :=
  ⟨_, rfl, (overwritten_memories ..).1, (overwritten_memories ..).2⟩

/-- A store changes nothing of what partial sums and addends stand open. -/
theorem storeAt_elements (s : State) (core : Nat) (pl : Place) (bs : List Byte) (q : Place) (n : Nat) :
    (s.storeAt core pl bs).mem.elements q n = s.mem.elements q n := by
  have h : (s.storeAt core pl bs).mem.grc = s.mem.grc ∧ (s.storeAt core pl bs).mem.direct = s.mem.direct := by
    cases pl with
    | dev pa b =>
      unfold State.storeAt State.raiseClock
      dsimp only
      split <;> exact ⟨rfl, rfl⟩
    | _ => exact ⟨rfl, rfl⟩
  unfold Mem.elements
  rw [h.1, h.2]

theorem CachesOnly.byteAt {s s' : State} (h : CachesOnly s s') (q : Place) : s'.byteAt q = s.byteAt q := by
  obtain ⟨m, rfl, h2, h3⟩ := h
  cases q with
  | dev a b => simp only [State.byteAt, h2]
  | host a => simp only [State.byteAt, h3]
  | tile i off => rfl
  | stack i off => rfl

theorem CachesOnly.kept {s s' : State} (h : CachesOnly s s') : DeviceKept s s' := by
  obtain ⟨m, rfl, -, -⟩ := h; exact .refl s

theorem CachesOnly.archOf {s s' : State} (h : CachesOnly s s') (j : Nat) : s'.archOf j = s.archOf j := by
  obtain ⟨m, rfl, -, -⟩ := h; rfl

/-- A place that the checks of an access give: its allocation and its thread exist. -/
def Place.there (pl : Place) (s : State) : Prop :=
  match pl with
  | .tile i _ => i < s.tiles.length
  | .stack k _ => k < s.threads.length
  | _ => True

theorem findIdx_lt {α : Type} (f : α → Bool) : ∀ {l : List α} {i : Nat}, findIdx f l = some i → i < l.length
  | x :: l, i, h => by
    simp only [findIdx] at h
    split at h
    · simp only [Option.some.injEq] at h; subst h; simp
    · cases hf : findIdx f l with
      | none => rw [hf] at h; simp at h
      | some j => rw [hf] at h; simp at h; have := findIdx_lt f hf; simp; omega

theorem place_there (e : Tlb) (va : Nat) (s : State) : (e.place va).there s := by unfold Tlb.place; split <;> trivial

theorem resolveGlobal_there {s : State} {t : Thread} {ea : DWord} {n : Nat} {w : Bool} {pl : Place}
    (h : s.resolveGlobal t ea n w = .ok pl) : pl.there s := by
  unfold State.resolveGlobal at h
  repeat' split at h
  all_goals first
    | (cases h; done)
    | (cases h; exact place_there _ _ _)

theorem resolve_there {s : State} {k : Nat} {t : Thread} {ea : DWord} {n al : Nat} {w : Bool} {pl : Place} (hk : k < s.threads.length)
    (h : s.resolve k t ea n al w = .ok pl) : pl.there s := by
  unfold State.resolve at h
  dsimp only at h
  split at h
  · cases h
  · split at h
    · split at h
      · cases h
      · exact resolveGlobal_there h
    · split at h
      · split at h
        · cases h
        · rename_i i hi
          split at h
          · cases h
          · cases h; exact findIdx_lt _ hi
      · split at h
        · split at h
          · cases h
          · split at h
            · cases h
            · cases h; exact hk
        · cases h

/-- A home write at a place that exists: its bytes stand there, and every other byte is as it was. -/
theorem homeWrite_bytes {s : State} (hc : s.canonical) {pl : Place} (hp : pl.there s) (bs : List Byte) :
    BytesKeptBut s (s.homeWrite pl bs) pl bs.length ∧ (s.homeWrite pl bs).bytesAt pl bs.length = bs := by
  obtain ⟨hd, hh, ht, hs⟩ := hc
  have read : ∀ (m : Store) (a : Nat), m.wf → (List.range bs.length).map (fun (j : Nat) => (m.put a bs).get (a + j)) = bs := by
    intro m a hm
    apply List.ext_getElem (by simp)
    intro i h1 h2
    simp only [List.length_map, List.length_range] at h1
    simp only [List.getElem_map, List.getElem_range, Store.get_put hm]
    rw [if_pos (by omega)]
    simp [List.getD, h1]
  have other : ∀ (m : Store) (a b : Nat), m.wf → ¬ (a ≤ b ∧ b < a + bs.length) → (m.put a bs).get b = m.get b := by
    intro m a b hm hn; rw [Store.get_put hm, if_neg hn]
  cases pl with
  | dev a f =>
    refine ⟨fun q hq => ?_, read s.mem.dev a hd⟩
    cases q with
    | dev b g => exact other s.mem.dev a b hd hq
    | host b => rfl
    | tile i off => rfl
    | stack i off => rfl
  | host a =>
    refine ⟨fun q hq => ?_, read s.mem.host a hh⟩
    cases q with
    | dev b g => rfl
    | host b => exact other s.mem.host a b hh hq
    | tile i off => rfl
    | stack i off => rfl
  | tile i a =>
    have hi : i < s.tiles.length := hp
    have hw : s.tiles[i].mem.wf := ht _ (List.getElem_mem hi)
    refine ⟨fun q hq => ?_, ?_⟩
    · cases q with
      | dev b g => rfl
      | host b => rfl
      | stack j off => rfl
      | tile j b =>
        simp only [State.byteAt, State.homeWrite, State.modTile, List.getElem?_modify]
        by_cases e : i = j
        · subst e
          simp only [hi, List.getElem?_eq_getElem, if_true, Option.map_some, Option.getD_some]
          exact other _ a b hw (fun hh => hq ⟨rfl, hh⟩)
        · simp [e]
    · have := read s.tiles[i].mem a hw
      simpa only [State.bytesAt, State.byteAt, State.homeWrite, State.modTile, Place.plus, List.getElem?_modify, hi, List.getElem?_eq_getElem,
        if_true, Option.map_eq_map, Option.map_some, Option.getD_some] using this
  | stack i a =>
    have hi : i < s.threads.length := hp
    have hw : s.threads[i].stack.wf := hs _ (List.getElem_mem hi)
    refine ⟨fun q hq => ?_, ?_⟩
    · cases q with
      | dev b g => rfl
      | host b => rfl
      | tile j off => rfl
      | stack j b =>
        simp only [State.byteAt, State.homeWrite, State.modThread_threads, List.getElem?_modify]
        by_cases e : i = j
        · subst e
          simp only [hi, List.getElem?_eq_getElem, if_true, Option.map_some, Option.getD_some]
          exact other _ a b hw (fun hh => hq ⟨rfl, hh⟩)
        · simp [e]
    · have := read s.threads[i].stack a hw
      simpa only [State.bytesAt, State.byteAt, State.homeWrite, State.modThread_threads, Place.plus, List.getElem?_modify, hi,
        List.getElem?_eq_getElem, if_true, Option.map_eq_map, Option.map_some, Option.getD_some] using this

theorem homeWrite_kept (s : State) (pl : Place) (bs : List Byte) : DeviceKept s (s.homeWrite pl bs) := by
  cases pl <;> exact .refl s

theorem homeWrite_archOf (s : State) (pl : Place) (bs : List Byte) (j : Nat) : (s.homeWrite pl bs).archOf j = s.archOf j := by
  cases pl with
  | stack i a =>
    simp only [State.homeWrite]
    rw [State.archOf_modThread]
    split
    · rename_i h; subst h; cases h : s.threads[i]? <;> simp [State.archOf, h]; rfl
    · rfl
  | _ => rfl

theorem spoil_kept : ∀ (els : List Place) (s : State), DeviceKept s (s.spoil els)
  | [], s => .refl s
  | e :: l, s =>
    have h : DeviceKept s (s.spoilAt e) := by have := homeWrite_kept s e (freeBytes s.freeCtr 16); exact this
    h.trans (spoil_kept l (s.spoilAt e))

theorem spoil_archOf (j : Nat) : ∀ (els : List Place) (s : State), (s.spoil els).archOf j = s.archOf j
  | [], _ => rfl
  | e :: l, s => (spoil_archOf j l (s.spoilAt e)).trans (homeWrite_archOf s e _ j)

/-! ## Delivery -/

/-- Sound data reach their destination: of other threads, of the bytes of memory and of the device nothing changes, and the
thread's registers take them at once or, late, an outstanding result holds them (R36, R288). -/
theorem deliver_sound (cx : Ctx) (s : State) (src : Nat) (v : QWord) (t : Thread) (ht : s.threads[cx.k]? = some t) :
    ∃ s2, cx.deliver s src v none = (s2, .next) ∧ DeviceKept s s2 ∧ OthersKept s s2 cx.k ∧ BytesKept s s2 ∧
      (s.late = false ∨ (∀ n, cx.x.d ≠ .reg n) → s2.archOf cx.k = some (t.arch.write cx.x.d cx.sh.d.cls v)) ∧
      (∀ n, s.late = true → cx.x.d = .reg n → s2.archOf cx.k = some t.arch ∧ ∃ w p, s2.threads[cx.k]? = some w ∧ p ∈ w.pend ∧
        p.first = n.val ∧ p.n = cx.sh.d.cls.regs ∧ p.val = lowCls cx.sh.d.cls v ∧ p.poison = none ∧ p.returned = false) := by
  have plain : ∃ s2, ((cx.dst s v, Eff.next) : State × Eff) = (s2, .next) ∧ DeviceKept s s2 ∧ OthersKept s s2 cx.k ∧ BytesKept s s2 ∧
      s2.archOf cx.k = some (t.arch.write cx.x.d cx.sh.d.cls v) := by
    have h := dst_same cx s v
    refine ⟨_, rfl, h.1.kept, fun j hj => ?_, .of_same h.1 (dst_stack cx s v), dst_archOf cx s v t ht⟩
    simp only [State.archOf, h.2.2 j hj]
  unfold Ctx.deliver
  cases hd : cx.x.d with
  | reg n =>
    dsimp only
    by_cases hl : s.late = true
    · rw [if_pos hl]
      refine ⟨_, rfl, .refl _, fun j hj => ?_, ?_, fun h => ?_, fun m _ hm => ?_⟩
      · simp only [State.archOf, State.modThread_threads, List.getElem?_modify, Ne.symm hj, if_false]; simp
      · refine .of_same (s' := State.modThread { s with serial := s.serial + 1 } cx.k _) ?_ (fun j => ?_)
        · exact ⟨rfl, rfl, rfl, rfl, rfl, rfl, rfl, rfl, rfl, rfl, rfl, rfl, rfl, rfl, rfl, rfl⟩
        · simp only [State.modThread_threads, List.getElem?_modify]
          cases s.threads[j]? <;> simp; split <;> rfl
      · rcases h with h | h
        · rw [hl] at h; cases h
        · exact absurd rfl (h n)
      · cases hm
        refine ⟨?_, _, _, by simp [ht]; rfl, List.mem_append_right _ (List.mem_singleton.mpr rfl), rfl, rfl, rfl, rfl, rfl⟩
        simp [State.archOf, ht]; rfl
    · rw [if_neg hl]
      obtain ⟨s2, h0, h1, h2, h3, h4⟩ := plain
      rw [hd] at h4
      exact ⟨s2, h0, h1, h2, h3, fun _ => h4, fun m h => absurd h hl⟩
  | latchOnly =>
    obtain ⟨s2, h0, h1, h2, h3, h4⟩ := plain
    rw [hd] at h4
    exact ⟨s2, h0, h1, h2, h3, fun _ => h4, fun m _ h => by cases h⟩
  | push c n1 =>
    obtain ⟨s2, h0, h1, h2, h3, h4⟩ := plain
    rw [hd] at h4
    exact ⟨s2, h0, h1, h2, h3, fun _ => h4, fun m _ h => by cases h⟩

end Sys2Proof.Machine
end

