-- ==== Sys2Proof/Laws/Canonical.lean ====
section
/-! SUPPORT. Every operation over memory keeps the canonical form. -/

namespace Sys2Proof.Machine

/-- What `State.canonical` reads is device and host memory, the tile stores and the stacks alone. -/
theorem canonical_of {s s' : State} (h : s.canonical) (hd : s'.mem.dev.wf) (hh : s'.mem.host.wf)
    (ht : s'.tiles.map Tile.mem = s.tiles.map Tile.mem) (hs : s'.threads.map Thread.stack = s.threads.map Thread.stack) :
    s'.canonical := by
  obtain ⟨-, -, h3, h4⟩ := h
  refine ⟨hd, hh, fun a ha => ?_, fun t hm => ?_⟩
  · have : a.mem ∈ s.tiles.map Tile.mem := ht ▸ List.mem_map_of_mem ha
    obtain ⟨b, hb, hm⟩ := List.mem_map.mp this
    exact hm ▸ h3 b hb
  · have : t.stack ∈ s.threads.map Thread.stack := hs ▸ List.mem_map_of_mem hm
    obtain ⟨b, hb, hm⟩ := List.mem_map.mp this
    exact hm ▸ h4 b hb

theorem mem_modify {α : Type} (f : α → α) : ∀ {l : List α} {k : Nat} {x : α}, x ∈ l.modify k f → x ∈ l ∨ ∃ y ∈ l, x = f y
  | [], k, x, h => by simp at h
  | y :: l, 0, x, h => by
    rcases List.mem_cons.mp h with rfl | h
    · exact .inr ⟨y, by simp, rfl⟩
    · exact .inl (List.mem_cons_of_mem _ h)
  | y :: l, k + 1, x, h => by
    rcases List.mem_cons.mp h with rfl | h
    · exact .inl (by simp)
    · rcases mem_modify f h with h | ⟨z, hz, e⟩
      · exact .inl (List.mem_cons_of_mem _ h)
      · exact .inr ⟨z, List.mem_cons_of_mem _ hz, e⟩

/-- A change of one thread keeps the form when it keeps that of the thread's stack. -/
theorem modThread_canonical {s : State} (h : s.canonical) (k : Nat) {f : Thread → Thread} (hf : ∀ t, t.stack.wf → (f t).stack.wf) :
    (s.modThread k f).canonical := by
  obtain ⟨h1, h2, h3, h4⟩ := h
  refine ⟨h1, h2, h3, fun t ht => ?_⟩
  rcases mem_modify f ht with ht | ⟨y, hy, rfl⟩
  · exact h4 t ht
  · exact hf y (h4 y hy)

/-- A change of one tile allocation keeps the form when it keeps that of its store. -/
theorem modTile_canonical {s : State} (h : s.canonical) (i : Nat) {f : Tile → Tile} (hf : ∀ a, a.mem.wf → (f a).mem.wf) :
    (s.modTile i f).canonical := by
  obtain ⟨h1, h2, h3, h4⟩ := h
  refine ⟨h1, h2, fun a ha => ?_, h4⟩
  rcases mem_modify f ha with ha | ⟨y, hy, rfl⟩
  · exact h3 a ha
  · exact hf y (h3 y hy)

theorem homeWrite_canonical {s : State} (h : s.canonical) (pl : Place) (bs : List Byte) : (s.homeWrite pl bs).canonical := by
  cases pl with
  | dev a b => exact canonical_of h (Store.put_wf h.1 _ _) h.2.1 rfl rfl
  | host a => exact canonical_of h h.1 (Store.put_wf h.2.1 _ _) rfl rfl
  | tile i off => exact modTile_canonical h i (fun a ha => Store.put_wf ha _ _)
  | stack k off => exact modThread_canonical h k (fun t ht => Store.put_wf ht _ _)

theorem homeTaint_canonical {s : State} (h : s.canonical) (pl : Place) (fl : List Bool) : (s.homeTaint pl fl).canonical := by
  cases pl with
  | dev a b => exact canonical_of h (Store.taint_wf h.1 _ _) h.2.1 rfl rfl
  | host a => exact canonical_of h h.1 (Store.taint_wf h.2.1 _ _) rfl rfl
  | tile i off => exact modTile_canonical h i (fun a ha => Store.taint_wf ha _ _)
  | stack k off => exact modThread_canonical h k (fun t ht => Store.taint_wf ht _ _)

/-- What caches hold is no part of the form. -/
theorem CachesOnly.canonical {s s' : State} (h : CachesOnly s s') (hc : s.canonical) : s'.canonical := by
  obtain ⟨m, rfl, h2, h3⟩ := h
  exact canonical_of hc (h2 ▸ hc.1) (h3 ▸ hc.2.1) rfl rfl

theorem storeAt_canonical {s : State} (h : s.canonical) (core : Nat) (pl : Place) (bs : List Byte) :
    (s.storeAt core pl bs).canonical := (storeAt_eq s core pl bs).canonical (homeWrite_canonical h pl bs)

theorem loadAt_canonical {s : State} (h : s.canonical) (core : Nat) (pl : Place) (n : Nat) : (s.loadAt core pl n).1.canonical :=
  (loadAt_caches s core pl n).canonical h

theorem mergeAt_canonical {s : State} (h : s.canonical) (el cnt : Place) (e : GrcEntry) : (s.mergeAt el cnt e).canonical := by
  unfold State.mergeAt
  dsimp only
  split
  · exact homeWrite_canonical h _ _
  · exact homeWrite_canonical (s := (s.homeWrite el _).useFree _) (homeWrite_canonical h _ _) _ _

theorem noteMerge_canonical {s : State} (h : s.canonical) (el cnt : Place) (e : GrcEntry) : (s.noteMerge el cnt e).canonical :=
  canonical_of h h.1 h.2.1 rfl rfl

theorem foldl_canonical {α : Type} (f : State → α → State) (hf : ∀ s x, s.canonical → (f s x).canonical) :
    ∀ (l : List α) {s : State}, s.canonical → (l.foldl f s).canonical
  | [], _, h => h
  | x :: l, _, h => foldl_canonical f hf l (hf _ x h)

theorem spoilAt_canonical {s : State} (h : s.canonical) (e : Place) : (s.spoilAt e).canonical := by
  have := homeWrite_canonical h e (freeBytes s.freeCtr 16); exact this

theorem spoil_canonical {s : State} (h : s.canonical) (els : List Place) : (s.spoil els).canonical :=
  foldl_canonical State.spoilAt (fun _ e h => spoilAt_canonical h e) els h

/-- A write by a thread keeps the form (R245's free values among what it writes). -/
theorem noteStore_canonical {s : State} (h : s.canonical) (k : Nat) (t : Thread) (pl : Place) (n : Nat) (a b : Bool) :
    (s.noteStore k t pl n a b).canonical := by
  obtain ⟨u, hu, e⟩ := noteStore_spoils s k t pl n a b
  rw [e]; exact spoil_canonical (hu.canonical h) _

/-- A home write changes no byte outside its own, whether its place exists or not. -/
theorem homeWrite_others {s : State} (h : s.canonical) (pl : Place) (bs : List Byte) : BytesKeptBut s (s.homeWrite pl bs) pl bs.length := by
  by_cases hp : pl.there s
  · exact (homeWrite_bytes h hp bs).1
  · intro q _
    cases pl with
    | dev a b => exact absurd trivial hp
    | host a => exact absurd trivial hp
    | tile i off =>
      have : s.tiles.length ≤ i := Nat.le_of_not_lt hp
      have e : s.homeWrite (.tile i off) bs = s := by
        simp only [State.homeWrite, State.modTile, List.modify_eq_self this]
      rw [e]
    | stack i off =>
      have : s.threads.length ≤ i := Nat.le_of_not_lt hp
      have e : s.homeWrite (.stack i off) bs = s := by
        simp only [State.homeWrite, State.modThread, List.modify_eq_self this]
      rw [e]

theorem freeBytes_length (i n : Nat) : (freeBytes i n).length = n := by simp [freeBytes]

/-- Elements left undefined: every byte outside them is as it was. -/
theorem spoil_others (q : Place) : ∀ (els : List Place) {s : State}, s.canonical → (∀ e ∈ els, ¬ q.within e 16) →
    (s.spoil els).byteAt q = s.byteAt q
  | [], _, _, _ => rfl
  | e :: l, s, h, hq => by
    have h1 : (s.spoilAt e).byteAt q = s.byteAt q := by
      have := homeWrite_others h e (freeBytes s.freeCtr 16) q
      rw [freeBytes_length] at this
      exact this (hq e (by simp))
    exact (spoil_others q l (spoilAt_canonical h e) (fun x hx => hq x (by simp [hx]))).trans h1

/-- A thread's store and its note: the bytes stand at the place, and every other byte is as it was, but for elements that R245 leaves
undefined. -/
theorem store_storedBy {s : State} (hc : s.canonical) {pl : Place} (hp : pl.there s) (core : Nat) (bs : List Byte) (k : Nat) (t : Thread)
    (a b : Bool) : StoredBy s ((s.storeAt core pl bs).noteStore k t pl bs.length a b) pl bs := by
  obtain ⟨u, hu, e⟩ := noteStore_spoils (s.storeAt core pl bs) k t pl bs.length a b
  have hs := storeAt_eq s core pl bs
  have hw := homeWrite_bytes hc hp bs
  have hcu : u.canonical := hu.canonical (hs.canonical (homeWrite_canonical hc pl bs))
  have back : ∀ q, ¬ s.undefinedBy pl bs.length q → ((s.storeAt core pl bs).noteStore k t pl bs.length a b).byteAt q = (s.homeWrite pl bs).byteAt q := by
    intro q hq
    rw [e, storeAt_elements, spoil_others q _ hcu (fun x hx hw => hq ⟨x, hx, hw⟩), hu.byteAt, hs.byteAt]
  refine ⟨fun q h1 h2 => (back q h2).trans (hw.1 q h1), fun j b hb h2 => (back _ h2).trans ?_⟩
  have := congrArg (fun l => l[j]?) hw.2
  simp only [State.bytesAt] at this
  obtain ⟨hj, rfl⟩ := List.getElem?_eq_some_iff.mp hb
  simpa [List.getElem?_range, hj] using this

theorem addDirect_canonical {s : State} (h : s.canonical) (k : Nat) (el cnt : Place) (e : GrcEntry) :
    (s.addDirect k el cnt e).canonical := by
  have := mergeAt_canonical (noteMerge_canonical h el cnt e) el cnt e
  exact canonical_of this this.1 this.2.1 rfl rfl

theorem mergeEntry_canonical {s : State} (h : s.canonical) (e : GrcEntry) : (s.mergeEntry e).canonical := by
  have hm := mergeAt_canonical (noteMerge_canonical h (.dev e.addr true) (.dev e.counter true) e) (.dev e.addr true) (.dev e.counter true) e
  refine canonical_of hm ?_ hm.2.1 rfl rfl
  dsimp only [State.mergeEntry]
  split
  · have := foldl_poison_wf (fun u => u) ((List.range 4).map (4 * (e.addr / 128) + ·)) hm.1; exact this
  · exact hm.1

theorem softError_canonical {s : State} (h : s.canonical) (e : SoftErr) : (s.softError e).canonical := by
  cases e with
  | corrected die => unfold State.softError State.countEcc; dsimp only; split <;> exact h
  | device u => exact canonical_of h (by have := foldl_poison_wf (fun u => u) (deviceUnits s.pkg u) h.1; exact this) h.2.1 rfl rfl
  | host u => exact canonical_of h h.1 (Store.poison_wf h.2.1 _) rfl rfl
  | tile i u =>
    refine modTile_canonical h i (fun a ha => ?_)
    split
    · exact Store.poison_wf ha _
    · exact ha
  | acc i u => unfold State.softError; dsimp only; split <;> exact h
  | stack k u =>
    unfold State.softError; dsimp only; split
    · exact modThread_canonical h k (fun t ht => Store.poison_wf ht _)
    · exact h
  | reg k n => exact modThread_canonical h k (fun t ht => by split <;> exact ht)
  | partialSum die addr => exact h
  | lease i u => exact h
  | remoteCopy i u => exact h
  | weight i => exact h

end Sys2Proof.Machine
end

