-- ==== Sys2Proof/Laws/PerInstr.lean ====
section
/-! SUPPORT. One lemma for each instruction: its opcode stands in bits 8:2 of its first word (R71, R93); a device event has
no word. -/

namespace Sys2Proof.Laws

/-- The major opcode of a word that the encoder writes. -/
theorem mkWord0_op (i n1 : Bool) (b a d op l : Nat) (hop : op < 128) (hl : l < 4) : bitsOf (mkWord0 i n1 b a d op l) 8 2 = op := by
  have h2 : ∀ x : Bool, x.toNat ≤ 1 := Bool.toNat_le
  have := h2 i; have := h2 n1
  simp only [bitsOf, mkWord0, BitVec.toNat_ofNat]
  omega

theorem ExtOp.len_lt (x : ExtOp) : x.len < 4 := by unfold ExtOp.len; split <;> (try split) <;> omega

theorem encodeExt_op (op : Nat) (x : ExtOp) (hop : op < 128) (w : Word) (ws : List Word) (h : encodeExt op x = w :: ws) :
    bitsOf w 8 2 = op := by
  unfold encodeExt at h
  have e := mkWord0_op x.b.isImm x.d.n1 x.b.parts.1 x.a.field x.d.field op x.len hop (ExtOp.len_lt x)
  dsimp only at h
  split at h
  · rw [List.cons.injEq] at h; rw [← h.1]; exact e
  · split at h <;> (rw [List.cons.injEq] at h; rw [← h.1]; exact e)

theorem encodeBase_op (op : Nat) (o : BaseOp) (hop : op < 128) : bitsOf (encodeBase op o) 8 2 = op :=
  mkWord0_op _ _ _ _ _ op 0 hop (by decide)

/-- The opcode of an instruction's first word. -/
def OpcodeField.Statement (i : Instr) : Prop := i.wf = true → ∀ w ws, encode i = w :: ws → bitsOf w 8 2 = i.opc

namespace OpcodeField

theorem powerOn : Statement (.powerOn) := fun _ w ws h => absurd h.symm (List.cons_ne_nil w ws)
theorem coldReset : Statement (.coldReset) := fun _ w ws h => absurd h.symm (List.cons_ne_nil w ws)
theorem warmReset : Statement (.warmReset) := fun _ w ws h => absurd h.symm (List.cons_ne_nil w ws)
theorem boot (r : BootReport) : Statement (.boot r) := fun _ w ws h => absurd h.symm (List.cons_ne_nil w ws)
theorem attestationStart : Statement (.attestationStart) := fun _ w ws h => absurd h.symm (List.cons_ne_nil w ws)
theorem attestationComplete : Statement (.attestationComplete) := fun _ w ws h => absurd h.symm (List.cons_ne_nil w ws)
theorem partitionStop : Statement (.partitionStop) := fun _ w ws h => absurd h.symm (List.cons_ne_nil w ws)
theorem partitionResume : Statement (.partitionResume) := fun _ w ws h => absurd h.symm (List.cons_ne_nil w ws)
theorem partitionStep : Statement (.partitionStep) := fun _ w ws h => absurd h.symm (List.cons_ne_nil w ws)
theorem endThread : Statement (.endThread) := fun _ w ws h => absurd h.symm (List.cons_ne_nil w ws)
theorem release : Statement (.release) := fun _ w ws h => absurd h.symm (List.cons_ne_nil w ws)
theorem threadWindowWrite (off : Nat) (v : BitVec 64) : Statement (.threadWindowWrite off v) := fun _ w ws h => absurd h.symm (List.cons_ne_nil w ws)
theorem budgetWrite (v : BitVec 64) : Statement (.budgetWrite v) := fun _ w ws h => absurd h.symm (List.cons_ne_nil w ws)
theorem spectrographRingConfig (lg : Bool) (v : BitVec 64) : Statement (.spectrographRingConfig lg v) := fun _ w ws h => absurd h.symm (List.cons_ne_nil w ws)
theorem bbcCounterWrite (i : BitVec 8) (v : BitVec 64) : Statement (.bbcCounterWrite i v) := fun _ w ws h => absurd h.symm (List.cons_ne_nil w ws)
theorem controlWindowWrite (off : BitVec 16) (v : Option (BitVec 64)) : Statement (.controlWindowWrite off v) := fun _ w ws h => absurd h.symm (List.cons_ne_nil w ws)
theorem queueSet : Statement (.queueSet) := fun _ w ws h => absurd h.symm (List.cons_ne_nil w ws)
theorem queueStop : Statement (.queueStop) := fun _ w ws h => absurd h.symm (List.cons_ne_nil w ws)
theorem migrate : Statement (.migrate) := fun _ w ws h => absurd h.symm (List.cons_ne_nil w ws)
theorem migrationComplete : Statement (.migrationComplete) := fun _ w ws h => absurd h.symm (List.cons_ne_nil w ws)
theorem bias : Statement (.bias) := fun _ w ws h => absurd h.symm (List.cons_ne_nil w ws)
theorem biasFlipComplete : Statement (.biasFlipComplete) := fun _ w ws h => absurd h.symm (List.cons_ne_nil w ws)
theorem cancel : Statement (.cancel) := fun _ w ws h => absurd h.symm (List.cons_ne_nil w ws)
theorem watchdog : Statement (.watchdog) := fun _ w ws h => absurd h.symm (List.cons_ne_nil w ws)
theorem mqInvalidCommand : Statement (.mqInvalidCommand) := fun _ w ws h => absurd h.symm (List.cons_ne_nil w ws)
theorem tailStoreRecall (q : Fin 64) : Statement (.tailStoreRecall q) := fun _ w ws h => absurd h.symm (List.cons_ne_nil w ws)
theorem submissionSlotRead (q : Fin 64) : Statement (.submissionSlotRead q) := fun _ w ws h => absurd h.symm (List.cons_ne_nil w ws)
theorem taskDependencesComplete (t : Nat) : Statement (.taskDependencesComplete t) := fun _ w ws h => absurd h.symm (List.cons_ne_nil w ws)
theorem tenureGrant (t : Nat) : Statement (.tenureGrant t) := fun _ w ws h => absurd h.symm (List.cons_ne_nil w ws)
theorem teamPlacement (t : Nat) (core : Fin 192) (part : Fin 4) (slot : Fin 384) : Statement (.teamPlacement t core part slot) := fun _ w ws h => absurd h.symm (List.cons_ne_nil w ws)
theorem taskComplete (t : Nat) : Statement (.taskComplete t) := fun _ w ws h => absurd h.symm (List.cons_ne_nil w ws)
theorem preemptSection (waiter : Nat) : Statement (.preemptSection waiter) := fun _ w ws h => absurd h.symm (List.cons_ne_nil w ws)
theorem sectionResume (t : Nat) (sec : Nat) (core : Fin 192) (shift : List Nat) : Statement (.sectionResume t sec core shift) := fun _ w ws h => absurd h.symm (List.cons_ne_nil w ws)
theorem binAgeExpiry (p : Fin 768) (b : Nat) : Statement (.binAgeExpiry p b) := fun _ w ws h => absurd h.symm (List.cons_ne_nil w ws)
theorem memoryWaitSplit (p : Fin 768) (g : Nat) : Statement (.memoryWaitSplit p g) := fun _ w ws h => absurd h.symm (List.cons_ne_nil w ws)
theorem loadDataReturn (k : Nat) : Statement (.loadDataReturn k) := fun _ w ws h => absurd h.symm (List.cons_ne_nil w ws)
theorem copyDataLanding (c : Nat) (line : Nat) : Statement (.copyDataLanding c line) := fun _ w ws h => absurd h.symm (List.cons_ne_nil w ws)
theorem twaitReevaluate (k : Nat) : Statement (.twaitReevaluate k) := fun _ w ws h => absurd h.symm (List.cons_ne_nil w ws)
theorem twaitTimeout (k : Nat) : Statement (.twaitTimeout k) := fun _ w ws h => absurd h.symm (List.cons_ne_nil w ws)
theorem channelSpill (k : Nat) : Statement (.channelSpill k) := fun _ w ws h => absurd h.symm (List.cons_ne_nil w ws)
theorem exitComplete (k : Nat) : Statement (.exitComplete k) := fun _ w ws h => absurd h.symm (List.cons_ne_nil w ws)
theorem nodeBatchLaunch (t : Nat) (node : Nat) (core : Fin 192) (part : Fin 4) (slots : List Nat) : Statement (.nodeBatchLaunch t node core part slots) := fun _ w ws h => absurd h.symm (List.cons_ne_nil w ws)
theorem nodeBatchTimeout (t : Nat) (node : Nat) (core : Fin 192) (part : Fin 4) (slots : List Nat) : Statement (.nodeBatchTimeout t node core part slots) := fun _ w ws h => absurd h.symm (List.cons_ne_nil w ws)
theorem watchdogExpiry (ts : List Nat) : Statement (.watchdogExpiry ts) := fun _ w ws h => absurd h.symm (List.cons_ne_nil w ws)
theorem mmaStart (core : Fin 192) : Statement (.mmaStart core) := fun _ w ws h => absurd h.symm (List.cons_ne_nil w ws)
theorem mmaIteration (core : Fin 192) : Statement (.mmaIteration core) := fun _ w ws h => absurd h.symm (List.cons_ne_nil w ws)
theorem mmaComplete (core : Fin 192) : Statement (.mmaComplete core) := fun _ w ws h => absurd h.symm (List.cons_ne_nil w ws)
theorem nevalTileTimeout (i : Nat) : Statement (.nevalTileTimeout i) := fun _ w ws h => absurd h.symm (List.cons_ne_nil w ws)
theorem nevalTileRun (i : Nat) : Statement (.nevalTileRun i) := fun _ w ws h => absurd h.symm (List.cons_ne_nil w ws)
theorem copyStart (e : Fin 16) : Statement (.copyStart e) := fun _ w ws h => absurd h.symm (List.cons_ne_nil w ws)
theorem copyRun (e : Fin 16) : Statement (.copyRun e) := fun _ w ws h => absurd h.symm (List.cons_ne_nil w ws)
theorem copyCondReevaluate (e : Fin 16) : Statement (.copyCondReevaluate e) := fun _ w ws h => absurd h.symm (List.cons_ne_nil w ws)
theorem copyCondTimeout (e : Fin 16) : Statement (.copyCondTimeout e) := fun _ w ws h => absurd h.symm (List.cons_ne_nil w ws)
theorem copyBarrierArrival (e : Fin 16) : Statement (.copyBarrierArrival e) := fun _ w ws h => absurd h.symm (List.cons_ne_nil w ws)
theorem copyComplete (e : Fin 16) : Statement (.copyComplete e) := fun _ w ws h => absurd h.symm (List.cons_ne_nil w ws)
theorem sortStart (die : Fin 4) : Statement (.sortStart die) := fun _ w ws h => absurd h.symm (List.cons_ne_nil w ws)
theorem sortPass (die : Fin 4) : Statement (.sortPass die) := fun _ w ws h => absurd h.symm (List.cons_ne_nil w ws)
theorem sortComplete (die : Fin 4) : Statement (.sortComplete die) := fun _ w ws h => absurd h.symm (List.cons_ne_nil w ws)
theorem collStart (die : Fin 4) (peers : List Peer) : Statement (.collStart die peers) := fun _ w ws h => absurd h.symm (List.cons_ne_nil w ws)
theorem collComplete (die : Fin 4) : Statement (.collComplete die) := fun _ w ws h => absurd h.symm (List.cons_ne_nil w ws)
theorem grcEvictMerge (die : Fin 4) (addr : Nat) : Statement (.grcEvictMerge die addr) := fun _ w ws h => absurd h.symm (List.cons_ne_nil w ws)
theorem powerPeriod : Statement (.powerPeriod) := fun _ w ws h => absurd h.symm (List.cons_ne_nil w ws)
theorem spectrographSample (p : Fin 768) : Statement (.spectrographSample p) := fun _ w ws h => absurd h.symm (List.cons_ne_nil w ws)
theorem softError (e : SoftErr) : Statement (.softError e) := fun _ w ws h => absurd h.symm (List.cons_ne_nil w ws)
theorem linkFailure (l : LinkId) : Statement (.linkFailure l) := fun _ w ws h => absurd h.symm (List.cons_ne_nil w ws)
theorem hostMemoryAccess (a : HostAccess) : Statement (.hostMemoryAccess a) := fun _ w ws h => absurd h.symm (List.cons_ne_nil w ws)
theorem ill (w : Word) : Statement (.ill w) := by
  intro hw v ws h
  have e : [w] = v :: ws := h
  rw [List.cons.injEq] at e
  rw [← e.1]
  simp only [Instr.wf, Instr.formOk, Bool.and_eq_true, decide_eq_true_eq] at hw
  exact hw.1
theorem add (o : BaseOp) : Statement (.add o) := fun _ v ws h => (List.cons.inj h).1 ▸ encodeBase_op _ o (by decide)
theorem addExt (x : ExtOp) : Statement (.addExt x) := fun _ w ws h => encodeExt_op 0x01 x (by decide) w ws h
theorem sub (o : BaseOp) : Statement (.sub o) := fun _ v ws h => (List.cons.inj h).1 ▸ encodeBase_op _ o (by decide)
theorem subExt (x : ExtOp) : Statement (.subExt x) := fun _ w ws h => encodeExt_op 0x02 x (by decide) w ws h
theorem mul (o : BaseOp) : Statement (.mul o) := fun _ v ws h => (List.cons.inj h).1 ▸ encodeBase_op _ o (by decide)
theorem mulExt (x : ExtOp) : Statement (.mulExt x) := fun _ w ws h => encodeExt_op 0x03 x (by decide) w ws h
theorem mulh (o : BaseOp) : Statement (.mulh o) := fun _ v ws h => (List.cons.inj h).1 ▸ encodeBase_op _ o (by decide)
theorem mulhExt (x : ExtOp) : Statement (.mulhExt x) := fun _ w ws h => encodeExt_op 0x04 x (by decide) w ws h
theorem mad (x : ExtOp) : Statement (.mad x) := fun _ w ws h => encodeExt_op 0x05 x (by decide) w ws h
theorem and (o : BaseOp) : Statement (.and o) := fun _ v ws h => (List.cons.inj h).1 ▸ encodeBase_op _ o (by decide)
theorem andExt (x : ExtOp) : Statement (.andExt x) := fun _ w ws h => encodeExt_op 0x06 x (by decide) w ws h
theorem or (o : BaseOp) : Statement (.or o) := fun _ v ws h => (List.cons.inj h).1 ▸ encodeBase_op _ o (by decide)
theorem orExt (x : ExtOp) : Statement (.orExt x) := fun _ w ws h => encodeExt_op 0x07 x (by decide) w ws h
theorem xor (o : BaseOp) : Statement (.xor o) := fun _ v ws h => (List.cons.inj h).1 ▸ encodeBase_op _ o (by decide)
theorem xorExt (x : ExtOp) : Statement (.xorExt x) := fun _ w ws h => encodeExt_op 0x08 x (by decide) w ws h
theorem andn (o : BaseOp) : Statement (.andn o) := fun _ v ws h => (List.cons.inj h).1 ▸ encodeBase_op _ o (by decide)
theorem andnExt (x : ExtOp) : Statement (.andnExt x) := fun _ w ws h => encodeExt_op 0x09 x (by decide) w ws h
theorem shl (o : BaseOp) : Statement (.shl o) := fun _ v ws h => (List.cons.inj h).1 ▸ encodeBase_op _ o (by decide)
theorem shlExt (x : ExtOp) : Statement (.shlExt x) := fun _ w ws h => encodeExt_op 0x0A x (by decide) w ws h
theorem shr (o : BaseOp) : Statement (.shr o) := fun _ v ws h => (List.cons.inj h).1 ▸ encodeBase_op _ o (by decide)
theorem shrExt (x : ExtOp) : Statement (.shrExt x) := fun _ w ws h => encodeExt_op 0x0B x (by decide) w ws h
theorem sar (o : BaseOp) : Statement (.sar o) := fun _ v ws h => (List.cons.inj h).1 ▸ encodeBase_op _ o (by decide)
theorem sarExt (x : ExtOp) : Statement (.sarExt x) := fun _ w ws h => encodeExt_op 0x0C x (by decide) w ws h
theorem rot (o : BaseOp) : Statement (.rot o) := fun _ v ws h => (List.cons.inj h).1 ▸ encodeBase_op _ o (by decide)
theorem rotExt (x : ExtOp) : Statement (.rotExt x) := fun _ w ws h => encodeExt_op 0x0D x (by decide) w ws h
theorem min (o : BaseOp) : Statement (.min o) := fun _ v ws h => (List.cons.inj h).1 ▸ encodeBase_op _ o (by decide)
theorem minExt (x : ExtOp) : Statement (.minExt x) := fun _ w ws h => encodeExt_op 0x0E x (by decide) w ws h
theorem max (o : BaseOp) : Statement (.max o) := fun _ v ws h => (List.cons.inj h).1 ▸ encodeBase_op _ o (by decide)
theorem maxExt (x : ExtOp) : Statement (.maxExt x) := fun _ w ws h => encodeExt_op 0x0F x (by decide) w ws h
theorem abs (x : ExtOp) : Statement (.abs x) := fun _ w ws h => encodeExt_op 0x10 x (by decide) w ws h
theorem clz (x : ExtOp) : Statement (.clz x) := fun _ w ws h => encodeExt_op 0x11 x (by decide) w ws h
theorem popc (x : ExtOp) : Statement (.popc x) := fun _ w ws h => encodeExt_op 0x12 x (by decide) w ws h
theorem brev (x : ExtOp) : Statement (.brev x) := fun _ w ws h => encodeExt_op 0x13 x (by decide) w ws h
theorem bfx (x : ExtOp) : Statement (.bfx x) := fun _ w ws h => encodeExt_op 0x14 x (by decide) w ws h
theorem bfi (x : ExtOp) : Statement (.bfi x) := fun _ w ws h => encodeExt_op 0x15 x (by decide) w ws h
theorem sel (x : ExtOp) : Statement (.sel x) := fun _ w ws h => encodeExt_op 0x16 x (by decide) w ws h
theorem cmp (x : ExtOp) : Statement (.cmp x) := fun _ w ws h => encodeExt_op 0x17 x (by decide) w ws h
theorem mov (o : BaseOp) : Statement (.mov o) := fun _ v ws h => (List.cons.inj h).1 ▸ encodeBase_op _ o (by decide)
theorem movExt (x : ExtOp) : Statement (.movExt x) := fun _ w ws h => encodeExt_op 0x18 x (by decide) w ws h
theorem movi (x : ExtOp) : Statement (.movi x) := fun _ w ws h => encodeExt_op 0x19 x (by decide) w ws h
theorem lea (o : BaseOp) : Statement (.lea o) := fun _ v ws h => (List.cons.inj h).1 ▸ encodeBase_op _ o (by decide)
theorem leaExt (x : ExtOp) : Statement (.leaExt x) := fun _ w ws h => encodeExt_op 0x1A x (by decide) w ws h
theorem addq (o : BaseOp) : Statement (.addq o) := fun _ v ws h => (List.cons.inj h).1 ▸ encodeBase_op _ o (by decide)
theorem addqExt (x : ExtOp) : Statement (.addqExt x) := fun _ w ws h => encodeExt_op 0x1B x (by decide) w ws h
theorem mulw (o : BaseOp) : Statement (.mulw o) := fun _ v ws h => (List.cons.inj h).1 ▸ encodeBase_op _ o (by decide)
theorem mulwExt (x : ExtOp) : Statement (.mulwExt x) := fun _ w ws h => encodeExt_op 0x1C x (by decide) w ws h
theorem div (o : BaseOp) : Statement (.div o) := fun _ v ws h => (List.cons.inj h).1 ▸ encodeBase_op _ o (by decide)
theorem divExt (x : ExtOp) : Statement (.divExt x) := fun _ w ws h => encodeExt_op 0x1D x (by decide) w ws h
theorem rem (o : BaseOp) : Statement (.rem o) := fun _ v ws h => (List.cons.inj h).1 ▸ encodeBase_op _ o (by decide)
theorem remExt (x : ExtOp) : Statement (.remExt x) := fun _ w ws h => encodeExt_op 0x1E x (by decide) w ws h
theorem pmov (x : ExtOp) : Statement (.pmov x) := fun _ w ws h => encodeExt_op 0x1F x (by decide) w ws h
theorem fadd (o : BaseOp) : Statement (.fadd o) := fun _ v ws h => (List.cons.inj h).1 ▸ encodeBase_op _ o (by decide)
theorem faddExt (x : ExtOp) : Statement (.faddExt x) := fun _ w ws h => encodeExt_op 0x20 x (by decide) w ws h
theorem fsub (o : BaseOp) : Statement (.fsub o) := fun _ v ws h => (List.cons.inj h).1 ▸ encodeBase_op _ o (by decide)
theorem fsubExt (x : ExtOp) : Statement (.fsubExt x) := fun _ w ws h => encodeExt_op 0x21 x (by decide) w ws h
theorem fmul (o : BaseOp) : Statement (.fmul o) := fun _ v ws h => (List.cons.inj h).1 ▸ encodeBase_op _ o (by decide)
theorem fmulExt (x : ExtOp) : Statement (.fmulExt x) := fun _ w ws h => encodeExt_op 0x22 x (by decide) w ws h
theorem ffma (x : ExtOp) : Statement (.ffma x) := fun _ w ws h => encodeExt_op 0x23 x (by decide) w ws h
theorem fmin (o : BaseOp) : Statement (.fmin o) := fun _ v ws h => (List.cons.inj h).1 ▸ encodeBase_op _ o (by decide)
theorem fminExt (x : ExtOp) : Statement (.fminExt x) := fun _ w ws h => encodeExt_op 0x24 x (by decide) w ws h
theorem fmax (o : BaseOp) : Statement (.fmax o) := fun _ v ws h => (List.cons.inj h).1 ▸ encodeBase_op _ o (by decide)
theorem fmaxExt (x : ExtOp) : Statement (.fmaxExt x) := fun _ w ws h => encodeExt_op 0x25 x (by decide) w ws h
theorem fcmp (x : ExtOp) : Statement (.fcmp x) := fun _ w ws h => encodeExt_op 0x26 x (by decide) w ws h
theorem frnd (x : ExtOp) : Statement (.frnd x) := fun _ w ws h => encodeExt_op 0x27 x (by decide) w ws h
theorem fcvt (x : ExtOp) : Statement (.fcvt x) := fun _ w ws h => encodeExt_op 0x28 x (by decide) w ws h
theorem frcp (x : ExtOp) : Statement (.frcp x) := fun _ w ws h => encodeExt_op 0x29 x (by decide) w ws h
theorem frsq (x : ExtOp) : Statement (.frsq x) := fun _ w ws h => encodeExt_op 0x2A x (by decide) w ws h
theorem fsqrt (x : ExtOp) : Statement (.fsqrt x) := fun _ w ws h => encodeExt_op 0x2B x (by decide) w ws h
theorem fex2 (x : ExtOp) : Statement (.fex2 x) := fun _ w ws h => encodeExt_op 0x2C x (by decide) w ws h
theorem flg2 (x : ExtOp) : Statement (.flg2 x) := fun _ w ws h => encodeExt_op 0x2D x (by decide) w ws h
theorem fsin (x : ExtOp) : Statement (.fsin x) := fun _ w ws h => encodeExt_op 0x2E x (by decide) w ws h
theorem fcos (x : ExtOp) : Statement (.fcos x) := fun _ w ws h => encodeExt_op 0x2F x (by decide) w ws h
theorem fclass (x : ExtOp) : Statement (.fclass x) := fun _ w ws h => encodeExt_op 0x33 x (by decide) w ws h
theorem nmsel (x : ExtOp) : Statement (.nmsel x) := fun _ w ws h => encodeExt_op 0x38 x (by decide) w ws h
theorem hadd2 (o : BaseOp) : Statement (.hadd2 o) := fun _ v ws h => (List.cons.inj h).1 ▸ encodeBase_op _ o (by decide)
theorem hadd2Ext (x : ExtOp) : Statement (.hadd2Ext x) := fun _ w ws h => encodeExt_op 0x30 x (by decide) w ws h
theorem hmul2 (o : BaseOp) : Statement (.hmul2 o) := fun _ v ws h => (List.cons.inj h).1 ▸ encodeBase_op _ o (by decide)
theorem hmul2Ext (x : ExtOp) : Statement (.hmul2Ext x) := fun _ w ws h => encodeExt_op 0x31 x (by decide) w ws h
theorem hfma2 (x : ExtOp) : Statement (.hfma2 x) := fun _ w ws h => encodeExt_op 0x32 x (by decide) w ws h
theorem hdot2 (x : ExtOp) : Statement (.hdot2 x) := fun _ w ws h => encodeExt_op 0x34 x (by decide) w ws h
theorem rcvt (x : ExtOp) : Statement (.rcvt x) := fun _ w ws h => encodeExt_op 0x35 x (by decide) w ws h
theorem radd (o : BaseOp) : Statement (.radd o) := fun _ v ws h => (List.cons.inj h).1 ▸ encodeBase_op _ o (by decide)
theorem raddExt (x : ExtOp) : Statement (.raddExt x) := fun _ w ws h => encodeExt_op 0x36 x (by decide) w ws h
theorem rmul (o : BaseOp) : Statement (.rmul o) := fun _ v ws h => (List.cons.inj h).1 ▸ encodeBase_op _ o (by decide)
theorem rmulExt (x : ExtOp) : Statement (.rmulExt x) := fun _ w ws h => encodeExt_op 0x37 x (by decide) w ws h
theorem bra (off : BitVec 23) : Statement (.bra off) := by
  intro _ v ws h
  have e := List.cons.inj h
  rw [← e.1]
  simp only [bitsOf, BitVec.toNat_ofNat, Instr.opc]
  omega
theorem braExt (x : ExtOp) : Statement (.braExt x) := fun _ w ws h => encodeExt_op 0x40 x (by decide) w ws h
theorem brc (off : BitVec 19) (neg : Bool) (p : Fin 8) : Statement (.brc off neg p) := by
  intro _ v ws h
  have e := List.cons.inj h
  rw [← e.1]
  simp only [bitsOf, BitVec.toNat_ofNat, Instr.opc]
  omega
theorem brcExt (x : ExtOp) : Statement (.brcExt x) := fun _ w ws h => encodeExt_op 0x41 x (by decide) w ws h
theorem call (off : BitVec 23) : Statement (.call off) := by
  intro _ v ws h
  have e := List.cons.inj h
  rw [← e.1]
  simp only [bitsOf, BitVec.toNat_ofNat, Instr.opc]
  omega
theorem callExt (x : ExtOp) : Statement (.callExt x) := fun _ w ws h => encodeExt_op 0x43 x (by decide) w ws h
theorem jmp (x : ExtOp) : Statement (.jmp x) := fun _ w ws h => encodeExt_op 0x42 x (by decide) w ws h
theorem calli (x : ExtOp) : Statement (.calli x) := fun _ w ws h => encodeExt_op 0x44 x (by decide) w ws h
theorem ret (x : ExtOp) : Statement (.ret x) := fun _ w ws h => encodeExt_op 0x45 x (by decide) w ws h
theorem land : Statement .land := by
  intro _ v ws h
  have e := List.cons.inj h
  rw [← e.1]; decide
theorem reform (x : ExtOp) : Statement (.reform x) := fun _ w ws h => encodeExt_op 0x47 x (by decide) w ws h
theorem exit (x : ExtOp) : Statement (.exit x) := fun _ w ws h => encodeExt_op 0x48 x (by decide) w ws h
theorem trap (x : ExtOp) : Statement (.trap x) := fun _ w ws h => encodeExt_op 0x49 x (by decide) w ws h
theorem nop : Statement .nop := by
  intro _ v ws h
  have e := List.cons.inj h
  rw [← e.1]; decide
theorem nopExt (x : ExtOp) : Statement (.nopExt x) := fun _ w ws h => encodeExt_op 0x4A x (by decide) w ws h
theorem bbc (x : ExtOp) : Statement (.bbc x) := fun _ w ws h => encodeExt_op 0x4B x (by decide) w ws h
theorem ld (d : Dst) (a : Fin 128) (off : BitVec 7) : Statement (.ld d a off) := fun _ v ws h => (List.cons.inj h).1 ▸ mkWord0_op _ _ _ _ _ _ 0 (by decide) (by decide)
theorem ldExt (x : ExtOp) : Statement (.ldExt x) := fun _ w ws h => encodeExt_op 0x50 x (by decide) w ws h
theorem st (data : Fin 128) (a : Fin 128) (off : BitVec 7) : Statement (.st data a off) := fun _ v ws h => (List.cons.inj h).1 ▸ mkWord0_op _ _ _ _ _ _ 0 (by decide) (by decide)
theorem stExt (x : ExtOp) : Statement (.stExt x) := fun _ w ws h => encodeExt_op 0x51 x (by decide) w ws h
theorem ldc (x : ExtOp) : Statement (.ldc x) := fun _ w ws h => encodeExt_op 0x52 x (by decide) w ws h
theorem prf (x : ExtOp) : Statement (.prf x) := fun _ w ws h => encodeExt_op 0x53 x (by decide) w ws h
theorem lock (x : ExtOp) : Statement (.lock x) := fun _ w ws h => encodeExt_op 0x54 x (by decide) w ws h
theorem unlock (x : ExtOp) : Statement (.unlock x) := fun _ w ws h => encodeExt_op 0x55 x (by decide) w ws h
theorem keyemit (x : ExtOp) : Statement (.keyemit x) := fun _ w ws h => encodeExt_op 0x56 x (by decide) w ws h
theorem span (x : ExtOp) : Statement (.span x) := fun _ w ws h => encodeExt_op 0x57 x (by decide) w ws h
theorem gredAdd (x : ExtOp) : Statement (.gredAdd x) := fun _ w ws h => encodeExt_op 0x58 x (by decide) w ws h
theorem gredRes (x : ExtOp) : Statement (.gredRes x) := fun _ w ws h => encodeExt_op 0x58 x (by decide) w ws h
theorem wback (x : ExtOp) : Statement (.wback x) := fun _ w ws h => encodeExt_op 0x59 x (by decide) w ws h
theorem atom (x : ExtOp) : Statement (.atom x) := fun _ w ws h => encodeExt_op 0x60 x (by decide) w ws h
theorem abegin (x : ExtOp) : Statement (.abegin x) := fun _ w ws h => encodeExt_op 0x61 x (by decide) w ws h
theorem acommit (x : ExtOp) : Statement (.acommit x) := fun _ w ws h => encodeExt_op 0x62 x (by decide) w ws h
theorem fence (x : ExtOp) : Statement (.fence x) := fun _ w ws h => encodeExt_op 0x63 x (by decide) w ws h
theorem fencex (x : ExtOp) : Statement (.fencex x) := fun _ w ws h => encodeExt_op 0x64 x (by decide) w ws h
theorem twait (x : ExtOp) : Statement (.twait x) := fun _ w ws h => encodeExt_op 0x65 x (by decide) w ws h
theorem barexp (x : ExtOp) : Statement (.barexp x) := fun _ w ws h => encodeExt_op 0x66 x (by decide) w ws h
theorem bararv (x : ExtOp) : Statement (.bararv x) := fun _ w ws h => encodeExt_op 0x67 x (by decide) w ws h
theorem tleave (x : ExtOp) : Statement (.tleave x) := fun _ w ws h => encodeExt_op 0x68 x (by decide) w ws h
theorem tsync (x : ExtOp) : Statement (.tsync x) := fun _ w ws h => encodeExt_op 0x69 x (by decide) w ws h
theorem xchg (x : ExtOp) : Statement (.xchg x) := fun _ w ws h => encodeExt_op 0x6A x (by decide) w ws h
theorem xshf (x : ExtOp) : Statement (.xshf x) := fun _ w ws h => encodeExt_op 0x6B x (by decide) w ws h
theorem xvote (x : ExtOp) : Statement (.xvote x) := fun _ w ws h => encodeExt_op 0x6C x (by decide) w ws h
theorem xred (x : ExtOp) : Statement (.xred x) := fun _ w ws h => encodeExt_op 0x6D x (by decide) w ws h
theorem chctl (x : ExtOp) : Statement (.chctl x) := fun _ w ws h => encodeExt_op 0x6E x (by decide) w ws h
theorem mma (x : ExtOp) : Statement (.mma x) := fun _ w ws h => encodeExt_op 0x70 x (by decide) w ws h
theorem neval (x : ExtOp) : Statement (.neval x) := fun _ w ws h => encodeExt_op 0x71 x (by decide) w ws h
theorem copy (x : ExtOp) : Statement (.copy x) := fun _ w ws h => encodeExt_op 0x72 x (by decide) w ws h
theorem sort (x : ExtOp) : Statement (.sort x) := fun _ w ws h => encodeExt_op 0x73 x (by decide) w ws h
theorem coll (x : ExtOp) : Statement (.coll x) := fun _ w ws h => encodeExt_op 0x74 x (by decide) w ws h
theorem emit (x : ExtOp) : Statement (.emit x) := fun _ w ws h => encodeExt_op 0x75 x (by decide) w ws h
theorem spawn (x : ExtOp) : Statement (.spawn x) := fun _ w ws h => encodeExt_op 0x76 x (by decide) w ws h
theorem csrr (x : ExtOp) : Statement (.csrr x) := fun _ w ws h => encodeExt_op 0x77 x (by decide) w ws h
theorem csrw (x : ExtOp) : Statement (.csrw x) := fun _ w ws h => encodeExt_op 0x78 x (by decide) w ws h
theorem eret (x : ExtOp) : Statement (.eret x) := fun _ w ws h => encodeExt_op 0x79 x (by decide) w ws h
theorem sysc (x : ExtOp) : Statement (.sysc x) := fun _ w ws h => encodeExt_op 0x7A x (by decide) w ws h
theorem dbgBrk (x : ExtOp) : Statement (.dbgBrk x) := fun _ w ws h => encodeExt_op 0x7B x (by decide) w ws h
theorem dbgTag (x : ExtOp) : Statement (.dbgTag x) := fun _ w ws h => encodeExt_op 0x7B x (by decide) w ws h
theorem plogonRemoteAccess (a : RemoteAccess) : Statement (.plogonRemoteAccess a) := fun _ w ws h => absurd h.symm (List.cons_ne_nil w ws)
theorem readLeaseExpiry (core : Fin 192) (line : Nat) : Statement (.readLeaseExpiry core line) := fun _ w ws h => absurd h.symm (List.cons_ne_nil w ws)
theorem hostPortTraining (rate : Nat) (width : Nat) (flit : Bool) : Statement (.hostPortTraining rate width flit) := fun _ w ws h => absurd h.symm (List.cons_ne_nil w ws)

end OpcodeField

end Sys2Proof.Laws
end

