-- ==== Sys2Proof/Tests/Slice0.lean ====
section
/-! SUPPORT. The tests: what the checks of well-formedness refuse, words of the spec's encodings with the instructions that
they stand for, and for each statement a state that meets its hypotheses, clause by clause, with what then happens there. -/

namespace Sys2Proof.Tests
open Sys2Proof Sys2Proof.Machine
set_option Elab.async false
set_option linter.unusedVariables false

/-! ## Words and instructions (R73 to R79, R93)

The words are put together from the field tables of R73 to R76 and the opcode map of R93. -/

/-- An extended form with the unconditional guard whose fields are registers. -/
def X (d a b c : Fin 128) (func : BitVec 6) (mod : BitVec 5) (imm : BitVec 32) : ExtOp :=
  ⟨.always, false, .reg d, .reg a false, .src (.reg b false), .reg c false, func, mod, imm⟩

theorem test_decode_alone :
    decode [0x00000118] = .ok .land ∧ decode [0x00000128] = .ok .nop ∧ decode [0xFFFFFE01] = .ok (.ill 0xFFFFFE01) := by decide +kernel

theorem test_decode_integer_base :
    decode [0x2D650404] = .ok (.add ⟨.reg 2, 101, .reg 90⟩) ∧
    decode [0x2CE60808] = .ok (.sub ⟨.reg 4, 102, .reg 89⟩) ∧
    decode [0x2C670C0C] = .ok (.mul ⟨.reg 6, 103, .reg 88⟩) ∧
    decode [0x2BE81010] = .ok (.mulh ⟨.reg 8, 104, .reg 87⟩) ∧
    decode [0x2B691418] = .ok (.and ⟨.reg 10, 105, .reg 86⟩) ∧
    decode [0x2AEA181C] = .ok (.or ⟨.reg 12, 106, .reg 85⟩) ∧
    decode [0x2A6B1C20] = .ok (.xor ⟨.reg 14, 107, .reg 84⟩) ∧
    decode [0x29EC2024] = .ok (.andn ⟨.reg 16, 108, .reg 83⟩) ∧
    decode [0x296D2428] = .ok (.shl ⟨.reg 18, 109, .reg 82⟩) ∧
    decode [0x28EE282C] = .ok (.shr ⟨.reg 20, 110, .reg 81⟩) := by decide +kernel

theorem test_decode_integer_base_more :
    decode [0x286F2C30] = .ok (.sar ⟨.reg 22, 111, .reg 80⟩) ∧
    decode [0x27F03034] = .ok (.rot ⟨.reg 24, 112, .reg 79⟩) ∧
    decode [0x27713438] = .ok (.min ⟨.reg 26, 113, .reg 78⟩) ∧
    decode [0x26F2383C] = .ok (.max ⟨.reg 28, 114, .reg 77⟩) ∧
    decode [0x00733C60] = .ok (.mov ⟨.reg 30, 115, .reg 0⟩) ∧
    decode [0x2C644068] = .ok (.lea ⟨.reg 32, 100, .reg 88⟩) ∧
    decode [0x2C64446C] = .ok (.addq ⟨.reg 34, 100, .reg 88⟩) ∧
    decode [0x2C644870] = .ok (.mulw ⟨.reg 36, 100, .reg 88⟩) ∧
    decode [0x24774C74] = .ok (.div ⟨.reg 38, 119, .reg 72⟩) ∧
    decode [0x23F85078] = .ok (.rem ⟨.reg 40, 120, .reg 71⟩) := by decide +kernel

theorem test_decode_integer_ext :
    decode [0x807C0805, 0x010E0000, 0xFFFFFFF0] = .ok (.addExt { X 4 124 0 0 8 0 0xFFFFFFF0 with b := .imm }) ∧
    decode [0x06781009, 0x020E0000, 0x00000000] = .ok (.subExt (X 8 120 12 0 16 0 0)) ∧
    decode [0x0874180D, 0x000E0000, 0x00000000] = .ok (.mulExt (X 12 116 16 0 0 0 0)) ∧
    decode [0x0A702011, 0x008E0000, 0x00000000] = .ok (.mulhExt (X 16 112 20 0 4 0 0)) ∧
    decode [0x0C6C2819, 0x002E0000, 0x00000000] = .ok (.andExt (X 20 108 24 0 1 0 0)) ∧
    decode [0x0E68301D, 0x004E0000, 0x00000000] = .ok (.orExt (X 24 104 28 0 2 0 0)) ∧
    decode [0x10643821, 0x000E0000, 0x00000000] = .ok (.xorExt (X 28 100 32 0 0 0 0)) ∧
    decode [0x12604025, 0x002E0000, 0x00000000] = .ok (.andnExt (X 32 96 36 0 1 0 0)) ∧
    decode [0x805C4829, 0x000E0000, 0xFFFFFFF8] = .ok (.shlExt { X 36 92 0 0 0 0 0xFFFFFFF8 with b := .imm }) ∧
    decode [0x1658502D, 0x000E0000, 0x00000000] = .ok (.shrExt (X 40 88 44 0 0 0 0)) := by decide +kernel

theorem test_decode_integer_ext_more :
    decode [0x18545831, 0x000E0000, 0x00000000] = .ok (.sarExt (X 44 84 48 0 0 0 0)) ∧
    decode [0x1A506035, 0x000E0000, 0x00000000] = .ok (.rotExt (X 48 80 52 0 0 0 0)) ∧
    decode [0x1C4C6839, 0x008E0000, 0x00000000] = .ok (.minExt (X 52 76 56 0 4 0 0)) ∧
    decode [0x1E48703D, 0x000E0000, 0x00000000] = .ok (.maxExt (X 56 72 60 0 0 0 0)) ∧
    decode [0x00447861, 0x004E0000, 0x00000000] = .ok (.movExt (X 60 68 0 0 2 0 0)) ∧
    decode [0x80408069, 0x00EE0000, 0xFFFFFFFF] = .ok (.leaExt { X 64 64 0 0 7 0 0xFFFFFFFF with b := .imm }) ∧
    decode [0x243C886D, 0x000E0000, 0x00000000] = .ok (.addqExt (X 68 60 72 0 0 0 0)) ∧
    decode [0x26389071, 0x008E0000, 0x00000000] = .ok (.mulwExt (X 72 56 76 0 4 0 0)) ∧
    decode [0x80349875, 0x008E0000, 0x100000002] = .ok (.divExt { X 76 52 0 0 4 0 0x100000002 with b := .imm }) ∧
    decode [0x2A30A079, 0x000E0000, 0x00000000] = .ok (.remExt (X 80 48 84 0 0 0 0)) := by decide +kernel

theorem test_decode_integer_rest :
    decode [0x03860A15, 0x010E0008, 0x00000000] = .ok (.mad (X 5 6 7 8 8 0 0)) ∧
    decode [0x000A1241, 0x010E0000, 0x00000000] = .ok (.abs (X 9 10 0 0 8 0 0)) ∧
    decode [0x000C1645, 0x002E0000, 0x00000000] = .ok (.clz (X 11 12 0 0 1 0 0)) ∧
    decode [0x000F1A49, 0x000E0000, 0x00000000] = .ok (.popc (X 13 15 0 0 0 0 0)) ∧
    decode [0x0012204D, 0x002E0000, 0x00000000] = .ok (.brev (X 16 18 0 0 1 0 0)) ∧
    decode [0x80142651, 0x008E0000, 0x00000305] = .ok (.bfx { X 19 20 0 0 4 0 773 with b := .imm }) ∧
    decode [0x0B962A55, 0x000E0018, 0x00000000] = .ok (.bfi (X 21 22 23 24 0 0 0)) ∧
    decode [0x12203859, 0x004E0005, 0x00000000] = .ok (.sel (X 28 32 36 5 2 0 0)) ∧
    decode [0x15280C5D, 0x03AE0000, 0x00000000] = .ok (.cmp (X 6 40 42 0 29 0 0)) ∧
    decode [0x80003265, 0x010E0000, 0x80000000] = .ok (.movi { X 25 0 0 0 8 0 0x80000000 with b := .imm }) ∧
    decode [0x0284067D, 0x010E0000, 0x00000000] = .ok (.pmov (X 3 4 5 0 8 0 0)) := by decide +kernel

theorem test_decode_float_base :
    decode [0x3FB20280] = .ok (.fadd ⟨.reg 1, 50, .reg 127⟩) ∧
    decode [0x3F330484] = .ok (.fsub ⟨.reg 2, 51, .reg 126⟩) ∧
    decode [0x3EB40688] = .ok (.fmul ⟨.reg 3, 52, .reg 125⟩) ∧
    decode [0x3E350890] = .ok (.fmin ⟨.reg 4, 53, .reg 124⟩) ∧
    decode [0x3DB60A94] = .ok (.fmax ⟨.reg 5, 54, .reg 123⟩) ∧
    decode [0x3D370CC0] = .ok (.hadd2 ⟨.reg 6, 55, .reg 122⟩) ∧
    decode [0x3CB80EC4] = .ok (.hmul2 ⟨.reg 7, 56, .reg 121⟩) ∧
    decode [0x3C3910D8] = .ok (.radd ⟨.reg 8, 57, .reg 120⟩) ∧
    decode [0x3BBA12DC] = .ok (.rmul ⟨.reg 9, 58, .reg 119⟩) := by decide +kernel

theorem test_decode_float_ext :
    decode [0x3ABC1681, 0x08CE0000, 0x00000000] = .ok (.faddExt (X 11 60 117 0 6 1 0)) ∧
    decode [0x3A3D1885, 0x112E0000, 0x00000000] = .ok (.fsubExt (X 12 61 116 0 9 2 0)) ∧
    decode [0x39BE1A89, 0x19EE0000, 0x00000000] = .ok (.fmulExt (X 13 62 115 0 15 3 0)) ∧
    decode [0x393F1C91, 0x002E0000, 0x00000000] = .ok (.fminExt (X 14 63 114 0 1 0 0)) ∧
    decode [0x38C01E95, 0x010E0000, 0x00000000] = .ok (.fmaxExt (X 15 64 113 0 8 0 0)) ∧
    decode [0x384120C1, 0x20EE0000, 0x00000000] = .ok (.hadd2Ext (X 16 65 112 0 7 4 0)) ∧
    decode [0x37C222C5, 0x002E0000, 0x00000000] = .ok (.hmul2Ext (X 17 66 111 0 1 0 0)) ∧
    decode [0x374324D9, 0x000E0000, 0x00000000] = .ok (.raddExt (X 18 67 110 0 0 0 0)) ∧
    decode [0x36C426DD, 0x000E0000, 0x00000000] = .ok (.rmulExt (X 19 68 109 0 0 0 0)) := by decide +kernel

theorem test_decode_float_three :
    decode [0x0182028D, 0x26AE0004, 0x00000000] = .ok (.ffma (X 1 2 3 4 53 4 0)) ∧
    decode [0x03860AE1, 0x042E0008, 0x00000000] = .ok (.nmsel (X 5 6 7 8 33 0 0)) ∧
    decode [0x058A12C9, 0x092E000C, 0x00000000] = .ok (.hfma2 (X 9 10 11 12 9 1 0)) ∧
    decode [0x078E1AD1, 0x10CE0010, 0x00000000] = .ok (.hdot2 (X 13 14 15 16 6 2 0)) ∧
    decode [0x09110A99, 0x00CE0000, 0x00000000] = .ok (.fcmp (X 5 17 18 0 6 0 0)) ∧
    decode [0x001426A1, 0x152E0000, 0x00000000] = .ok (.fcvt (X 19 20 0 0 41 2 0)) ∧
    decode [0x00162ACD, 0x000E0000, 0x00000000] = .ok (.fclass (X 21 22 0 0 0 0 0)) ∧
    decode [0x00182ED5, 0x004E0000, 0x00000000] = .ok (.rcvt (X 23 24 0 0 2 0 0)) := by decide +kernel

theorem test_decode_float_one :
    decode [0x00283C9D, 0x000E0000, 0x00000000] = .ok (.frnd (X 30 40 0 0 0 0 0)) ∧
    decode [0x00293EA5, 0x082E0000, 0x00000000] = .ok (.frcp (X 31 41 0 0 1 1 0)) ∧
    decode [0x002A40A9, 0x104E0000, 0x00000000] = .ok (.frsq (X 32 42 0 0 2 2 0)) ∧
    decode [0x002B42AD, 0x186E0000, 0x00000000] = .ok (.fsqrt (X 33 43 0 0 3 3 0)) ∧
    decode [0x002C44B1, 0x200E0000, 0x00000000] = .ok (.fex2 (X 34 44 0 0 0 4 0)) ∧
    decode [0x002D46B5, 0x002E0000, 0x00000000] = .ok (.flg2 (X 35 45 0 0 1 0 0)) ∧
    decode [0x002E48B9, 0x084E0000, 0x00000000] = .ok (.fsin (X 36 46 0 0 2 1 0)) ∧
    decode [0x002F4ABD, 0x106E0000, 0x00000000] = .ok (.fcos (X 37 47 0 0 3 2 0)) := by decide +kernel

theorem test_decode_control :
    decode [0xFFFFFB00] = .ok (.bra (-3)) ∧
    decode [0x7FFFFF0C] = .ok (.call 0x3FFFFF) ∧
    decode [0xFFFF7704] = .ok (.brc (-5) true 3) ∧
    decode [0x00000101, 0x000E0000, 0xFFFFFFFE] = .ok (.braExt (X 0 0 0 0 0 0 0xFFFFFFFE)) ∧
    decode [0x0000010D, 0x000E0000, 0x00000009] = .ok (.callExt (X 0 0 0 0 0 0 9)) ∧
    decode [0x00001B05, 0x000E0000, 0x00000007] = .ok (.brcExt (X 13 0 0 0 0 0 7)) ∧
    decode [0x00080109, 0x000E0000, 0xFFFFFFFC] = .ok (.jmp (X 0 8 0 0 0 0 0xFFFFFFFC)) ∧
    decode [0x000A0111, 0x000E0000, 0x00000004] = .ok (.calli (X 0 10 0 0 0 0 4)) ∧
    decode [0x00000115, 0x000E0000, 0x00000000] = .ok (.ret (X 0 0 0 0 0 0 0)) ∧
    decode [0x0000011D, 0x000E0000, 0x000001FF] = .ok (.reform (X 0 0 0 0 0 0 511)) ∧
    decode [0x00000121, 0x000E0000, 0x00000000] = .ok (.exit (X 0 0 0 0 0 0 0)) ∧
    decode [0x00000125, 0x000E0000, 0x0000FFFF] = .ok (.trap (X 0 0 0 0 0 0 0x0000FFFF)) ∧
    decode [0x00000129, 0x000E0000, 0x00000000] = .ok (.nopExt (X 0 0 0 0 0 0 0)) ∧
    decode [0x0000012D, 0x000E0000, 0x000000FF] = .ok (.bbc (X 0 0 0 0 0 0 255)) := by decide +kernel

theorem test_decode_memory :
    decode [0xA00C0F40] = .ok (.ld (.reg 7) 12 (-64)) ∧
    decode [0x9F8E1344] = .ok (.st 9 14 63) ∧
    decode [0x00122141, 0x6A6E0000, 0xFFFFFFF8] = .ok (.ldExt (X 16 18 0 0 19 13 0xFFFFFFF8)) ∧
    decode [0x0C140145, 0xBC8E0000, 0x00000010] = .ok (.stExt (X 0 20 24 0 36 23 16)) ∧
    decode [0x00003549, 0x006E0000, 0x00000FF8] = .ok (.ldc (X 26 0 0 0 3 0 0x00000FF8)) ∧
    decode [0x001C014D, 0x140E0000, 0x00000080] = .ok (.prf (X 0 28 0 0 32 2 128)) ∧
    decode [0x001E3B51, 0x000E0000, 0x00000080] = .ok (.lock (X 29 30 0 0 0 0 128)) ∧
    decode [0x00203F55, 0x000E0000, 0x00000100] = .ok (.unlock (X 31 32 0 0 0 0 256)) ∧
    decode [0x12220159, 0x000E0000, 0x00000008] = .ok (.keyemit (X 0 34 36 0 0 0 8)) ∧
    decode [0x00284D5D, 0x000E0000, 0x00000010] = .ok (.span (X 38 40 0 0 0 0 16)) ∧
    decode [0x162A0161, 0x100E0000, 0x00000020] = .ok (.gredAdd (X 0 42 44 0 0 2 32)) ∧
    decode [0x00305D61, 0x202E0000, 0x00000030] = .ok (.gredRes (X 46 48 0 0 1 4 48)) ∧
    decode [0x00320165, 0x280E0000, 0x00000040] = .ok (.wback (X 0 50 0 0 0 5 64)) := by decide +kernel

theorem test_decode_atomic :
    decode [0x1C366981, 0xD32E003A, 0x00000008] = .ok (.atom (X 52 54 56 58 25 26 8)) ∧
    decode [0x003C0185, 0x000E0000, 0x00000080] = .ok (.abegin (X 0 60 0 0 0 0 128)) ∧
    decode [0x00000D89, 0x000E0000, 0x00000000] = .ok (.acommit (X 6 0 0 0 0 0 0)) ∧
    decode [0x0000018D, 0xF80E0000, 0x00000000] = .ok (.fence (X 0 0 0 0 0 31 0)) ∧
    decode [0x00000191, 0x8A2E0000, 0x00000000] = .ok (.fencex (X 0 0 0 0 17 17 0)) ∧
    decode [0x203E0B95, 0x5D8E0000, 0xFFFFFFFF] = .ok (.twait (X 5 62 64 0 44 11 0xFFFFFFFF)) ∧
    decode [0x80420199, 0x000E0000, 0xFFFFFFFF] = .ok (.barexp { X 0 66 0 0 0 0 0xFFFFFFFF with b := .imm }) ∧
    decode [0x2344019D, 0x900E0000, 0x00000000] = .ok (.bararv (X 0 68 70 0 0 18 0)) := by decide +kernel

theorem test_decode_team :
    decode [0x000001A1, 0x000E0000, 0x00000000] = .ok (.tleave (X 0 0 0 0 0 0 0)) ∧
    decode [0x000001A5, 0x000E0000, 0x00000000] = .ok (.tsync (X 0 0 0 0 0 0 0)) ∧
    decode [0x004A91A9, 0x002E004C, 0x0000003F] = .ok (.xchg (X 72 74 0 76 1 0 63)) ∧
    decode [0x27CE9BAD, 0x000E0050, 0x00000000] = .ok (.xshf (X 77 78 79 80 0 0 0)) ∧
    decode [0x0007A5B1, 0x004E0000, 0x00000000] = .ok (.xvote (X 82 7 0 0 2 0 0)) ∧
    decode [0x0054A7B5, 0x014E0055, 0x00000000] = .ok (.xred (X 83 84 0 85 10 0 0)) ∧
    decode [0x801FADB9, 0x004E0000, 0x00000001] = .ok (.chctl { X 86 31 0 0 2 0 1 with b := .imm }) := by decide +kernel

theorem test_decode_engine :
    decode [0x005AB1C1, 0x000E0000, 0x00000000] = .ok (.mma (X 88 90 0 0 0 0 0)) ∧
    decode [0x005DB7C5, 0x000E0000, 0x0000003F] = .ok (.neval (X 91 93 0 0 0 0 63)) ∧
    decode [0x0060BDC9, 0x000E0000, 0x00000000] = .ok (.copy (X 94 96 0 0 0 0 0)) ∧
    decode [0x0064C5CD, 0x000E0000, 0x00000000] = .ok (.sort (X 98 100 0 0 0 0 0)) ∧
    decode [0x0068CDD1, 0x000E0000, 0x00000000] = .ok (.coll (X 102 104 0 0 0 0 0)) ∧
    decode [0x006A01D5, 0x000E0000, 0x0000FFFF] = .ok (.emit (X 0 106 0 0 0 0 0x0000FFFF)) ∧
    decode [0x006ED9D9, 0x008E0070, 0x00000000] = .ok (.spawn (X 108 110 0 112 4 0 0)) ∧
    decode [0x0000E5DD, 0x000E0000, 0x00000010] = .ok (.csrr (X 114 0 0 0 0 0 16)) ∧
    decode [0x007501E1, 0x000E0000, 0x00000020] = .ok (.csrw (X 0 117 0 0 0 0 32)) ∧
    decode [0x000001E5, 0x000E0000, 0x00000000] = .ok (.eret (X 0 0 0 0 0 0 0)) ∧
    decode [0x000001E9, 0x000E0000, 0x0000ABCD] = .ok (.sysc (X 0 0 0 0 0 0 0x0000ABCD)) ∧
    decode [0x000001ED, 0x000E0000, 0x00000000] = .ok (.dbgBrk (X 0 0 0 0 0 0 0)) ∧
    decode [0x000001ED, 0x002E0000, 0x00001234] = .ok (.dbgTag (X 0 0 0 0 1 0 0x00001234)) := by decide +kernel

theorem test_decode_operand_fields :
    decode [0x4F020005, 0x00140480, 0x00000000] = .ok (.addExt { X 0 0 0 0 0 0 0 with guard := ⟨2, true⟩, d := .latchOnly, a := .latch 2, b := .src (.pop 30) }) ∧
    decode [0x41853E05, 0x000F2600, 0x00000000] = .ok (.addExt { X 0 0 0 0 0 0 0 with d := .push 31 true, a := .reg 5 true, b := .src (.peek 3) }) ∧
    decode [0x00050807, 0x000E0000, 0x00000000, 0x89ABCDEF, 0x01234567] = .ok (.addExt { X 4 5 0 0 0 0 0 with b := .lit 0x0123456789ABCDEF }) ∧
    decode [0x00050806, 0x89ABCDEF, 0x01234567] = .ok (.addExt { X 4 5 0 0 0 0 0 with baseLit := true, b := .lit 0x0123456789ABCDEF }) ∧
    decode [0xBF850804] = .ok (.add ⟨.reg 4, 5, .imm (-1)⟩) ∧
    decode [0x43050004] = .ok (.add ⟨.latchOnly, 5, .reg 6⟩) ∧
    decode [0x03050815, 0x000E4803, 0x00000000] = .ok (.mad { X 4 5 6 0 0 0 0 with b := .src (.reg 6 true), c := .latch 3 }) := by decide +kernel

/-- One word for each check of R94: reserved op, no base form, odd pair, quad not a multiple of 4, unused imm32, unused field c, field b with I, latch 4, S 11, N with a register, condition 110, predicate 8, rounding 101, integer to integer, L 10 of a branch, LAND extended, base LD with I 0, release on a load, signed word load, acquire on a store, I in a memory class, a channel as an address, fadd of 8 bytes, plain FENCE, TWAIT with an immediate, team result to the latch, channel 32, token to the latch, five dependences, unlisted CSR, DBG func 2, NOP with a field. -/
theorem test_decode_refuses :
    decode [0x00000130] = .illegalOpcode ∧
    decode [0x00000014] = .illegalField ∧
    decode [0x0304066C] = .illegalField ∧
    decode [0x06080C19, 0x004E0000, 0x00000000] = .illegalField ∧
    decode [0x03050805, 0x000E0000, 0x00000001] = .illegalField ∧
    decode [0x03050805, 0x000E0001, 0x00000000] = .illegalField ∧
    decode [0x83050805, 0x000E0000, 0x00000000] = .illegalField ∧
    decode [0x00040805, 0x000E0080, 0x00000000] = .illegalField ∧
    decode [0x03050805, 0x030E0000, 0x00000000] = .illegalField ∧
    decode [0x43050205, 0x000E0000, 0x00000000] = .illegalField ∧
    decode [0x0305085D, 0x00CE0000, 0x00000000] = .illegalField ∧
    decode [0x0305105D, 0x000E0000, 0x00000000] = .illegalField ∧
    decode [0x03050881, 0x280E0000, 0x00000000] = .illegalField ∧
    decode [0x000508A1, 0x05CE0000, 0x00000000] = .illegalField ∧
    decode [0x00000102, 0x00000000, 0x00000000] = .illegalField ∧
    decode [0x00000119, 0x000E0000, 0x00000000] = .illegalField ∧
    decode [0x00860940] = .illegalField ∧
    decode [0x00060941, 0x804E0000, 0x00000000] = .illegalField ∧
    decode [0x00060941, 0x014E0000, 0x00000000] = .illegalField ∧
    decode [0x02060145, 0x404E0000, 0x00000000] = .illegalField ∧
    decode [0x80060941, 0x004E0000, 0x00000000] = .illegalField ∧
    decode [0x00060941, 0x004E0100, 0x00000000] = .illegalField ∧
    decode [0x04060981, 0x034E0000, 0x00000000] = .illegalField ∧
    decode [0x0000018D, 0x000E0000, 0x00000000] = .illegalField ∧
    decode [0x80060995, 0x000E0000, 0x00000005] = .illegalField ∧
    decode [0x400601A9, 0x000E0000, 0x00000001] = .illegalField ∧
    decode [0x002009B9, 0x000E0000, 0x00000000] = .illegalField ∧
    decode [0x400601C1, 0x000E0000, 0x00000000] = .illegalField ∧
    decode [0x000609D9, 0x00AE0000, 0x00000000] = .illegalField ∧
    decode [0x000009DD, 0x000E0000, 0x00000012] = .illegalField ∧
    decode [0x000001ED, 0x004E0000, 0x00000000] = .illegalField ∧
    decode [0x00000328] = .illegalField := by decide +kernel
/-! ## Well-formedness: one ill-formed term for each check -/

theorem test_wf_refuses_operands :
    [Instr.addExt (X 4 5 6 1 0 0 0), .addExt (X 4 5 6 0 0 0 1), .abs (X 4 5 6 0 0 0 0), .addqExt (X 3 4 6 0 0 0 0),
      .addqExt (X 4 3 6 0 0 0 0), .addqExt (X 4 6 3 0 0 0 0), .andExt (X 6 8 12 0 2 0 0), .cmp (X 8 5 6 0 0 0 0), .sel (X 4 5 6 8 0 0 0),
      .brcExt (X 16 0 0 0 0 0 0), .chctl (X 4 32 0 0 0 0 0), .mma (X 3 4 0 0 0 0 0), .ret (X 1 0 0 0 0 0 0), .ret (X 0 1 0 0 0 0 0),
      .addExt { X 4 5 6 0 0 0 0 with baseLit := true }, .mad { X 4 5 0 0 0 0 0 with baseLit := true, b := .lit 1 },
      .mma { X 0 4 0 0 0 0 0 with d := .latchOnly }, .mma { X 0 4 0 0 0 0 0 with d := .push 1 true }, .xchg { X 0 4 0 6 0 0 1 with d := .latchOnly },
      .ldExt { X 4 0 0 0 2 0 0 with a := .pop 1 }, .ldExt { X 4 6 0 0 2 0 0 with b := .imm }, .ldExt { X 4 6 0 0 2 0 0 with b := .lit 1 },
      .twait { X 4 6 0 0 0 0 0 with b := .imm }, .pmov { X 1 0 0 0 0 0 0 with a := .latch 1 }, .neval { X 0 0 0 0 0 0 0 with d := .latchOnly },
      .add ⟨.push 1 false, 4, .reg 5⟩, .ill 0x00000104, .ld (.push 1 false) 4 0].all (fun i => !i.wf) = true := by decide +kernel

theorem test_wf_refuses_integer_and_float :
    [Instr.addExt (X 4 5 6 0 24 0 0), .mulExt (X 4 5 6 0 1 0 0), .mulhExt (X 4 5 6 0 8 0 0), .mad (X 4 5 6 7 16 0 0), .andExt (X 4 4 4 0 3 0 0),
      .abs (X 4 5 0 0 16 0 0), .clz (X 4 4 0 0 2 0 0), .brev (X 4 4 0 0 2 0 0), .bfx (X 4 5 6 0 1 0 0), .bfi (X 4 5 6 7 1 0 0), .cmp (X 1 5 6 0 6 0 0),
      .movExt (X 4 4 0 0 3 0 0), .movi (X 4 0 0 0 0 0 0), .movi { X 4 0 0 0 8 0 0 with b := .lit 1 }, .leaExt (X 4 6 5 0 8 0 0),
      .addqExt (X 4 6 8 0 1 0 0), .mulwExt (X 4 5 6 0 1 0 0), .divExt (X 4 5 6 0 1 0 0), .pmov (X 1 2 3 0 48 0 0), .pmov (X 4 0 0 0 17 0 0),
      .faddExt (X 4 5 6 0 0 5 0), .faddExt (X 4 5 6 0 16 0 0), .ffma (X 4 5 6 7 0 8 0), .fminExt (X 4 5 6 0 0 1 0), .fcmp (X 1 5 6 0 8 0 0),
      .frnd (X 4 5 0 0 4 0 0), .fcvt (X 4 5 0 0 0 0 0), .fcvt (X 4 5 0 0 0b101110 0 0), .fcvt (X 4 5 0 0 7 0 0), .fclass (X 4 5 0 0 1 0 0),
      .nmsel (X 4 5 6 7 1 1 0), .hadd2Ext (X 4 5 6 0 8 0 0), .hfma2 (X 4 5 6 7 16 0 0), .rcvt (X 4 5 0 0 3 0 0),
      .raddExt (X 4 5 6 0 1 0 0)].all (fun i => !i.wf) = true := by decide +kernel

theorem test_wf_refuses_memory_and_system :
    [Instr.nopExt (X 0 0 0 0 0 1 0), .reform (X 0 0 0 0 0 0 512), .trap (X 0 0 0 0 0 0 0x10000), .bbc (X 0 0 0 0 0 0 256), .jmp (X 0 4 0 0 1 0 0),
      .ldExt (X 4 6 0 0 5 0 0), .ldExt (X 4 6 0 0 0b1010 0 0), .ldExt (X 4 6 0 0 2 0b10000 0), .stExt (X 0 6 4 0 0b110010 0 0), .stExt (X 0 6 4 0 2 0b01000 0),
      .stExt (X 0 6 4 0 0b1001 0 0), .ldc (X 4 0 0 0 4 0 0), .ldc (X 4 0 0 0 2 0 4096), .prf (X 0 4 0 0 48 0 0), .lock (X 4 6 0 0 1 0 0),
      .keyemit (X 0 4 6 0 0 0 4096), .span (X 5 6 0 0 0 0 0), .gredAdd (X 0 4 6 0 0 8 0), .gredRes (X 4 6 0 0 0 0 0), .wback (X 0 4 0 0 1 0 0),
      .atom (X 4 6 8 0 11 0 0), .atom (X 4 6 8 0 0b11010 0 0), .atom (X 4 6 8 0 32 0 0), .atom (X 4 6 8 1 0 0 0), .abegin (X 0 4 0 0 0 1 0), .acommit (X 9 0 0 0 0 0 0),
      .fence (X 0 0 0 0 0 0 0), .fencex (X 0 0 0 0 1 0 0), .fencex (X 0 0 0 0 7 8 0), .fencex (X 0 0 0 0 0 8 0), .twait (X 1 4 6 0 3 0 0), .twait (X 1 4 6 0 0b10000 0 0),
      .twait (X 1 4 6 0 0 16 0), .barexp (X 0 4 6 0 1 0 0), .tleave (X 0 0 0 0 0 0 1), .xchg (X 4 5 0 6 2 0 1), .xshf (X 4 5 6 7 0 0 1), .xvote (X 1 2 0 0 3 0 0),
      .xred (X 4 5 0 6 11 0 0), .chctl (X 4 5 0 0 3 0 0), .chctl (X 4 5 6 0 0 0 0), .mma (X 4 6 0 0 1 0 0), .neval (X 4 6 0 0 0 0 64), .emit (X 0 4 0 0 0 0 0x10000),
      .spawn (X 4 6 0 0 5 0 0), .spawn (X 4 6 0 8 0 0 0), .csrr (X 4 0 0 0 0 0 0x00C), .csrr (X 5 0 0 0 0 0 0x1000), .csrw (X 0 4 0 0 1 0 0x020),
      .eret (X 0 0 0 0 0 1 0), .sysc (X 0 0 0 0 0 0 0x10000), .dbgBrk (X 0 0 0 0 1 0 0), .dbgTag (X 0 0 0 0 1 0 0x10000), .dbgTag (X 0 0 0 0 0 0 0),
      .boot ⟨[], true, 0, 2, 0, 4194304, List.replicate 512 0, [0, 0, 0, 0], [true, true, true, true], List.replicate 12 true, [], 0⟩].all
      (fun i => !i.wf) = true := by decide +kernel

/-- A well-formed neighbour of some of them. -/
theorem test_wf_accepts :
    [Instr.addExt (X 4 5 6 0 16 0 0), .addqExt (X 4 6 8 0 0 0 0), .addExt { X 4 5 0 0 0 0 0 with baseLit := true, b := .lit 1 }, .sel (X 4 8 12 7 2 0 0),
      .mma { X 0 4 0 0 0 0 0 with d := .push 1 false }, .ldExt { X 4 6 0 0 0b110010 0 0 with b := .lit 1 }, .csrr (X 5 0 0 0 0 0 0x010),
      .twait { X 4 6 0 0 0b100000 0 0 with b := .lit 1 }].all Instr.wf = true := by decide +kernel

/-! ## One thread that is about to execute -/

/-- The state that `withFetchWord` makes, its one thread and its task changed. -/
def ready (f : Thread → Thread) (g : Task → Task) : State := (State.reset.withFetcher.modThread 0 f).modTask 0 g

/-- Registers by number. -/
def withRegs (l : List (Nat × Word)) (t : Thread) : Thread :=
  { t with regs := l.foldl (fun r e => writeRegs r e.1 e.2.toNat 1) t.regs }

/-- The thread with registers alone. -/
def regs (l : List (Nat × Word)) : State := ready (withRegs l) id

/-- Equality of the registers that a program sees. -/
def sameArch (a b : Arch) : Bool :=
  a.regs.toList == b.regs.toList && a.preds == b.preds && a.lk == b.lk && a.shadow == b.shadow && a.fmode == b.fmode && a.fflags == b.fflags && a.tag == b.tag && a.sup == b.sup && a.trec.toList == b.trec.toList && a.epc == b.epc && a.hact == b.hact && a.hscr.toList == b.hscr.toList && a.recAddr == b.recAddr

/-- Equality of threads, the vectors compared as lists. -/
def sameThread (a b : Thread) : Bool :=
  a.task == b.task && a.node == b.node && a.tid == b.tid && a.ntid == b.ntid && a.tsize == b.tsize &&
  a.core == b.core && a.part == b.part && a.slot == b.slot && a.regsN == b.regsN && a.recAddr == b.recAddr &&
  a.recSlot == b.recSlot && a.regs.toList == b.regs.toList && a.preds == b.preds && a.pc == b.pc && a.lk == b.lk &&
  a.shadow == b.shadow && a.shadowBad == b.shadowBad && a.latches == b.latches && a.fmode == b.fmode && a.fflags == b.fflags &&
  a.stack == b.stack && a.tag == b.tag && a.sup == b.sup && a.trec.toList == b.trec.toList && a.epc == b.epc &&
  a.hact == b.hact && a.hscr.toList == b.hscr.toList && a.region == b.region && a.pend == b.pend && a.badRegs == b.badRegs &&
  a.tcount == b.tcount && a.left == b.left && a.observed == b.observed && a.hostSeen == b.hostSeen && a.st == b.st && a.parkedAt == b.parkedAt &&
  a.parkNo == b.parkNo && a.stopReq == b.stopReq

/-- Equality of states. -/
def same (s u : State) : Bool :=
  s.threads.length == u.threads.length && (s.threads.zip u.threads).all (fun p => sameThread p.1 p.2) &&
  s.tasks == u.tasks && s.cmds == u.cmds && s.tiles == u.tiles && s.accs == u.accs && s.ntiles == u.ntiles && s.wcache == u.wcache &&
  s.power == u.power && s.mem == u.mem && s.front == u.front && s.win == u.win && s.pkg == u.pkg && s.time == u.time &&
  s.cycle == u.cycle && s.period == u.period && s.agenda == u.agenda && s.late == u.late && s.fill == u.fill && s.freeCtr == u.freeCtr && s.serial == u.serial

theorem sameThread_sound {a b : Thread} (h : sameThread a b = true) : a = b := by
  cases a; cases b
  simp only [sameThread, Bool.and_eq_true, beq_iff_eq, Vector.toList_inj] at h
  simp only [Thread.mk.injEq]
  simp only [h, and_self]
theorem same_sound {s u : State} (h : same s u = true) : s = u := by
  have key : ∀ l m : List Thread, l.length = m.length → (l.zip m).all (fun p => sameThread p.1 p.2) = true → l = m := by
    intro l
    induction l with
    | nil => intro m hl _; cases m with | nil => rfl | cons => cases hl
    | cons a l ih =>
      intro m hl ha
      cases m with
      | nil => cases hl
      | cons b m =>
        simp only [List.zip_cons_cons, List.all_cons, Bool.and_eq_true] at ha
        rw [sameThread_sound ha.1, ih m (Nat.succ.inj hl) ha.2]
  cases s; cases u
  simp only [same, Bool.and_eq_true, beq_iff_eq] at h
  simp only [State.mk.injEq]
  simp only [and_assoc] at h
  exact ⟨key _ _ h.1 h.2.1, h.2.2⟩

def after (i : Instr) (s : State) : State := match exec i s with | .next u => u | _ => s
def stepped (s : State) : State := match step s with | .next u => u | _ => s
def goes (o : Host.Outcome State Fault Refusal) (u : State) : Bool := match o with | .next v => same v u | _ => false
def th (s : State) (k : Nat) : Thread := s.threads.getD k (fetchThread 0)
def reg (s : State) (n : Nat) : Nat := ((th s 0).regs.getD n 0).toNat
def is {α : Type} [DecidableEq α] (r : Except TrapInfo α) (v : α) : Bool := match r with | .ok w => w = v | .error _ => false

/-- Nothing keeps thread 0 from the instruction, its operands can be read, and `P` holds of what the statements call t, c0,
cx and s1. -/
def meets (s : State) (i : Instr) (P : Thread → Ctx → Ctx → State → Bool) : Bool :=
  match s.threads[0]?, s.front.issue with
  | some t, some q =>
    q.left.head? = some 0 && i.wf && i.regsOk t.regsN && (privCheck i t).isNone && !(begun t).reports i && !(begun t).blocked i &&
      !i.regsRead.any (fun r => decide (r ∈ t.badRegs)) && guardOf t i.ext &&
      (match t.region with | none => !cmpOutside i t | some r => regionAllows i.opc i.ext && !i.regsRead.any (fun n => decide (n ∈ r.pending))) &&
      (match (ctxOf 0 t i).fetch with
        | .ok c0 => (c0.chanCheck (s.begin 0 t i)).isNone && (match c0.take (s.begin 0 t i) with | .ok (cx, s1) => P t c0 cx s1 | .error _ => false)
        | .error _ => false)
  | _, _ => false

/-- What `meets` says, in the statements' words. -/
theorem meets_sound {s : State} {i : Instr} {P : Thread → Ctx → Ctx → State → Bool} (h : meets s i P = true) :
    ∃ t c0 cx s1, s.runs 0 t i ∧ s.reads 0 t i c0 cx s1 ∧ P t c0 cx s1 = true := by
  unfold meets at h
  split at h
  · rename_i t q ht hq
    simp only [Bool.and_eq_true, decide_eq_true_eq, Bool.not_eq_true', Option.isNone_iff_eq_none] at h
    obtain ⟨⟨⟨⟨⟨⟨⟨⟨⟨h1, h2⟩, h3⟩, h4⟩, h5⟩, h6⟩, h7⟩, h8⟩, h9⟩, h10⟩ := h
    split at h10
    · rename_i c0 hf
      simp only [Bool.and_eq_true, Option.isNone_iff_eq_none] at h10
      obtain ⟨hc, h11⟩ := h10
      split at h11
      · rename_i cx s1 htk
        refine ⟨t, c0, cx, s1, ⟨⟨⟨ht, q, q.left.tail, hq, ?_⟩, h2, h3, h4, h5, h6, h7, ?_⟩, h8⟩, ⟨hf, hc, htk⟩, h11⟩
        · cases hl : q.left with
          | nil => rw [hl] at h1; cases h1
          | cons a l => rw [hl] at h1; simp only [List.head?_cons, Option.some.injEq] at h1; subst h1; rfl
        · cases hr : t.region with
          | none => rw [hr] at h9; exact .inl ⟨rfl, by simpa using h9⟩
          | some r =>
            rw [hr] at h9
            simp only [Bool.and_eq_true, Bool.not_eq_true'] at h9
            exact .inr ⟨r, rfl, h9.1, h9.2⟩
      · cases h11
    · cases h10
  · cases h

/-! ## The integer class -/

/-- Of `IntegerResults`: the hypotheses hold, the instruction completes as it says, and the destination then reads `v`. -/
def int (i : Instr) (l : List (Nat × Word)) (dst n v : Nat) : Bool :=
  meets (regs l) i (fun t _ cx s1 => match Spec.intResult i with
    | some f => goes (exec i (regs l)) (goesOn 0 t i (cx.dst s1 (f i.ext cx.va cx.vb cx.vc)))
    | none => false) && readRegs (th (after i (regs l)) 0).regs dst n = v

theorem test_add_sub :
    int (.add ⟨.reg 12, 4, .reg 5⟩) [(4, 0xFFFFFFFF), (5, 2)] 12 1 1 ∧ int (.add ⟨.reg 4, 4, .imm (-1)⟩) [] 4 1 0xFFFFFFFF ∧
    int (.addExt (X 12 4 5 0 8 0 0)) [(4, 0x7FFFFFFF), (5, 2)] 12 1 0x7FFFFFFF ∧ int (.addExt (X 12 4 5 0 16 0 0)) [(4, 0xFFFFFFFF), (5, 2)] 12 1 0xFFFFFFFF ∧
    int (.sub ⟨.reg 5, 4, .reg 5⟩) [(4, 1), (5, 2)] 5 1 0xFFFFFFFF ∧ int (.subExt (X 12 4 5 0 16 0 0)) [(4, 1), (5, 2)] 12 1 0 ∧
    int (.subExt (X 12 4 5 0 8 0 0)) [(4, 0x80000000), (5, 1)] 12 1 0x80000000 := by decide +kernel

theorem test_mul :
    int (.mul ⟨.reg 12, 4, .reg 4⟩) [(4, 0x10001)] 12 1 0x20001 ∧ int (.mulExt { X 12 4 0 0 0 0 3 with b := .imm }) [(4, 0x80000001)] 12 1 0x80000003 ∧
    int (.mulh ⟨.reg 12, 4, .imm (-1)⟩) [(4, 0xFFFFFFFF)] 12 1 0 ∧ int (.mulhExt (X 12 4 4 0 4 0 0)) [(4, 0xFFFFFFFF)] 12 1 0xFFFFFFFE ∧
    int (.mulw ⟨.reg 12, 4, .imm (-1)⟩) [(4, 5)] 12 2 0xFFFFFFFFFFFFFFFB ∧ int (.mulwExt (X 4 4 4 0 4 0 0)) [(4, 0xFFFFFFFF)] 4 2 0xFFFFFFFE00000001 ∧
    int (.mad (X 12 4 5 6 0 0 0)) [(4, 3), (5, 5), (6, 0xFFFFFFEC)] 12 1 0xFFFFFFFB ∧ int (.mad (X 12 4 4 6 8 0 0)) [(4, 0x10000)] 12 1 0x7FFFFFFF := by decide +kernel

theorem test_logic :
    int (.and ⟨.reg 12, 4, .reg 5⟩) [(4, 0xF0F0), (5, 0xFF00)] 12 1 0xF000 ∧ int (.andExt (X 12 4 6 0 1 0 0)) [(4, 7), (5, 6), (6, 5), (7, 3)] 12 2 0x0000000200000005 ∧
    int (.or ⟨.reg 12, 4, .imm (-64)⟩) [(4, 1)] 12 1 0xFFFFFFC1 ∧ int (.orExt (X 12 4 8 0 2 0 0)) [(4, 1), (7, 2), (11, 4)] 12 4 0x00000006000000000000000000000001 ∧
    int (.xor ⟨.reg 12, 4, .reg 4⟩) [(4, 9)] 12 1 0 ∧ int (.xorExt { X 12 4 0 0 1 0 (-1) with b := .imm }) [(4, 0xFF)] 12 2 0xFFFFFFFFFFFFFF00 ∧
    int (.andn ⟨.reg 12, 4, .reg 5⟩) [(4, 0xFF), (5, 0x0F)] 12 1 0xF0 ∧ int (.andnExt { X 12 4 0 0 0 0 0 with b := .lit 0x1111111100000001 }) [(4, 3)] 12 1 2 := by decide +kernel

theorem test_shifts :
    int (.shl ⟨.reg 12, 4, .reg 5⟩) [(4, 0xC0000001), (5, 33)] 12 1 0x80000002 ∧ int (.shlExt { X 12 4 0 0 0 0 32 with b := .imm }) [(4, 5)] 12 1 5 ∧
    int (.shr ⟨.reg 12, 4, .imm 31⟩) [(4, 0x80000000)] 12 1 1 ∧ int (.shrExt (X 12 4 5 0 0 0 0)) [(4, 0xFFFFFFFF), (5, 0x1C)] 12 1 0xF ∧
    int (.sar ⟨.reg 12, 4, .imm 31⟩) [(4, 0x80000000)] 12 1 0xFFFFFFFF ∧ int (.sarExt (X 12 4 5 0 0 0 0)) [(4, 0x40000000), (5, 30)] 12 1 1 ∧
    int (.rot ⟨.reg 12, 4, .imm 1⟩) [(4, 0x80000001)] 12 1 3 ∧ int (.rotExt (X 12 4 5 0 0 0 0)) [(4, 0x12345678), (5, 0)] 12 1 0x12345678 := by decide +kernel

theorem test_min_max_abs :
    int (.min ⟨.reg 12, 4, .reg 5⟩) [(4, 0xFFFFFFFF), (5, 1)] 12 1 0xFFFFFFFF ∧ int (.minExt (X 12 4 5 0 4 0 0)) [(4, 0xFFFFFFFF), (5, 1)] 12 1 1 ∧
    int (.max ⟨.reg 12, 4, .reg 5⟩) [(4, 0xFFFFFFFF), (5, 1)] 12 1 1 ∧ int (.maxExt (X 12 4 5 0 4 0 0)) [(4, 0xFFFFFFFF), (5, 1)] 12 1 0xFFFFFFFF ∧
    int (.abs (X 12 4 0 0 0 0 0)) [(4, 0x80000000)] 12 1 0x80000000 ∧ int (.abs (X 12 4 0 0 8 0 0)) [(4, 0x80000000)] 12 1 0x7FFFFFFF := by decide +kernel

theorem test_bit_counts_and_fields :
    int (.clz (X 12 4 0 0 0 0 0)) [] 12 1 32 ∧ int (.clz (X 12 4 0 0 1 0 0)) [(4, 5), (5, 1)] 12 1 31 ∧ int (.popc (X 12 4 0 0 1 0 0)) [(4, 0xF0F0F0F0), (5, 1)] 12 1 17 ∧
    int (.brev (X 12 4 0 0 0 0 0)) [(4, 0x80000002)] 12 1 0x40000001 ∧ int (.brev (X 12 4 0 0 1 0 0)) [(4, 1)] 12 2 0x8000000000000000 ∧
    int (.bfx (X 12 4 5 0 0 0 0)) [(4, 0xF80), (5, 0x804)] 12 1 0xFFFFFFF8 ∧ int (.bfx (X 12 4 5 0 4 0 0)) [(4, 0xF80), (5, 0x804)] 12 1 0xF8 ∧
    int (.bfx (X 12 4 5 0 0 0 0)) [(4, 0xFFFFFFFF), (5, 0x01F)] 12 1 0 ∧ int (.bfx (X 12 4 5 0 0 0 0)) [(4, 0x80000000), (5, 0x3F1F)] 12 1 0xFFFFFFFF ∧
    int (.bfi (X 12 4 5 6 0 0 0)) [(4, 0xFF), (5, 0x81C), (6, 0x01234567)] 12 1 0xF1234567 ∧ int (.bfi (X 12 4 5 6 0 0 0)) [(4, 0xFF), (5, 5), (6, 7)] 12 1 7 := by decide +kernel

theorem test_moves :
    int (.sel (X 12 4 8 7 2 0 0)) [(4, 1), (8, 2)] 12 4 1 ∧ int (.sel (X 12 4 8 3 0 0 0)) [(4, 1), (8, 2)] 12 1 2 ∧ int (.mov ⟨.reg 12, 4, .reg 0⟩) [(4, 77)] 12 1 77 ∧
    int (.movExt (X 12 4 0 0 2 0 0)) [(7, 1)] 12 4 0x00000001000000000000000000000000 ∧ int (.movi { X 12 0 0 0 1 0 (-2) with b := .imm }) [] 12 2 0xFFFFFFFFFFFFFFFE ∧
    int (.movi { X 12 0 0 0 9 0 (-2) with b := .imm }) [] 12 2 0xFFFFFFFE ∧ int (.movi { X 12 0 0 0 2 0 0 with b := .lit 0x8000000000000000 }) [] 12 4
      0xFFFFFFFFFFFFFFFF8000000000000000 := by decide +kernel

theorem test_addresses :
    int (.lea ⟨.reg 12, 4, .imm (-1)⟩) [(4, 0x100)] 12 2 0xFF ∧ int (.leaExt (X 12 4 6 0 3 0 0)) [(4, 0x100), (6, 0xFFFFFFFF)] 12 2 0xF8 ∧
    int (.leaExt (X 12 4 6 0 7 0 0)) [(4, 0x100), (6, 0xFFFFFFFF)] 12 2 0x8000000F8 ∧ int (.addq ⟨.reg 12, 4, .reg 6⟩) [(4, 0xFFFFFFFF), (6, 1)] 12 2 0x100000000 ∧
    int (.addqExt { X 4 4 0 0 0 0 0 with b := .lit 0x8000000000000000 }) [(5, 0x80000000)] 4 2 0 := by decide +kernel

theorem test_division :
    int (.div ⟨.reg 12, 4, .reg 5⟩) [(4, 0xFFFFFFF9), (5, 2)] 12 1 0xFFFFFFFD ∧ int (.div ⟨.reg 12, 4, .reg 5⟩) [(4, 0x80000000), (5, 0xFFFFFFFF)] 12 1 0x80000000 ∧
    int (.divExt (X 12 4 5 0 4 0 0)) [(4, 9)] 12 1 0xFFFFFFFF ∧ int (.divExt (X 12 4 5 0 4 0 0)) [(4, 0xFFFFFFF9), (5, 2)] 12 1 0x7FFFFFFC ∧
    int (.rem ⟨.reg 12, 4, .reg 5⟩) [(4, 0xFFFFFFF9), (5, 2)] 12 1 0xFFFFFFFF ∧ int (.rem ⟨.reg 12, 4, .reg 5⟩) [(4, 0x80000000), (5, 0xFFFFFFFF)] 12 1 0 ∧
    int (.remExt (X 12 4 5 0 4 0 0)) [(4, 9)] 12 1 9 := by decide +kernel

/-- Of `PredicateInstructions`. -/
def prd (i : Instr) (f : Thread → Thread) (want : Nat) : Bool :=
  let s := ready f id
  meets s i (fun t _ cx s1 => match i with
    | .cmp x => goes (exec i s) (goesOn 0 t i (cx.dstPred s1 (Spec.cmp x cx.va cx.vb)))
    | .pmov x =>
      if x.func.toNat / 16 % 4 = 0 then goes (exec i s) (goesOn 0 t i (cx.dstPred s1 (x.func.getLsbD (2 * cx.va.toNat + cx.vb.toNat))))
      else if x.func.toNat / 16 % 4 = 1 then goes (exec i s) (goesOn 0 t i (cx.dst s1 (BitVec.ofNat 128 (128 + t.preds.toNat))))
      else goes (exec i s) (goesOn 0 t i (s1.modThread 0 (fun u => { u with preds := cx.va.setWidth 7 })))
    | _ => false) && (th (after i s) 0).preds.toNat = want

theorem test_predicates :
    prd (.cmp (X 1 4 5 0 2 0 0)) (withRegs [(4, 0xFFFFFFFF)]) 2 ∧ prd (.cmp (X 1 4 5 0 10 0 0)) (withRegs [(4, 0xFFFFFFFF)]) 0 ∧
    prd (.cmp (X 2 4 6 0 0b11100 0 0)) (withRegs [(5, 1), (6, 0xFFFFFFFF)]) 4 ∧ prd (.cmp (X 7 4 5 0 0 0 0)) id 0 ∧
    prd (.pmov (X 3 0 7 0 0b0010 0 0)) id 8 ∧ prd (.pmov (X 3 7 0 0 0b0010 0 0)) (fun t => { t with preds := 9 }) 1 ∧
    prd (.pmov (X 12 0 0 0 16 0 0)) (fun t => { t with preds := 0x55 }) 0x55 ∧ prd (.pmov (X 0 4 0 0 32 0 0)) (withRegs [(4, 0xFFFFFF83)]) 3 ∧
    reg (after (.pmov (X 12 0 0 0 16 0 0)) (ready (fun t => { t with preds := 0x55 }) id)) 12 = 0xD5 := by decide +kernel

/-- `DestinationTakesResult` at the ends of its range: a quad that ends with v127, and a pair at v0. -/
theorem test_destinations :
    let s := regs [(123, 9), (2, 7)]
    let cx : Ctx → Ctx := id
    let c (d : Dst) (w : Cls) : Ctx := cx ⟨0, th s 0, .nop, { X 0 0 0 0 0 0 0 with d := d }, { d := .data w }, true, 0, 0, 0⟩
    let v : QWord := 0x00000004000000030000000200000001
    sameArch (th ((c (.reg 124) .o).dst s v) 0).arch ((th s 0).arch.write (.reg 124) .o v) ∧ readRegs (th ((c (.reg 124) .o).dst s v) 0).regs 124 4 = v.toNat ∧
    ((th ((c (.reg 124) .o).dst s v) 0).regs.getD 123 0) = 9 ∧ sameArch (th ((c (.reg 0) .q).dst s v) 0).arch ((th s 0).arch.write (.reg 0) .q v) ∧
    readRegs (th ((c (.reg 0) .q).dst s v) 0).regs 0 2 = 0x0000000200000001 ∧ ((th ((c (.reg 0) .q).dst s v) 0).regs.getD 2 0) = 7 ∧
    sameArch (th ((c .latchOnly .v).dst s v) 0).arch (th s 0).arch ∧ sameArch (th ((c (.push 3 false) .v).dst s v) 0).arch (th s 0).arch := by decide +kernel

/-! ## The float, paired-half and residue classes -/

/-- Of `FloatResults`: the hypotheses hold, the instruction completes as it says, and v12 and `$fflags` then read as given. -/
def flt (i : Instr) (l : List (Nat × Word)) (v fl : Nat) (fmode : BitVec 3 := 0) : Bool :=
  let s := ready (fun t => { withRegs l t with fmode := fmode }) id
  meets s i (fun t _ cx s1 => match Spec.floatResult i with
    | some f => goes (exec i s) (goesOn 0 t i ((cx.dst s1 (BitVec.ofNat 128 (f cx).1)).raise 0 (f cx).2))
    | none => false) && reg (after i s) 12 == v && (th (after i s) 0).fflags.toNat == fl

/-- The rows of R361 and of the table under R104, and a sum in thread mode RDN. -/
theorem test_float_arithmetic :
    flt (.fmulExt { X 12 4 0 0 0 0 0 with b := .lit 0x40000000 }) [(4, 0x7F7FFFFF)] 0x7F800000 20 ∧
    flt (.fmulExt { X 12 4 0 0 0 2 0 with b := .lit 0x40000000 }) [(4, 0x7F7FFFFF)] 0x7F7FFFFF 20 ∧
    flt (.fsubExt (X 12 4 4 0 0 4 0)) [(4, 0x3F800000)] 0x80000000 0 ∧ flt (.fsub ⟨.reg 12, 4, .reg 4⟩) [(4, 0x3F800000)] 0 0 ∧
    flt (.fsub ⟨.reg 12, 4, .reg 4⟩) [(4, 0x3F800000)] 0x80000000 0 3 ∧ flt (.faddExt (X 12 4 4 0 4 0 0)) [(4, 0x7F800000)] 0x7FC00000 1 ∧
    flt (.fadd ⟨.reg 12, 4, .reg 4⟩) [(4, 1)] 0 0 4 ∧ flt (.fmul ⟨.reg 12, 4, .reg 5⟩) [(4, 0x40400000), (5, 0x3F000000)] 0x3FC00000 0 ∧
    flt (.faddExt (X 12 4 5 0 0 3 0)) [(4, 0x3F800000), (5, 0x33800000)] 0x3F800001 16 ∧ flt (.faddExt (X 12 4 5 0 0b0101 4 0)) [(4, 0x3F800000), (5, 0x33800000)] 0xBF800001 16 ∧
    flt (.ffma (X 12 4 5 6 0 0 0)) [(4, 0x40000000), (5, 0x40400000), (6, 0x3F800000)] 0x40E00000 0 := by decide +kernel

/-- Rows of R370, R371, R113 and R365's formats. -/
theorem test_float_selection_and_conversion :
    flt (.fmin ⟨.reg 12, 4, .reg 5⟩) [(5, 0x80000000)] 0x80000000 0 ∧ flt (.fmax ⟨.reg 12, 4, .reg 5⟩) [(4, 0x80000000)] 0 0 ∧
    flt (.fminExt (X 12 4 5 0 0 0 0)) [(4, 0x7F800001), (5, 0x3F800000)] 0x3F800000 1 ∧ flt (.fmaxExt (X 12 4 5 0 0 0 0)) [(4, 1), (5, 0x80000002)] 0 0 4 ∧
    flt (.frnd (X 12 4 0 0 0 1 0)) [(4, 0x40200000)] 0x40000000 0 ∧ flt (.frnd (X 12 4 0 0 0 3 0)) [(4, 0xBE800000)] 0x80000000 0 ∧
    flt (.fcvt (X 12 4 0 0 0b011000 0 0)) [(4, 0x3F880000)] 0x38 16 ∧ flt (.fcvt (X 12 4 0 0 0b011000 0 0)) [(4, 0x43FA0000)] 0x7F 20 ∧
    flt (.fcvt (X 12 4 0 0 0b101000 2 0)) [(4, 0xBFC00000)] 0xFFFFFFFF 16 ∧ flt (.fcvt (X 12 4 0 0 0b000001 0 0)) [(4, 0x3C00)] 0x3F800000 0 := by decide +kernel

/-- Rows of R109, and exact values. -/
theorem test_float_functions :
    flt (.frcp (X 12 4 0 0 0 0 0)) [(4, 0x40800000)] 0x3E800000 0 ∧ flt (.frsq (X 12 4 0 0 0 0 0)) [(4, 0x40800000)] 0x3F000000 0 ∧
    flt (.fsqrt (X 12 4 0 0 0 0 0)) [(4, 0x40800000)] 0x40000000 0 ∧ flt (.fex2 (X 12 4 0 0 0 0 0)) [(4, 0xC3150000)] 1 0 ∧
    flt (.flg2 (X 12 4 0 0 0 0 0)) [(4, 0x3E800000)] 0xC0000000 0 ∧ flt (.fsin (X 12 4 0 0 1 0 0)) [(4, 0x3F000000)] 0xBF800000 0 ∧
    flt (.fcos (X 12 4 0 0 0 0 0)) [(4, 0x4B000001)] 0xBF800000 0 := by decide +kernel

/-- Rows of R374, with v5 the FP16 pair (1.0, 1.0). -/
theorem test_paired_half :
    let l : List (Nat × Word) := [(4, 0x3C007BFF), (5, 0x3C003C00)]
    flt (.hadd2 ⟨.reg 12, 4, .reg 5⟩) l 0x40007BFF 16 ∧ flt (.hadd2Ext (X 12 4 5 0 0 3 0)) l 0x40007C00 20 ∧ flt (.hmul2 ⟨.reg 12, 4, .reg 5⟩) l 0x3C007BFF 0 ∧
    flt (.hmul2Ext (X 12 4 5 0 4 0 0)) l 0xBC00FBFF 0 ∧ flt (.hdot2 (X 12 4 5 6 0 0 0)) l 0x477FE100 0 ∧ flt (.hfma2 (X 12 5 5 5 0 0 0)) l 0x40004000 0 := by decide +kernel

/-- −1 is 256, 254 and 255 in its three fields (R116). -/
theorem test_residues :
    flt (.rcvt (X 12 4 0 0 0 0 0)) [(4, 0xFFFFFFFF)] 0x0100FEFF 0 ∧ flt (.rcvt (X 12 4 0 0 1 0 0)) [(4, 0x0100FEFF)] 0xFFFFFFFF 0 ∧
    flt (.rcvt (X 12 4 0 0 2 0 0)) [(4, 0x0100FEFF)] 0xBF800000 0 ∧ flt (.radd ⟨.reg 12, 4, .imm 1⟩) [(4, 0x0100FEFF)] 0 0 ∧
    flt (.raddExt (X 12 4 4 0 0 0 0)) [(4, 0x01010000)] 0xFFFFFFFF 1 ∧ flt (.rmul ⟨.reg 12, 4, .reg 4⟩) [(4, 0x0100FEFF)] 0x00010101 0 ∧
    flt (.rmulExt { X 12 4 0 0 0 0 (-2) with b := .imm }) [(4, 0x00020202)] 0x00FDFBFC 0 := by decide +kernel

/-- The hypotheses of `FloatArithmeticRoundsOnce`, in each of its cases: a sum of opposite signs, a product that is subnormal, a
fused sum that is zero, and finite operands alone. -/
theorem witness_FloatArithmeticRoundsOnce :
    let ok (i : Instr) (l : List (Nat × Word)) := meets (regs l) i (fun _ _ cx _ => (Spec.exact i cx).isSome)
    ok (.fadd ⟨.reg 12, 4, .reg 5⟩) [(4, 0x3F800000), (5, 0xBF7FFFFF)] ∧ ok (.fsubExt (X 12 4 5 0 0 3 0)) [(4, 0x7F7FFFFF), (5, 0x73800000)] ∧
    ok (.fmul ⟨.reg 12, 4, .reg 5⟩) [(4, 0x00800000), (5, 0x3F000000)] ∧ ok (.ffma (X 12 4 5 6 0 4 0)) [(4, 0x3F800000), (5, 0x3F800000), (6, 0xBF800000)] ∧
    ok (.fadd ⟨.reg 12, 4, .reg 5⟩) [(4, 0x7F800000)] = false := by decide +kernel

/-- Of `FloatSpecialOperands`: its two clauses with what they conclude. -/
def spcl (i : Instr) (l : List (Nat × Word)) : Bool :=
  let s := regs l
  meets s i (fun t _ cx s1 =>
    if (Spec.floatArgs i cx).any Spec.isNan then goes (exec i s) (goesOn 0 t i ((cx.dst s1 0x7FC00000).raise 0
        (if (Spec.floatArgs i cx).any Spec.isSnan || (decide ((Spec.floatArgs i cx).length = 3) &&
            (Spec.isInf (Spec.argA cx) && Spec.isZero (Spec.argB cx) || Spec.isZero (Spec.argA cx) && Spec.isInf (Spec.argB cx))) then 1 else 0)))
    else match Spec.special i cx with
      | some (w, fl) => goes (exec i s) (goesOn 0 t i ((cx.dst s1 (Spec.up32 w)).raise 0 fl))
      | none => false)

theorem witness_FloatSpecialOperands :
    let a (w : Word) := [(4, w), (5, (0x7F800000 : Word))]
    ([Instr.fadd ⟨.reg 12, 4, .reg 5⟩, .frcp (X 12 4 0 0 0 0 0), .fsin (X 12 4 0 0 0 0 0), .ffma (X 12 4 5 6 0 0 0)].all (fun i => spcl i (a 0x7FC00001) && spcl i (a 0xFF800001))) = true ∧
    ([Instr.fadd ⟨.reg 12, 4, .reg 5⟩, .fmul ⟨.reg 12, 6, .reg 5⟩, .fsub ⟨.reg 12, 5, .reg 5⟩, .frcp (X 12 4 0 0 0 0 0), .frsq (X 12 4 0 0 0 0 0), .fsqrt (X 12 4 0 0 0 0 0),
      .fex2 (X 12 4 0 0 0 0 0), .flg2 (X 12 4 0 0 0 0 0), .fsin (X 12 4 0 0 0 0 0), .fcos (X 12 4 0 0 0 0 0)].all (fun i => spcl i (a 0xFF800000))) = true ∧
    ([Instr.frcp (X 12 4 0 0 0 0 0), .frsq (X 12 4 0 0 0 0 0), .fsqrt (X 12 4 0 0 0 0 0), .flg2 (X 12 4 0 0 0 0 0), .fsin (X 12 4 0 0 0 0 0), .fcos (X 12 4 0 0 0 0 0)].all
      (fun i => spcl i (a 0x80000000))) = true ∧
    spcl (.frsq (X 12 5 0 0 0 0 0)) (a 0) ∧ spcl (.fsqrt (X 12 5 0 0 0 0 0)) (a 0) ∧ spcl (.fex2 (X 12 5 0 0 0 0 0)) (a 0) ∧ spcl (.flg2 (X 12 5 0 0 0 0 0)) (a 0) ∧
    spcl (.flg2 (X 12 4 0 0 0 0 0)) (a 0x3F800000) ∧ spcl (.flg2 (X 12 4 0 0 0 0 0)) (a 0x80000001) ∧ spcl (.ffma (X 12 6 5 4 0 0 0)) (a 0x7FC00000) := by decide +kernel

/-- Rows of R106 and R374: infinities in valid and invalid operations, whatever the order of a NaN beside them. -/
theorem test_infinities :
    flt (.fadd ⟨.reg 12, 4, .reg 5⟩) [(4, 0x7F800000), (5, 0x3F800000)] 0x7F800000 0 ∧ flt (.fsub ⟨.reg 12, 4, .reg 5⟩) [(4, 0x3F800000), (5, 0x7F800000)] 0xFF800000 0 ∧
    flt (.fmul ⟨.reg 12, 4, .reg 5⟩) [(4, 0xFF800000), (5, 0xC0000000)] 0x7F800000 0 ∧
    flt (.ffma (X 12 4 5 6 0 0 0)) [(4, 0x7F800000), (5, 0x3F800000), (6, 0xFF800000)] 0x7FC00000 1 ∧
    flt (.ffma (X 12 4 5 6 0 0 0)) [(4, 0x7F800000), (6, 0x3F800000)] 0x7FC00000 1 ∧ flt (.ffma (X 12 4 5 6 0 0 0)) [(4, 0x3F800000), (5, 0x3F800000), (6, 0xFF800000)] 0xFF800000 0 ∧
    flt (.fmax ⟨.reg 12, 4, .reg 5⟩) [(4, 0x7FC00000), (5, 0xFF800000)] 0xFF800000 0 ∧ flt (.hdot2 (X 12 4 5 6 0 0 0)) [(4, 0xFC007C00), (5, 0x3C003C00), (6, 0x7FC00000)] 0x7FC00000 1 ∧
    flt (.hdot2 (X 12 4 5 6 0 0 0)) [(4, 0x7C007E00), (5, 0x3C003C00), (6, 0xFF800000)] 0x7FC00000 1 ∧ flt (.hdot2 (X 12 4 5 6 0 0 0)) [(4, 0x7C007E00), (5, 0x3C003C00)] 0x7FC00000 0 := by decide +kernel

/-- R109's exact rows of `FSIN` and `FCOS`, and R113 and R111 at the ends of their ranges. -/
theorem test_float_exact_rows :
    flt (.fsin (X 12 4 0 0 0 0 0)) [(4, 0xC0400000)] 0x80000000 0 ∧ flt (.fsin (X 12 4 0 0 0 0 0)) [(4, 0x4B000001)] 0 0 ∧ flt (.fcos (X 12 4 0 0 0 0 0)) [(4, 0xC0200000)] 0 0 ∧
    flt (.fcvt (X 12 4 0 0 0b011000 0 0)) [(4, 0xFF800000)] 0xFF 16 ∧ flt (.fcvt (X 12 4 0 0 0b100000 0 0)) [(4, 0x7FC00000)] 0x80 1 ∧
    flt (.fcvt (X 12 4 0 0 0b101000 0 0)) [(4, 0x4F000000)] 0x7FFFFFFF 1 ∧ flt (.fcvt (X 12 4 0 0 0b110000 0 0)) [(4, 0xBF000000)] 0 16 ∧ flt (.fcvt (X 12 4 0 0 0b110000 0 0)) [(4, 0xBF800000)] 0 1 ∧
    flt (.rcvt (X 12 4 0 0 0 0 0)) [(4, 8388480)] (Spec.rz 8388480) 20 ∧ flt (.rcvt (X 12 4 0 0 2 0 0)) [(4, 0xFFFFFFFF)] 0x7FC00000 1 := by decide +kernel

/-- The hypotheses of the wider clauses of `FloatArithmeticRoundsOnce` and of `FloatSpecialOperands`: instructions that they are about, and for the
functions an operand with no special result, where `Spec.algebraic` holds and where it does not. -/
theorem witness_FloatFunctions :
    ([Instr.frcp (X 12 4 0 0 0 0 0), .frsq (X 12 4 0 0 0 0 0), .fsqrt (X 12 4 0 0 0 0 0), .fex2 (X 12 4 0 0 0 0 0), .flg2 (X 12 4 0 0 0 0 0), .fsin (X 12 4 0 0 0 0 0), .fcos (X 12 4 0 0 0 0 0)].all
      (fun i => meets (regs [(4, 0x3FA00000)]) i (fun _ _ cx _ => !(Spec.floatArgs i cx).any Spec.isNan && (Spec.special i cx).isNone))) = true ∧
    ([Instr.hadd2 ⟨.reg 12, 4, .reg 5⟩, .hmul2Ext (X 12 4 5 0 1 0 0), .hfma2 (X 12 4 5 6 0 0 0)].all (fun i => meets (regs []) i (fun _ _ cx _ => (Spec.pairOp (Spec.rm cx) i).isSome))) = true ∧
    (Spec.val32 0x3FA00000 = 5 / 4 ∧ Spec.val32 0x3F000000 + 1 / 2 = 1 ∧ Spec.val32 0xC0400000 = -3) ∧
    spcl (.ffma (X 12 4 5 6 0 0 0)) [(4, 0x7F800000)] ∧ spcl (.ffma (X 12 4 5 6 0 0 0)) [(4, 0x7F800000), (5, 0x3F800000), (6, 0xFF800000)] ∧
    spcl (.fsin (X 12 4 0 0 0 0 0)) [(4, 0xC0400000)] ∧ spcl (.fcos (X 12 4 0 0 0 0 0)) [(4, 0xC0200000)] ∧ spcl (.fcos (X 12 4 0 0 0 0 0)) [(4, 0xC0400000)] := by decide +kernel

/-- Of `FloatCompareAndClass`. -/
def cmpc (i : Instr) (l : List (Nat × Word)) : Bool :=
  let s := regs l
  meets s i (fun t _ cx s1 => match i with
    | .fcmp x =>
      let a := Spec.arg t false false cx.va
      let b := Spec.arg t false false cx.vb
      goes (exec i s) (goesOn 0 t i ((cx.dstPred s1 (Spec.fcmp (x.func.toNat % 8) a b)).raise 0 (if Spec.fcmpNv (x.func.toNat % 8) a b then 1 else 0)))
    | .fclass _ => goes (exec i s) (goesOn 0 t i (cx.dst s1 (1#128 <<< Spec.classOf (Spec.lo32 cx.va))))
    | .nmsel x => goes (exec i s) (goesOn 0 t i (cx.dst s1 (if x.func.getLsbD (Spec.classOf (Spec.lo32 cx.va)) then cx.vb else cx.vc)))
    | _ => false)

theorem witness_FloatCompareAndClass :
    ((List.range 8).all (fun c => cmpc (.fcmp (X 1 4 5 0 (BitVec.ofNat 6 c) 0 0)) [(4, 0x80000000)] && cmpc (.fcmp (X 1 4 5 0 (BitVec.ofNat 6 c) 0 0)) [(4, 0x7FC00000)] &&
      cmpc (.fcmp (X 1 4 5 0 (BitVec.ofNat 6 c) 0 0)) [(4, 0xBF800000), (5, 0xC0000000)] && cmpc (.fcmp (X 1 4 5 0 (BitVec.ofNat 6 c) 0 0)) [(5, 0xFF800001)])) = true ∧
    ([0x7F800001, 0xFF800000, 0x80000001, 0x80000000, 0x00000001, 0x7F800000].all (fun (w : Word) => cmpc (.fclass (X 12 4 0 0 0 0 0)) [(4, w)] &&
      cmpc (.nmsel (X 12 4 5 6 0b010101 0 0)) [(4, w), (5, 1), (6, 2)])) = true ∧
    reg (after (.fclass (X 12 4 0 0 0 0 0)) (regs [(4, 0x80000001)])) 12 = 4 := by decide +kernel

/-- Of `ResidueArithmetic`, at the ends of the residue range. -/
theorem witness_ResidueArithmetic :
    let run (i : Instr) (l : List (Nat × Word)) (v : Int) (fl : FFlags) := meets (regs l) i (fun t _ cx s1 =>
      goes (exec i (regs l)) (goesOn 0 t i ((cx.dst s1 (if 0 ≤ v then BitVec.ofNat 128 (Spec.rz v) else 0xFFFFFFFF)).raise 0 fl)))
    let r (m : Int) : Word := BitVec.ofNat 32 (Spec.rz m)
    run (.radd ⟨.reg 12, 4, .reg 5⟩) [(4, r 8388479), (5, r 1)] 8388480 0 ∧ run (.rmul ⟨.reg 12, 4, .reg 5⟩) [(4, r (-8388480)), (5, r (-1))] 8388480 0 ∧
    run (.raddExt { X 12 4 0 0 0 0 8388479 with b := .imm }) [(4, r 5)] 8388484 0 ∧ run (.rmulExt { X 12 4 0 0 0 0 (-8388480) with b := .imm }) [(4, r (-1))] 8388480 0 ∧
    run (.radd ⟨.reg 12, 4, .reg 5⟩) [(4, 0x0000FF00), (5, r 1)] (-1) 1 ∧ reg (after (.rcvt (X 12 4 0 0 1 0 0)) (regs [(4, r (-8388480))])) 12 = 0xFF800080 ∧
    reg (after (.rcvt (X 12 4 0 0 1 0 0)) (regs [(4, r 8388479)])) 12 = 8388479 := by decide +kernel

/-- Of `GuardFalse` and of `ValueFrame`: under a false guard nothing changes, and a value's instruction leaves the other registers. -/
theorem witness_GuardFalse :
    let i : Instr := .addExt { X 12 4 5 0 0 0 0 with guard := ⟨0, false⟩ }
    let s := regs [(4, 1)]
    i.isThread ∧ i.wf ∧ i.regsOk 128 ∧ (privCheck i (th s 0)).isNone ∧ guardOf (th s 0) i.ext = false ∧ goes (exec i s) (goesOn 0 (th s 0) i (s.setThread 0 (begun (th s 0)))) ∧
    sameArch (th (after (.faddExt (X 12 4 5 0 0 3 0)) (regs [(4, 0x3F800000), (5, 1)])) 0).arch
      { (th (regs [(4, 0x3F800000), (5, 1)]) 0).arch.write (.reg 12) .v 0x3F800001 with fflags := 16 } := by decide +kernel

/-! ## Steps, traps, handlers and control -/

/-- Of `StepRunsDecodedInstruction`: an `ADD` of five words' room, laid out at the pc, is fetched, and the step is its meaning. -/
theorem witness_StepRunsDecodedInstruction :
    let s := (State.reset.withFetchWord 32 0x06008605)
    let t := th s 0
    (s.codePlace t t.pc.toNat) = some (.dev 0x10000 true) ∧ s.homeBad (.dev 0x10000 true) 4 = false ∧ s.wordAt (.dev 0x10000 true) = 0x06008605 ∧
    (wordAddrs t.pc 3).map (fun a => s.codePlace t a.toNat) = [0x10000, 0x10004, 0x10008].map (fun a => some (.dev a true)) ∧
    decode ([0x10000, 0x10004, 0x10008].map (fun a => s.wordAt (.dev a true))) = .ok (.addExt { X 67 0 12 0 0 0 0 with guard := ⟨0, false⟩ }) := by decide +kernel

theorem test_step_runs_add :
    let s := (State.reset.withFetchWord 32 0x80850604).modThread 0 (withRegs [(5, 41)])
    decode [0x80850604] = .ok (.add ⟨.reg 3, 5, .imm 1⟩) ∧ s.fetchOf (th s 0) = .instr (.add ⟨.reg 3, 5, .imm 1⟩) ∧
    reg (stepped s) 3 = 42 ∧ (th (stepped s) 0).pc = 0x10004 ∧ same (stepped s) (after (.add ⟨.reg 3, 5, .imm 1⟩) s) := by decide +kernel

/-- Of `FetchTraps`, at the addresses where its clauses meet: a pc that is no multiple of 4, the word behind the code's last one, and a
poisoned word. -/
theorem witness_FetchTraps :
    let trap (s : State) (c : Nat) := goes (step s) (s.takeTrap 0 (mkTrap c (th s 0).pc) 1 (th s 0).pc (th s 0).pc false).closeIssue
    let at' (pc : DWord) := ready (fun t => { t with pc := pc }) id
    trap (at' 0x20002) 0x04 ∧ trap (at' 0x20000) 0x05 ∧ (at' 0x20000).codePlace (th (at' 0x20000) 0) 0x20000 = none ∧
    ((at' 0x1FFFC).codePlace (th (at' 0x1FFFC) 0) 0x1FFFC).isSome ∧
    trap ({ at' 0x1FFFC with mem := { Mem.reset with dev := { bytes := [], bad := [4095] } } }) 0x16 := by decide +kernel

/-- Of `ExecAndStepComplete`: an open issue that is not counted, a state with no issue and an event at the head of the agenda, and a thread
instruction with no thread to execute it. -/
theorem witness_ExecAndStepComplete :
    let s := regs []
    let s0 : State := { s with front := { s.front with issue := s.front.issue.map (fun q => { q with counted := false }) } }
    let s1 : State := { State.reset with agenda := [.event .powerPeriod] }
    same (stepped s0) (after (.spectrographSample 0) s0) ∧ same (stepped s1) (after .powerPeriod State.reset) ∧ Instr.powerPeriod.isThread = false ∧
    ((match exec .nop State.reset with | .fault f => f == .noIssuingThread | _ => false) : Bool) := by decide +kernel

/-- Of `DecodeOfEncode` and `EncodeOfDecode`: an instruction at the ends of its fields. -/
theorem witness_DecodeOfEncode :
    let i : Instr := .ffma { X 127 0 127 127 63 4 0 with guard := ⟨6, true⟩, a := .reg 0 true }
    i.isThread ∧ i.wf ∧ decode (encode i) = .ok i ∧ decode [0x3F80FE8D, 0x27FC207F, 0, 0, 0] = .ok i ∧ encode i = [0x3F80FE8D, 0x27FC207F, 0] := by decide +kernel

/-- `StepKeepsCanonical` starts from a canonical state whose step goes on. -/
theorem witness_StepKeepsCanonical : ({ State.reset with mem := { Mem.reset with dev := { bytes := [(0, 1), (5, 2)], bad := [0, 3] } } } : State).canonical ∧
    goes (step State.reset) (stepped State.reset) = true :=
  ⟨⟨by decide, Store.empty_wf, (fun _ h => nomatch h), (fun _ h => nomatch h)⟩, by decide +kernel⟩

/-- Of `TrapRecordFields`: every number at the end of its range. -/
theorem witness_TrapRecordFields :
    let s := ready id (fun T => { T with num := 0xFFFFFFFF })
    let t : Thread := { th s 0 with slot := 383, part := 3, core := 191, sup := true }
    let e : TrapInfo := ⟨255, 1, 0x80000001, 0xFFFF, false⟩
    (trapRecord s t e 7 2 3 true).toList = [0x80000001FFFF1FFF, 2, 1, 3, 0xFFFFFFFF00000000, 0x000000032F03017F, 0, 0] := by decide +kernel

/-- The state in which a trap's code has a policy, the thread in supervisor mode or not. -/
def policed (code policy : Nat) (f : Thread → Thread) : State :=
  let s := ready f id
  { s with pkg := { s.pkg with tpolicy := BitVec.ofNat 48 (policy * 2 ^ (2 * code)), hvec := 0x1F000 } }

/-- Of `TrapPolicies`: each policy, for the first and the last code, and supervisor mode; an open region and a resume pc behind it. -/
theorem witness_TrapPolicies :
    let e (c : Nat) (b : Bool) : TrapInfo := ⟨c, 5, 6, 7, b⟩
    let go (c p : Nat) (f : Thread → Thread) (b : Bool) := trapsAt (policed c p f) 0 (th (policed c p f) 0) .nop (e c b)
    let cause (u : State) := (u.tasks.map (·.cause), u.threads.map (fun t => decide (t.st = .exited)))
    let r : Region := ⟨0x10100, 0x10000, []⟩
    (let u := go 0 2 id true
     let v := go 23 2 (fun t => { t with region := some r, latches := [⟨1, 0, false, none⟩] }) false
     (th u 0).sup ∧ (th u 0).pc = 0x1F000 ∧ (th u 0).epc = 0x10004 ∧ (th u 0).hact = 0 ∧ (th u 0).trec.toList.take 4 = [0x0000000600070100, 0x10000, 5, 0x10004] ∧
     (th v 0).epc = 0x10100 ∧ (th v 0).latches = [] ∧ (th v 0).region = none ∧ (th v 0).trec.toList.take 4 = [0x0000000600070117, 0x10000, 5, 0x10100]) ∧
    cause (go 23 2 (fun t => { t with sup := true }) false) = ([some ⟨0x0B, 0x117, 0⟩], [true]) ∧ cause (go 6 3 id false) = ([some ⟨4, 0, 0⟩], [true]) ∧
    cause (go 0 0 id false) = ([some ⟨0x0B, 0, 0⟩], [true]) ∧ cause (go 18 0 id false) = ([some ⟨0x0C, 0, 0⟩], [true]) ∧ cause (go 23 1 id false) = ([none], [true]) ∧
    (th (go 0 3 id false) 0).st = .trapped ∧ (th (go 23 3 id true) 0).trec.toList.take 4 = [0x0000000600070117, 0x10000, 5, 0x10004] := by decide +kernel

/-- Of `DecodeAndPrivilegeTraps`: a register count that leaves out one operand, and each privilege check at the ends of its range. -/
theorem witness_DecodeAndPrivilegeTraps :
    let trap (s : State) (i : Instr) (e : TrapInfo) := i.wf && goes (exec i s) (trapsAt s 0 (th s 0) i e)
    let few := ready (fun t => { t with regsN := 12 }) id
    let sup := ready (fun t => { t with sup := true }) id
    trap few (.add ⟨.reg 12, 4, .reg 5⟩) (mkTrap 0x02 0) ∧ (Instr.add ⟨.reg 124, 11, .reg 5⟩).regsOk 12 ∧
    trap few (.addExt { X 4 12 5 0 0 0 0 with guard := ⟨0, false⟩ }) (mkTrap 0x02 0) ∧ trap (regs []) (.eret (X 0 0 0 0 0 0 0)) (mkTrap 0x09 0) ∧
    trap (regs []) (.csrr (X 4 0 0 0 0 0 0x800)) ⟨0x09, 0, 0x800, 0, false⟩ ∧ trap (regs []) (.csrr (X 4 0 0 0 0 0 0xFFF)) ⟨0x09, 0, 0xFFF, 0, false⟩ ∧
    trap (regs []) (.csrw (X 0 4 0 0 0 0 0x000)) ⟨0x09, 0, 0, 0, false⟩ ∧ trap (regs []) (.csrw (X 0 4 0 0 0 0 0x800)) ⟨0x09, 0, 0x800, 0, false⟩ ∧
    trap (regs []) (.csrw (X 0 4 0 0 0 0 0xFFF)) ⟨0x09, 0, 0xFFF, 0, false⟩ ∧ trap sup (.csrw (X 0 4 0 0 0 0 0x817)) ⟨0x09, 0, 0x817, 0, false⟩ ∧
    (let s := regs []
     goes (exec (.ill 0xFFFFFE03) s) (s.takeTrap 0 (mkTrap 0x01 0) 5 (th s 0).pc (th s 0).pc false).closeIssue) := by decide +kernel

/-- Of `EretReturns`: each value of `$hact`. -/
theorem witness_EretReturns :
    let s (h : BitVec 2) (c : DWord) := ready (fun t => { t with sup := true, epc := 0x10040, hact := h, trec := t.trec.set 0 c }) id
    let u (h : BitVec 2) (c : DWord) := after (.eret (X 0 0 0 0 0 0 0)) (s h c)
    let cause (u : State) := (u.tasks.map (·.cause), u.threads.map (fun t => decide (t.st = .exited)))
    meets (s 0 5) (.eret (X 0 0 0 0 0 0 0)) (fun t _ _ _ => t.sup && t.region.isNone) ∧
    sameArch (th (u 0 5) 0).arch { (th (s 0 5) 0).arch with sup := false } ∧ (th (u 0 5) 0).pc = 0x10040 ∧ cause (u 1 5) = ([none], [true]) ∧
    cause (u 2 0x1FF05) = ([some ⟨0x0B, 5, 0⟩], [true]) ∧ cause (u 2 0x12) = ([some ⟨0x0C, 0x12, 0⟩], [true]) ∧ cause (u 3 5) = ([some ⟨0x0B, 0x1FF, 0⟩], [true]) := by decide +kernel

/-- Of `DirectTransfers`: the first and the last word of the code, the words before and behind it, both conditions, and an open region. -/
theorem witness_DirectTransfers :
    let fit (i : Instr) (want : Bool) (dst : DWord) (f : Thread → Thread := id) := let s := ready f id
      meets s i (fun t _ _ _ => Spec.branch t i = some dst && Spec.taken t i = some want &&
        (if !want then goes (exec i s) (goesOn 0 t i (s.begin 0 t i))
         else if t.region.isSome then goes (exec i s) (trapsAt s 0 t i (mkTrap 0x0A 0))
         else if (s.codePlace t dst.toNat).isNone then goes (exec i s) (trapsAt s 0 t i (mkTrap 0x05 dst))
         else goes (exec i s) (goesTo dst 0 (s.begin 0 t i))))
    fit (.bra 0) true 0x10000 ∧ fit (.bra 0x3FFF) true 0x1FFFC ∧ fit (.bra 0x4000) true 0x20000 ∧ fit (.braExt (X 0 0 0 0 0 0 (-1))) true 0xFFFC ∧
    fit (.brc (-1) false 7) true 0xFFFC ∧ fit (.brc 5 true 7) false 0x10014 ∧ fit (.brcExt (X 9 0 0 0 0 0 3)) true 0x1000C ∧
    fit (.brcExt (X 1 0 0 0 0 0 3)) false 0x1000C ∧ fit (.bra 0) true 0x10000 (fun t => { t with region := some ⟨0x10000, 0x10000, []⟩ }) ∧
    fit (.brc 5 true 7) false 0x10014 (fun t => { t with region := some ⟨0x10000, 0x10000, []⟩ }) ∧
    (let i : Instr := .callExt { X 0 0 0 0 0 0 3 with guard := ⟨0, false⟩ }
     goes (exec i (ready id id)) (goesOn 0 (th (ready id id) 0) i ((ready id id).setThread 0 (begun (th (ready id id) 0))))) := by decide +kernel

/-- Of `Calls` and `Returns`: a target outside the code, depths 0, 15, 16, 527 and 528, and each check of a return. -/
theorem witness_CallsAndReturns :
    let s (l : List DWord) (lk : DWord) := ready (fun t => { t with shadow := l, lk := lk }) id
    let n (k : Nat) : List DWord := List.replicate k 0x10040
    let call (k : Nat) (i : Instr) (ret dst : DWord) := let v := th (after i (s (n k) 0)) 0
      meets (s (n k) 0) i (fun _ _ _ _ => true) && v.pc == dst && v.lk == ret && v.shadow.length == k + 1 && v.shadow.head? == some ret
    let trap (s : State) (i : Instr) (e : TrapInfo) := meets s i (fun _ _ _ _ => true) && goes (exec i s) (trapsAt s 0 (th s 0) i e)
    let ret : Instr := .ret (X 0 0 0 0 0 0 0)
    call 0 (.call 2) 0x10004 0x10008 ∧ call 15 (.callExt (X 0 0 0 0 0 0 2)) 0x1000C 0x10008 ∧ call 527 (.call 2) 0x10004 0x10008 ∧
    trap (s (n 528) 0) (.call 2) (mkTrap 0x13 0) ∧ trap (s (n 528) 0) (.call 0x4000) (mkTrap 0x05 0x20000) ∧
    (let u := after (.call 2) (s (0x10044 :: n 15) 0)
     u.bytesAt (.stack 0 0x1000) 8 = leBytes 8 0x10040 ∧ (th u 0).shadow.length = 17) ∧
    trap (s [] 0x10040) ret (mkTrap 0x14 0x10040) ∧ trap (s [0x10044] 0x10040) ret (mkTrap 0x15 0x10040) ∧ trap (s [0x20000] 0x20000) ret (mkTrap 0x05 0x20000) ∧
    (let v := th (after ret (s [0x10040, 5] 0x10040)) 0
     v.pc = 0x10040 ∧ v.shadow = [5] ∧ v.lk = 0x10040) := by decide +kernel

/-- Of `IndirectTransfers`, where its checks meet. -/
theorem witness_IndirectTransfers :
    let s0 (w : Word) (l : List DWord) := (ready (fun t => { withRegs [(4, 0x10040), (6, 0x20002)] t with shadow := l }) id).homeWrite (.dev 0x10040 true) (leBytes 4 w.toNat)
    let s := s0 0x118 []
    let bad (s : State) : State := { s with mem := { s.mem with dev := s.mem.dev.poison 0x802 } }
    let jmp (r : Fin 128) (o : BitVec 32) : Instr := .jmp (X 0 r 0 0 0 0 o)
    let calli : Instr := .calli (X 0 4 0 0 0 0 0)
    let trap (s : State) (i : Instr) (e : TrapInfo) := meets s i (fun _ _ _ _ => true) && goes (exec i s) (trapsAt s 0 (th s 0) i e)
    trap s (jmp 6 0) (mkTrap 0x04 0x20002) ∧ trap s (jmp 6 (-2)) (mkTrap 0x05 0x20000) ∧ trap (bad s) (jmp 4 0) (mkTrap 0x16 0x10040) ∧
    trap s (jmp 4 4) (mkTrap 0x03 0x10044) ∧ trap (s0 0x1118 []) calli (mkTrap 0x03 0x10040) ∧ trap (s0 0x118 (List.replicate 528 0)) calli (mkTrap 0x13 0) ∧
    meets s (jmp 4 0) (fun t _ _ _ => goes (exec (jmp 4 0) s) (goesTo 0x10040 0 (s.begin 0 t (jmp 4 0)))) ∧
    (let v := th (after calli s) 0
     v.pc = 0x10040 ∧ v.lk = 0x1000C ∧ v.shadow = [0x1000C]) := by decide +kernel

/-- Of `ControlInstructions` and `SoftwareTraps`. -/
theorem witness_ControlInstructions :
    let s := regs []
    let z : ExtOp := X 0 0 0 0 0 0 0
    let go (i : Instr) := meets s i (fun t _ _ _ => goes (exec i s) (goesOn 0 t i (s.begin 0 t i)))
    let trap (i : Instr) (e : TrapInfo) := meets s i (fun t _ _ _ => goes (exec i s) (trapsAt s 0 t i e))
    go .nop ∧ go .land ∧ go (.nopExt z) ∧
    (let i : Instr := .reform (X 0 0 0 0 0 0 511)
     meets s i (fun _ _ _ _ => goes (exec i s) (((((s.begin 0 (th s 0) i).unfile 0).modThread 0 (fun u => { u with latches := [] })).fileAt 0 0x1000C 511 true).closeIssue))) ∧
    meets s (.exit z) (fun _ _ _ _ => (th (after (.exit z) s) 0).st = .exiting) ∧ (th (after (.exit z) s) 0).pc = 0x10000 ∧
    meets s (.bbc (X 0 0 0 0 0 0 255)) (fun _ _ _ _ => true) ∧ (after (.bbc (X 0 0 0 0 0 0 255)) s).pkg.bbc = [(255, 1)] ∧
    meets s (.dbgTag (X 0 0 0 0 1 0 0xFFFF)) (fun _ _ _ _ => true) ∧ (th (after (.dbgTag (X 0 0 0 0 1 0 0xFFFF)) s) 0).tag = 0xFFFF ∧
    trap (.trap (X 0 0 0 0 0 0 0xFFFF)) ⟨0x10, 0, 0, 0xFFFF, true⟩ ∧ trap (.sysc (X 0 0 0 0 0 0 1)) ⟨0x17, 0, 0, 1, true⟩ ∧ trap (.dbgBrk z) ⟨0x11, 0, 0, 0, true⟩ := by decide +kernel

/-- Of `ControlAndStatusRegisters`: every CSR, in supervisor mode, and each write. -/
theorem witness_ControlAndStatusRegisters :
    let s := ready (fun t => { withRegs [(4, 0x89ABCDEF), (5, 0x01234567)] t with sup := true, tid := 65, core := 100, part := 2, slot := 130, tsize := 4, lk := 7, epc := 8, shadow := [1, 2], fmode := 5, fflags := 9, recAddr := 0x123456789A }) id
    let nums := (List.range 12) ++ [0x10, 0x11, 0x20, 0x21, 0x30, 0x31, 0x800, 0x801, 0x810, 0x817, 0x818, 0x819, 0x820, 0x823]
    nums.all (fun n => let i : Instr := .csrr (X 12 0 0 0 0 0 (BitVec.ofNat 32 n))
      meets s i (fun t _ cx s1 => match Spec.csr s t n with | some v => goes (exec i s) (goesOn 0 t i (cx.dst s1 (v.setWidth 128))) | none => false)) ∧
    [0x20, 0x21, 0x31, 0x818, 0x819, 0x820, 0x821, 0x822, 0x823].all (fun n => let i : Instr := .csrw (X 0 4 0 0 0 0 (BitVec.ofNat 32 n))
      meets s i (fun t _ cx _ => match Spec.csrSet t.arch n (Spec.lo64 cx.va) with | some a => sameArch (th (after i s) 0).arch a | none => false)) ∧
    (th (after (.csrw (X 0 4 0 0 0 0 0x31)) s) 0).lk = 0x0123456789ABCDEF ∧ (th (after (.csrw (X 0 5 0 0 0 0 0x31)) s) 0).lk = 0x01234567 := by decide +kernel

/-- Of `GoingOnAndTransfers`. -/
theorem witness_GoingOnAndTransfers :
    let s := ready (fun t => { t with latches := [⟨1, 0, false, none⟩] }) id
    (th s 0).region = none ∧ (th (goesOn 0 (th s 0) .nop s) 0).pc = 0x10004 ∧ (th (goesTo 0x10044 0 s) 0).pc = 0x10044 ∧ (th (goesTo 0x10044 0 s) 0).latches = [] := by decide +kernel

/-! ## Memory, atomics, teams and engine commands -/

/-- A task with a page of device memory at 0x20000, one of host memory behind it, both its tenure, 1,024 bytes of tile store, parameters,
tokens and one pin. -/
def dataTask (T : Task) : Task :=
  { T with
    tenure := [⟨0x20000, 0x20000, true⟩]
    tlb := T.tlb ++ [⟨0x20000, 0x10000, 0x40000, false, false, true, true, false⟩, ⟨0x30000, 0x10000, 0x50000, true, false, true, true, false⟩]
    desc := { T.desc with tile := 8, nparam := 64, param := 0x20000, ntok := 4, tokpool := 0x20100, pinq := 1 }
    param := (Store.mk [] []).put 0x20000 [0x11, 0x22, 0x33, 0x44, 0x55, 0x66, 0x77, 0x88, 0, 0, 2, 0, 0, 0, 0, 0] }

/-- Bytes at places. -/
def store (l : List (Place × List Byte)) (s : State) : State := l.foldl (fun s e => s.homeWrite e.1 e.2) s

def data (f : Thread → Thread) (l : List (Place × List Byte)) : State :=
  store l { ready f dataTask with tiles := [⟨0, 0, 1024, ⟨[], []⟩, [], [], true⟩], pkg := { Pkg.reset with port := (64, 8, true) } }

/-- The bytes of an instruction where `ready` has the pc. -/
def code (i : Instr) : Place × List Byte := (.dev 0x10000 true, (encode i).flatMap (fun w => leBytes 4 w.toNat))

def errs (r : Except TrapInfo Place) (e : TrapInfo) : Bool := match r with | .ok _ => false | .error f => f = e

/-- Of `AccessChecks`, at the ends of each window. -/
theorem witness_AccessChecks :
    let s := data id []
    let go (a : DWord) (n : Nat) (w : Bool) := s.resolve 0 (th s 0) a n n w
    let e (c : Nat) (a : DWord) : TrapInfo := ⟨c, a, 0, 0, false⟩
    errs (go 0x0100000000000000 1 false) (e 8 0x0100000000000000) ∧ errs (go 0xFF00000000000400 4 true) (e 8 0xFF00000000000400) ∧
    errs (go 0xFDFFFFFFFFFFFFFF 1 true) (e 8 0xFDFFFFFFFFFFFFFF) ∧ errs (go 0xFE00000000002000 8 true) (e 8 0xFE00000000002000) ∧
    errs (go 0x20001 2 false) (e 7 0x20001) ∧ errs (go 0xFF000000000003FF 16 true) (e 7 0xFF000000000003FF) ∧ errs (go 0xFE00000000001FFF 4 true) (e 7 0xFE00000000001FFF) ∧
    errs (go 0xFE00000000001000 1 false) (e 0x13 0xFE00000000001000) ∧ is (go 0xFE00000000000FF0 16 true) (.stack 0 0xFF0) ∧
    is (go 0xFF000000000003F0 16 true) (.tile 0 0x3F0) ∧ errs (go 0x40000 4 false) (e 6 0x40000) ∧ errs (go 0x10000 4 true) (e 6 0x10000) ∧
    is (go 0x10000 4 false) (.dev 0x10000 true) ∧ is (go 0x20000 16 true) (.dev 0x40000 true) ∧ is (go 0x3FFF0 16 true) (.host 0x5FFF0) := by decide +kernel

/-- Of `Loads`: the clause that applies, with what it concludes at the destination. -/
def load (s : State) (i : Instr) : Bool :=
  meets s i (fun t _ cx _ =>
    let n := Spec.size i.ext
    t.region.isNone && i.ext.func.toNat / 16 ≠ 3 && (match s.resolve 0 t (Spec.ea cx) n n false with
    | .error e => goes (exec i s) (trapsAt s 0 t i e)
    | .ok pl =>
      if s.absentAt pl n then goes (exec i s) (Spec.parked s 0 (Spec.landing pl n))
      else (s.pkg.linkFault pl n false).isNone && (match (List.range n).find? (Spec.badByte s t pl) with
        | some j => goes (exec i s) (trapsAt s 0 t i ⟨0x16, Spec.ea cx + BitVec.ofNat 64 j, BitVec.ofNat 32 pl.unit, 0, false⟩)
        | none => sameArch (th (after i s) 0).arch (t.arch.write i.ext.d i.shape.d.cls (Spec.extended (i.ext.func.getLsbD 3) n (Spec.loaded s t pl n))))))

theorem witness_Loads :
    let at' (q : DWord) : Thread → Thread := withRegs [(4, q.setWidth 32), (5, (q >>> 32).setWidth 32)]
    let bs : List Byte := [0x80, 0x91, 0xA2, 0xB3, 0xC4, 0xD5, 0xE6, 0xF7]
    let s := data (at' 0x20000) [(.dev 0x40000 true, bs)]
    let x (d : Fin 128) (f : BitVec 6) (off : BitVec 32) : Instr := .ldExt (X d 4 0 0 f 0 off)
    load s (.ld (.reg 12) 4 0) ∧ reg (after (.ld (.reg 12) 4 0) s) 12 = 0xB3A29180 ∧ load s (x 12 0b1000 0) ∧ reg (after (x 12 0b1000 0) s) 12 = 0xFFFFFF80 ∧
    load s (x 12 0b0001 2) ∧ reg (after (x 12 0b0001 2) s) 12 = 0xB3A2 ∧ load s (x 12 0b0011 0) ∧ readRegs (th (after (x 12 0b0011 0) s) 0).regs 12 2 = 0xF7E6D5C4B3A29180 ∧
    load s (x 12 0b0100 8) ∧ load s (x 12 0b0010 2) ∧ load s (.ld (.reg 12) 4 (-1)) ∧
    load (data (at' 0xFF00000000000080) [(.tile 0 0x80, bs)]) (x 12 0b0011 0) ∧ load (data (at' 0xFE00000000000000) [(.stack 0 0, bs)]) (x 12 0b0011 0) ∧
    load (data (at' 0x30000) [(.host 0x50000, bs)]) (x 12 0b0011 0) ∧
    load { data (at' 0xFF00000000000080) [] with tiles := [⟨0, 0, 1024, ⟨[], []⟩, [1], [], true⟩] } (x 12 2 0) ∧
    load { s with mem := { s.mem with dev := s.mem.dev.poison 0x2001 } } (x 12 4 16) ∧ load { s with mem := { s.mem with dev := s.mem.dev.poison 0x2001 } } (x 12 4 32) ∧
    (let l : State := { s with mem := { s.mem with leases := [⟨0, 0x800, 0, 5, 4096, List.replicate 128 9, [], [], [], []⟩] } }
     load l (x 12 2 4) ∧ reg (after (x 12 2 4) l) 12 = 0x09090909) := by decide +kernel

/-- Of `Loads`: `LD.cmp` outside a region, with an operand that could not be read. -/
theorem witness_CompareOutsideRegion :
    let i : Instr := .ldExt { X 12 4 0 0 0b110010 0 0 with b := .src (.latch 2) }
    let s := data (withRegs [(4, 0x20000)]) []
    i.wf ∧ (th s 0).latches = [] ∧ goes (exec i s) (trapsAt s 0 (th s 0) i (mkTrap 0x0A 0)) := by decide +kernel

/-- Of `Stores`, with the bytes behind it. -/
def put (s : State) (i : Instr) : Bool :=
  meets s i (fun t _ cx _ =>
    let n := Spec.size i.ext
    t.region.isNone && (match s.resolve 0 t (Spec.ea cx) n n true with
    | .error e => goes (exec i s) (trapsAt s 0 t i e)
    | .ok pl =>
      if s.absentAt pl n then goes (exec i s) (Spec.parked s 0 (Spec.landing pl n))
      else (s.pkg.linkFault pl n true).isNone && sameArch (th (after i s) 0).arch t.arch && (after i s).bytesAt pl n == leBytes n cx.vb.toNat &&
        (after i s).byteAt (pl.plus n) == s.byteAt (pl.plus n)))

theorem witness_Stores :
    let at' (q : DWord) : Thread → Thread := withRegs [(4, q.setWidth 32), (5, (q >>> 32).setWidth 32), (8, 0x89ABCDEF), (9, 0x01234567)]
    let x (f : BitVec 6) (off : BitVec 32) : Instr := .stExt (X 0 4 8 0 f 0 off)
    put (data (at' 0x20000) []) (.st 8 4 0) ∧ put (data (at' 0x20000) [(.dev 0x40000 true, List.replicate 32 7)]) (x 0 5) ∧ put (data (at' 0x20000) []) (x 3 (-8)) ∧
    put (data (at' 0x20000) []) (x 4 16) ∧ put (data (at' 0xFF00000000000000) []) (x 1 0) ∧ put (data (at' 0xFE00000000000FF8) []) (x 3 0) ∧
    put (data (at' 0xFE00000000000FF8) []) (x 3 8) ∧ put (data (at' 0x30000) []) (x 2 0) ∧ put (data (at' 0x10000) []) (x 2 0) ∧
    put { data (at' 0xFF00000000000000) [] with tiles := [⟨0, 0, 1024, ⟨[], []⟩, [0], [], true⟩] } (.st 8 4 0) ∧
    (after (.st 8 4 1) (data (at' 0x20000) [])).mem.dev.bytes = [(0x40004, 0xEF), (0x40005, 0xCD), (0x40006, 0xAB), (0x40007, 0x89)] := by decide +kernel

/-- The whole of an atomic region (of `AtomicRegions`): a line of zeros with 5 in its first word; the region of a `.cmp` load of word 0 against
what v8 holds, a store of v9 to word 1 and a load of it. -/
def regionRun (want : Word) : List State :=
  let f := withRegs [(4, 0x20000), (8, want), (9, 77)]
  let s0 := data f [(.dev 0x40000 true, [5])]
  let s1 := after (.abegin (X 0 4 0 0 0 0 0)) s0
  let re (s : State) : State := { s with front := s0.front }
  let s2 := after (.ldExt (X 12 4 8 0 0b110010 0 0)) (re s1)
  let s3 := after (.stExt (X 0 4 9 0 2 0 4)) (re s2)
  let s4 := after (.ldExt (X 13 4 0 0 2 0 4)) (re s3)
  [s1, s2, s3, s4, after (.acommit (X 1 0 0 0 0 0 0)) (re s4)]

theorem witness_AtomicRegions :
    let regions (l : List State) := l.map (fun s => (th s 0).region.map (·.accs.length))
    regions (regionRun 5) = [some 0, some 1, some 2, some 3, none] ∧
    ((regionRun 5).map (fun s => (reg s 12, reg s 13, (th s 0).preds.toNat, (s.bytesAt (.dev 0x40000 true) 8))) |>.drop 3) =
      [(0, 0, 0, [5, 0, 0, 0, 0, 0, 0, 0]), (5, 77, 2, [5, 0, 0, 0, 77, 0, 0, 0])] ∧
    ((regionRun 6).map (fun s => (reg s 12, reg s 13, (th s 0).preds.toNat, (s.bytesAt (.dev 0x40000 true) 8))) |>.drop 4) = [(5, 0, 0, [5, 0, 0, 0, 0, 0, 0, 0])] ∧
    (let s := data (withRegs [(4, 0x20000)]) []
     let open' (n : Nat) : State := data (fun t => { withRegs [(4, 0x20000)] t with region := some ⟨0x10000, 0x20000, List.replicate n (.store 0 4 0)⟩ }) []
     let trap (s : State) (i : Instr) (e : TrapInfo) := meets s i (fun _ _ _ _ => true) && goes (exec i s) (trapsAt s 0 (th s 0) i e)
     trap s (.abegin (X 0 4 0 0 0 0 64)) ⟨7, 0x20040, 0, 0, false⟩ ∧ trap s (.abegin (X 0 4 0 0 0 0 0x10000)) (mkTrap 0x0A 0) ∧
     trap (data (withRegs [(5, 0x1000000)]) []) (.abegin (X 0 4 0 0 0 0 0)) ⟨8, 0x0100000000000000, 0, 0, false⟩ ∧
     trap s (.acommit (X 1 0 0 0 0 0 0)) (mkTrap 0x0A 0) ∧ trap (open' 8) (.ldExt (X 12 4 0 0 2 0 0)) (mkTrap 0x0A 0) ∧ trap (open' 7) (.ldExt (X 12 4 0 0 2 1 0)) (mkTrap 0x0A 0) ∧
     trap (open' 7) (.st 8 4 0) (mkTrap 0x0A 0) ∧ trap (open' 7) (.stExt (X 0 4 8 0 2 0 128)) (mkTrap 0x0A 0) ∧ trap (open' 7) (.stExt (X 0 4 8 0 2 0 (-4))) (mkTrap 0x0A 0) ∧
     meets (open' 7) (.stExt (X 0 4 8 0 2 0 124)) (fun _ _ _ _ => true) ∧ (th (after (.stExt (X 0 4 8 0 2 0 124)) (open' 7)) 0).region.map (·.accs.length) = some 8 ∧
     meets (open' 7) (.ldExt (X 12 4 0 0 4 0 112)) (fun _ _ _ _ => true) ∧ (th (after (.ldExt (X 12 4 0 0 4 0 112)) (open' 7)) 0).region.map (·.accs.length) = some 8) := by decide +kernel

/-- What a trap of the statements is. -/
def traps (s : State) (i : Instr) (e : TrapInfo) : Bool := meets s i (fun _ _ _ _ => true) && goes (exec i s) (trapsAt s 0 (th s 0) i e)

/-- The instruction completes and thread 0 has these registers. -/
def gives (s : State) (i : Instr) (A : Arch) : Bool := meets s i (fun _ _ _ _ => true) && goes (exec i s) (after i s) && sameArch (th (after i s) 0).arch A

/-- A register pair with an address, and what else is given. -/
def ptr (q : DWord) (l : List (Nat × Word)) : Thread → Thread := withRegs ([(4, q.setWidth 32), (5, (q >>> 32).setWidth 32)] ++ l)

/-- Of `ParametersChannelsAndHints`: the last parameter bytes, and a channel with two entries of four. -/
theorem witness_ParametersChannelsAndHints :
    let s := data id []
    let A := (th s 0).arch
    let ldc (f : BitVec 6) (o : BitVec 32) : Instr := .ldc (X 12 0 0 0 f 0 o)
    let bad := { s with tasks := s.tasks.map (fun (T : Task) => { T with param := T.param.poison 0x1000 }) }
    gives s (ldc 2 60) (A.write (.reg 12) .v 0) ∧ gives s (ldc 3 0) (A.write (.reg 12) .q 0x8877665544332211) ∧ traps s (ldc 0 64) ⟨8, 64, 0, 0, false⟩ ∧
    traps s (ldc 3 60) ⟨8, 60, 0, 0, false⟩ ∧ traps s (ldc 2 58) ⟨7, 58, 0, 0, false⟩ ∧ traps bad (ldc 2 28) ⟨0x16, 28, 0, 0, false⟩ ∧ gives bad (ldc 2 32) (A.write (.reg 12) .v 0) := by decide +kernel
theorem witness_ChannelsAndHints :
    let s := data id []
    let A := (th s 0).arch
    let h : Chan := ⟨3, 4, 4, true, 10, 0, 0, [7, 8], [], [], 0, false, 0, 0, 0, []⟩
    let c := { s with tiles := s.tiles.map (fun (a : Tile) => { a with chans := [h] }) }
    let ch (f : BitVec 6) (n : Fin 128) (v : BitVec 32) : Instr := if f = 2 then .chctl { X 12 n 0 0 f 0 v with b := .imm } else .chctl (X 12 n 0 0 f 0 0)
    traps c (ch 0 4 0) ⟨0x0D, 0, 4, 0, false⟩ ∧ traps c (ch 2 3 2) ⟨0x0D, 0, 3, 0, false⟩ ∧ gives c (ch 0 3 0) (A.write (.reg 12) .v 2) ∧ gives c (ch 1 3 0) (A.write (.reg 12) .v 2) ∧
    gives c (ch 2 3 0) (A.write (.reg 12) .v 1) ∧ (after (ch 2 3 0) c).tiles.map (fun a => a.chans.map (·.ext)) = [[false]] ∧
    gives s (.prf (X 0 4 0 0 0 0 0x40000)) A ∧ gives s (.fence (X 0 0 0 0 0 31 0)) A ∧ gives s (.wback (X 0 4 0 0 0 0 0x20003)) A ∧
    traps s (.wback (X 0 4 0 0 0 0 0x40000)) ⟨6, 0x40000, 0, 0, false⟩ := by decide +kernel

/-- Of `Pins`: each status but the one that the L2's hash decides. -/
theorem witness_Pins :
    let s (p : List Pin) : State := let s := data (ptr 0x20000 []) []
      { s with mem := { s.mem with pins := p } }
    let go (p : List Pin) (i : Instr) (st : Nat) (q : List Pin) := gives (s p) i ((th (s p) 0).arch.write (.reg 12) .v (BitVec.ofNat 128 st)) && decide ((after i (s p)).mem.pins = q)
    let lock (o : BitVec 32) : Instr := .lock (X 12 4 0 0 0 0 o)
    let unlock (o : BitVec 32) : Instr := .unlock (X 12 4 0 0 0 0 o)
    let p : Pin := ⟨0, 0, 0x800⟩
    go [] (lock 127) 0 [p] ∧ go [p] (lock 127) 1 [p] ∧ go [p] (lock 128) 2 [p] ∧ go [] (lock 0x10000) 4 [] ∧ go [p] (unlock 0) 0 [] ∧ go [p] (unlock 128) 1 [p] ∧
    go [p] (unlock 0x10000) 4 [p] ∧ traps (s []) (lock 0x20000) ⟨6, 0x40000, 0, 0, false⟩ := by decide +kernel

/-- A frame of two pairs at 0x20200, named by parameter 8, with one tile, whose counts and flags are as given. -/
def frameState (count flags cap : Nat) (f : Thread → Thread) : State :=
  let s := data f [(.dev 0x40200 true, leBytes 8 0x21000 ++ leBytes 8 0x22000 ++ leBytes 16 0 ++ leBytes 4 cap ++ leBytes 4 count ++ leBytes 4 flags ++ leBytes 4 0 ++
    leBytes 8 0x1001 ++ leBytes 8 0x23000), (.dev 0x43000 true, leBytes 8 0x1122334455667788)]
  { s with tasks := s.tasks.map (fun (T : Task) => { T with param := T.param.put 0x20008 (leBytes 8 0x20200) }) }

theorem witness_KeysAndSpans :
    let s (c fl cap : Nat) := frameState c fl cap (withRegs [(6, 0xAABBCCDD), (7, 1), (8, 0x55)])
    let key : Instr := .keyemit (X 0 6 8 0 0 0 8)
    let span (r : Fin 128) : Instr := .span (X 12 r 0 0 0 0 8)
    let at' (s : State) (a n : Nat) := s.bytesAt (.dev a true) n
    let A := (th (s 1 0 2) 0).arch
    gives (s 1 0 2) key A ∧ at' (after key (s 1 0 2)) 0x41008 8 = leBytes 8 0x1AABBCCDD ∧ at' (after key (s 1 0 2)) 0x42004 4 = leBytes 4 0x55 ∧
    at' (after key (s 1 0 2)) 0x40224 8 = [2, 0, 0, 0, 0, 0, 0, 0] ∧ gives (s 2 0 2) key A ∧ at' (after key (s 2 0 2)) 0x40224 8 = [3, 0, 0, 0, 1, 0, 0, 0] ∧
    at' (after key (s 0xFFFFFFFF 1 2)) 0x40224 8 = [0xFF, 0xFF, 0xFF, 0xFF, 1, 0, 0, 0] ∧ traps (s 1 2 2) key ⟨0x0E, 0x20200, 0, 0, false⟩ ∧
    traps (s 1 0 0) key ⟨0x0E, 0x20200, 0, 0, false⟩ ∧ traps (s 1 2 2) (span 9) ⟨0x0E, 0x20200, 0, 0, false⟩ ∧
    gives (s 1 0 2) (span 9) (A.write (.reg 12) .q 0x1122334455667788) ∧ gives (s 1 0 2) (span 7) (A.write (.reg 12) .q 0) := by decide +kernel

/-- The checks of a reducing region's address, for the region at 0x40000. -/
def regionB (s : State) (t : Thread) (ea : DWord) : Bool :=
  let d := s.bytesAt (.dev 0x40000 true) 128
  let lg := ea.toNat / 2 ^ 56
  let g := ea.toNat % 2 ^ 56
  let base := g / 2 ^ lg * 2 ^ lg
  decide (Spec.anchor d = 0 ∧ t.sup = false ∧ 16 ≤ lg ∧ lg ≤ 40 ∧ ea.toNat % 16 = 0) && is (s.resolveGlobal t (BitVec.ofNat 64 g) 16 true) (.dev 0x40080 true) &&
    is (s.resolveGlobal t (BitVec.ofNat 64 base) 128 true) (.dev 0x40000 true) &&
    decide (s.pkg.linkFault (.dev 0x40080 true) 16 true = none ∧ s.pkg.linkFault (.dev 0x40000 true) 128 false = none ∧ s.homeBad (.dev 0x40000 true) 128 = false ∧
      Spec.field d 0 8 / 256 = 1 ∧ 1 ≤ Spec.field d 8 8 ∧ Spec.field d 8 8 ≤ (2 ^ lg - 128) / 16 ∧ (∀ b ∈ d.drop 0x18, b = 0) ∧ base + 128 ≤ g ∧
      (g - base - 128) / 16 < Spec.field d 8 8)

/-- Of `GradientReduction`: 1.0 is added to element 0 of a region with anchor 0 on two dies and reduced; a NaN counts and adds nothing. -/
theorem witness_GradientReduction :
    let s0 (w : Word) : State := data (ptr 0x1000000000020080 [(8, w)]) [(.dev 0x40000 true, [0, 1, 0, 0, 0, 0, 0, 0, 4])]
    let s (w : Word) : State := let t := s0 w
      { t with mem := { t.mem with grc := [⟨1, 0x40080, 0x40010, 2 ^ 64, 0, 0, false, [0], false⟩] } }
    let ok (i : Instr) (w : Word) := meets (s w) i (fun t _ cx _ => regionB (s w) t (Spec.ea cx))
    let add : Instr := .gredAdd (X 0 4 8 0 0 0 0)
    let res (sc : BitVec 5) : Instr := .gredRes (X 12 4 0 0 1 sc 0)
    ok add 0x3F800000 ∧ (after add (s 0x3F800000)).mem.grc.map (fun e => (e.die, e.v)) = [(1, 2 ^ 64), (0, 2 ^ 64)] ∧
    (after add (s 0x7FC00000)).mem.grc.map (fun e => (e.die, e.v, e.nf)) = [(1, 2 ^ 64, 0), (0, 0, 1)] ∧
    ok (res 2) 0 ∧ reg (after (res 2) (s 0)) 12 = 0x3F800000 ∧ (after (res 2) (s 0)).mem.grc.map (fun e => (e.die, e.v)) = [(1, 0)] ∧ reg (after (res 1) (s 0)) 12 = 0 ∧
    (after (res 1) (s 0)).mem.grc.map (fun e => e.v) = [2 ^ 64] ∧ ((after (res 2) (s 0)).bytesAt (.dev 0x40080 true) 16) = leBytes 16 (2 ^ 64) ∧
    meets (s 0) (.fencex (X 0 0 0 0 4 26 0)) (fun _ _ _ _ => true) ∧ (after (.fencex (X 0 0 0 0 4 26 0)) (s 0)).mem.grc = [] ∧
    (after (.fencex (X 0 0 0 0 4 25 0)) (s 0)).mem.grc.map (fun e => e.v) = [2 ^ 64] ∧ ((after (.fencex (X 0 0 0 0 4 26 0)) (s 0)).bytesAt (.dev 0x40080 true) 16) = leBytes 16 (2 ^ 64) := by decide +kernel

/-- Of `Atomics`: each operation on a word and some on eight bytes, with what is left in memory. -/
theorem witness_Atomics :
    let s (q : DWord) (m : Word) : State := data (ptr q [(8, 0xFFFFFFFE), (9, 7), (10, 5)]) [(.dev 0x40000 true, leBytes 8 m.toNat)]
    let a (f : BitVec 6) (c : Fin 128) : Instr := .atom (X 12 4 8 c f 0 0)
    let go (f : BitVec 6) (new : Nat) := gives (s 0x20000 5) (a f (if f = 9 then 10 else 0)) ((th (s 0x20000 5) 0).arch.write (.reg 12) .v 5) &&
      decide ((after (a f (if f = 9 then 10 else 0)) (s 0x20000 5)).bytesAt (.dev 0x40000 true) 8 = leBytes 8 new)
    go 0 0xFFFFFFFE ∧ go 1 3 ∧ go 2 4 ∧ go 3 0xFFFFFFFF ∧ go 4 0xFFFFFFFB ∧ go 5 0xFFFFFFFE ∧ go 6 5 ∧ go 7 5 ∧ go 8 0xFFFFFFFE ∧ go 9 0xFFFFFFFE ∧
    ((after (a 9 10) (s 0x20000 4)).bytesAt (.dev 0x40000 true) 4) = leBytes 4 4 ∧ ((after (a 0x11 0) (s 0x20000 5)).bytesAt (.dev 0x40000 true) 8) = leBytes 8 0x800000003 ∧
    ((after (.atom { X 12 4 0 0 10 0 0x3F800000 with b := .imm }) (s 0x20000 0x40000000)).bytesAt (.dev 0x40000 true) 4) = leBytes 4 0x40400000 ∧
    ((after (.atom { X 12 4 0 0 10 0 0x7F800000 with b := .imm }) (s 0x20000 0xFF800000)).bytesAt (.dev 0x40000 true) 4) = leBytes 4 0x7FC00000 ∧
    ((after (.atom { X 12 4 0 0 10 0 0x3F800000 with b := .imm }) (s 0x20000 0xFF800000)).bytesAt (.dev 0x40000 true) 4) = leBytes 4 0xFF800000 ∧
    traps (s 0x20002 0) (a 0 0) ⟨7, 0x20002, 0, 0, false⟩ ∧ traps (s 0x10000 0) (a 1 0) ⟨6, 0x10000, 0, 0, false⟩ ∧
    (let p : State := { s 0xFF00000000000000 0 with tiles := [⟨0, 0, 1024, ⟨[], []⟩, [0], [], true⟩] }
     meets p (a 0 0) (fun _ _ _ _ => goes (exec (a 0 0) p) (Spec.parked p 0 (Spec.landing (.tile 0 0) 4)))) := by decide +kernel

/-- Of `Barriers`: a count that passes 2^64, arrivals below, at and beyond what is pending, the last phase, and the flags 7 and 8. -/
theorem witness_Barriers :
    let s (p ph fl : Nat) : State := data (ptr 0x20000 [(8, 5)]) [(.dev 0x40000 true, Spec.barrier p ph fl)]
    let x (q : Fin 128) (n : BitVec 32) : ExtOp := { X 0 q 0 0 0 0 n with b := .imm }
    let go (st : State) (i : Instr) (want : List Byte) := gives st i (th st 0).arch && decide ((after i st).bytesAt (.dev 0x40000 true) 16 = want)
    go (s (2 ^ 64 - 5) 1 4) (.barexp (x 4 5)) (Spec.barrier (2 ^ 64 - 1) 1 6) ∧ go (s (2 ^ 64 - 6) 1 7) (.barexp (x 4 5)) (Spec.barrier (2 ^ 64 - 1) 1 7) ∧
    go (s 1 0 0) (.barexp (X 0 4 8 0 0 0 0)) (Spec.barrier 6 0 0) ∧ go (s 5 3 0) (.bararv (x 4 4)) (Spec.barrier 1 3 0) ∧
    go (s 5 0xFFFFFFFF 0) (.bararv (x 4 5)) (Spec.barrier 0 0 0) ∧ go (s 5 3 0) (.bararv (x 4 6)) (Spec.barrier 0 4 1) ∧ go (s 0 3 0) (.bararv (x 4 0)) (Spec.barrier 0 4 0) ∧
    traps (s 5 3 8) (.bararv (x 4 6)) ⟨0x0E, 0x20000, 0, 0, false⟩ ∧ traps (data (ptr 0xFE00000000000000 []) []) (.barexp (x 4 1)) ⟨8, 0xFE00000000000000, 0, 0, false⟩ ∧
    traps (data (ptr 0x20008 []) []) (.barexp (x 4 1)) ⟨7, 0x20008, 0, 0, false⟩ := by decide +kernel

/-- Of `Waits`: each form with a condition that holds and one that does not, the null token, and the traps. -/
theorem witness_Waits :
    let s (q : DWord) (bs : List Byte) : State := data (ptr q [(8, 5)]) [(.dev 0x40000 true, bs)]
    let w (f : BitVec 6) (b : Fin 128) (h : BitVec 32) : Instr := .twait (X 1 4 b 0 f 0 h)
    let yes (st : State) (i : Instr) := gives st i ((th st 0).arch.writePred 1 true)
    let no (st : State) (i : Instr) := gives st i ((th st 0).arch.writePred 1 false)
    let parks (st : State) (i : Instr) := gives st i (th st 0).arch && (match (th (after i st) 0).st with | .parked (.twait r) => r.dst == 1 && r.start == 0 | _ => false) &&
      (th (after i st) 0).pc == (th st 0).pc
    let m := s 0x20000
    yes (m [5]) (w 0 8 0) ∧ no (m [6]) (w 0 8 0) ∧ parks (m [6]) (w 0 8 0xFFFFFFFF) ∧ yes (m [6]) (w 4 8 0) ∧ yes (m [5]) (w 8 8 0) ∧ no (m [4]) (w 8 8 0) ∧ yes (m [4]) (w 12 8 0) ∧
    no (m [5, 0, 0, 0, 1]) (w 0b100000 8 0) ∧ yes (s 0 []) (w 1 0 1) ∧ yes (s 0x0005000000020000 (leBytes 8 0x0005000000000001)) (w 1 0 1) ∧
    yes (s 0x0005000000020000 (leBytes 8 0x8004000000000001)) (w 1 0 1) ∧ no (s 0x0005000000020000 (leBytes 8 0x8005000000000001)) (w 1 0 0) ∧
    no (s 0x0005000000020000 (leBytes 8 0x0005000000000000)) (w 1 0 0) ∧ parks (s 0x0005000000020000 (leBytes 8 0x0004000000000001)) (w 1 0 1) ∧
    yes (m (Spec.barrier 0 4 0)) (w 2 8 0) ∧ parks (m (Spec.barrier 0 5 0)) (w 2 8 1) ∧ traps (s 0xFE00000000000000 []) (w 2 8 1) ⟨8, 0xFE00000000000000, 0, 0, false⟩ ∧
    traps (s 0x20004 []) (w 0b100000 8 1) ⟨7, 0x20004, 0, 0, false⟩ := by decide +kernel

/-- Thread 0 of a team of two, and its mate, which may have arrived with a value of its own. -/
def pair (f g : Thread → Thread) : State :=
  let s := ready (fun t => { withRegs [(4, 10), (5, 1), (6, 77)] t with tsize := 2, ntid := 2 }) id
  { (s.modThread 0 f) with threads := (s.modThread 0 f).threads ++ [g { th s 0 with tid := 1, slot := 1 }] }

theorem witness_TeamOperations :
    let z := X 0 0 0 0 0 0 0
    let got (key : Nat × Nat × Nat) (v : DWord) (d : Nat) (t : Thread) : Thread := { t with tcount := 1, st := .parked (.rendezvous ⟨key, true, false, v, 9, 0, d, 12⟩) }
    let alone := pair id id
    let trap (s : State) (i : Instr) (n : Nat) := goes (exec i s) (trapsAt s 0 (th s 0) i ⟨0x0C, 0, BitVec.ofNat 32 n, 0, false⟩)
    let xchg : Instr := .xchg (X 12 4 0 6 0 0 1)
    let both (s : State) := (reg s 12, ((th s 1).regs.getD 13 0).toNat)
    trap (pair (fun t => { t with left := true }) id) (.tleave z) 1 ∧ (th (after (.tleave z) alone) 0).left = true ∧ (th (after (.tleave z) alone) 0).tcount = 0 ∧
    trap (pair (fun t => { t with left := true }) id) (.tsync z) 1 ∧ trap alone (.xchg (X 12 4 0 6 0 0 2)) 1 ∧ trap alone (.xchg (X 12 4 0 6 0 0 0)) 1 ∧
    meets alone xchg (fun _ _ _ _ => true) ∧ (th (after xchg alone) 0).tcount = 1 ∧ (th (after xchg alone) 0).pc = 0x10000 ∧
    both (after xchg (pair id (got (0x6A, 0, 1) 20 13))) = (20, 10) ∧ both (after xchg (pair id (fun t => { t with left := true }))) = (77, 0) ∧
    both (after xchg (pair id (fun t => { t with st := .exited }))) = (77, 0) ∧ both (after (.xshf (X 12 4 5 6 0 0 0)) (pair id (got (0x6B, 0, 0) 20 13))) = (20, 10) ∧
    both (after (.xshf (X 12 4 6 6 0 0 0)) (pair id (got (0x6B, 0, 0) 20 13))) = (77, 10) ∧
    (th (after (.xvote (X 1 7 0 0 0 0 0)) (pair id (got (0x6C, 0, 0) 0 2))) 0).preds = 0 ∧ (th (after (.xvote (X 1 7 0 0 1 0 0)) (pair id (got (0x6C, 1, 0) 0 2))) 1).preds = 4 ∧
    readRegs (th (after (.xvote (X 12 7 0 0 2 0 0)) (pair id (got (0x6C, 2, 0) 1 13))) 0).regs 12 2 = 3 ∧ both (after (.xred (X 12 4 0 6 3 0 0)) (pair id (got (0x6D, 3, 0) 20 13))) = (30, 30) ∧
    ((after (.tsync z) (pair id (got (0x69, 0, 0) 0 0))).threads.map (fun t => (decide (t.st = .ready), t.tcount))) = [(true, 1), (true, 1)] ∧
    both (after (.xchg { X 12 4 0 6 0 0 1 with guard := ⟨0, false⟩ }) (pair id (got (0x6A, 0, 1) 20 13))) = (0, 9) := by decide +kernel

/-- Of `TeamOperations`: members that bring different operations, under the policy that holds a thread; a reduction whose one value is a signalling
NaN; and the combine step's order. -/
theorem witness_TeamDisagreement :
    let got (key : Nat × Nat × Nat) (v : DWord) (d : Nat) (t : Thread) : Thread := { t with tcount := 1, st := .parked (.rendezvous ⟨key, true, false, v, 9, 0, d, 12⟩) }
    let hold (s : State) : State := { s with pkg := { s.pkg with tpolicy := 3 * 2 ^ 24 } }
    let u := after (.tsync (X 0 0 0 0 0 0 0)) (hold (pair id (got (0x6C, 0, 0) 0 2)))
    u.threads.map (fun t => (t.st, t.trec[0].toNat % 256, t.trec[0].toNat / 2 ^ 32, t.preds.toNat)) = [(.trapped, 0x0C, 1, 0), (.trapped, 0x0C, 1, 0)] ∧
    reg (after (.xred (X 12 5 0 6 0 0 0)) ((pair (withRegs [(5, 0xFF800001)]) (fun t => { t with left := true })))) 12 = 0x7FC00000 ∧
    reg (after (.xred (X 12 4 0 6 2 0 0)) (pair (withRegs [(4, 0x80000000)]) (got (0x6D, 2, 0) 0 13))) 12 = 0 := by decide +kernel

/-- Of `EngineCommands`: each kind, with its token; a chain outside the tile window, and a task without a pool. -/
theorem witness_EngineCommands :
    let s (q : DWord) : State := data (ptr q []) [(.tile 0 0, [5])]
    let x := X 12 4 0 0 0 0 0
    let none' (q : DWord) : State := { s q with tasks := (s q).tasks.map (fun (T : Task) => { T with desc := { T.desc with ntok := 0 } }) }
    let go (q : DWord) (i : Instr) (k : CmdKind) (n : Nat) := gives (s q) i ((th (s q) 0).arch.write (.reg 12) .q 0x0001000000020100) &&
      decide ((after i (s q)).cmds.map (fun c => (c.kind, c.addr, c.tok, c.block.length, c.st)) = [(k, q, 0x0001000000020100, n, .queued)]) &&
      decide ((after i (s q)).tasks.map (fun T => (T.tokNext, T.tokSeq)) = [(1, 2)])
    go 0x20000 (.mma x) .mma 128 ∧ go 0x20040 (.sort x) .sort 64 ∧ go 0xFF00000000000040 (.coll x) .coll 64 ∧ go 0xFF00000000000000 (.copy x) .copy 128 ∧
    traps (s 0x20000) (.copy x) ⟨0x0E, 0x20000, 0, 0, false⟩ ∧ traps (none' 0x20000) (.mma x) ⟨0x0E, 0x20000, 0, 0, false⟩ ∧
    traps (s 0x20040) (.mma x) ⟨7, 0x20040, 0, 0, false⟩ ∧ traps (s 0x40000) (.sort x) ⟨6, 0x40000, 0, 0, false⟩ := by decide +kernel

/-- Of `SpawnEmitNeval`. -/
theorem witness_SpawnEmitNeval :
    let nd : Node := ⟨0x10000, 16, 4, 16, 100, 0, []⟩
    let g (free : List Nat) : Graph := ⟨16, 0x20400, 2, free, [nd]⟩
    let s (gr : Option Graph) : State := let s := data (ptr 0x20000 [(6, 3)]) [(.dev 0x40000 true, [1, 2, 3, 4, 5, 6, 7, 8, 9, 10, 11, 12, 13, 14, 15, 16]), (.dev 0x40200 true, leBytes 8 0 ++ leBytes 8 0x20300),
        (.dev 0x40300 true, [1, 2, 1, 0, 0, 0, 0, 0, 0, 0, 0, 0, 0, 0, 0, 0, 1])]
      { s with tasks := s.tasks.map (fun (T : Task) => { T with graph := gr, desc := { T.desc with handles := 0x20200 } }) }
    let spawn (n : BitVec 6) : Instr := .spawn (X 12 4 0 (if n = 0 then 0 else 4) n 0 0)
    let emit (n : BitVec 32) : Instr := .emit (X 0 4 0 0 0 0 n)
    let neval (h : BitVec 32) : Instr := .neval (X 12 6 0 0 0 0 h)
    let q : List (Node × List Nat) := ((after (emit 0) (s (some (g [1, 0])))).tasks.filterMap (fun T => T.graph)).flatMap (fun h => h.nodes.map (fun n => ({ n with recs := [] }, n.recs.map (·.1) ++ h.free)))
    gives (s none) (spawn 0) ((th (s none) 0).arch.write (.reg 12) .q 0x0001000000020100) ∧
    (after (spawn 4) (s none)).tasks.map (fun T => (T.parent, T.tok)) = [(none, none), (some 0, some 0x0001000000020100)] ∧
    traps (s none) (emit 0) ⟨0x0E, 0, 0, 0, false⟩ ∧ traps (s (some (g []))) (emit 1) ⟨0x0E, 0, 0, 0, false⟩ ∧
    meets (s (some (g []))) (emit 0) (fun _ _ _ _ => goes (exec (emit 0) (s (some (g [])))) (Spec.parked (s (some (g []))) 0 (.emit 0))) ∧
    gives (s (some (g [1, 0]))) (emit 0) (th (s none) 0).arch ∧ q = [(nd, [1, 0])] ∧
    (after (emit 0) (s (some (g [1, 0])))).bytesAt (.dev 0x40410 true) 16 = [1, 2, 3, 4, 5, 6, 7, 8, 9, 10, 11, 12, 13, 14, 15, 16] ∧
    gives (s none) (neval 1) (th (s none) 0).arch ∧ (after (neval 1) (s none)).ntiles.map (fun n => (n.handle, n.rows.map (fun r => (r.k, r.dst, r.x)))) = [(1, [(0, 12, [3, 0])])] ∧
    (th (after (neval 1) (s none)) 0).st = .parked .neval ∧ traps (s none) (neval 0) ⟨0x0E, 0, 0, 0, false⟩ := by decide +kernel

/-- An open or a closed tile of handle 1 with rows, and a thread that is about to join it. -/
def nevalState (rows : List NRow) (closed : Bool) : State :=
  let s := data (ptr 0x20000 [(6, 3)]) [(.dev 0x40200 true, leBytes 8 0 ++ leBytes 8 0x20300), (.dev 0x40300 true, [1, 2, 1, 0, 0, 0, 0, 0, 0, 0, 0, 0, 0, 0, 0, 0, 1])]
  { s with tasks := s.tasks.map (fun (T : Task) => { T with desc := { T.desc with handles := 0x20200 } }), ntiles := [⟨0, 0, 1, 0, closed, rows, [], true⟩] }

/-- Of `SpawnEmitNeval`: a row joins the tile that is open, and closes it as its 64th. -/
theorem witness_NevalJoins :
    let neval : Instr := .neval (X 12 6 0 0 0 0 1)
    let view (s : State) : List (Nat × Bool) := s.ntiles.map (fun (n : NTile) => (n.rows.length, n.closed))
    let r : NRow := ⟨7, 0, 12, []⟩
    gives (nevalState [r] false) neval (th (nevalState [] false) 0).arch ∧ view (after neval (nevalState [r] false)) = [(2, false)] ∧
    view (after neval (nevalState (List.replicate 63 r) false)) = [(64, true)] ∧ view (after neval (nevalState [r] true)) = [(1, true), (1, false)] := by decide +kernel

/-- Of `SourceOperands` and `DestinationTakesResult`: channel 3 holds 7 and 8 and, in its spill, 9. -/
theorem witness_SourceOperands :
    let ls (t : Thread) : Thread := withRegs [(4, 0x44), (5, 0x55)] { t with latches := [⟨0x123456789, 0, false, none⟩, ⟨6, 6, true, none⟩, ⟨5, 7, false, none⟩] }
    let s : State := let s := data ls []
      { s with tiles := s.tiles.map (fun (a : Tile) => { a with chans := [⟨3, 4, 2, false, 10, 0, 0, [7, 8], [9], [0], 0, false, 0, 0, 0, []⟩] }) }
    let q (u : State) := (u.chanAt (th u 0) 3).map (fun e => e.2.vals ++ e.2.spill)
    let mov (a : Src) : Instr := .movExt { X 12 0 0 0 0 0 0 with a := a, b := .src (.reg 0 false) }
    let ok (i : Instr) (v : Nat) (l : List QWord) := meets s i (fun _ _ _ _ => true) && decide (reg (after i s) 12 = v) && decide (q (after i s) = some l)
    let push : Instr := .movExt { X 0 4 0 0 0 0 0 with d := .push 3 false }
    ok (mov (.pop 3)) 7 [8, 9] ∧ ok (mov (.peek 3)) 7 [7, 8, 9] ∧ ok (mov (.latch 0)) 0x23456789 [7, 8, 9] ∧ ok (mov (.latch 1)) 6 [7, 8, 9] ∧
    goes (exec (mov (.latch 2)) s) (trapsAt s 0 (th s 0) (mov (.latch 2)) ⟨0x0B, 0, 2, 0, false⟩) ∧ ok (.addExt { X 12 4 0 0 0 0 (-1) with b := .imm }) 0x43 [7, 8, 9] ∧
    ok (.add ⟨.reg 12, 4, .imm 0x7F⟩) 0x43 [7, 8, 9] ∧ ok (.addExt { X 12 4 0 0 0 0 0 with b := .lit 0xF00000001 }) 0x45 [7, 8, 9] ∧
    q (after push s) = some [7, 8, 9, 0x44] ∧ (th (after push s) 0).latches.map (fun (l : Latch) => (l.val, l.age, l.n1)) = [(0x44, 0, false)] ∧
    (th (after (mov (.latch 0)) s) 0).latches.map (fun (l : Latch) => (l.val, l.age, l.n1)) = [(0x23456789, 0, false), (0x123456789, 1, false), (6, 7, true), (5, 8, false)] := by decide +kernel

/-- Of `SourceOperands`: fields a, b and c of one channel in their order, and of two channels. -/
theorem witness_ChannelFields :
    let s : State := let s := data id []
      { s with tiles := s.tiles.map (fun (a : Tile) => { a with chans := [⟨3, 4, 4, false, 10, 0, 0, [7, 8, 9], [], [], 0, false, 0, 0, 0, []⟩, ⟨4, 4, 4, false, 10, 0, 0, [2], [], [], 0, false, 0, 0, 0, []⟩] }) }
    let q (u : State) := (u.chanAt (th u 0) 3).map (fun e => e.2.vals ++ e.2.spill)
    let mad (a b c : Src) : Instr := .mad { X 12 0 0 0 0 0 0 with a := a, b := .src b, c := c }
    let ok (i : Instr) (v : Nat) (l : List QWord) := meets s i (fun _ _ cx _ => decide ((Spec.draw 3 (Spec.fields i) [7, 8, 9]).2 = l ∧
        ((Spec.draw 3 (Spec.fields i) [7, 8, 9]).1.zip (Spec.draw 4 (Spec.fields i) [2]).1).map (fun e => e.1.or e.2) = [some cx.va, some cx.vb, some cx.vc])) && decide (reg (after i s) 12 = v) && decide (q (after i s) = some l)
    ok (mad (.pop 3) (.pop 3) (.pop 3)) 65 [] ∧ ok (mad (.peek 3) (.pop 3) (.peek 3)) 57 [8, 9] ∧ ok (mad (.pop 3) (.peek 3) (.pop 3)) 64 [9] ∧ ok (mad (.pop 3) (.pop 4) (.peek 3)) 22 [8, 9] := by decide +kernel

/-! ### Device events -/

def canon (s : State) : Bool := decide s.mem.dev.wf && decide s.mem.host.wf && s.tiles.all (fun a => decide a.mem.wf) && s.threads.all (fun t => decide t.stack.wf)
theorem canon_sound {s : State} (h : canon s = true) : s.canonical := by
  simpa [canon, State.canonical, and_assoc] using h

/-- The control window in a state, with what is changed of it. -/
def win (st : BitVec 3) (f : Win → Win) (s : State) : State := { s with win := f { s.win with state := st } }

/-- Of `ResetsBootAndAttestation`. Which of the clauses on a verified image applies is a free value of the machine (log 8), so the
witness shows an image that is there, for which one of them does. -/
theorem witness_ResetsBootAndAttestation :
    let g : GrcEntry := ⟨0, 0x40080, 0x40010, 5, 0, 0, false, [], false⟩
    let s (st : BitVec 3) (a : BitVec 2) (n : Nat) : State := win st (fun w => { w with attst := a, refused := true })
      { data id [(.dev 0x40000 true, [1, 2, 3]), (.host 8, [9])] with pkg := { Pkg.reset with sigidx := n } }
    let gr (s : State) : State := { s with mem := { s.mem with grc := [g] } }
    let cl (u : State) := u.threads.isEmpty && u.tasks.isEmpty && u.tiles.isEmpty && decide (u.front = Front.reset ∧ u.win = { Win.reset with state := 1 } ∧ u.pkg.sigidx = 7)
    let r (img : List Byte) : BootReport := ⟨img, true, 5, 6, 7, 8, [], [], [], [], [], 9⟩
    let img : List Byte := [0x47, 0x4E, 0x48, 0x4D, 1] ++ List.replicate 9200 0
    cl (after .powerOn (s 2 0 7)) ∧ cl (after .coldReset (s 2 0 7)) ∧ canon (gr (s 3 0 7)) ∧ cl (after .warmReset (s 3 0 7)) ∧
    (after .warmReset (s 3 0 7)).bytesAt (.dev 0x40000 true) 3 = [1, 2, 3] ∧ (after .warmReset (s 3 0 7)).bytesAt (.host 8) 1 = [9] ∧
    goes (exec .coldReset (s 1 0 7)) (s 1 0 7) ∧ goes (exec .warmReset (s 1 0 7)) (s 1 0 7) ∧
    goes (exec (.boot (r (img.drop 1))) (s 1 0 7)) (win 3 (fun w => { w with fail := 1 }) (s 1 0 7)) ∧
    64 ≤ img.length ∧ leNat (img.take 4) = 0x4D484E47 ∧ 64 + leNat ((img.drop 8).take 4) + 9092 ≤ img.length ∧
    goes (exec .attestationStart (s 2 0 7)) (s 2 1 7) ∧ goes (exec .attestationStart (s 2 2 (2 ^ 20))) (s 2 3 (2 ^ 20)) ∧ goes (exec .attestationStart (s 2 1 7)) (s 2 1 7) ∧
    canon (s 2 1 7) ∧ (after .attestationComplete (s 2 1 7)).win.attst = 2 ∧ (after .attestationComplete (s 2 1 7)).pkg.sigidx = 8 := by decide +kernel

/-- Thread 0 in slot 5 of partition 1 of core 2, die 0, which the window selects; no issue is open. -/
def held (stops : List Nat) (f : Thread → Thread) : State :=
  let s := ready (fun t => f { t with core := 2, part := 1, slot := 5 }) id
  { s with front := { s.front with issue := none, stopReq := stops }, win := { s.win with state := 2, core := 2, part := 1, slot := 5 } }

theorem witness_DebugControls :
    let st (x : ThreadSt) (t : Thread) : Thread := { t with st := x }
    let sts (s : State) := s.threads.map (fun (t : Thread) => (t.st, t.pc))
    let p := 0x10000
    let no (s : State) (i : Instr) := goes (exec i s) (Spec.refused s)
    let kept (s : State) : State := { s with pkg := { s.pkg with tpolicy := 3 } }
    (held [] id).threads.map (·.pnum) = [9] ∧
    sts (after .partitionStop (held [] id)) = [(.stopped, p)] ∧ (after .partitionStop (held [] id)).front.stopReq = [9] ∧
    goes (exec .partitionStop (held [9] id)) (held [9] id) ∧ sts (after .partitionResume (held [9] (st .stopped))) = [(.ready, p)] ∧
    goes (exec .partitionResume (held [] id)) (held [] id) ∧ sts (after .partitionStep (held [9] (st .stopped))) = [(.ready, p)] ∧
    (after .partitionStep (held [9] (st .stopped))).front.step1 = [9] ∧ goes (exec .partitionStep (held [9] id)) (held [9] id) ∧
    no (held [9] id) .endThread ∧ no (held [9] id) .release ∧ no (held [9] id) (.threadWindowWrite 0x2F8 1) ∧
    no (held [9] (fun t => { t with slot := 6, st := .stopped })) .endThread ∧ sts (after .endThread (kept (held [9] (st .trapped)))) = [(.exited, p)] ∧
    no (held [9] (st .stopped)) .endThread ∧ no (held [9] (st .trapped)) .endThread ∧ no (kept (held [9] (st .stopped))) .release ∧ no (held [9] (st .trapped)) .release ∧
    sts (after .release (kept (held [9] (st .trapped)))) = [(.stopped, p)] ∧
    goes (exec (.threadWindowWrite 0 0x20004) (held [9] (st .stopped))) (held [9] (fun t => { t with st := .stopped, pc := 0x20004 })) ∧
    goes (exec (.threadWindowWrite 0x20 0x1F07007F0000) (held [9] (st .stopped))) (held [9] (fun t => { t with st := .stopped, preds := 127, fmode := 7, fflags := 31 })) ∧
    no (held [9] (st .stopped)) (.threadWindowWrite 0x10 0) ∧
    goes (exec (.threadWindowWrite 0x2F8 0xAAAAAAAABBBBBBBB) (held [9] (st .stopped))) (held [9] (fun t => withRegs [(126, 0xBBBBBBBB), (127, 0xAAAAAAAA)] { t with st := .stopped })) := by
  decide +kernel

/-- Of `DebugControls`: a pc written to a parked thread, a stop that closes the thread's tile, and the resume of one that was stopped in Trapped. -/
theorem witness_StoppedThreads :
    let st (x : ThreadSt) (t : Thread) : Thread := { t with st := x }
    let w : TWaitRec := ⟨0, false, 0, 0x20000, 5, 20, false, 0, 1, 0, 0x1000C, none⟩
    let a : Arrival := ⟨(0x69, 0, 0), true, false, 0, 0, 0, 0, 12⟩
    let go (t : Thread → Thread) := after (.threadWindowWrite 0 0x20004) (held [9] t)
    let view (s : State) := s.threads.map (fun (t : Thread) => (t.pc, decide (t.st = .stopped), t.tcount))
    let n (l : Nat) (c : Bool) : NTile := ⟨0, 0, 1, 0, c, [⟨0, 12, l, []⟩], [], true⟩
    let tile (s : State) : State := { s with ntiles := [n 12 false] }
    let pol (s : State) : State := { s with pkg := { s.pkg with tpolicy := 2, hvec := 0x1F000 } }
    view (go (st (.parked (.twait w)))) = [(0x20004, true, 0)] ∧ view (go (fun t => { t with tcount := 3, st := .parked (.rendezvous a) })) = [(0x20004, true, 2)] ∧
    (after (.threadWindowWrite 0 0x20004) (tile (held [9] (st (.parked .neval))))).ntiles = [n 0 false] ∧ (after .partitionStop (tile (held [] (st (.parked .neval))))).ntiles = [n 12 true] ∧
    (after .partitionResume (pol (held [9] (st .trapped)))).threads.map (fun t => (decide (t.st = .ready), t.pc, t.epc, t.sup)) = [(true, 0x1F000, 0x10000, true)] ∧
    (after .partitionResume (held [9] (st .trapped))).threads.map (fun t => decide (t.st = .trapped)) = [true] := by decide +kernel

theorem witness_WindowWritesAndSampling :
    let s (f : Win → Win) : State := let s := ready (fun t => { t with tag := 0xA5 }) id
      win 2 f { s with front := { s.front with issue := s.front.issue.map (fun q => { q with counted := false }) } }
    let i : Instr := .spectrographSample 0
    let on (w : Win) : Win := { w with spbase := 0x3000, splg := 4, spint := 31, tagmask := 0xF, tagval := 5, sphead := 7 }
    let spc (n : Nat) (s : State) : State := { s with front := { s.front with spcount := [(0, n)] } }
    let w (f : Win → Win) (off : BitVec 16) (v : BitVec 64) (g : Win → Win) := goes (exec (.controlWindowWrite off (some v)) (s f)) (s (fun x => g (f x)))
    let low (off : BitVec 16) (v : BitVec 64) (i : Instr) := goes (exec (.controlWindowWrite off (some v)) (s id)) (after i (s id))
    (after i (s id)).front.issue.map (·.counted) = some true ∧ (after i (s id)).front.spcount = [(0, 1)] ∧ (after i (s id)).win = (s id).win ∧
    (after i (s (fun x => { x with tagmask := 1 }))).front.spcount = [(0, 0)] ∧ (after i (spc (2 ^ 31 - 1) (s on))).win.sphead = 8 ∧
    (after i (spc (2 ^ 31 - 1) (s on))).bytesAt (.dev 0x30E0 true) 24 = leBytes 8 0 ++ leBytes 8 0x10000 ++ leBytes 4 0 ++ leBytes 4 0 ∧
    (after i (spc (2 ^ 31 - 2) (s on))).win = (s on).win ∧
    (after i (spc (2 ^ 31 - 1) (s (fun x => { on x with sphead := 16, spdrop := 0xFFFFFFFF })))).win.spdrop = 0xFFFFFFFF ∧
    (after i (spc (2 ^ 31 - 1) (s (fun x => { on x with sphead := 16 })))).win.spdrop = 1 ∧
    ((after (.budgetWrite 200000001) (s id)).powerOf 0).budget = 200000000 ∧ ((after (.budgetWrite 200000001) (s id)).powerOf 1) = ((s id).powerOf 1) ∧
    (after (.bbcCounterWrite 255 77) (s id)).bbcRead 255 = 77 ∧ (after (.bbcCounterWrite 255 77) (s id)).bbcRead 254 = 0 ∧
    goes (exec (.spectrographRingConfig false 0x5000) (s on)) (s (fun x => { on x with spbase := 0x5000, sphead := 0 })) ∧
    w id 0x018 0x1F (fun x => { x with mqlg := 15 }) ∧ w id 0x200 0x1FF033F03 (fun x => { x with die := 3, core := 63, part := 3, slot := 511 }) ∧
    w id 0x078 9 (fun x => { x with ecc := x.ecc.set 3 9 }) ∧ w (fun x => { x with refused := true }) 0x210 2 (fun x => { x with refused := false }) ∧
    w (fun x => { x with refused := true }) 0x210 1 id ∧ low 0x008 1 .warmReset ∧ low 0x008 6 .coldReset ∧ w id 0x008 3 id ∧ low 0x050 1 .attestationStart ∧
    low 0x108 5 (.spectrographRingConfig true 5) ∧ low 0x300 5 (.budgetWrite 5) ∧ low 0x208 1 .partitionStop ∧ low 0x208 16 .release ∧
    low 0x17F8 5 (.bbcCounterWrite 255 5) ∧ low 0x22F8 5 (.threadWindowWrite 0x2F8 5) ∧ w id 0x2300 5 id ∧ w id 0x400 5 id ∧ w id 0xFF8 5 id ∧ w id 0x320 5 id := by decide +kernel

/-- Tables at 0x100000 that map 0x10000 for reading and executing, 0x20000 for reading and writing, 0x30000 for reading, and 0x40000 in migration,
in a package that is ready, with a host port. -/
def mapped (s : State) (l : List (Place × List Byte)) : State :=
  let s := store ([(.dev 0x100000 true, leBytes 8 0x110001), (.dev 0x110000 true, leBytes 8 0x120001), (.dev 0x120000 true, leBytes 8 0x121001),
    (.dev 0x121008 true, leBytes 8 0x10017 ++ leBytes 8 0x4000F ++ leBytes 8 0x50007 ++ leBytes 8 0x6010F)] ++ l) s
  { s with win := { s.win with state := 2 }, pkg := { s.pkg with port := (64, 8, true) } }

/-- The next entry of the management queue. -/
def mq (e : List Byte) (s : State) : State :=
  let s := mapped s [(.dev 0x1000 true, e)]
  { s with win := { s.win with mqbase := 0x1000, mqtail := 1 } }

theorem witness_ManagementCommands :
    let e (c a0 a1 a2 : Nat) := Spec.entry c a0 a1 a2 0 0x2000 0xFFFF
    let s (c a0 a1 a2 : Nat) : State := mq (e c a0 a1 a2) State.reset
    let ans (u : State) (st : Nat) := u.win.mqhead == 1 && u.bytesAt (.dev 0x2000 true) 16 == leBytes 8 (st + 0xFFFF * 2 ^ 48) ++ leBytes 8 0
    let blk := Spec.queueBlock 0x20000 0x20080 0x200FC 0x100000 16 15
    let sq (b : List Byte) : State := mq (e 1 63 0x4000 0) (store [(.dev 0x4000 true, b)] State.reset)
    let q : Queue := ⟨true, false, 0x20000, 0x20000, 0x20084, 0x100000, 16, 15, 0, 0⟩
    let hold (s : State) : State := { s with tasks := [{ fetchTask with tlbRoot := 0x100000, tlb := [⟨0x20000, 65536, 0x40000, false, false, true, true, false⟩] }] }
    let leaf (s : State) := leNat (s.bytesAt (.dev 0x121010 true) 8)
    let o (m : Bool) (n : Nat) (b : Bool) : PageOp := ⟨m, 0x100000, 0x20000, n, 0x2000, 0xFFFF, b⟩
    let mig := s 3 0x100000 0x20000 0x70000
    let busy : State := { mig with pkg := { mig.pkg with pageOps := [o true 0x80000 true] } }
    let bias := s 4 0x100000 0x20000 1
    let can : State := let u := s 5 0xABCD 0 0
      { u with tasks := [{ fetchTask with num := 0xABCD }], threads := [fetchThread 0] }
    let bad (b : List Byte) := ans (after .mqInvalidCommand (mq b State.reset)) 6
    canon (sq blk) ∧ (sq blk).bytesAt (.dev 0x1000 true) 64 = e 1 63 0x4000 0 ∧ ans (after .queueSet (sq (blk.set 8 0))) 1 ∧ (after .queueSet (sq (Spec.queueBlock 0x20000 0x20000 0x20084 0x100000 16 15))).queue? 63 = some q ∧
    ans (after .queueStop { s 2 63 0 0 with pkg := { (s 2 63 0 0).pkg with queues := [(63, q)] } }) 1 ∧
    (after .queueStop { s 2 63 0 0 with pkg := { (s 2 63 0 0).pkg with queues := [(63, q)] } }).queue? 63 = some { q with stopped := true } ∧
    (mig.walk 0x100000 0x20000).map (fun l => (l.tlb.va, l.tlb.size, l.entry)) = some (0x20000, 65536, 0x121010) ∧
    ans (after .migrate (hold mig)) 0x0D ∧ ((after .migrate mig).pkg.pageOps = [o true 0x70000 true] ∧ leaf (after .migrate mig) = 0x4010F) ∧
    (after .migrate busy).pkg.pageOps = [o true 0x80000 true, o true 0x70000 false] ∧ leaf (after .migrate busy) = 0x4000F ∧
    ans (after .bias (hold bias)) 0x0D ∧ (after .bias bias).pkg.pageOps = [o false 1 true] ∧
    ans (after .cancel can) 1 ∧ (after .cancel can).threads.map (·.st) = [.exited] ∧ (after .cancel can).tasks.map (·.cause) = [some ⟨8, 0, 0⟩] ∧
    ans (after .watchdog (s 6 100 0 0)) 1 ∧ (after .watchdog (s 6 10000000 0 0)).pkg.watchdog = 10000000 ∧
    bad (e 0 0 0 0) ∧ bad (e 7 0 0 0) ∧ bad (e 1 64 0 0) ∧ bad (e 2 64 0 0) ∧ bad (e 6 99 0 0) ∧ bad (e 6 10000001 0 0) ∧ bad ((e 2 0 0 0).set 7 1) ∧ bad ((e 2 0 0 0).set 63 1) := by
  decide +kernel

/-- Of `PageOperationsComplete`; of a migration, whose page is long, its hypotheses, and of a change of bias what follows too. -/
theorem witness_PageOperationsComplete :
    let o (m : Bool) (n : Nat) : PageOp := ⟨m, 0x100000, 0x20000, n, 0x2000, 0xFFFF, true⟩
    let s (p : PageOp) : State := let u := mapped State.reset []
      { u with pkg := { u.pkg with pageOps := [p] } }
    let u := after .biasFlipComplete (s (o false 1))
    canon (s (o true 0x70000)) ∧ ((s (o true 0x70000)).walk 0x100000 0x20000).map (fun l => l.tlb.size) = some 65536 ∧ 0x70000 % 65536 = 0 ∧
    u.pkg.pageOps = [] ∧ leNat (u.bytesAt (.dev 0x121010 true) 8) = 0x4002F ∧ u.bytesAt (.dev 0x2000 true) 16 = leBytes 8 (1 + 0xFFFF * 2 ^ 48) ++ leBytes 8 0 := by decide +kernel

/-- A task of the tables, not yet running. -/
def launching (p : Phase) (f : Task → Task) : Task := f { fetchTask with phase := p, tlbRoot := 0x100000, tlb := [], desc := { fetchDesc with ptroot := 0x100000 } }

theorem witness_TaskLaunch :
    let q : Queue := ⟨true, false, 0x20000, 0x20280, 0x202C0, 0x100000, 4, 9, 0, 16⟩
    let s (q : Queue) : State := let s := mapped State.reset [(.dev 0x40280 true, [5]), (.dev 0x40006 true, [0x2F])]
      { s with pkg := { s.pkg with queues := [(3, q)] } }
    let far : Queue := { q with tail := 17 }
    let u := after (.submissionSlotRead 3) (s q)
    let dep (st : Nat) : State := { mapped State.reset [(.dev 0x40100 true, leBytes 16 (st + 7 * 2 ^ 48))] with
      tasks := [launching .waitDeps (fun (T : Task) => { T with desc := { T.desc with deps := [0, 0x0007000000020100, 0, 0], ndep := 2 } })] }
    let ten (base : Nat) : State := { mapped State.reset [] with tasks := [launching .waitTenure (fun (T : Task) => { T with tenure := [⟨base, 65536, true⟩] })] }
    let ph (s : State) := s.tasks.map (fun (T : Task) => T.phase)
    (after (.tailStoreRecall 3) (s q)).queue? 3 = some { q with tail := 5 } ∧ (after (.submissionSlotRead 3) (s far)).queue? 3 = some { far with stopped := true } ∧
    (after (.submissionSlotRead 3) (s far)).pkg.qerrors = [3] ∧ (s q).migAt q.ptroot 0x20000 256 2 = false ∧ u.queue? 3 = some { q with head := 1 } ∧
    u.tasks.map (fun (T : Task) => (T.queue, T.tlbRoot, T.prio, T.raw)) = [(some 3, 0x100000, 9, [0, 0, 0, 0, 0, 0, 0x2F] ++ List.replicate 249 0)] ∧
    (dep 1).devRead 0x100000 0x20100 16 = some (leBytes 16 (1 + 7 * 2 ^ 48), List.replicate 16 false) ∧
    ph (after (.taskDependencesComplete 0) (dep 1)) = [.waitTenure] ∧ ph (after (.taskDependencesComplete 0) (dep 8)) = [.complete] ∧
    ph (after (.taskDependencesComplete 0) (dep 0)) = [.waitDeps] ∧ ph (after (.tenureGrant 0) (ten 0x20000)) = [.placing] ∧
    (after (.tenureGrant 0) (ten 0x20000)).tasks.map (fun (T : Task) => T.tlb.map (fun e => (e.va, e.pa))) = [[(0x20000, 0x40000), (0x10000, 0x10000)]] ∧
    ph (after (.tenureGrant 0) (ten 0x30000)) = [.complete] ∧ ph (after (.tenureGrant 0) (ten 0x50000)) = [.complete] ∧
    ph (after (.tenureGrant 0) (ten 0x40000)) = [.waitTenure] := by decide +kernel

/-- Of `TaskLaunch`: the status record of a launch whose dependence failed, of one with a page that is not there, of one without the right, and of the
second region's; and what a wait holds meanwhile. -/
theorem witness_LaunchFailures :
    let d (T : Task) : Task := { T with desc := { T.desc with status := 0x20010, sseq := 9, deps := [0, 0x0007000000020100, 0, 0], ndep := 2 } }
    let dep : State := { mapped State.reset [(.dev 0x40100 true, leBytes 16 (8 + 7 * 2 ^ 48))] with tasks := [launching .waitDeps d] }
    let ten (l : List TenRegion) : State := { mapped State.reset [] with tasks := [launching .waitTenure (fun (T : Task) => { d T with tenure := l })] }
    let status (s : State) := s.bytesAt (.dev 0x40010 true) 16
    let held (s : State) := s.tasks.map (fun (T : Task) => (T.phase, T.tlb.map (·.va)))
    let record (st det n : Nat) := leBytes 8 (st + det * 2 ^ 16 + 9 * 2 ^ 48) ++ leBytes 8 n
    dep.migAt 0x100000 0x20010 16 2 = false ∧ dep.migAt 0x100000 0x20100 16 2 = false ∧
    status (after (.taskDependencesComplete 0) dep) = record 9 1 0 ∧ status (after (.tenureGrant 0) (ten [⟨0x50000, 65536, true⟩])) = record 0x0A 0 0x50000 ∧
    status (after (.tenureGrant 0) (ten [⟨0x20000, 65536, true⟩, ⟨0x20000, 0x20000, true⟩])) = record 0x0A 1 0x30000 ∧
    held (after (.tenureGrant 0) (ten [⟨0x20000, 65536, true⟩, ⟨0x40000, 65536, false⟩])) = [(.waitTenure, [0x20000])] := by decide +kernel

/-- Of `TaskLaunch`: a slot that cannot be read and one with poison. -/
theorem witness_SlotErrors :
    let q (r : Nat) : Queue := ⟨true, false, r, 0x20280, 0x202C0, 0x100000, 4, 9, 0, 16⟩
    let s (r : Nat) : State := let s := mapped State.reset []
      { s with pkg := { s.pkg with queues := [(3, q r)] }, mem := { s.mem with dev := s.mem.dev.poison 0x2000 } }
    let u (r : Nat) := after (.submissionSlotRead 3) (s r)
    (u 0x20000).queue? 3 = some { q 0x20000 with stopped := true } ∧ (u 0x20000).pkg.qerrors = [3] ∧ (u 0x50000).queue? 3 = some { q 0x50000 with stopped := true } ∧
    (u 0x20100).queue? 3 = some { q 0x20100 with head := 1 } := by decide +kernel

theorem witness_TaskPlacementAndCompletion :
    let s (tid : Nat) : State := { mapped State.reset [] with tasks := [launching .placing (fun (T : Task) => { T with nextTid := tid, desc := { T.desc with nthreads := 3, tlog2 := 1 } })] }
    let place : Instr := .teamPlacement 0 191 3 382
    let view (s : State) := s.threads.map (fun (t : Thread) => [t.tid.toNat, t.ntid.toNat, t.core, t.part, t.slot, t.pc.toNat])
    let task (s : State) := s.tasks.map (fun (T : Task) => (T.nextTid, T.phase))
    (s 0).mayUse 0 191 = true ∧ (s 0).mayServe 0 191 = true ∧ view (after place (s 0)) = [[0, 3, 191, 3, 382, 0x10000], [1, 3, 191, 3, 383, 0x10000]] ∧
    task (after place (s 0)) = [(2, .placing)] ∧ view (after place (s 2)) = [[2, 3, 191, 3, 382, 0x10000]] ∧ task (after place (s 2)) = [(3, .running)] ∧
    readRegs (th (after place (s 2)) 0).regs 124 2 = 0xFE00000000001000 := by decide +kernel
theorem witness_TaskCompletion :
    let d (T : Task) : Task := { T with desc := { T.desc with msix := true, vector := 2047, status := 0x20010, sseq := 9, tile := 8 } }
    let run : State := { data (fun t => { t with st := .exited }) [] with tasks := [launching .running d], front := Front.reset, pkg := (mapped State.reset []).pkg, mem := (mapped State.reset []).mem }
    let u := after (.taskComplete 0) run
    u.tasks.map (fun (T : Task) => T.phase) = [.complete] ∧ u.pkg.msix = [2047] ∧ u.tiles.map (fun (a : Tile) => a.live) = [false] ∧
    u.bytesAt (.dev 0x40010 true) 16 = leBytes 8 (1 + 9 * 2 ^ 48) ++ leBytes 8 0 := by decide +kernel

/-- A victim with one thread on core 0 and a waiter of higher priority that needs that core's whole tile store. -/
def contended (rep : Bool) (f : Thread → Thread) : State :=
  let s := data f []
  { s with
    tasks := s.tasks.map (fun (T : Task) => { T with raw := List.replicate 256 0, desc := { T.desc with replay := rep } }) ++ [launching .placing (fun (T : Task) => { T with num := 1, prio := 1, nextTid := 0, desc := { T.desc with tile := 8192, coremask := 1 } })]
    front := Front.reset, win := { s.win with state := 2, savebase := 0x200000, savesize := 0x10000000 } }

theorem witness_PreemptionAndResume :
    let f := withRegs [(9, 0x99)]
    let s := contended false f
    let u := after (.preemptSection 1) s
    let view (s : State) := s.threads.map (fun (t : Thread) => ([t.core, t.part, t.slot, t.pc.toNat, (t.regs.getD 9 0).toNat], t.st))
    s.preemptTarget 1 = some (0, 0) ∧ s.tileOf 0 0 = some 0 ∧ canon s ∧
    4194304 + s.pkg.saveNext + (saveLayout (s.sectionThreads 0 0).length 128 8 0 0 (s.accOf 0 0).isSome).size ≤ s.win.savesize.toNat ∧
    view u = [([0, 0, 0, 0x10000, 0x99], .saved 0 0)] ∧ u.tiles.map (·.live) = [false] ∧ (u.tasks.map (fun (T : Task) => T.sections.map (fun c => (c.core, c.tile, c.threads)))) = [[(0, 0, [0])], []] := by decide +kernel
/-- Of the same, a replayable victim: it is killed and begins launch again, which its descriptor of zeros does not pass. -/
theorem witness_ReplayKill :
    let v := after (.preemptSection 1) (contended true id)
    (contended true id).preemptTarget 1 = some (0, 0) ∧ v.threads.map (·.st) = [.exited] ∧ v.tiles.map (·.live) = [false] ∧
    v.tasks.map (fun (T : Task) => (T.replayed, T.phase, T.sections.length, T.nextTid)) = [(true, .complete, 0, 0), (false, .placing, 0, 0)] := by decide +kernel

/-- A section of one thread of 16 registers in the save area: its record, a byte of its tile image and its presence bits stand in memory, and its
registers nowhere else. -/
def savedState (code : Nat) (policy : BitVec 48) : State :=
  let lay := saveLayout 1 16 1 0 0 false
  let t := withRegs [(9, 0x99), (127, 0x77)] { fetchThread 0 with
    regsN := 16, pc := 0x10040, lk := 0x123456789A, preds := 5, fmode := 6, fflags := 9, trec := (fetchThread 0).trec.set 0 0x111, shadow := [1, 2] }
  let s := data (fun t => { t with regsN := 16, st := .saved code 0 }) [(.dev (0x200000 + lay.thr) true, threadRecord t (code, 0) (List.replicate 192 0)),
    (.dev (0x200000 + lay.timg + 8) true, [0xAB]), (.dev (0x200000 + lay.pres) true, [0xFE])]
  { s with
    tasks := s.tasks.map (fun (T : Task) => { T with desc := { T.desc with tile := 1 }, sections := [⟨0, 0x200000, 0, 0, [0], [], none, none, 16, lay, []⟩] })
    tiles := s.tiles.map (fun (a : Tile) => { a with live := false })
    front := Front.reset, pkg := { s.pkg with tpolicy := policy, hvec := 0x1F000 }, win := { s.win with state := 2, savebase := 0x200000, savesize := 0x10000000 } }

/-- What the section of `savedState` comes back as on core 5, and the views of a state that show it. -/
def resumed (code : Nat) (policy : BitVec 48) : State := after (.sectionResume 0 0 5 [3]) (savedState code policy)
def placeOf (s : State) : List (List Nat) := s.threads.map (fun (t : Thread) => [t.core, t.part, t.slot, t.pc.toNat])
def fieldsOf (s : State) : List (List Nat) :=
  s.threads.map (fun (t : Thread) => [(t.regs.getD 9 0).toNat, (t.regs.getD 127 0).toNat, t.lk.toNat, t.preds.toNat, t.fmode.toNat, t.fflags.toNat])

/-- The resume of a thread that was Ready. -/
theorem witness_Resume :
    let s := savedState 0 0
    let u := resumed 0 0
    s.mayServe 0 5 ∧ s.tileOf 0 5 = none ∧ s.resumeFits 5 (s.threads.zip [3]) ∧ placeOf u = [[5, 0, 192, 0x10040]] ∧ fieldsOf u = [[0x99, 0x77, 0x123456789A, 5, 6, 9]] ∧
    u.threads.map (fun (t : Thread) => (t.shadow, decide (t.st = .ready))) = [([1, 2], true)] ∧ u.tasks.map (fun (T : Task) => T.sections.length) = [0] ∧
    u.tiles.map (fun (b : Tile) => (b.live, b.core, b.absent)) = [(true, 5, [0])] ∧ u.tiles.map (fun (b : Tile) => b.mem.bytes) = [[(8, 0xAB)]] := by decide +kernel

/-- The resume of one held under policy 11, and of one held under policy 10, which enters its handler. -/
theorem witness_ResumeTrapped :
    let st (s : State) := s.threads.map (fun (t : Thread) => decide (t.st = .trapped))
    st (resumed 2 (3 * 2 ^ 34)) = [true] ∧ placeOf (resumed 2 (3 * 2 ^ 34)) = [[5, 0, 192, 0x10040]] ∧
    (resumed 2 (3 * 2 ^ 34)).threads.map (fun (t : Thread) => t.trec[0]) = [0x111] ∧ st (resumed 2 (2 * 2 ^ 34)) = [false] ∧
    placeOf (resumed 2 (2 * 2 ^ 34)) = [[5, 0, 192, 0x1F000]] := by decide +kernel

/-- Of `PreemptionAndResume`: the places of a record's fields, at the ends of their ranges. -/
theorem witness_ThreadRecord :
    let t := withRegs [(0, 0xA5), (15, 0x5A), (124, 0x77), (127, 0x78)] { fetchThread 0 with
      regsN := 16, pc := 0x10040, tid := 0xFFFFFFFF, part := 3, slot := 383, lk := 0x123456789A, preds := 127, fmode := 7, fflags := 31, trec := (fetchThread 0).trec.set 7 (-1) }
    let f (o n : Nat) := leNat (((threadRecord t (2, 15) (List.replicate 192 0)).drop o).take n)
    (threadRecord t (2, 15) (List.replicate 192 0)).length = 320 ∧ f 0 8 = 0x10040 ∧ f 8 4 = 0xFFFFFFFF ∧ f 0xC 1 % 4 = 2 ∧ f 0xD 1 % 16 = 15 ∧ f 0xE 1 % 4 = 3 ∧ f 0xF 1 % 64 = 63 ∧
    f 0x18 8 = 0x123456789A ∧ f 0x22 1 = 255 ∧ f 0x24 1 % 8 = 7 ∧ f 0x25 1 % 32 = 31 ∧ f 0x100 4 = 0xA5 ∧ f 0x13C 4 = 0x5A ∧ f 0x30 4 = 0x77 ∧ f 0x3C 4 = 0x78 ∧
    f 0xF8 8 = 2 ^ 64 - 1 := by decide +kernel

/-- A command of the task, with a token of its pool. -/
def cmd (k : CmdKind) (block : List Byte) (st : CmdSt) : Cmd :=
  { kind := k, task := 0, k := 0, core := 0, addr := 0xFF00000000000000, tok := 0x0001000000020100, block := block, st := st, no := 0, mma := ⟨[], false, 0, 0, 0, [], 0, 0⟩,
    copy := ⟨0, 0, 0, 0, none, false, [], []⟩, sort := ⟨0, false, false, 0, 0, [], 0, 0, false⟩, coll := ⟨false⟩, result := ⟨0, 0, 0⟩, leave := false, head := false, tile := 0 }

theorem witness_ThreadEvents :
    let pe (ret : Bool) (bad : Option TrapInfo) (n : Nat) : Pend := ⟨n, 1, 1, 0x77, bad, 0x10000, 8, ret, n⟩
    let dirty := some ⟨0x16, 5, 0, 0, false⟩
    let s (b : Option TrapInfo) : State := data (fun t => { t with pend := [pe true dirty 4, pe false b 5, pe false none 6] }) []
    let view (s : State) := ((th s 0).pend.map (fun p => (p.first, p.returned)), reg s 5)
    let c (ls : List Nat) : Cmd := { cmd .copy [] .running with copy := ⟨0, 0, 0, 0, none, false, ls, []⟩ }
    let cs (l : List Cmd) : State := let s := data id []
      { s with tiles := s.tiles.map (fun (a : Tile) => { a with absent := [3, 4] }), cmds := l }
    let land (l : List Cmd) := (after (.copyDataLanding 0 3) (cs l)).tiles.map (·.absent)
    let ex : State := { mapped State.reset [(.dev 0x40008 true, leBytes 8 (2 ^ 64 - 1))] with
      tasks := [launching .running (fun (T : Task) => { T with desc := { T.desc with ccount := 0x20008 } })], threads := [{ fetchThread 0 with st := .exiting }] }
    let now (n : BitVec 64) (s : State) : State := { s with time := n }
    let bin (n : BitVec 64) : State := let s := now n (data id [])
      { s with front := { s.front with issue := none, bins := [⟨0, 0, 0x10000, [⟨0, 0, 20, false⟩], none, none, none⟩] } }
    let grp : State := let s := now 16 (data (fun t => { t with pend := [pe false none 4] }) [code (.prf (X 0 4 0 0 0 0 0))])
      { s with threads := s.threads ++ [{ th s 0 with pend := [], slot := 1 }], front := { s.front with issue := none, groups := [⟨0, [0, 1], 0, none⟩] } }
    canon (s none) ∧ view (after (.loadDataReturn 0) (s none)) = ([(4, true), (6, false)], 0x77) ∧ view (after (.loadDataReturn 0) (s dirty)) = ([(4, true), (5, true), (6, false)], 0) ∧
    3 ∉ (cs [c [3]]).copyRemaining (c [3]) ∧ land [c [3]] = [[4]] ∧ land [c [3], c [3]] = [[3, 4]] ∧
    canon ex ∧ (after (.exitComplete 0) ex).bytesAt (.dev 0x40008 true) 8 = leBytes 8 0 ∧ (after (.exitComplete 0) ex).tasks.map (·.exits) = [1] ∧ (th (after (.exitComplete 0) ex) 0).st = .exited ∧
    (after (.binAgeExpiry 0 0) (bin 20)).front.bins.map (·.elig) = [some 20] ∧ (after (.binAgeExpiry 0 0) (bin 19)).front.bins.map (·.elig) = [none] ∧
    grp.pendingOps 0 = true ∧ grp.pendingOps 1 = false ∧ (after (.memoryWaitSplit 0 0) grp).threads.map (·.st) = [.parked .memory, .ready] := by decide +kernel

theorem witness_WaitEvents :
    let w : TWaitRec := ⟨0, false, 0, 0x20000, 5, 20, false, 0, 1, 0, 0x1000C, none⟩
    let s (n : BitVec 64) (m : Byte) : State := { data (fun t => { t with st := .parked (.twait w) }) [(.dev 0x40000 true, [m])] with front := Front.reset, time := n }
    let view (s : State) := ((th s 0).st, (th s 0).preds.toNat, (th s 0).pc.toNat)
    let h : Chan := ⟨3, 4, 4, false, 10, 0, 0, [1, 2, 3, 4], [], [], 0, false, 0, 0, 0, []⟩
    let c (n : BitVec 64) : State := let s := data (fun t => { t with st := .parked (.channel 3 true) }) [code (.movExt { X 0 4 0 0 0 0 0 with d := .push 3 false })]
      { s with
        tasks := s.tasks.map (fun (T : Task) => { T with chunks := [0, 1], desc := { T.desc with ovfbase := 0x20000, ovfsize := 0x10000 } })
        tiles := s.tiles.map (fun (a : Tile) => { a with chans := [h] }), front := Front.reset, time := n }
    let late (n : BitVec 64) : State := { c n with tiles := (c n).tiles.map (fun (a : Tile) => { a with chans := [{ h with full := 5 }] }) }
    (s 0 5).resolve 0 (th (s 0 5) 0) 0x20000 4 4 false = .ok (.dev 0x40000 true) ∧ goes (exec (.channelSpill 0) (late 14)) (late 14) ∧
    (after (.channelSpill 0) (late 15)).front.issue.isSome ∧
    view (after (.twaitReevaluate 0) (s 0 5)) = (.ready, 2, 0x1000C) ∧ view (after (.twaitReevaluate 0) (s 0 6)) = (.parked (.twait w), 0, 0x10000) ∧
    view (after (.twaitTimeout 0) (s 20 6)) = (.ready, 0, 0x1000C) ∧ view (after (.twaitTimeout 0) (s 20 5)) = (.ready, 2, 0x1000C) ∧ goes (exec (.twaitTimeout 0) (s 19 5)) (s 19 5) ∧
    (c 10).channelWait 0 (th (c 10) 0) = some (3, true) ∧ ((c 10).setChan 0 { h with due := true }).waitNow 0 (th (c 10) 0) = none ∧
    (after (.channelSpill 0) (c 10)).front.issue.map (fun q => (q.left, q.wake)) = some ([0], true) ∧
    (after (.channelSpill 0) (c 10)).tiles.map (fun a => a.chans.map (·.due)) = [[true]] ∧ goes (exec (.channelSpill 0) (c 9)) (c 9) := by decide +kernel

theorem witness_GraphsDeadlockAndEvaluation :
    let nd (l : List (Nat × Nat)) (b : Nat) : Node := ⟨0x10040, 16, b, 16, 100, 0, l⟩
    let g (ns : List Node) : Graph := ⟨16, 0x20400, 4, [], ns⟩
    let s (n : BitVec 64) (ns : List Node) : State := let s := data id []
      { s with tasks := s.tasks.map (fun (T : Task) => { T with graph := some (g ns) }), time := n }
    let two := s 99 [nd [(2, 0), (1, 1)] 2, nd [(3, 1)] 1]
    let late := s 100 [nd [(2, 0), (1, 1)] 3]
    let view (s : State) := (s.threads.drop 1).map (fun (t : Thread) => [t.tid.toNat, t.slot, t.pc.toNat, t.recAddr.toNat, t.regsN, t.node.getD 9])
    let left (s : State) := s.tasks.map (fun (T : Task) => T.graph.map (fun g => g.nodes.map (fun n => n.recs.length)))
    let launch : Instr := .nodeBatchLaunch 0 0 0 0 [1, 66]
    view (after launch two) = [[0, 1, 0x10040, 0x20420, 16, 0], [1, 66, 0x10040, 0x20410, 16, 0]] ∧ left (after launch two) = [some [0, 1]] ∧
    left (after (.nodeBatchTimeout 0 0 0 0 [1, 66]) late) = [some [0]] ∧ (view (after (.nodeBatchTimeout 0 0 0 0 [1, 66]) late)).length = 2 := by decide +kernel
theorem witness_DeadlockAndEvaluation :
    let g (ns : List Node) : Graph := ⟨16, 0x20400, 4, [], ns⟩
    let s (n : BitVec 64) (ns : List Node) : State := let s := data id []
      { s with tasks := s.tasks.map (fun (T : Task) => { T with graph := some (g ns) }), time := n }
    let dead (n : BitVec 64) : State := let s := data (fun t => { t with st := .parked (.channel 3 false) }) [code (.movExt { X 12 0 0 0 0 0 0 with a := .pop 3 })]
      { s with tiles := s.tiles.map (fun (a : Tile) => { a with chans := [⟨3, 4, 4, false, 0, 0, 0, [], [], [], 0, false, 0, 0, 0, []⟩] }), front := Front.reset, time := n, pkg := { s.pkg with tpolicy := BitVec.ofNat 48 (3 * 2 ^ 36) } }
    let dsc := leBytes 16 0x10201 ++ leBytes 8 1 ++ leBytes 8 0x20400 ++ leBytes 8 0x20500 ++ List.replicate 88 0
    let tl (n : BitVec 64) (cl : Bool) : State := let s := data (fun t => { t with st := .parked .neval }) [(.dev 0x40400 true, [0x80, 0x3F, 0, 0x40]), (.dev 0x40500 true, [0, 0, 0, 0x3F])]
      { s with ntiles := [⟨0, 0, 1, 0, cl, [⟨0, 12, 8, [0x40400000, 0x3F800000]⟩], dsc, true⟩], time := n }
    (dead 1000000).taskDead [0] (1000 * (dead 0).pkg.watchdog) 0 ∧ (dead 999999).taskDead [0] (1000 * (dead 0).pkg.watchdog) 0 = false ∧
    (dead 0).counted 0 (th (dead 0) 0) = some ⟨1, 3, 0⟩ ∧ (th (after (.watchdogExpiry [0]) (dead 1000000)) 0).st = .trapped ∧ (th (after (.watchdogExpiry [0]) (dead 1000000)) 0).trec[0].toNat % 256 = 0x12 ∧
    (after (.nevalTileTimeout 0) (tl 128 false)).ntiles.map (·.closed) = [true] ∧ (after (.nevalTileTimeout 0) (tl 127 false)).ntiles.map (·.closed) = [false] ∧
    (tl 0 true).nevWaits 0 dsc = false ∧ (th (after (.nevalTileRun 0) (tl 0 true)) 0).st = .ready ∧ (th (after (.nevalTileRun 0) (tl 0 true)) 0).pc = 0x10008 ∧
    reg (after (.nevalTileRun 0) (tl 0 true)) 12 = 0x40B00000 := by decide +kernel

/-- The task of `data` under the tables, with commands, and with an accumulator region on its core. -/
def eng (l : List (Place × List Byte)) (cs : List Cmd) : State :=
  let s := mapped (data id []) l
  { s with tasks := s.tasks.map (fun (T : Task) => { T with tlbRoot := 0x100000, desc := { T.desc with ptroot := 0x100000 } }), front := Front.reset, cmds := cs, accs := [⟨0, 0, 0, [], [], false⟩] }

def cmd0 (s : State) : Cmd := s.cmds.getD 0 (cmd .mma [] .queued)

/-- The token of a command of `cmd`, with a status, a detail and a count. -/
def tokenIs (s : State) (st d n : Nat) : Bool := s.bytesAt (.dev 0x40100 true) 16 == leBytes 8 (st + d * 2 ^ 16 + 2 ^ 48) ++ leBytes 8 n

/-- Of `MatrixCommands`: A is (1, 2) and B is (1, 1), in BF16, one column of K at a time, the sum kept. -/
theorem witness_MatrixCommands :
    let blk (a : Nat) := leBytes 8 (2 * 2 ^ 11 + 2 ^ 19 + 2 ^ 22) ++ leBytes 8 (1 + 2 ^ 8 + 2 ^ 18) ++ leBytes 4 1 ++ leBytes 4 1 ++ leBytes 8 2 ++ leBytes 8 a ++
      leBytes 8 0xFF00000000000004 ++ List.replicate 24 0 ++ leBytes 4 4 ++ leBytes 4 4 ++ List.replicate 8 0 ++ leBytes 8 (2 + 2 ^ 50) ++ List.replicate 32 0
    let s (c : Cmd) : State := eng [(.tile 0 0, [0x80, 0x3F, 0, 0x40, 0x80, 0x3F, 0x80, 0x3F])] [c]
    let run (a : Nat) (v : List Nat) (f : Bool) : State := s { cmd .mma (blk a) .running with mma := ⟨v, f, 0, 0, 0, [], 0, 0⟩, leave := true }
    let t := 0xFF00000000000000
    let go (u : State) := (cmd0 (after (.mmaIteration 0) u))
    let ended : State := s { cmd .mma (blk t) .ended with result := ⟨1, 0, 2⟩ }
    let bad := s (cmd .mma (List.replicate 128 0) .queued)
    (s (cmd .mma (blk t) .queued)).mmaNext 0 = some 0 ∧ mmaFail (blk t) true = none ∧ ((cmd0 (after (.mmaStart 0) (s (cmd .mma (blk t) .queued)))).st = .running ∧
      (cmd0 (after (.mmaStart 0) (s (cmd .mma (blk t) .queued)))).mma.vec = [0]) ∧
    mmaFail (List.replicate 128 0) true = some 2 ∧ (cmd0 (after (.mmaStart 0) bad)).result = ⟨6, 2, 0⟩ ∧ (cmd0 (after (.mmaStart 0) bad)).st = .complete ∧
    (run t [0] true).mmaWaits (cmd0 (run t [0] true)) [0] true false = false ∧ ((go (run t [0] true)).st = .running ∧ (go (run t [0] true)).mma.vec = [1]) ∧
    (after (.mmaIteration 0) (run t [0] true)).accs.map (fun (a : Acc) => a.words) = [[(0, 0x3F800000)]] ∧
    ((go (run t [1] false)).st = .ended ∧ (go (run t [1] false)).result = ⟨1, 0, 2⟩) ∧ ((run 0x50000 [0] true).halfIter (cmd0 (run 0x50000 [0] true)) [0] true false (0, 0, 1)).bad.isEmpty = false ∧
    tokenIs (after (.mmaComplete 0) ended) 1 0 2 := by decide +kernel

/-- Of `CopyCommands`: a run of eight bytes from device memory to the tile store, with a barrier, and a condition that waits. -/
theorem witness_CopyCommands :
    let t := 0xFF00000000000000
    let move (bar : Nat) : List Byte := leBytes 8 1 ++ leBytes 8 0x20000 ++ leBytes 8 (t + 0x200) ++ leBytes 8 8 ++ leBytes 8 bar ++ List.replicate 88 0
    let cond (lim : Nat) : List Byte := leBytes 8 0x83 ++ leBytes 8 0x20000 ++ leBytes 8 0x04030201 ++ leBytes 8 lim ++ List.replicate 96 0
    let fin : List Byte := leBytes 8 5 ++ List.replicate 120 0
    let s (b : List Byte) (st : CmdSt) (r : CopyRun) (n : BitVec 64) (m : Byte) : State := { eng [(.dev 0x40000 true, [m, 2, 3, 4, 5, 6, 7, 8]), (.tile 0 0x100, Spec.barrier 12 3 0)] [{ cmd .copy (b ++ fin) st with copy := r }] with time := n }
    let r : CopyRun := ⟨0, 0, 0, 0, none, false, [], []⟩
    let go (u : State) := cmd0 (after (.copyRun 0) u)
    let w : CopyRun := { r with wait := some 0 }
    let arr : State := s (move (t + 0x100)) .running { r with arrive := true } 0 1
    let run (bar : Nat) := s (move bar) .running r 0 1
    (cmd0 (after (.copyStart 0) (s (move 0) .queued r 0 1))).st = .running ∧ ((after (.copyStart 0) (s (move 0) .queued r 0 1)).powerOf 0).used = 65536 ∧
    (go (s (move 0) .running { r with entry := 1, done := 8 } 0 1)).result = ⟨1, 0, 8⟩ ∧
    (after (.copyRun 0) (run 0)).bytesAt (.tile 0 0x200) 8 = [1, 2, 3, 4, 5, 6, 7, 8] ∧ ((go (run 0)).copy.entry = 1 ∧ (go (run 0)).copy.done = 8) ∧
    (go (run (t + 0x100))).copy.arrive = true ∧ ((cmd0 (after (.copyBarrierArrival 0) arr)).copy.entry = 1 ∧ (after (.copyBarrierArrival 0) arr).bytesAt (.tile 0 0x100) 16 = Spec.barrier 4 3 0) ∧
    (cmd0 (after (.copyCondReevaluate 0) (s (cond 9) .running w 0 1))).copy.entry = 1 ∧ goes (exec (.copyCondReevaluate 0) (s (cond 9) .running w 0 0)) (s (cond 9) .running w 0 0) ∧
    (cmd0 (after (.copyCondTimeout 0) (s (cond 9) .running w 9 0))).result = ⟨7, 5, 0⟩ ∧ goes (exec (.copyCondTimeout 0) (s (cond 9) .running w 8 0)) (s (cond 9) .running w 8 0) ∧
    tokenIs (after (.copyComplete 0) (eng [] [{ cmd .copy fin .ended with result := ⟨1, 0, 8⟩ }])) 1 0 8 := by decide +kernel

/-- A frame of two pairs, out of order. -/
def framed (cs : List Cmd) : State :=
  eng [(.dev 0x40200 true, leBytes 8 0x21000 ++ leBytes 8 0x22000 ++ leBytes 8 0x23000 ++ leBytes 8 0x24000 ++ leBytes 4 2 ++ leBytes 4 2 ++ leBytes 8 0 ++ leBytes 8 0x2001001 ++ leBytes 8 0x25000),
    (.dev 0x41000 true, leBytes 8 9 ++ leBytes 8 3), (.dev 0x42000 true, leBytes 4 0x99 ++ leBytes 4 0x33), (.dev 0x40500 true, [0, 0, 1, 0]), (.dev 0x40510 true, [1, 2, 3, 4])] cs

theorem witness_SortAndCollectiveCommands :
    let b (mode : Nat) := leBytes 8 mode ++ leBytes 8 0x20200 ++ List.replicate 48 0
    let fr := (framed []).bytesAt (.dev 0x40200 true) 128
    let s (blk : List Byte) (st : CmdSt) (r : SortRun) : State := framed [{ cmd .sort blk st with sort := r }]
    let r : SortRun := ⟨0, false, false, 2, 0, [], 0, 0, false⟩
    let p0 := s (b 0 ++ fr) .running r
    let h := histograms [(9, 0x99), (3, 0x33)]
    let p (n : Nat) := s (b 0 ++ fr) .running { r with next := n, hist := h }
    let sorted := after (.sortPass 0) (p 1)
    (cmd0 (after (.sortStart 0) (s (b 3) .queued r))).result = ⟨6, 0, 0⟩ ∧ (cmd0 (after (.sortStart 0) (s (b 0) .queued r))).st = .running ∧
    ((cmd0 (after (.sortStart 0) (s (b 0) .queued r))).sort.n = 2 ∧ (cmd0 (after (.sortStart 0) (s (b 0) .queued r))).block = b 0 ++ fr) ∧
    ((cmd0 (after (.sortPass 0) p0)).sort.next = 1 ∧ (cmd0 (after (.sortPass 0) p0)).sort.hist = h) ∧ (cmd0 (p 2)).sort.skips 1 = true ∧ (cmd0 (after (.sortPass 0) (p 2))).sort.next = 3 ∧
    (cmd0 (p 1)).sort.skips 0 = false ∧ ((cmd0 sorted).sort.alt = true ∧ sorted.bytesAt (.dev 0x43000 true) 16 = leBytes 8 3 ++ leBytes 8 9 ∧ sorted.bytesAt (.dev 0x44000 true) 8 = leBytes 4 0x33 ++ leBytes 4 0x99) ∧
    tokenIs (after (.sortComplete 0) (framed [{ cmd .sort (b 0 ++ fr) .ended with result := ⟨7, 3, 1⟩ }])) 7 3 1 := by decide +kernel

theorem witness_CollectiveCommands :
    let b (op mem : Nat) := leBytes 8 op ++ leBytes 8 mem ++ leBytes 8 2 ++ leBytes 8 0x20510 ++ leBytes 8 0x20520 ++ leBytes 8 4 ++ List.replicate 16 0
    let s (blk : List Byte) (st : CmdSt) : State := framed [cmd .coll blk st]
    let p (n : Nat) (early : Bool) : Peer := ⟨1, 2, 2, 0, n, early, [5, 6, 7, 8]⟩
    let go (ps : List Peer) := after (.collStart 0 ps) (s (b 2 0x20500) .running)
    let fin : State := framed [{ cmd .sort (leBytes 8 1 ++ leBytes 8 0x20200 ++ List.replicate 48 0 ++ Spec.patch ((framed []).bytesAt (.dev 0x40200 true) 128) 16 (leBytes 8 0x90000 ++ leBytes 8 0x90000) ++ List.replicate 256 0) .ended with result := ⟨1, 0, 2⟩ }]
    (cmd0 (after (.collStart 0 []) (s (b 6 0x20500) .queued))).result = ⟨6, 0, 0⟩ ∧ (cmd0 (after (.collStart 0 []) (s (b 2 0x20502) .queued))).result = ⟨6, 8, 0⟩ ∧
    (s (b 2 0x20500) .running).sortAt 0 .running = none ∧ goes (exec (.collStart 0 []) (s (b 2 0x20500) .running)) (s (b 2 0x20500) .running) ∧
    (cmd0 (go [p 8 false])).result = ⟨7, 6, 0⟩ ∧ (cmd0 (go [p 4 true])).result = ⟨8, 0, 0⟩ ∧ (cmd0 (go [p 4 false])).result.st = 1 ∧
    (go [p 4 false]).bytesAt (.dev 0x40520 true) 8 = [1, 2, 3, 4, 5, 6, 7, 8] ∧ tokenIs (after (.collComplete 0) (framed [{ cmd .coll [] .ended with result := ⟨8, 0, 0⟩ }])) 8 0 0 ∧
    (after (.sortComplete 0) fin).tasks.map (fun (T : Task) => T.blend.map (fun e => e.pix)) = [none, some 16] := by decide +kernel

theorem witness_OutsideEvents :
    let g : GrcEntry := ⟨1, 0x40080, 0x40010, 2 ^ 128 - 1, 1, 0xFFFFFFFF, false, [], false⟩
    let s : State := eng [(.dev 0x40080 true, [2]), (.dev 0x40014 true, [1]), (.dev 0x40000 true, [1, 2, 3, 4, 0, 0, 0x80, 0x3F])] []
    let m : State := { s with mem := { s.mem with grc := [g] } }
    let u := after (.grcEvictMerge 1 0x40080) m
    let pw : State := { s with power := [(0, ⟨100, 0, 0, 150, 9, 4, 150⟩), (191, ⟨100, 0, 0, 40, 9, 4, 40⟩)], period := 7 }
    let v := after .powerPeriod pw
    let soft (e : SoftErr) := after (.softError e) s
    let far : State := { s with pkg := { s.pkg with cap := [1024, 0, 0, 0] } }
    let one : State := { s with pkg := { s.pkg with plogonUp := List.replicate 11 false ++ [true] } }
    canon m ∧ u.bytesAt (.dev 0x40080 true) 16 = leBytes 16 1 ∧ u.bytesAt (.dev 0x40010 true) 8 = leBytes 4 1 ++ leBytes 4 0xFFFFFFFF ∧ u.mem.grc.map (fun e => (e.v, e.nf, e.ov)) = [(0, 0, 0)] ∧
    goes (exec .powerPeriod s) s ∧ ((v.powerOf 0).remain, (v.powerOf 0).deficit, (v.powerOf 0).owed, (v.powerOf 0).overruns) = (0, 50, 50, 10) ∧
    ((v.powerOf 191).remain, (v.powerOf 191).deficit, (v.powerOf 191).owed, (v.powerOf 191).overruns) = (60, 40, 0, 10) ∧ v.period = 0 ∧
    (soft (.corrected 3)).win.ecc[3] = 1 ∧ (soft (.device 0x5FFFFFFFF)).homeBad (.dev 0xBFFFFFFFE0 true) 32 = true ∧
    (after (.softError (.device 0x800000001)) far).homeBad (.dev 0x100000001E0 true) 32 = true ∧ (soft (.host 9)).homeBad (.host 288) 32 = true ∧ (soft (.tile 0 31)).homeBad (.tile 0 992) 32 = true ∧
    (soft (.acc 0 4095)).accs.map (fun (a : Acc) => a.bad) = [[4095]] ∧ (soft (.stack 0 255)).homeBad (.stack 0 8160) 32 = true ∧ (th (soft (.reg 0 127)) 0).badRegs = [127] ∧
    (after (.softError (.partialSum 1 0x40080)) m).mem.grc.map (fun e => e.bad) = [true] ∧ (after (.linkFailure (.cxl 3)) s).pkg.cxlUp = s.pkg.cxlUp.set 3 false ∧
    (after (.linkFailure (.route 511)) s).pkg.noRoute = [511] ∧ (after (.linkFailure (.plogon 0)) one).pkg.noRoute = [] ∧ (after (.linkFailure (.plogon 11)) one).pkg.noRoute.length = 511 := by decide +kernel
theorem witness_HostAndRemote :
    let s : State := eng [(.dev 0x40000 true, [1, 2, 3, 4, 0, 0, 0x80, 0x3F])] []
    let host (h : HostAccess) := after (.hostMemoryAccess h) s
    let rem (a : RemoteAccess) := after (.plogonRemoteAccess a) s
    let lease : State := { s with mem := { s.mem with leases := [⟨191, 0x800, 0, 20, 4096, [], [], [], [], []⟩] } }
    (host (.read 0x40000 4)).pkg.hostData = [1, 2, 3, 4] ∧ (host (.write 0xBFFFFFFFFE [7, 8])).bytesAt (.dev 0xBFFFFFFFFE true) 2 = [7, 8] ∧
    (rem (.load 0x40002 2)).pkg.remoteData = [3, 4] ∧ (rem (.store 0x40001 [9])).bytesAt (.dev 0x40000 true) 3 = [1, 9, 3] ∧
    ((rem (.atom 1 true 0x40000 0xFF 0)).bytesAt (.dev 0x40000 true) 2 = [0, 3] ∧ (rem (.atom 1 true 0x40000 0xFF 0)).pkg.remoteData = [1, 2, 3, 4, 0, 0, 0x80, 0x3F]) ∧
    (rem (.atom 10 false 0x40004 0x3F800000 0)).bytesAt (.dev 0x40004 true) 4 = leBytes 4 0x40000000 ∧ (rem (.atom 9 false 0x40000 0 5)).bytesAt (.dev 0x40000 true) 4 = [1, 2, 3, 4] ∧
    (after (.readLeaseExpiry 191 0x800) lease).leaseOf 191 0x800 = none ∧ 20 < (after (.readLeaseExpiry 191 0x800) lease).clockOf 191 ∧
    goes (exec (.hostPortTraining 128 8 true) s) { s with pkg := { s.pkg with port := (128, 8, true) } } := by decide +kernel

/-- A block of one row, `tn` columns and two K-steps of one element, in BF16, paired or not, that keeps its sums. -/
def mmaBlock (both : Bool) (tn : Nat) : List Byte :=
  leBytes 8 (2 * 2 ^ 11 + (if both then 2 ^ 17 else 0) + 2 ^ 19 + 2 ^ 22) ++ leBytes 8 (1 + tn * 2 ^ 8 + 2 ^ 18) ++ leBytes 4 1 ++ leBytes 4 tn ++ leBytes 8 2 ++
    leBytes 8 0xFF00000000000000 ++ leBytes 8 0xFF00000000000004 ++ List.replicate 24 0 ++ leBytes 4 4 ++ leBytes 4 0 ++ List.replicate 8 0 ++ leBytes 8 (2 + 2 ^ 50) ++
    List.replicate 32 0

/-- A command with that block on cores 0 and 1, whose accumulators hold nothing yet. -/
def paired (c : Cmd → Cmd) : State :=
  { eng [(.tile 0 0, [0x80, 0x3F, 0, 0x40, 0x80, 0x3F, 0x80, 0x3F])] [c (cmd .mma (mmaBlock true 257) .queued)] with accs := [⟨0, 0, 0, [], [], false⟩, ⟨0, 1, 131072, [], [], true⟩] }

/-- Of `MatrixCommands`, a paired command of 257 columns: leave is charged to each core for its own columns and withheld where one budget does not
cover it, and an iteration forms the products on both cores. -/
theorem witness_PairedMatrixCommand :
    let s := paired id
    let u := after (.mmaStart 0) s
    let low : State := { s with power := [(1, ⟨100, 0, 0, 0, 0, 511, 0⟩)] }
    let run := paired (fun c => { c with st := .running, leave := true, mma := ⟨[0], true, 0, 0, 0, [], 0, 0⟩ })
    let v := after (.mmaIteration 0) run
    s.mmaNext 0 = some 0 ∧ s.mmaIdle 0 ∧ s.mmaIdle 1 ∧ Spec.blockRules (mmaBlock true 257) (s.partnerOk (cmd0 s)) = none ∧ Spec.shares (cmd0 s) = [(0, 256), (1, 1)] ∧
    (Spec.leaveUnits (mmaBlock true 257) [0] 256, Spec.leaveUnits (mmaBlock true 257) [0] 1) = (131072, 512) ∧
    ((cmd0 u).st, (cmd0 u).leave, (cmd0 u).mma.vec, (u.powerOf 0).used, (u.powerOf 1).used) = (.running, true, [0], 131072, 512) ∧ goes (exec (.mmaStart 0) low) low ∧
    run.mmaWaits (cmd0 run) [0] true false = false ∧ canon run ∧ v.accs.map (fun a => (a.core, a.words.length, a.word 0)) = [(0, 256, 0x3F800000), (1, 1, 0x3F800000)] := by decide +kernel

/-- A sort of the frame of `framed` with a statistics record, its histogram taken, at a pass. -/
def sorting (next : Nat) (alt : Bool) (st : CmdSt) (leave : Bool) : State :=
  let fr := Spec.patch ((framed []).bytesAt (.dev 0x40200 true) 128) 0x40 (leBytes 8 0x20600)
  framed [{ cmd .sort (List.replicate 8 0 ++ leBytes 8 0x20200 ++ List.replicate 48 0 ++ fr) st with
    sort := ⟨next, alt, true, 2, 0, histograms [(9, 0x99), (3, 0x33)], 0, 0, false⟩, leave := leave }]

/-- Of `SortAndCollectiveCommands`: the record behind a writing and a skipped pass and behind a resume, the pass that writes the span table from either
pair, and the digit and tile functions on the pairs of the frame. -/
theorem witness_SortRecordAndSpans :
    let record (u : State) := u.bytesAt (.dev 0x40620 true) 16 ++ u.bytesAt (.dev 0x4063C true) 4
    let zeros := fun (n : Nat) => List.replicate n (0 : Byte)
    let go (n : Nat) (alt : Bool) := after (.sortPass 0) (sorting n alt .running true)
    let fin (n : Nat) (alt : Bool) := let u := go n alt; ((cmd0 u).st, (cmd0 u).result, u.bytesAt (.dev 0x45000 true) 8)
    record (go 1 false) = [1] ++ zeros 15 ++ [0, 0, 2, 0] ∧ (cmd0 (go 1 false)).sort.alt = true ∧
    record (go 2 true) = zeros 4 ++ [1] ++ zeros 11 ++ [0, 0, 3, 0] ∧ record (after (.sortStart 0) (sorting 2 true .queued true)) = zeros 12 ++ [1] ++ zeros 7 ∧
    fin 13 true = (.ended, ⟨1, 0, 2⟩, leBytes 4 0 ++ leBytes 4 2) ∧ fin 13 false = (.ended, ⟨1, 0, 2⟩, leBytes 4 0 ++ leBytes 4 2) ∧
    Spec.spans [(9, 0x99), (3, 0x33)] 1 = leBytes 4 0 ++ leBytes 4 2 ∧ (Spec.digit 0 (9, 0x99), Spec.digit 4 (9, 0x99), Spec.tileField (2 ^ 40, 0)) = (0x99, 9, 1) := by decide +kernel

/-- The engines' commands whose charge the budget of their core does not cover, and a collective whose source has not landed: nothing happens. -/
theorem witness_EnginesWait :
    let low (s : State) : State := { s with power := [(0, ⟨100, 0, 0, 0, 0, 65535, 0⟩)] }
    let stays (i : Instr) (s : State) := goes (exec i s) s
    let coll (src : Nat) := leBytes 8 2 ++ leBytes 8 0x20500 ++ leBytes 8 2 ++ leBytes 8 src ++ leBytes 8 0x20520 ++ leBytes 8 4 ++ List.replicate 16 0
    let all : List Peer := [⟨1, 2, 2, 0, 4, false, [5, 6, 7, 8]⟩]
    let absent (s : State) : State := { s with tiles := s.tiles.map (fun (a : Tile) => { a with absent := [0] }) }
    let run := absent (framed [cmd .coll (coll 0xFF00000000000000) .running])
    let few := framed [cmd .coll (coll 0x20510) .running]
    stays (.copyStart 0) (low (eng [] [cmd .copy (leBytes 8 5 ++ List.replicate 120 0) .queued])) ∧ stays (.sortStart 0) (low (sorting 0 false .queued false)) ∧
    stays (.collStart 0 all) (low (framed [cmd .coll (coll 0x20510) .queued])) ∧ run.collWaits (cmd0 run) ∧ stays (.collStart 0 all) run ∧ stays (.collStart 0 []) few := by decide +kernel

/-- Of `OutsideEvents`: errors in leased copies and in the weight cache, and a package whose boot has failed, which no other one reaches. -/
theorem witness_CopiesAndFailedBoot :
    let s : State := eng [(.dev 0x40000 true, [1, 2, 3, 4])] []
    let l : Lease := ⟨7, 0x800, 0, 20, 4096, [], [], [], [], []⟩
    let w : WCache := ⟨0, 0, 0x20000, [], false⟩
    let c : State := { s with mem := { s.mem with leases := [l], remote := [l] }, wcache := [w] }
    let soft (e : SoftErr) := after (.softError e) c
    let dead : State := { s with win := { s.win with state := 3 } }
    (soft (.lease 0 3)).mem.leases = [{ l with bad := [0x2003] }] ∧ (soft (.remoteCopy 0 0)).mem.remote = [{ l with bad := [0x2000] }] ∧
    (soft (.weight 0)).wcache = [{ w with bad := true }] ∧ goes (exec (.plogonRemoteAccess (.load 0x40000 4)) dead) dead ∧ s.pkg.paOk 0 0x40000 4 = true := by decide +kernel

/-! ### Migrations, links, late reads, suspended commands, collectives and the launch checks -/

/-- The answers that the standard gives for a message of 0, of 135 and of 136 bytes: the first and the last eight of 64. -/
theorem test_shake256 :
    let ends (bs : List Byte) := let h := shake256 bs; (h.length, leNat (h.take 8).reverse, leNat (h.drop 56).reverse)
    ends [] = (64, 0x46B9DD2B0BA88D13, 0x40292EACB3B7C4BE) ∧ ends (List.replicate 135 0) = (64, 0x4A6C0970C326BABF, 0x0929176EFC35A49C) ∧
    ends ((List.range 136).map (BitVec.ofNat 8)) = (64, 0xB7FF4073B3F5A8EA, 0xFBE83B9EFF5DAE4A) := by decide +kernel

/-- Of `FloatArithmeticRoundsOnce` and the functions: uf of a tiny inexact result, exact ones and one that rounds up to the smallest normal from
below and from above the boundary, and of. -/
theorem witness_UnderflowAndOverflow :
    flt (.fmulExt (X 12 4 5 0 0 0 0)) [(4, 0x00800001), (5, 0x3F000000)] 0x00400000 24 ∧ flt (.fmulExt (X 12 4 5 0 0 0 0)) [(4, 0x00800000), (5, 0x3F000000)] 0x00400000 0 ∧
    flt (.fmulExt (X 12 4 5 0 0 0 0)) [(4, 0x3F7FFFFF), (5, 0x00800000)] 0x00800000 24 ∧ flt (.fmulExt (X 12 4 5 0 0 0 0)) [(4, 0x3F7FFFFF), (5, 0x00800001)] 0x00800000 16 ∧
    flt (.frcp (X 12 4 0 0 0 0 0)) [(4, 0x00200000)] 0x7F800000 20 ∧ flt (.frcp (X 12 4 0 0 0 0 0)) [(4, 0x7F7FFFFF)] 0x00200000 24 := by decide +kernel

/-- A handler's thread in a task of the tables, whose page 0x40000 is in migration. -/
def handling (f : Thread → Thread) (g : Task → Task) : State :=
  let s := mapped (data (fun t => f { t with sup := true }) []) []
  { s with tasks := s.tasks.map (fun (T : Task) => g { T with tlbRoot := 0x100000, desc := { T.desc with ptroot := 0x100000 } }) }

/-- Of each statement with a supervisor-mode access: a page in migration is an invalid entry to it. -/
theorem witness_Migrating :
    let s := handling (fun t => { withRegs [(4, 0x40000)] t with lk := 0x40000, shadow := [0x40000] })
      (fun T => { T with graph := some ⟨16, 0x40000, 2, [1], [⟨0x10000, 16, 4, 16, 100, 0, []⟩]⟩ })
    let falls (i : Instr) (e : TrapInfo) := goes (exec i s) (trapsAt s 0 (th s 0) i e)
    let none' (a : DWord) : TrapInfo := ⟨6, a, 0, 0, false⟩
    (s.walk 0x100000 0x40000).map (fun l => l.mig) = some true ∧ s.codePlace (th s 0) 0x40000 = none ∧ falls (.bra 0xC000) (mkTrap 5 0x40000) ∧
    falls (.call 0xC001) (mkTrap 5 0x40004) ∧ falls (.ret (X 0 0 0 0 0 0 0)) (mkTrap 5 0x40000) ∧ falls (.jmp (X 0 4 0 0 0 0 8)) (mkTrap 5 0x40008) ∧
    falls (.calli (X 0 4 0 0 0 0 0)) (mkTrap 5 0x40000) ∧ falls (.ld (.reg 12) 4 0) (none' 0x40000) ∧ falls (.st 8 4 0) (none' 0x40000) ∧
    falls (.wback (X 0 4 0 0 0 2 0)) (none' 0x40000) ∧ falls (.emit (X 0 4 0 0 0 0 0)) (none' 0x40000) := by decide +kernel

/-- Of `Loads`, `Stores` and `ParametersChannelsAndHints`: no link to host memory, and poison, where reads return at once and where they are late. -/
theorem witness_LinksAndLatePoison :
    let late (s : State) : State := { s with late := true }
    let down : State := let s := data (ptr 0x30000 []) []
      { s with pkg := { s.pkg with port := (32, 8, true) } }
    let bad : State := let s := data (ptr 0x20000 []) []
      { s with mem := { s.mem with dev := s.mem.dev.poison 0x2000 } }
    let args : State := let s := late (data id [])
      { s with tasks := s.tasks.map (fun (T : Task) => { T with param := T.param.poison 0x1000 }) }
    let ld : Instr := .ldExt (X 12 4 0 0 2 0 0)
    let e (a : DWord) (v : Word) : TrapInfo := ⟨0x16, a, v, 0, false⟩
    let owes (s : State) (i : Instr) (f : TrapInfo) : Bool := (th (after i s) 0).pend.all (fun p => decide (p.first = 12 ∧ p.n = 1 ∧ p.poison = some f ∧ p.returned = false)) &&
      (th (after i s) 0).pend.length == 1
    traps down ld (e 0x30000 5) ∧ traps down (.stExt (X 0 4 8 0 2 0 0)) (e 0x30000 5) ∧ owes (late down) ld (e 0x30000 5) ∧
    owes (late bad) ld (e 0x20000 0) ∧ owes args (.ldc (X 12 0 0 0 2 0 28)) (e 28 0) := by decide +kernel

/-- Of `AtomicRegions`: poison in a part of the line that the region does not access. -/
theorem witness_PoisonedRegion :
    let s : State := (Tests.regionRun 5).getD 3 State.reset
    let p : State := { s with front := (data id []).front, mem := { s.mem with dev := s.mem.dev.poison 0x2003 } }
    traps p (.acommit (X 1 0 0 0 0 0 0)) ⟨0x16, 0x20060, 0, 0, false⟩ := by decide +kernel

/-- Of `ParametersChannelsAndHints`: a `WBACK` of a line of package 5, one hop away, with a scope that holds it and one that does not, and with and
without a route; of a line of the own die; and of host memory. -/
theorem witness_WriteBack :
    let far (cut : List Nat) : State := let s := data (ptr 0x20000 []) []
      { s with
        tasks := s.tasks.map (fun (T : Task) => { T with tlb := T.tlb.map (fun e => if e.va = 0x20000 then { e with pa := 0x8050000000000 } else e) })
        pkg := { s.pkg with scope := [0, 0, 0, 0, 0, 1], noRoute := cut } }
    let wb (m : BitVec 5) : Instr := .wback (X 0 4 0 0 0 m 0)
    let view (s : State) (m : BitVec 5) := let t := th (after (wb m) s) 0; (decide (t.st = .parked (.writeBack true)), t.pc)
    is ((far []).resolve 0 (th (far []) 0) 0x20000 1 1 false) (.dev 0x8050000000000 true) ∧ view (far []) 3 = (true, 0x10000) ∧ view (far []) 2 = (false, 0x1000C) ∧
    traps (far [5]) (wb 3) ⟨0x16, 0x20000, 4, 0, false⟩ ∧ view (far [5]) 2 = (false, 0x1000C) ∧ view (data (ptr 0x30000 []) []) 7 = (false, 0x1000C) ∧
    view (data (ptr 0x20000 []) []) 0 = (true, 0x10000) := by decide +kernel

/-- Of `SpawnEmitNeval`: a handle table that has not landed, and a join while a stop waits, to an open tile and to a new one. -/
theorem witness_NevalWaitsAndStops :
    let neval : Instr := .neval (X 12 6 0 0 0 0 1)
    let away : State := let s := nevalState [] true
      { s with
        tasks := s.tasks.map (fun (T : Task) => { T with desc := { T.desc with handles := 0xFF00000000000000 } })
        tiles := s.tiles.map (fun (a : Tile) => { a with absent := [0] }) }
    let stopping (s : State) : State := { s with front := { s.front with stopReq := [0] } }
    let view (s : State) : List (Nat × Bool) := (after neval (stopping s)).ntiles.map (fun (n : NTile) => (n.rows.length, n.closed))
    goes (exec neval away) (Spec.parked away 0 (.presence 0 1)) ∧ view (nevalState [⟨7, 0, 12, []⟩] false) = [(2, true)] ∧
    view (nevalState [⟨7, 0, 12, []⟩] true) = [(1, true), (1, true)] := by decide +kernel

/-- Of `ResetsBootAndAttestation`: what a cold reset leaves of memory. -/
theorem witness_ColdReset :
    let s := win 2 id (data id [(.dev 0x40000 true, [1]), (.dev 0x8000000000000 true, [9]), (.host 8, [7])])
    let u := after .coldReset s
    canon s ∧ u.bytesAt (.dev 0x40000 true) 1 = [0] ∧ u.bytesAt (.dev 0x8000000000000 true) 1 = [9] ∧ u.bytesAt (.host 8) 1 = [7] := by decide +kernel

/-- A task in its launch checks with a descriptor of one thread of 16 registers and one tenure region at 0x20000, and what is changed of its bytes. -/
def checking (l : List (Nat × Byte)) (tenure : List Byte) : State :=
  let b := leBytes 4 1 ++ [16, 0, 0, 0] ++ leBytes 2 2 ++ leBytes 2 8 ++ leBytes 4 0 ++ leBytes 8 0x10000 ++ leBytes 8 0x10000 ++ leBytes 8 0x10000 ++ leBytes 8 0x100000 ++
    leBytes 8 0x20000 ++ leBytes 8 1 ++ List.replicate 64 0 ++ leBytes 8 0x20010 ++ List.replicate 16 0 ++ [1] ++ List.replicate 103 0
  let b := l.foldl (fun c e => c.set e.1 e.2) b
  { mapped State.reset [(.dev 0x40000 true, tenure)] with tasks := [launching .check (fun (T : Task) => { T with raw := b, desc := parseDesc b })] }

/-- Of `TaskLaunch`: a descriptor that passes, one that breaks two of its own rules, one whose tenure list does, and one whose channel table cannot be
read and whose token pool is not in its tenure. -/
theorem witness_LaunchChecks :
    let ten (size : Nat) := leBytes 8 0x20000 ++ leBytes 8 size
    let raw (s : State) := (s.tasks.map (fun (T : Task) => T.raw)).headD []
    let finds (s : State) := (Spec.descRules (raw s) 0x100000, Spec.launchFault s 0x100000 (raw s))
    let runs (s : State) := let u := after (.taskDependencesComplete 0) s; (u.tasks.map (fun (T : Task) => (T.phase, T.tenure.length)), u.bytesAt (.dev 0x40010 true) 4)
    let reports (d : Nat) := leBytes 4 (6 + d * 2 ^ 16)
    let good := checking [] (ten 0x10001)
    let short := checking [] (ten 1)
    let two := checking [(7, 8), (4, 12)] (ten 0x10001)
    let table := checking [(0x50, 5), (0x70, 64)] (ten 0x10001)
    (raw good).length = 256 ∧ good.structsWait 0x100000 (parseDesc (raw good)) = false ∧ finds good = (none, none) ∧ (runs good).1 = [(.waitDeps, 1)] ∧
    finds two = (some (6, 4), some (6, 4)) ∧ runs two = ([(.complete, 0)], reports 4) ∧ finds short = (none, some (6, 0x10008)) ∧
    runs short = ([(.complete, 0)], leBytes 4 (6 + 8 * 2 ^ 16 % 2 ^ 32)) ∧ finds table = (none, some (6, 0x50)) ∧ runs table = ([(.complete, 0)], reports 0x50) := by decide +kernel

/-- Of `MatrixCommands`, `CopyCommands` and `SortAndCollectiveCommands`: a command that had begun before a pre-emption starts with no budget left and is
not charged; and a run goes on with source bytes that were read before it. -/
theorem witness_SuspendedCommands :
    let broke (s : State) : State := { s with power := [(0, ⟨100, 0, 0, 0, 0, 0, 0⟩)] }
    let m := broke (eng [] [{ cmd .mma (mmaBlock false 1) .queued with mma := ⟨[1], false, 7, 8, 9, [], 0, 0⟩, leave := true }])
    let move : List Byte := leBytes 8 1 ++ leBytes 8 0x20000 ++ leBytes 8 0xFF00000000000200 ++ leBytes 8 8 ++ List.replicate 96 0 ++ leBytes 8 5 ++ List.replicate 120 0
    let c (st : CmdSt) (r : CopyRun) := broke (eng [(.dev 0x40000 true, [1, 2, 3, 4, 5, 6, 7, 8])] [{ cmd .copy move st with copy := r, leave := true }])
    let r (l : List Byte) : CopyRun := ⟨0, 0, 2, 2, none, false, [], l⟩
    let view (s : State) := ((cmd0 s).st, (cmd0 s).leave, (s.powerOf 0).used)
    let u := after (.mmaStart 0) m
    let v := after (.copyRun 0) (c .running (r [11, 12]))
    m.mmaNext 0 = some 0 ∧ view u = (.running, true, 0) ∧ ((cmd0 u).mma.vec, (cmd0 u).mma.first, (cmd0 u).mma.est) = ([1], false, 9) ∧
    view (after (.copyStart 0) (c .queued (r []))) = (.running, true, 0) ∧ view (after (.sortStart 0) (broke (sorting 2 true .queued true))) = (.running, true, 0) ∧
    ((cmd0 v).copy.entry, (cmd0 v).copy.done, (cmd0 v).copy.read) = (1, 8, []) ∧ v.bytesAt (.tile 0 0x200) 8 = [0, 0, 11, 12, 5, 6, 7, 8] := by decide +kernel

/-- Of `SortAndCollectiveCommands`: the tree's sum of 1.0 and just over half a unit of it and of a tie, a single NaN, the sum modulo 2^128, the root's
source, and a pixel of the slab (1, 0, 0, 0.5) before (2, 4, 0, 0.25). -/
theorem witness_CollectiveResults :
    let b (op n : Nat) := leBytes 8 op ++ leBytes 8 0x20500 ++ leBytes 8 2 ++ leBytes 8 0x20510 ++ leBytes 8 0x20520 ++ leBytes 8 n ++ List.replicate 16 0
    let go (op : Nat) (own src : List Byte) :=
      (after (.collStart 0 [⟨1, op, 2, 0, own.length, false, src⟩]) (store [(.dev 0x40510 true, own)] (framed [cmd .coll (b op own.length) .running]))).bytesAt (.dev 0x40520 true) own.length
    let px (l : List Nat) := l.flatMap (leBytes 4)
    Nat.clog 2 2 = 1 ∧ go 0 (leBytes 4 0x3F800000) (leBytes 4 0x33800001) = leBytes 4 0x3F800001 ∧ go 0 (leBytes 4 0x3F800000) (leBytes 4 0x33800000) = leBytes 4 0x3F800000 ∧
    collSum32 [0xFF800001] = 0x7FC00000 ∧ go 1 (leBytes 16 (2 ^ 128 - 1)) (leBytes 16 3) = leBytes 16 2 ∧ go 3 [1, 2, 3, 4] [9, 9, 9, 9] = [1, 2, 3, 4] ∧
    go 5 (px [0x3F800000, 0, 0, 0x3F000000]) (px [0x40000000, 0x40800000, 0, 0x3E800000]) = px [0x40000000, 0x40000000, 0, 0x3E000000] := by decide +kernel

/-- Of `GraphsDeadlockAndEvaluation`: a layer with biases 0 and −2 on the inputs 0.25 and 0.125 with weights 1 and 2, under clamp and leaky. -/
theorem witness_Layer :
    let ws := [f32 0x3F800000, f32 0x40000000]
    let w (act : Nat) : LayerW := ⟨false, act, [(0, ws), (0xC0000000, ws)]⟩
    let x := [0x3E800000, 0x3E000000]
    runLayer (w 3) x = [0x3F000000, 0] ∧ runLayer (w 2) x = [0x3F000000, 0xBDC00000] ∧ runLayer (w 0) x = [0x3F000000, 0xBFC00000] ∧ runRow [w 0, w 1] [0x3E800000, 0x3E000000] = [0, 0] := by decide +kernel

/-! ### Links, orders, spoilt elements, regions, residues and held slots -/

/-- A task with the code page in package 5, or with one behind the code's own there, and no route to it. -/
def farCode (behind : Bool) (f : Thread → Thread) : State :=
  let far (va : Nat) : Tlb := ⟨va, 0x10000, 0x8050000000000, false, false, true, false, true⟩
  let s := data f []
  { s with
    tasks := s.tasks.map (fun (T : Task) => { T with
      tlb := if behind then T.tlb.filter (fun e => e.va ≠ 0x20000) ++ [far 0x20000] else far 0x10000 :: T.tlb
      desc := { T.desc with codesize := 0x20000 } })
    pkg := { s.pkg with scope := [0, 0, 0, 0, 0, 1], noRoute := [5] } }

/-- Of `FetchTraps` and `IndirectTransfers`: no route to the first word, to a later one and to a target; and a later word that is not mapped, or
poisoned. -/
theorem witness_LinksAndLaterWords :
    let trap (s : State) (c : Nat) (a : DWord) (u n : Nat) := goes (step s) (s.takeTrap 0 ⟨c, a, BitVec.ofNat 32 u, 0, false⟩ n (th s 0).pc (th s 0).pc false).closeIssue
    let long (pc : Nat) (s : State) := s.homeWrite (.dev pc true) [5]
    let at' (pc : DWord) (t : Thread) : Thread := { t with pc := pc }
    let bad : State := let s := long 0x1001C (ready (at' 0x1001C) id)
      { s with mem := { s.mem with dev := s.mem.dev.poison 0x801 } }
    trap (farCode false (at' 0x10000)) 0x16 0x10000 4 1 ∧ trap (long 0x1FFFC (farCode true (at' 0x1FFFC))) 0x16 0x20000 4 3 ∧
    trap (long 0x1FFFC (ready (at' 0x1FFFC) id)) 0x05 0x20000 0 3 ∧ trap bad 0x16 0x10020 0 3 ∧
    traps (farCode true (ptr 0x20000 [])) (.jmp (X 0 4 0 0 0 0 0)) ⟨0x16, 0x20000, 4, 0, false⟩ := by decide +kernel

/-- Of `ResidueArithmetic`: a code that is no integer's in either place and beside an immediate, and an immediate outside the range. -/
theorem witness_SpoiltResidues :
    let run (i : Instr) (w : Word) (v : Int) (fl : FFlags) := let s := regs [(4, w), (5, 0x0000FF00), (6, BitVec.ofNat 32 (Spec.rz 1))]
      meets s i (fun t _ cx s1 => goes (exec i s) (goesOn 0 t i ((cx.dst s1 (if 0 ≤ v then BitVec.ofNat 128 (Spec.rz v) else 0xFFFFFFFF)).raise 0 fl)))
    let one : Word := BitVec.ofNat 32 (Spec.rz 1)
    let imm (v : BitVec 32) : Instr := .raddExt { X 12 4 0 0 0 0 v with b := .imm }
    run (.radd ⟨.reg 12, 4, .reg 5⟩) one (-1) 1 ∧ run (.rmul ⟨.reg 12, 4, .reg 6⟩) 0x0000FF00 (-1) 1 ∧ run (imm 8388479) 0x0000FF00 (-1) 1 ∧
    run (imm 8388480) 0x0000FF00 (-1) 0x15 ∧ run (imm 8388480) one 8388481 0x14 ∧ run (imm 8388479) one 8388480 0 := by decide +kernel

/-- Of `AtomicRegions`: `ABEGIN` with a region open, on lines of the tile store, of the stack and of no page, and misaligned; and an empty region. -/
theorem witness_RegionsOfEveryWindow :
    let s (q : DWord) : State := data (ptr q []) []
    let open' : State := data (fun t => { ptr 0x20000 [] t with region := some ⟨0x10000, 0x20000, []⟩ }) []
    let i : Instr := .abegin (X 0 4 0 0 0 0 0)
    let opens (q : DWord) := meets (s q) i (fun t _ _ s1 => goes (exec i (s q)) (goesOn 0 t i (s1.modThread 0 (fun u => { u with region := some ⟨t.pc, q, []⟩ }))))
    goes (exec i open') (trapsAt open' 0 (th open' 0) i (mkTrap 0x0A 0)) ∧ (begun (th open' 0)).reports i = false ∧ (begun (th open' 0)).blocked i = false ∧
    opens 0xFF00000000000380 ∧ opens 0xFE00000000001F80 ∧ opens 0x50000 ∧ traps (s 0xFF00000000000040) i ⟨7, 0xFF00000000000040, 0, 0, false⟩ ∧
    gives open' (.acommit (X 1 0 0 0 0 0 0)) ((th open' 0).arch.writePred 1 true) ∧ (th (after (.acommit (X 1 0 0 0 0 0 0)) open') 0).region = none := by decide +kernel

/-- Of `Stores`, `KeysAndSpans` and `GradientReduction`: a store to a part of an element that holds an addend, and an addend to bytes that
have been stored, leave the element undefined. -/
theorem witness_UnorderedWrites :
    let bs : List Byte := List.replicate 48 7
    let s : State := let s := data (ptr 0x20014 [(8, 0x01020304)]) [(.dev 0x40000 true, bs)]
      { s with mem := { s.mem with grc := [⟨0, 0x40010, 0x40800, 1, 0, 0, false, [0], false⟩] } }
    let u := after (.st 8 4 0) s
    let g : State := let t := data (ptr 0x1000000000020080 [(8, 0x3F800000)]) [(.dev 0x40000 true, [0, 1, 0, 0, 0, 0, 0, 0, 4]), (.dev 0x40090 true, [9])]
      { t with mem := { t.mem with wrote := [⟨.thread 0, false, 0x40084, 4⟩] } }
    s.mem.elements (.dev 0x40014 true) 4 = [.dev 0x40010 true] ∧ canon s ∧ meets s (.st 8 4 0) (fun _ _ _ _ => true) ∧
    u.mem.grc.map (fun e => e.torn) = [true] ∧
    g.mem.unordered (g.sortBefore 0) (.dev 0x40080 true) 16 ∧ (after (.gredAdd (X 0 4 8 0 0 0 0)) g).mem.grc.map (fun e => (e.addr, e.torn)) = [(0x40080, true)] := by decide +kernel

/-- Of `Atomics`: poison elsewhere in the line, and no link to it; and of `ParametersChannelsAndHints`, a `PRF` whose base cannot be read and a
`FENCE` with release, at the package and at the core alone, before a copy that lacks the thread's store. -/
theorem witness_LinesAndFences :
    let a : Instr := .atom (X 12 4 8 0 1 0 0)
    let bad : State := let s := data (ptr 0x20000 []) []
      { s with mem := { s.mem with dev := s.mem.dev.poison 0x2003 } }
    let down : State := let s := data (ptr 0x30000 []) []
      { s with pkg := { s.pkg with port := (32, 8, true) } }
    let l : Lease := ⟨100, 0x800, 0, 20, 4096, [], [], [], [], [.thread 0]⟩
    let copies : State := let s := data id []
      { s with mem := { s.mem with leases := [l], remote := [{ l with core := 2 }] } }
    let fence (m : BitVec 5) := (after (.fence (X 0 0 0 0 0 m 0)) copies).mem
    let prf : Instr := .prf { X 0 0 0 0 0 0 0 with a := .latch 3 }
    let s := data (fun t => { t with badRegs := [4] }) []
    traps bad a ⟨0x16, 0x20060, 0, 0, false⟩ ∧ traps down a ⟨0x16, 0x30000, 5, 0, false⟩ ∧
    ((fence 18).leases.length, (fence 18).remote.length) = (0, 0) ∧ ((fence 16).leases.length, (fence 16).remote.length) = (1, 1) ∧ ((fence 2).leases.length, (fence 2).remote.length) = (1, 1) ∧
    (th (after prf s) 0).pc = 0x1000C ∧ (th (after (.prf (X 0 4 0 0 0 0 0)) s) 0).pc = 0x1000C := by decide +kernel

/-- Of `SpawnEmitNeval`: the one free slot of two emitters is held while the record of the first is awaited, and a record of lines that have not landed. -/
theorem witness_HeldSlots :
    let g (free : List Nat) : Graph := ⟨16, 0x20400, 2, free, [⟨0x10000, 16, 4, 16, 100, 0, []⟩]⟩
    let s (q : DWord) (free : List Nat) (w : List Wait) : State := let s := data (ptr q []) []
      { s with
        tasks := s.tasks.map (fun (T : Task) => { T with graph := some (g free) }), threads := s.threads ++ w.map (fun w => { th s 0 with st := .parked w })
        tiles := s.tiles.map (fun (a : Tile) => { a with absent := [0] }) }
    let emit : Instr := .emit (X 0 4 0 0 0 0 0)
    let waits (s : State) (w : Wait) := meets s emit (fun _ _ _ _ => goes (exec emit s) (Spec.parked s 0 w))
    let held : Wait := .slot 0 (.presence 0 1)
    waits (s 0x20000 [1] [held]) (.emit 0) ∧ waits (s 0x20000 [1, 0] [.emit 0]) (.emit 0) ∧ waits (s 0xFF00000000000000 [1] []) held ∧
    gives (s 0x20000 [1, 0] [held]) emit (th (s 0x20000 [] []) 0).arch := by decide +kernel

/-- Of `MatrixCommands`: of two rules that a block breaks the one that stands first, and one of a loop level. -/
theorem witness_BlockRules :
    let b (l : List (Nat × Byte)) := l.foldl (fun c e => c.set e.1 e.2) (mmaBlock false 1)
    let ends (l : List (Nat × Byte)) := (cmd0 (after (.mmaStart 0) (eng [] [cmd .mma (b l) .queued]))).result
    Spec.blockRules (b []) false = none ∧ Spec.blockRules (b [(0x54, 1), (9, 0)]) false = some (6, 9) ∧ ends [(0x54, 1), (9, 0)] = ⟨6, 9, 0⟩ ∧
    Spec.blockRules (b [(0x54, 1)]) false = some (6, 0x54) ∧ ends [(0x54, 1)] = ⟨6, 0x54, 0⟩ ∧ Spec.blockRules (b [(0x5B, 1)]) false = some (6, 0x5B) ∧
    ends [(0x5B, 1)] = ⟨6, 0x5B, 0⟩ ∧ Spec.blockRules (b [(2, 0x4A)]) false = some (6, 2) ∧ ends [(0x7F, 1)] = ⟨6, 0x7E, 0⟩ := by decide +kernel

end Sys2Proof.Tests
end

section
/-! SUPPORT. Trap records (R276): a word put together by adding its fields at their places is the same fields side by side. -/

namespace Sys2Proof.Machine

/-- Fields side by side are the upper ones, moved up by the width of the lowest, plus the lowest. -/
theorem toNat_append_eq_add {m n : Nat} (x : BitVec m) (y : BitVec n) : (x ++ y).toNat = x.toNat * 2 ^ n + y.toNat := by
  rw [BitVec.toNat_append, ← Nat.shiftLeft_add_eq_or_of_lt y.isLt, Nat.shiftLeft_eq]

/-- Word 0 of a trap record: detail, aux, the deferred and supervisor bits, length and code (R276). -/
theorem trapRecord_causeWord (detail : Word) (aux : BitVec 16) (deferred sup : Bool) {len code : Nat} (hl : len < 8) (hc : code < 256) :
    BitVec.ofNat 64 (code + len * 2 ^ 8 + (if sup then 1 else 0) * 2 ^ 11 + (if deferred then 1 else 0) * 2 ^ 12 +
      aux.toNat * 2 ^ 16 + detail.toNat * 2 ^ 32) =
    detail ++ aux ++ 0#3 ++ BitVec.ofBool deferred ++ BitVec.ofBool sup ++ BitVec.ofNat 3 len ++ BitVec.ofNat 8 code := by
  have bit (b : Bool) : (if b then 1 else 0) = b.toNat := by cases b <;> rfl
  apply BitVec.eq_of_toNat_eq
  simp only [toNat_append_eq_add, BitVec.toNat_ofNat, BitVec.toNat_ofBool, bit]
  have := sup.toNat_le
  have := deferred.toNat_le
  omega

/-- Word 4 of a trap record: `$task` above `$tid` (R276). -/
theorem trapRecord_taskWord (task tid : Word) : BitVec.ofNat 64 (tid.toNat + task.toNat * 2 ^ 32) = task ++ tid := by
  apply BitVec.eq_of_toNat_eq
  simp only [toNat_append_eq_add, BitVec.toNat_ofNat]
  omega

/-- Word 5 of a trap record: package, die, core within the die, partition and slot (R276). -/
theorem trapRecord_placeWord (pkg : BitVec 9) {slot part core die : Nat} (hs : slot < 512) (hp : part < 4) (hc : core < 64) (hd : die < 4) :
    BitVec.ofNat 64 (slot + part * 2 ^ 16 + core * 2 ^ 24 + die * 2 ^ 32 + pkg.toNat * 2 ^ 40) =
    0#15 ++ pkg ++ 0#6 ++ BitVec.ofNat 2 die ++ 0#2 ++ BitVec.ofNat 6 core ++ 0#6 ++ BitVec.ofNat 2 part ++ 0#7 ++ BitVec.ofNat 9 slot := by
  apply BitVec.eq_of_toNat_eq
  simp only [toNat_append_eq_add, BitVec.toNat_ofNat]
  omega

/-- The words of a trap record as the sums that the model forms. -/
theorem trapRecord_eq (s : State) (t : Thread) (e : TrapInfo) (len : Nat) (pc epc : DWord) (deferred : Bool) :
    trapRecord s t e len pc epc deferred = #v[
      BitVec.ofNat 64 (e.code + len * 2 ^ 8 + (if t.sup then 1 else 0) * 2 ^ 11 + (if deferred then 1 else 0) * 2 ^ 12 +
        e.aux.toNat * 2 ^ 16 + e.detail.toNat * 2 ^ 32),
      pc, e.addr, epc, BitVec.ofNat 64 (t.tid.toNat + (s.tasks[t.task]?.map (fun x => x.num.toNat)).getD 0 * 2 ^ 32),
      BitVec.ofNat 64 (t.slot + t.part * 2 ^ 16 + t.core % 48 * 2 ^ 24 + t.core / 48 * 2 ^ 32 + s.pkg.index.toNat * 2 ^ 40),
      s.time, 0] := rfl

/-- Settles O21: each sum is its fields side by side, as every number is within its field's width. -/
theorem trapRecordFields : Obligations.TrapRecordFields := by
  intro s t T e len pc epc d hT hcode hlen hslot hpart hcore
  have htask : (s.tasks[t.task]?.map (fun x => x.num.toNat)).getD 0 = T.num.toNat := by rw [hT]; rfl
  have hlocal : t.core % 48 < 64 := by omega
  have hdie : t.core / 48 < 4 := by omega
  rw [trapRecord_eq, htask, trapRecord_causeWord e.detail e.aux d t.sup hlen hcode, trapRecord_taskWord,
    trapRecord_placeWord s.pkg.index (hslot.trans (by decide)) hpart hlocal hdie]

end Sys2Proof.Machine
end

section
/-! SUPPORT. Small tables keyed by number, and what stands at a key after an entry is put or entries are taken out. -/

namespace Sys2Proof.Machine

theorem aget_aset {α : Type} (l : List (Nat × α)) (k : Nat) (v : α) (j : Nat) :
    aget (aset l k v) j = if k = j then some v else aget l j := by
  induction l with
  | nil => rfl
  | cons e l ih =>
    obtain ⟨i, w⟩ := e
    simp only [aset]
    split
    · subst_vars
      simp only [aget]
      split <;> rfl
    · split
      · rfl
      · simp only [aget, ih]
        by_cases hj : i = j
        · rw [if_pos hj, if_pos hj, if_neg (by omega)]
        · rw [if_neg hj, if_neg hj]

theorem aget_filter {α : Type} (q : Nat → Bool) (l : List (Nat × α)) (j : Nat) :
    aget (l.filter (fun e => q e.1)) j = if q j then aget l j else none := by
  induction l with
  | nil => simp [aget]
  | cons e l ih =>
    obtain ⟨i, w⟩ := e
    by_cases hij : i = j
    · subst hij
      cases hq : q i <;> simp [aget, ih, hq]
    · cases hq : q i <;> simp [aget, ih, hq, hij]

end Sys2Proof.Machine
end

section
/-! SUPPORT. The control window right after reset (R294, R295). -/

namespace Sys2Proof.Machine

theorem reset_ecc (d : Nat) (h : d < 4) : (State.reset.win.ecc[d]'h).toNat = 0 := by
  show ((Vector.replicate 4 (0 : BitVec 64))[d]'h).toNat = 0
  rw [Vector.getElem_replicate]
  rfl

/-- Outside the identity key, which has no Reset value, the window reads as zero but for the budget: down the table of R294, register by
register. -/
theorem reset_windowRead {off : Nat} (hbudget : off ≠ 0x300) (hkey : ¬ (0x400 ≤ off ∧ off < 0x484)) : State.reset.windowRead off = 0 := by
  unfold State.windowRead
  extract_lets w b reg
  iterate 11 refine ite_eq_iff'.mpr ⟨fun _ => by decide, fun _ => ?_⟩
  refine ite_eq_iff'.mpr ⟨fun _ => reset_ecc _ _, fun _ => ?_⟩
  iterate 7 refine ite_eq_iff'.mpr ⟨fun _ => by decide, fun _ => ?_⟩
  rw [if_neg hbudget]
  iterate 4 refine ite_eq_iff'.mpr ⟨fun _ => by decide, fun _ => ?_⟩
  rw [if_neg hkey]
  iterate 3 refine ite_eq_iff'.mpr ⟨fun _ => rfl, fun _ => ?_⟩
  rfl

/-- Settles O9: each field stands at its Reset value, and what the window derives from the rest of the state is zero. -/
theorem resetWindow : Obligations.ResetWindow := by
  refine ⟨rfl, rfl, rfl, rfl, fun off _ hoff hbudget => ?_, rfl⟩
  exact reset_windowRead hbudget (by omega)

end Sys2Proof.Machine
end

section
/-! SUPPORT. Writes of the device itself at a physical address (R294): the bytes stand at their place, and nothing else of the state but
what caches hold is touched. -/

namespace Sys2Proof.Machine

theorem CachesOnly.homeWrite {s s' : State} (h : CachesOnly s s') (pl : Place) (bs : List Byte) :
    CachesOnly (s.homeWrite pl bs) (s'.homeWrite pl bs) := by
  obtain ⟨m, rfl, hd, hh⟩ := h
  cases pl with
  | dev a b => exact ⟨{ m with dev := m.dev.put a bs }, rfl, by rw [hd]; rfl, hh⟩
  | host a => exact ⟨{ m with host := m.host.put a bs }, rfl, hd, by rw [hh]; rfl⟩
  | tile i off => exact ⟨m, rfl, hd, hh⟩
  | stack k off => exact ⟨m, rfl, hd, hh⟩

theorem physWrite_caches (s : State) (a : Nat) (bs : List Byte) : CachesOnly (s.homeWrite (physPlace a) bs) (s.physWrite a bs) := by
  have hbump : CachesOnly s (s.bump [⟨physPlace a, bs.length⟩]) := ⟨_, rfl, rfl, rfl⟩
  exact (hbump.homeWrite _ _).trans (noteOther_eq _ _ _)

theorem physPlace_there (s : State) (a : Nat) : (physPlace a).there s := by
  unfold physPlace
  split <;> trivial

theorem physWrite_bytes {s : State} (hc : s.canonical) (a : Nat) (bs : List Byte) :
    BytesKeptBut s (s.physWrite a bs) (physPlace a) bs.length ∧ (s.physWrite a bs).bytesAt (physPlace a) bs.length = bs := by
  obtain ⟨hother, hown⟩ := homeWrite_bytes hc (physPlace_there s a) bs
  have hbyte := (physWrite_caches s a bs).byteAt
  refine ⟨fun q hq => (hbyte q).trans (hother q hq), ?_⟩
  simpa only [State.bytesAt, hbyte] using hown

theorem physWrite_mem (s : State) (a : Nat) (bs : List Byte) : ∃ m : Mem, s.physWrite a bs = { s with mem := m } := by
  obtain ⟨m, hm, -, -⟩ := physWrite_caches s a bs
  refine ⟨m, hm.trans ?_⟩
  unfold physPlace
  split <;> rfl

end Sys2Proof.Machine
end

section
/-! SUPPORT. The Spectrograph (R299): the counting of an open issue, and the sample that a due one leaves. -/

namespace Sys2Proof.Machine

/-- The tag of a thread is one that the Spectrograph counts. -/
def State.tagHit (s : State) (t : Thread) : Bool := (t.tag &&& s.win.tagmask) == s.win.tagval

/-- Issues counted in a partition together with one whose lowest-lane member is `t`. -/
def State.issuesWith (s : State) (p : Nat) (t : Thread) : Nat := (aget s.front.spcount p).getD 0 + (if s.tagHit t then 1 else 0)

/-- That issue is one to sample. -/
def State.sampleDue (s : State) (p : Nat) (t : Thread) : Bool :=
  s.tagHit t && s.win.spint ≠ 0 && s.issuesWith p t % 2 ^ s.win.spint.toNat = 0

theorem issuesWith_of_match {s : State} {p : Nat} {t : Thread} (h : t.tag &&& s.win.tagmask = s.win.tagval) :
    s.issuesWith p t = (aget s.front.spcount p).getD 0 + 1 := by
  rw [State.issuesWith, State.tagHit, if_pos (beq_iff_eq.mpr h)]

/-- R299's condition: the tag matches, sampling is on, and the issue is one in 2^spint. -/
theorem sampleDue_iff {s : State} {p : Nat} {t : Thread} : s.sampleDue p t = true ↔
    t.tag &&& s.win.tagmask = s.win.tagval ∧ s.win.spint ≠ 0 ∧ ((aget s.front.spcount p).getD 0 + 1) % 2 ^ s.win.spint.toNat = 0 := by
  simp only [State.sampleDue, State.tagHit, Bool.and_eq_true, decide_eq_true_eq, beq_iff_eq, and_assoc]
  exact and_congr_right fun h => by rw [issuesWith_of_match h]

/-- Counting an open issue changes the front end alone, and a due one leaves a sample besides. -/
theorem countIssue_eq {s : State} {is : Issue} {t : Thread} (hi : s.front.issue = some is) (hc : is.counted = false)
    (ht : s.threads[is.lead]? = some t) :
    ∃ (f : Front) (icyc : Nat), f.issue = some { is with counted := true } ∧ aget f.spcount is.part = some (s.issuesWith is.part t) ∧
      s.countIssue is.part =
        if s.sampleDue is.part t then State.sample { s with front := f } (s.sampleRecord t is icyc) else { s with front := f } := by
  unfold State.countIssue
  simp only [hi, hc, ht, ne_eq, not_true_eq_false, decide_false, Bool.or_false, Bool.false_eq_true, if_false]
  exact ⟨_, _, rfl, (aget_aset ..).trans (if_pos rfl), rfl⟩

theorem sampleRecord_length (s : State) (t : Thread) (is : Issue) (icyc : Nat) : (s.sampleRecord t is icyc).length = 32 := by
  simp [State.sampleRecord]

/-- The ring holds as many records as it has room for. -/
def State.ringFull (s : State) : Prop := (s.win.sphead - s.win.sptail).toNat = 2 ^ s.win.splg.toNat

/-- Where the next record goes. -/
def State.ringAddr (s : State) : Nat := s.win.spbase.toNat + 32 * (s.win.sphead.toNat % 2 ^ s.win.splg.toNat)

theorem sample_full {s : State} (h : s.ringFull) (bs : List Byte) :
    s.sample bs = { s with win := { s.win with spdrop := if s.win.spdrop = 0xFFFFFFFF then s.win.spdrop else s.win.spdrop + 1 } } :=
  if_pos h

theorem sample_room {s : State} (h : ¬ s.ringFull) (bs : List Byte) :
    s.sample bs = { s.physWrite s.ringAddr bs with win := { (s.physWrite s.ringAddr bs).win with sphead := s.win.sphead + 1 } } :=
  if_neg h

/-- A sample touches memory and the control window alone. -/
theorem sample_kept (s : State) (bs : List Byte) :
    (s.sample bs).front = s.front ∧ (s.sample bs).threads = s.threads ∧ (s.sample bs).tasks = s.tasks := by
  by_cases h : s.ringFull
  · rw [sample_full h]; exact ⟨rfl, rfl, rfl⟩
  · obtain ⟨m, hm⟩ := physWrite_mem s s.ringAddr bs
    rw [sample_room h, hm]; exact ⟨rfl, rfl, rfl⟩

/-- With room in the ring, the record stands at its place, no other byte changes, and the ring's head advances. -/
theorem sample_written {s : State} (hc : s.canonical) (h : ¬ s.ringFull) (bs : List Byte) :
    (s.sample bs).win = { s.win with sphead := s.win.sphead + 1 } ∧
      BytesKeptBut s (s.sample bs) (physPlace s.ringAddr) bs.length ∧ (s.sample bs).bytesAt (physPlace s.ringAddr) bs.length = bs := by
  obtain ⟨m, hm⟩ := physWrite_mem s s.ringAddr bs
  rw [sample_room h]
  exact ⟨by rw [hm], physWrite_bytes hc s.ringAddr bs⟩

end Sys2Proof.Machine
end

section
/-! SUPPORT. Writes of the control window's registers (R294): budgets, basic-block counters (R301), and what `CONTROL_WINDOW_WRITE` does
at the offset of each register. -/

namespace Sys2Proof.Machine

/-! ## Budgets and basic-block counters -/

theorem budgetWrite_powerOf {s : State} {c : Nat} (hc : s.selCore = some c) (v : BitVec 64) (d : Nat) :
    (s.budgetWrite v).powerOf d = if c = d then { s.powerOf c with budget := min v.toNat Config.budgetClip } else s.powerOf d := by
  simp only [State.budgetWrite, hc, State.powerOf, aget_aset]
  split <;> rfl

/-- The dies' counters behind one of the window (R301). -/
theorem bbcRead_eq (s : State) (i : Nat) :
    s.bbcRead i = (aget s.pkg.bbc i).getD 0 + (aget s.pkg.bbc (256 + i)).getD 0 + (aget s.pkg.bbc (512 + i)).getD 0 +
      (aget s.pkg.bbc (768 + i)).getD 0 := by
  simp [State.bbcRead, List.range_succ]

/-- After a write die 0's counter holds the value, and the other dies have none that counts. -/
theorem aget_bbcWrite (s : State) {i : Nat} (v : BitVec 64) (j : Nat) :
    aget (s.bbcWrite i v).pkg.bbc j = if i = j then some v else if j % 256 = i then none else aget s.pkg.bbc j := by
  simp only [State.bbcWrite, aget_aset]
  rw [aget_filter (fun k => decide (k % 256 ≠ i))]
  by_cases h : j % 256 = i <;> simp [h]

theorem bbcRead_bbcWrite_same (s : State) {i : Nat} (hi : i < 256) (v : BitVec 64) : (s.bbcWrite i v).bbcRead i = v := by
  have hmod : i % 256 = i := Nat.mod_eq_of_lt hi
  simp [bbcRead_eq, aget_bbcWrite, Nat.add_mod, hmod]

theorem bbcRead_bbcWrite_of_ne (s : State) {i j : Nat} (hi : i < 256) (hj : j < 256) (hij : j ≠ i) (v : BitVec 64) :
    (s.bbcWrite i v).bbcRead j = s.bbcRead j := by
  have hkey (d : Nat) : aget (s.bbcWrite i v).pkg.bbc (256 * d + j) = aget s.pkg.bbc (256 * d + j) := by
    rw [aget_bbcWrite, if_neg (by omega), if_neg (by omega)]
  simp only [State.bbcRead, hkey]

/-! ## Fields of a written word -/

theorem ofNat_div_two_pow {w : Nat} (v : BitVec w) (n k : Nat) : BitVec.ofNat n (v.toNat / 2 ^ k) = (v >>> k).setWidth n := by
  rw [← Nat.shiftRight_eq_div_pow, ← BitVec.toNat_ushiftRight, BitVec.ofNat_toNat]

/-! ## Registers by offset -/

variable (s : State) (v : BitVec 64)

theorem exec_controlWindowWrite {off : Nat} (h : off < 2 ^ 16) :
    exec (.controlWindowWrite (BitVec.ofNat 16 off) (some v)) s = .next (s.windowWrite off v) := by
  show Host.Outcome.next (s.windowWrite (BitVec.ofNat 16 off).toNat v) = _
  rw [BitVec.toNat_ofNat, Nat.mod_eq_of_lt h]

/-- The word of splg, spint, tagmask and tagval; it empties the ring as a write of spbase does (R299). -/
theorem ringConfig_word : s.ringConfig true v = { s with win := { s.win with
    splg := v.setWidth 5, spint := (v >>> 8).setWidth 5, tagmask := (v >>> 16).setWidth 16, tagval := (v >>> 32).setWidth 16,
    sphead := 0, sptail := 0 } } := by
  simp only [State.ringConfig, ofNat_div_two_pow]
  rfl

theorem windowWrite_warm {v : BitVec 64} (h : v.toNat % 4 = 1) : s.windowWrite 0x008 v = s.resetWrite false := if_pos h

theorem windowWrite_cold {v : BitVec 64} (h : v.toNat % 4 = 2) : s.windowWrite 0x008 v = s.resetWrite true :=
  (if_neg (by omega)).trans (if_pos h)

theorem windowWrite_noReset {v : BitVec 64} (h : v.toNat % 4 = 0 ∨ v.toNat % 4 = 3) : s.windowWrite 0x008 v = s :=
  (if_neg (by omega)).trans (if_neg (by omega))

theorem windowWrite_ecc (d : Fin 4) : s.windowWrite (0x060 + 8 * d.val) v = { s with win := { s.win with ecc := s.win.ecc.set d v } } := by
  match d with
  | 0 => rfl
  | 1 => rfl
  | 2 => rfl
  | 3 => rfl

theorem windowWrite_selection : s.windowWrite 0x200 v = { s with win := { s.win with
    die := v.setWidth 2, core := (v >>> 8).setWidth 6, part := (v >>> 16).setWidth 2, slot := (v >>> 24).setWidth 9 } } := by
  simp only [← ofNat_div_two_pow]
  rfl

theorem windowWrite_refused :
    s.windowWrite 0x210 v = { s with win := if v.getLsbD 1 then { s.win with refused := false } else s.win } := by
  rw [← BitVec.testBit_toNat, Nat.testBit_eq_decide_div_mod_eq]
  by_cases h : v.toNat / 2 ^ 1 % 2 = 1
  · simp only [h, decide_true, if_true]
    exact if_pos h
  · simp only [h, decide_false, Bool.false_eq_true, if_false]
    exact if_neg h

/-- Above the budget a write changes nothing but the basic-block counters and the thread window. -/
theorem windowWrite_above {off : Nat} (h8 : off % 8 = 0) (hoff : 0x300 < off) :
    s.windowWrite off v =
      if 0x1000 ≤ off ∧ off < 0x1800 then s.bbcWrite ((off - 0x1000) / 8) v
      else if 0x2000 ≤ off ∧ off < 0x2300 then s.twinWrite (off - 0x2000) v else s := by
  unfold State.windowWrite
  extract_lets w put
  rw [if_neg (not_not_intro h8)]
  iterate 16 rw [if_neg (by omega)]

theorem windowWrite_bbc {i : Nat} (hi : i < 256) : s.windowWrite (0x1000 + 8 * i) v = s.bbcWrite i v := by
  rw [windowWrite_above s v (by omega) (by omega), if_pos (by omega), show (0x1000 + 8 * i - 0x1000) / 8 = i by omega]

theorem windowWrite_twin {off : Nat} (h8 : off % 8 = 0) (hoff : off < 0x300) : s.windowWrite (0x2000 + off) v = s.twinWrite off v := by
  rw [windowWrite_above s v (by omega) (by omega), if_neg (by omega), if_pos (by omega), Nat.add_sub_cancel_left]

/-- Offsets that no write changes: misaligned ones, registers that are only read, and those that the table does not list. -/
theorem windowWrite_ignored {off : Nat} (h : off % 8 ≠ 0 ∨ off ∈ [0x000, 0x028, 0x030, 0x038, 0x058, 0x110, 0x308, 0x310, 0x318, 0x320] ∨
    0x2300 ≤ off ∨ 0x400 ≤ off ∧ off < 0x1000) : s.windowWrite off v = s := by
  simp only [List.mem_cons, List.not_mem_nil, or_false] at h
  by_cases h8 : off % 8 = 0
  · by_cases hlow : off ≤ 0x300
    · have hro : off = 0x000 ∨ off = 0x028 ∨ off = 0x030 ∨ off = 0x038 ∨ off = 0x058 ∨ off = 0x110 := by omega
      rcases hro with rfl | rfl | rfl | rfl | rfl | rfl <;> rfl
    · have hgap : off < 0x1000 ∨ 0x2300 ≤ off := by omega
      rw [windowWrite_above s v h8 (by omega), if_neg (by omega), if_neg (by omega)]
  · exact if_pos h8

end Sys2Proof.Machine
end

section
/-! SUPPORT. The events of the control window and the Spectrograph's sample, each by what it leaves (R294, R299, R301). -/

namespace Sys2Proof.Machine

theorem exec_budgetWrite (s : State) (v : BitVec 64) {c : Nat} (hcore : s.win.core.toNat < 48)
    (hc : c = 48 * s.win.die.toNat + s.win.core.toNat) :
    ∃ u, exec (.budgetWrite v) s = .next u ∧ (u.powerOf c).budget = min v.toNat 200000000 ∧ (u.powerOf c).used = (s.powerOf c).used ∧
      ∀ d, d ≠ c → u.powerOf d = s.powerOf d := by
  have hsel : s.selCore = some c := (if_pos hcore).trans (by rw [hc])
  have hself := (budgetWrite_powerOf hsel v c).trans (if_pos rfl)
  refine ⟨_, rfl, by rw [hself]; rfl, by rw [hself], fun d hd => ?_⟩
  exact (budgetWrite_powerOf hsel v d).trans (if_neg (Ne.symm hd))

/-- Settles O48: the sample by whether the issue is due and the ring full, and the window's writes register by register. -/
theorem windowWritesAndSampling : Obligations.WindowWritesAndSampling := by
  refine ⟨fun s p is t hi hp hc ht => ?_, fun s v => ⟨fun c hcore hc => exec_budgetWrite s v hcore hc, fun i => ?_, rfl, ?_, fun _ => rfl, ?_⟩⟩
  · intro hit n due full pl
    have hn (h : hit) : s.issuesWith p.val t = n := issuesWith_of_match h
    have hdue : s.sampleDue p.val t = true ↔ due := sampleDue_iff
    obtain ⟨f, icyc, hissue, hcount, heq⟩ := countIssue_eq hi hc ht
    rw [hp] at hcount heq
    have hexec : exec (.spectrographSample p) s = .next (s.countIssue p.val) := rfl
    by_cases hd : due
    · rw [if_pos (hdue.mpr hd)] at heq
      obtain ⟨hfront, hthreads, htasks⟩ := sample_kept { s with front := f } (s.sampleRecord t is icyc)
      refine ⟨_, hexec.trans (congrArg _ heq), ?_, hthreads, htasks, fun h => ?_, fun h => absurd hd h, fun _ hfull => ?_, fun _ hroom hcan => ?_⟩
      · rw [hfront]; exact hissue
      · rw [hfront, ← hn h]; exact hcount
      · rw [sample_full (s := { s with front := f }) hfull]; exact ⟨rfl, rfl⟩
      · obtain ⟨hwin, hother, hown⟩ := sample_written (s := { s with front := f }) hcan hroom (s.sampleRecord t is icyc)
        rw [sampleRecord_length] at hother hown
        exact ⟨hwin, hother, _, leBytes_length 8 _, hown⟩
    · rw [if_neg (mt hdue.mp hd)] at heq
      exact ⟨_, hexec.trans (congrArg _ heq), hissue, rfl, rfl, fun h => hn h ▸ hcount, fun _ => ⟨rfl, rfl⟩, fun h => absurd h hd, fun h => absurd h hd⟩
  · exact ⟨_, rfl, bbcRead_bbcWrite_same s i.isLt v, fun j hj hij => bbcRead_bbcWrite_of_ne s i.isLt hj hij v⟩
  · exact congrArg _ (ringConfig_word s v)
  · refine ⟨rfl, rfl, rfl, rfl, rfl, rfl, rfl, congrArg _ (windowWrite_selection s v), fun d => ?_, congrArg _ (windowWrite_refused s v),
      fun h => congrArg _ (windowWrite_warm s h), fun h => congrArg _ (windowWrite_cold s h), fun h => congrArg _ (windowWrite_noReset s h),
      fun h => congrArg _ (if_pos h), rfl, rfl, rfl, ?_, ?_, ?_, ?_, ?_, fun i => ?_, fun off h8 hoff => ?_,
      fun off hoff => congrArg _ (windowWrite_ignored s v hoff)⟩
    · exact (exec_controlWindowWrite s v (by omega)).trans (congrArg _ (windowWrite_ecc s v d))
    · rintro rfl; rfl
    · rintro rfl; rfl
    · rintro rfl; rfl
    · rintro rfl; rfl
    · rintro rfl; rfl
    · exact (exec_controlWindowWrite s v (by omega)).trans (congrArg _ (windowWrite_bbc s v i.isLt))
    · have htwin := exec_controlWindowWrite s v (off := 0x2000 + off) (by omega)
      rw [windowWrite_twin s v h8 hoff] at htwin
      exact htwin.trans (congrArg _ (if_pos ⟨h8, hoff⟩).symm)

end Sys2Proof.Machine
end

section
/-! SUPPORT. The integer class (R83, R84): what its results are on the exact integers that the model computes, as operations on words. -/

namespace Sys2Proof.Machine

open Spec (lo32 lo64 up32 up64)

/-! ## Readings of a source and narrowing of a result -/

theorem w32_eq_lo32 (v : QWord) : w32 v = (lo32 v).toNat := (BitVec.toNat_setWidth 32 v).symm

theorem s32_eq_lo32 (v : QWord) : s32 v = (lo32 v).toInt := congrArg BitVec.toInt (BitVec.ofNat_toNat 32 v)

theorem rd32_eq_lo32 (u : Bool) (v : QWord) : rd32 u v = if u then ((lo32 v).toNat : Int) else (lo32 v).toInt := by
  rw [rd32, w32_eq_lo32, s32_eq_lo32]

theorem ofInt_sub {w : Nat} (x y : Int) : BitVec.ofInt w (x - y) = BitVec.ofInt w x - BitVec.ofInt w y := by
  rw [Int.sub_eq_add_neg, BitVec.ofInt_add, BitVec.ofInt_neg, BitVec.sub_eq_add_neg]

theorem ofInt_toNat {w : Nat} (n : Nat) (v : BitVec w) : BitVec.ofInt n (v.toNat : Int) = v.setWidth n := by
  rw [BitVec.ofInt_natCast, BitVec.ofNat_toNat]

theorem ofInt_rd32 (n : Nat) (u : Bool) (v : QWord) :
    BitVec.ofInt n (rd32 u v) = if u then (lo32 v).setWidth n else (lo32 v).signExtend n := by
  rw [rd32_eq_lo32]
  cases u
  · rfl
  · exact ofInt_toNat n (lo32 v)

theorem toNat_ofInt_eq_emod (n : Nat) (e : Int) : ((BitVec.ofInt n e).toNat : Int) = e % 2 ^ n := by
  rw [BitVec.toNat_ofInt, Int.toNat_of_nonneg (Int.emod_nonneg e (by positivity))]
  norm_cast

theorem wrap32_eq_up32 (e : Int) : wrap32 e = up32 (BitVec.ofInt 32 e) :=
  (congrArg (BitVec.ofNat 128) (BitVec.toNat_ofInt e).symm).trans (BitVec.ofNat_toNat 128 _)

theorem wrap64_eq_up64 (e : Int) : wrap64 e = up64 (BitVec.ofInt 64 e) :=
  (congrArg (BitVec.ofNat 128) (BitVec.toNat_ofInt e).symm).trans (BitVec.ofNat_toNat 128 _)

theorem ofInt_clampS (e : Int) : BitVec.ofInt 32 (clampS e) = Spec.satS e := by
  unfold Spec.satS
  split
  · rw [show clampS e = -(2 ^ 31) by unfold clampS; omega]; rfl
  · split
    · rw [show clampS e = 2 ^ 31 - 1 by unfold clampS; omega]; rfl
    · rw [show clampS e = e by unfold clampS; omega]

theorem ofInt_clampU (e : Int) : BitVec.ofInt 32 (clampU e) = Spec.satU e := by
  unfold Spec.satU
  split
  · rw [show clampU e = 0 by unfold clampU; omega]; rfl
  · split
    · rw [show clampU e = 2 ^ 32 - 1 by unfold clampU; omega]; rfl
    · rw [show clampU e = e by unfold clampU; omega]

/-- Bits `k` up to `k + w` of an exact value are those of any word wide enough to hold them, since what the word lacks is a multiple of
`2 ^ (w + k)`. -/
theorem ofInt_ediv_two_pow {w k n : Nat} (h : w + k ≤ n) (e : Int) :
    BitVec.ofInt w (e / 2 ^ k) = (BitVec.ofInt n e >>> k).setWidth w := by
  obtain ⟨m, rfl⟩ := Nat.exists_eq_add_of_le h
  have hlow := toNat_ofInt_eq_emod (w + k + m) e
  generalize BitVec.ofInt (w + k + m) e = v at hlow ⊢
  have hsplit : e = v.toNat + 2 ^ k * (2 ^ w * (2 ^ m * (e / 2 ^ (w + k + m)))) := by
    rw [hlow]
    conv_lhs => rw [← Int.emod_add_mul_ediv e (2 ^ (w + k + m))]
    ring
  have hw : BitVec.ofInt w (2 ^ w) = 0#w := BitVec.eq_of_toNat_eq (by simp)
  rw [hsplit, Int.add_mul_ediv_left _ _ (by positivity), BitVec.ofInt_add, BitVec.ofInt_mul, hw, BitVec.zero_mul, BitVec.add_zero]
  exact (BitVec.ofInt_natCast w (v.toNat / 2 ^ k)).trans (ofNat_div_two_pow v w k)

theorem ofInt_toNat_mul_two_pow {w : Nat} (v : BitVec w) (k : Nat) : BitVec.ofInt w (v.toNat * 2 ^ k) = v <<< k :=
  BitVec.eq_of_toInt_eq (by rw [BitVec.toInt_ofInt, BitVec.toInt_shiftLeft, Nat.shiftLeft_eq]; norm_cast)

/-! ## The fields of func (R83) -/

theorem satOf_eq (x : ExtOp) : satOf x = Spec.sOf x := rfl

theorem wField_eq (x : ExtOp) : bitsOf x.func 1 0 = x.func.toNat % 4 := congrArg (· % 4) (Nat.div_one _)

theorem widthOf_eq (x : ExtOp) : widthOf x = Spec.wOf x := by
  unfold widthOf Cls.ofW Spec.wOf
  rw [wField_eq]
  split
  · rfl
  · split <;> rfl

end Sys2Proof.Machine
end

section
/-! SUPPORT. The integer class (R83, R84): sums, products, quotients, shifts and comparisons. -/

namespace Sys2Proof.Machine

open Spec (lo32 lo64 up32 up64)

variable (cx : Ctx)

/-! ## Sums and products (R332, R333, R385, R388) -/

theorem addVal_eq : addVal cx = up32 (Spec.add cx.x cx.va cx.vb) := by
  simp only [addVal, addSub, Spec.add, wrap32_eq_up32, satOf_eq, w32_eq_lo32, s32_eq_lo32]
  split
  · exact congrArg up32 (ofInt_clampS _)
  · split
    · exact congrArg up32 (ofInt_clampU _)
    · simp [BitVec.ofInt_add]

theorem subVal_eq : subVal cx = up32 (Spec.sub cx.x cx.va cx.vb) := by
  simp only [subVal, addSub, Spec.sub, wrap32_eq_up32, satOf_eq, w32_eq_lo32, s32_eq_lo32]
  split
  · exact congrArg up32 (ofInt_clampS _)
  · split
    · exact congrArg up32 (ofInt_clampU _)
    · simp [ofInt_sub]

theorem mulVal_eq : mulVal cx = up32 (lo32 cx.va * lo32 cx.vb) := by
  rw [mulVal, wrap32_eq_up32, w32_eq_lo32, w32_eq_lo32, BitVec.ofInt_mul, ofInt_toNat, ofInt_toNat, BitVec.setWidth_eq, BitVec.setWidth_eq]

theorem ofInt_rd32_mul (u : Bool) (a b : QWord) : BitVec.ofInt 64 (rd32 u a * rd32 u b) = Spec.prod u a b := by
  rw [BitVec.ofInt_mul, ofInt_rd32, ofInt_rd32]
  cases u <;> rfl

theorem mulwVal_eq : mulwVal cx = up64 (Spec.prod (uOf cx.x) cx.va cx.vb) := by
  rw [mulwVal, wrap64_eq_up64, ofInt_rd32_mul]

theorem mulhVal_eq : mulhVal cx = up32 ((Spec.prod (uOf cx.x) cx.va cx.vb >>> 32).setWidth 32) := by
  rw [mulhVal, wrap32_eq_up32, ofInt_ediv_two_pow (Nat.le_refl 64), ofInt_rd32_mul]

theorem madVal_eq : madVal cx = up32 (Spec.mad cx.x cx.va cx.vb cx.vc) := by
  simp only [madVal, Spec.mad, wrap32_eq_up32, satOf_eq, s32_eq_lo32]
  split
  · exact congrArg up32 (ofInt_clampS _)
  · rw [BitVec.ofInt_add, BitVec.ofInt_mul, BitVec.ofInt_toInt, BitVec.ofInt_toInt, BitVec.ofInt_toInt]

theorem addqVal_eq : addqVal cx = up64 (lo64 cx.va + lo64 cx.vb) := by
  rw [addqVal, wrap64_eq_up64, BitVec.ofInt_add, ofInt_toNat, ofInt_toNat]; rfl

theorem leaVal_eq : leaVal cx = up64 (lo64 cx.va +
    (if uOf cx.x then (lo32 cx.vb).setWidth 64 else (lo32 cx.vb).signExtend 64) <<< (cx.x.func.toNat % 4)) := by
  simp only [leaVal, wField_eq]
  rw [wrap64_eq_up64, BitVec.ofInt_add, ofInt_toNat, ← toNat_ofInt_eq_emod, ofInt_toNat_mul_two_pow, ofInt_rd32]; rfl

/-! ## Quotients and remainders (R356) -/

theorem rd32_eq_zero_iff (u : Bool) (v : QWord) : rd32 u v = 0 ↔ lo32 v = 0 := by
  rw [rd32_eq_lo32]
  cases u
  · exact BitVec.toInt_inj (y := 0#32)
  · exact Int.natCast_eq_zero.trans (BitVec.toNat_inj (y := 0#32))

theorem divRem_of_eq_zero {u : Bool} {a b : QWord} (h : lo32 b = 0) : divRem u a b = (2 ^ 32 - 1, rd32 u a) :=
  if_pos ((rd32_eq_zero_iff u b).mpr h)

theorem divRem_of_ne_zero {u : Bool} {a b : QWord} (h : lo32 b ≠ 0) :
    divRem u a b = ((rd32 u a).tdiv (rd32 u b), (rd32 u a).tmod (rd32 u b)) := by
  rw [Int.tmod_def, Int.mul_comm]
  exact if_neg (mt (rd32_eq_zero_iff u b).mp h)

theorem divVal_eq : divVal cx = up32 (Spec.div (uOf cx.x) cx.va cx.vb) := by
  rw [divVal, wrap32_eq_up32, Spec.div]
  split
  · next h => rw [divRem_of_eq_zero h]; rfl
  · next h =>
    rw [divRem_of_ne_zero h, rd32_eq_lo32, rd32_eq_lo32]
    cases uOf cx.x
    · exact congrArg up32 (BitVec.eq_of_toInt_eq ((BitVec.toInt_ofInt _).trans (BitVec.toInt_sdiv _ _).symm))
    · exact congrArg up32 ((ofInt_toNat 32 (lo32 cx.va / lo32 cx.vb)).trans (BitVec.setWidth_eq _))

theorem remVal_eq : remVal cx = up32 (Spec.rem (uOf cx.x) cx.va cx.vb) := by
  rw [remVal, wrap32_eq_up32, Spec.rem]
  split
  · next h => rw [divRem_of_eq_zero h, ofInt_rd32]; cases uOf cx.x <;> simp
  · next h =>
    rw [divRem_of_ne_zero h, rd32_eq_lo32, rd32_eq_lo32]
    cases uOf cx.x
    · exact congrArg up32 ((congrArg _ (BitVec.toInt_srem _ _).symm).trans BitVec.ofInt_toInt)
    · exact congrArg up32 ((ofInt_toNat 32 (lo32 cx.va % lo32 cx.vb)).trans (BitVec.setWidth_eq _))

/-! ## Shifts (R403) -/

theorem shlVal_eq : shlVal cx = up32 (lo32 cx.va <<< (cx.vb.toNat % 32)) := by
  rw [shlVal, wrap32_eq_up32, w32_eq_lo32, ← ofInt_toNat_mul_two_pow]
  norm_cast

theorem shrVal_eq : shrVal cx = up32 (lo32 cx.va >>> (cx.vb.toNat % 32)) := by
  rw [shrVal, w32_eq_lo32, ofNat_div_two_pow]; rfl

theorem sarVal_eq : sarVal cx = up32 ((lo32 cx.va).sshiftRight (cx.vb.toNat % 32)) := by
  rw [sarVal, wrap32_eq_up32, s32_eq_lo32, BitVec.sshiftRight, Int.shiftRight_eq_div_pow]; rfl

theorem rotVal_eq : rotVal cx = up32 (lo32 cx.va <<< (cx.vb.toNat % 32) ||| lo32 cx.va >>> (32 - cx.vb.toNat % 32)) := by
  rw [rotVal, BitVec.ofNat_toNat, BitVec.rotateLeft_def, countOf, Nat.mod_mod]; rfl

/-! ## Comparisons and the absolute value (R330, R389) -/

theorem least_iff (u : Bool) (a b : QWord) : Spec.least u a b = true ↔ rd32 u a ≤ rd32 u b := by
  rw [rd32_eq_lo32, rd32_eq_lo32]
  cases u <;> simp [Spec.least]

theorem minVal_eq : minVal cx = if Spec.least (uOf cx.x) cx.va cx.vb then cx.va else cx.vb :=
  (if_congr (least_iff _ _ _) rfl rfl).symm

theorem maxVal_eq : maxVal cx = if Spec.least (uOf cx.x) cx.vb cx.va then cx.va else cx.vb :=
  (if_congr (least_iff _ _ _) rfl rfl).symm

theorem ofInt_natAbs (x : BitVec 32) : BitVec.ofInt 32 x.toInt.natAbs = if x.msb then -x else x := by
  rw [BitVec.msb_eq_toInt]
  by_cases h : x.toInt < 0
  · rw [Int.ofNat_natAbs_of_nonpos h.le, BitVec.ofInt_neg, BitVec.ofInt_toInt, decide_eq_true h]; rfl
  · rw [Int.natAbs_of_nonneg (not_lt.mp h), BitVec.ofInt_toInt, decide_eq_false h]; rfl

/-- Only the least integer has an absolute value beyond the greatest. -/
theorem clampS_natAbs {x : BitVec 32} (h : x ≠ 0x80000000) : clampS x.toInt.natAbs = x.toInt.natAbs := by
  have hmin : x.toInt ≠ -(2 ^ 31) := mt (BitVec.toInt_inj (y := 0x80000000#32)).mp h
  have hle := BitVec.le_toInt x
  have hlt := BitVec.toInt_lt (x := x)
  unfold clampS
  omega

theorem absVal_eq : absVal cx = up32 (Spec.abs cx.x cx.va) := by
  simp only [absVal, wrap32_eq_up32, satOf_eq, s32_eq_lo32, Spec.abs]
  split
  · next hS =>
    by_cases h : lo32 cx.va = 0x80000000
    · rw [if_pos ⟨hS, h⟩, h]; rfl
    · rw [if_neg (fun h' => h h'.2), clampS_natAbs h, ofInt_natAbs]
  · next hS => rw [if_neg (fun h' => hS h'.1), ofInt_natAbs]

end Sys2Proof.Machine
end

section
/-! SUPPORT. The integer class (R83, R84): bit counts, reversal and bit fields, by the bits of a value from the most significant down. -/

namespace Sys2Proof.Machine

open Spec (lo32 up32)

/-! ## Lists of bits -/

/-- The first `n` bits of a function, the last of them first. -/
def bitsFrom (p : Nat → Bool) (n : Nat) : List Bool := (List.range n).map (fun j => p (n - 1 - j))

theorem bitsDown_eq (v : QWord) (n : Nat) : Spec.bitsDown v n = bitsFrom v.toNat.testBit n := rfl

theorem bitsFrom_succ (p : Nat → Bool) (n : Nat) : bitsFrom p (n + 1) = p n :: bitsFrom p n := by
  unfold bitsFrom
  rw [List.range_succ_eq_map, List.map_cons, List.map_map]
  refine congrArg₂ _ rfl (List.map_congr_left fun j _ => congrArg p ?_)
  omega

theorem bitsFrom_congr {p q : Nat → Bool} {n : Nat} (h : ∀ j < n, p j = q j) : bitsFrom p n = bitsFrom q n :=
  List.map_congr_left fun j hj => h _ (by have := List.mem_range.mp hj; omega)

theorem length_bitsFrom (p : Nat → Bool) (n : Nat) : (bitsFrom p n).length = n := by simp [bitsFrom]

theorem ofBits_concat (l : List Bool) (b : Bool) : Spec.ofBits (l ++ [b]) = 2 * Spec.ofBits l + b.toNat := by
  simp [Spec.ofBits]

theorem ofBits_cons (b : Bool) (l : List Bool) : Spec.ofBits (b :: l) = 2 ^ l.length * b.toNat + Spec.ofBits l := by
  induction l using List.reverseRecOn with
  | nil => simp [Spec.ofBits]
  | append_singleton l c ih =>
    rw [← List.cons_append, ofBits_concat, ofBits_concat, ih, List.length_append, List.length_singleton, Nat.pow_succ]
    ring

theorem mod_two_pow_succ (v n : Nat) : v % 2 ^ (n + 1) = v % 2 ^ n + 2 ^ n * (v.testBit n).toNat := by
  rw [Nat.mod_pow_succ, Nat.toNat_testBit]

theorem ofBits_bitsFrom_testBit (v n : Nat) : Spec.ofBits (bitsFrom v.testBit n) = v % 2 ^ n := by
  induction n with
  | zero => rw [Nat.pow_zero, Nat.mod_one]; rfl
  | succ n ih => rw [bitsFrom_succ, ofBits_cons, length_bitsFrom, ih, mod_two_pow_succ, Nat.add_comm]

/-! ## Counts and reversal (R345) -/

theorem popNat_eq (v n : Nat) : popNat v n = ((bitsFrom v.testBit n).filter id).length := by
  induction n with
  | zero => rfl
  | succ n ih =>
    rw [bitsFrom_succ, popNat, ih, ← Nat.toNat_testBit]
    cases v.testBit n <;> simp [Nat.add_comm]

/-- The model reverses from the least significant bit up; from the other end, one more bit moves the others up by one. -/
theorem revNat_succ (v n : Nat) : revNat v (n + 1) = 2 * revNat v n + (v.testBit n).toNat := by
  induction n generalizing v with
  | zero => rw [Nat.toNat_testBit]; simp [revNat]
  | succ n ih =>
    rw [revNat, ih, revNat, Nat.testBit_succ, Nat.pow_succ]
    ring

theorem revNat_eq (v n : Nat) : revNat v n = Spec.ofBits (bitsFrom v.testBit n).reverse := by
  induction n with
  | zero => rfl
  | succ n ih => rw [bitsFrom_succ, List.reverse_cons, ofBits_concat, revNat_succ, ih]

theorem clzNat_of_testBit {v n : Nat} (h : v.testBit n = true) : clzNat (v % 2 ^ (n + 1)) (n + 1) = 0 := by
  have hlt := Nat.mod_lt v (Nat.two_pow_pos n)
  rw [mod_two_pow_succ, h, Bool.toNat_true, Nat.mul_one]
  have hne : v % 2 ^ n + 2 ^ n ≠ 0 := by omega
  have hlog : (v % 2 ^ n + 2 ^ n).log2 = n := (Nat.log2_eq_iff hne).mpr ⟨Nat.le_add_left .., by omega⟩
  rw [clzNat, if_neg hne, hlog]
  omega

theorem clzNat_of_not_testBit {v n : Nat} (h : v.testBit n = false) : clzNat (v % 2 ^ (n + 1)) (n + 1) = clzNat (v % 2 ^ n) n + 1 := by
  rw [mod_two_pow_succ, h, Bool.toNat_false, Nat.mul_zero, Nat.add_zero]
  by_cases h0 : v % 2 ^ n = 0
  · rw [clzNat, clzNat, if_pos h0, if_pos h0]
  · have hlog := (Nat.log2_lt h0).mpr (Nat.mod_lt v (Nat.two_pow_pos n))
    rw [clzNat, clzNat, if_neg h0, if_neg h0]
    omega

theorem clzNat_eq (v n : Nat) : clzNat (v % 2 ^ n) n = ((bitsFrom v.testBit n).takeWhile (fun b => !b)).length := by
  induction n with
  | zero => simp [clzNat, bitsFrom, Nat.mod_one]
  | succ n ih =>
    rw [bitsFrom_succ]
    cases h : v.testBit n with
    | true => exact clzNat_of_testBit h
    | false => rw [clzNat_of_not_testBit h, ih]; rfl

theorem clzVal_eq (cx : Ctx) : clzVal cx = BitVec.ofNat 128 ((Spec.bitsDown cx.va (Spec.wOf cx.x)).takeWhile (fun b => !b)).length := by
  rw [clzVal, widthOf_eq, clzNat_eq, bitsDown_eq]

theorem popcVal_eq (cx : Ctx) : popcVal cx = BitVec.ofNat 128 ((Spec.bitsDown cx.va (Spec.wOf cx.x)).filter id).length := by
  rw [popcVal, widthOf_eq, popNat_eq, bitsDown_eq]

theorem brevVal_eq (cx : Ctx) : brevVal cx = BitVec.ofNat 128 (Spec.ofBits (Spec.bitsDown cx.va (Spec.wOf cx.x)).reverse) := by
  rw [brevVal, widthOf_eq, revNat_eq, bitsDown_eq]

/-! ## A field inserted (R341) -/

theorem testBit_fieldMask {w pos j : Nat} (hj : j < 32) :
    ((2 ^ w - 1) * 2 ^ pos % 2 ^ 32).testBit j = decide (pos ≤ j ∧ j < pos + w) := by
  rw [Nat.testBit_mod_two_pow, Nat.testBit_mul_two_pow, Nat.testBit_two_pow_sub_one]
  grind

theorem testBit_fieldValue {v w pos j : Nat} (hw : w ≤ 32) (hj : j < 32) :
    (v % 2 ^ 32 % 2 ^ w * 2 ^ pos % 2 ^ 32).testBit j = (decide (pos ≤ j ∧ j < pos + w) && v.testBit (j - pos)) := by
  rw [Nat.mod_mod_of_dvd v (Nat.pow_dvd_pow 2 hw), Nat.testBit_mod_two_pow, Nat.testBit_mul_two_pow, Nat.testBit_mod_two_pow]
  grind

theorem testBit_fieldInsert {a c w pos j : Nat} (hw : w ≤ 32) (hj : j < 32) :
    (c % 2 ^ 32 &&& (2 ^ 32 - 1 - (2 ^ w - 1) * 2 ^ pos % 2 ^ 32) ||| a % 2 ^ 32 % 2 ^ w * 2 ^ pos % 2 ^ 32).testBit j =
      if pos ≤ j ∧ j < pos + w then a.testBit (j - pos) else c.testBit j := by
  rw [Nat.sub_sub, Nat.add_comm 1, Nat.testBit_or, Nat.testBit_and, Nat.testBit_mod_two_pow,
    Nat.testBit_two_pow_sub_succ (Nat.mod_lt _ (Nat.two_pow_pos 32)), testBit_fieldMask hj, testBit_fieldValue hw hj]
  split <;> simp [*]

/-- The number that has 32 given bits. -/
theorem ofBits_bitsFrom_eq {p : Nat → Bool} {v : Nat} (hv : v < 2 ^ 32) (h : ∀ j < 32, v.testBit j = p j) :
    Spec.ofBits (bitsFrom p 32) = v := by
  rw [← bitsFrom_congr h, ofBits_bitsFrom_testBit, Nat.mod_eq_of_lt hv]

theorem bfiVal_eq (cx : Ctx) :
    bfiVal cx = BitVec.ofNat 128 (Spec.ofBits ((List.range 32).map (fun j => Spec.bfiBit cx.va cx.vb cx.vc (31 - j)))) := by
  refine congrArg (BitVec.ofNat 128) (ofBits_bitsFrom_eq (p := Spec.bfiBit cx.va cx.vb cx.vc) ?_ fun j hj => ?_).symm
  · exact Nat.or_lt_two_pow (Nat.lt_of_le_of_lt Nat.and_le_left (Nat.mod_lt _ (by decide))) (Nat.mod_lt _ (by decide))
  · exact testBit_fieldInsert (Nat.min_le_right _ _) hj

/-! ## A field extracted (R340) -/

/-- The signed reading of a field that has a sign bit. -/
theorem toInt_eq_of_width_ne_zero {w : Nat} (h : w ≠ 0) (v : BitVec w) :
    v.toInt = if v.toNat < 2 ^ (w - 1) then (v.toNat : Int) else v.toNat - 2 ^ w := by
  obtain ⟨m, rfl⟩ := Nat.exists_eq_succ_of_ne_zero h
  rw [BitVec.toInt_eq_toNat_cond]
  have hpow : 2 ^ (m + 1) = 2 * 2 ^ m := Nat.pow_succ'
  refine if_congr ?_ rfl (by norm_cast)
  change _ ↔ v.toNat < 2 ^ m
  omega

theorem extend_of_width_zero {w : Nat} (h : w = 0) (n : Nat) (v : BitVec w) : v.setWidth n = 0 ∧ v.signExtend n = 0 := by
  subst h
  obtain rfl : v = 0#0 := BitVec.of_length_zero
  exact ⟨BitVec.setWidth_zero .., BitVec.ofInt_natCast n 0⟩

theorem unsignedField_eq {w : Nat} (h : w ≤ 32) (e : Int) :
    BitVec.ofNat 128 (e % 2 ^ w).toNat = up32 ((BitVec.ofInt w e).setWidth 32) := by
  rw [← toNat_ofInt_eq_emod, Int.toNat_natCast, up32, BitVec.ofNat_toNat]
  exact BitVec.eq_of_toNat_eq (by
    have := Nat.lt_of_lt_of_le (BitVec.ofInt w e).isLt (Nat.pow_le_pow_right (by decide) h)
    simp only [BitVec.toNat_setWidth]
    omega)

theorem signedField_eq {w : Nat} (h : w ≠ 0) (e : Int) :
    wrap32 (if (e % 2 ^ w).toNat < 2 ^ (w - 1) then ((e % 2 ^ w).toNat : Int) else (e % 2 ^ w).toNat - 2 ^ w) =
      up32 ((BitVec.ofInt w e).signExtend 32) := by
  rw [← toNat_ofInt_eq_emod, Int.toNat_natCast, ← toInt_eq_of_width_ne_zero h, wrap32_eq_up32]; rfl

/-- `BFX` reads the field from the exact value: 64 bits hold every field. -/
theorem bfx_eq (x : ExtOp) (a b : QWord) : Spec.bfx x a b =
    if uOf x then (BitVec.ofInt (Spec.wid b) (rd32 true a / 2 ^ Spec.pos b)).setWidth 32
    else (BitVec.ofInt (Spec.wid b) (rd32 false a / 2 ^ Spec.pos b)).signExtend 32 := by
  have hfit : Spec.wid b + Spec.pos b ≤ 64 := by unfold Spec.wid Spec.pos; omega
  rw [ofInt_ediv_two_pow hfit, ofInt_ediv_two_pow hfit, ofInt_rd32, ofInt_rd32]; rfl

theorem bfxVal_eq (cx : Ctx) : bfxVal cx = up32 (Spec.bfx cx.x cx.va cx.vb) := by
  rw [bfx_eq]
  by_cases h0 : Spec.wid cx.vb = 0
  · refine (if_pos h0).trans ?_
    cases uOf cx.x
    · exact congrArg up32 (extend_of_width_zero h0 32 _).2.symm
    · exact congrArg up32 (extend_of_width_zero h0 32 _).1.symm
  · refine (if_neg h0).trans ?_
    cases uOf cx.x
    · exact signedField_eq h0 (rd32 false cx.va / 2 ^ Spec.pos cx.vb)
    · exact unsignedField_eq (Nat.min_le_right _ _) (rd32 true cx.va / 2 ^ Spec.pos cx.vb)

end Sys2Proof.Machine
end

section
/-! SUPPORT. An integer instruction from its operands to its end (R27, R58, R77). -/

namespace Sys2Proof.Machine

/-! ## An immediate as source b (R77) -/

theorem fetch_vb {cx c0 : Ctx} (h : cx.fetch = .ok c0) : srcBVal cx.t cx.sh.b cx.x = .ok c0.vb := by
  unfold Ctx.fetch at h
  split at h
  · cases h
  · split at h
    · cases h
    · next hb =>
      split at h
      · cases h
      · cases h; exact hb

theorem take_vb {cx cx' : Ctx} {s s' : State} (h : cx.take s = .ok (cx', s')) :
    ∃ sa sb : State, sa.takeSrc cx.t cx.sh.b (cx.x.b.src?.getD (.reg 0 false)) cx.vb = .ok (cx'.vb, sb) := by
  unfold Ctx.take at h
  split at h
  · cases h
  · split at h
    · cases h
    · next hb =>
      split at h
      · cases h
      · split at h
        · cases h
        · cases h; exact ⟨_, _, hb⟩

theorem takeSrc_reg (s : State) (t : Thread) (sh : SrcShape) (n : Fin 128) (hold : Bool) (v : QWord) :
    s.takeSrc t sh (.reg n hold) v = .ok (v, s) := by cases sh <;> rfl

theorem reads_imm {s s1 : State} {k : Nat} {t : Thread} {i : Instr} {c0 cx : Ctx} (h : s.reads k t i c0 cx s1)
    (hb : i.ext.b = .imm) : cx.vb = lowCls i.shape.b.cls (i.ext.imm.signExtend 128) := by
  obtain ⟨hfetch, -, htake⟩ := h
  have hval := fetch_vb hfetch
  obtain ⟨a, b, c, rfl⟩ := fetch_fields hfetch
  obtain ⟨sa, sb, hsrc⟩ := take_vb htake
  simp only [ctxOf, srcBVal, hb, SrcB.src?, Option.getD_none, takeSrc_reg, Except.ok.injEq, Prod.mk.injEq] at hval hsrc
  rw [← hsrc.1, ← hval]

theorem lowCls_eq (c : Cls) (v : QWord) : lowCls c v = (v.setWidth c.bits).setWidth 128 := by
  rw [lowCls, ← BitVec.toNat_setWidth, BitVec.ofNat_toNat]

theorem setWidth_signExtend {w n : Nat} (h : w ≤ n) (v : BitVec w) : (v.signExtend n).setWidth w = v := by
  ext j hj
  simp [BitVec.getElem_signExtend, hj, Nat.lt_of_lt_of_le hj h]

theorem lowCls_signExtend (v : BitVec 32) : lowCls .v (v.signExtend 128) = Spec.up32 v :=
  (lowCls_eq .v _).trans (congrArg (BitVec.setWidth 128) (setWidth_signExtend (by decide) v))

theorem toExt_imm {o : BaseOp} {v : BitVec 7} (h : o.b = .imm v) : o.toExt.b = .imm ∧ o.toExt.imm = v.signExtend 32 := by
  unfold BaseOp.toExt
  rw [h]
  exact ⟨rfl, rfl⟩

/-! ## The meaning of an integer instruction -/

/-- A meaning that only computes a value completes with it. -/
theorem runThread_pure {s s1 : State} {k : Nat} {t : Thread} {i : Instr} {c0 cx : Ctx} {val : Ctx → QWord}
    (h : s.runs k t i) (hr : s.reads k t i c0 cx s1) (hT : isTeamOp i.opc = false) :
    runThread i noPre (pureBody val) s = .next (goesOn k t i (cx.dst s1 (val cx))) :=
  runThread_next h hr rfl hT rfl

/-- An integer instruction computes a value from its operands, the one that its rule gives. -/
theorem exec_of_intResult {i : Instr} {f : ExtOp → QWord → QWord → QWord → QWord} (h : Spec.intResult i = some f) :
    ∃ val : Ctx → QWord, (∀ s, exec i s = runThread i noPre (pureBody val) s) ∧ isTeamOp i.opc = false ∧
      ∀ cx, val cx = f cx.x cx.va cx.vb cx.vc := by
  cases i with
  | add _ | addExt _ => cases h; exact ⟨addVal, fun _ => rfl, rfl, addVal_eq⟩
  | sub _ | subExt _ => cases h; exact ⟨subVal, fun _ => rfl, rfl, subVal_eq⟩
  | mul _ | mulExt _ => cases h; exact ⟨mulVal, fun _ => rfl, rfl, mulVal_eq⟩
  | mulh _ | mulhExt _ => cases h; exact ⟨mulhVal, fun _ => rfl, rfl, mulhVal_eq⟩
  | mulw _ | mulwExt _ => cases h; exact ⟨mulwVal, fun _ => rfl, rfl, mulwVal_eq⟩
  | mad _ => cases h; exact ⟨madVal, fun _ => rfl, rfl, madVal_eq⟩
  | and _ | andExt _ => cases h; exact ⟨andVal, fun _ => rfl, rfl, fun _ => rfl⟩
  | or _ | orExt _ => cases h; exact ⟨orVal, fun _ => rfl, rfl, fun _ => rfl⟩
  | xor _ | xorExt _ => cases h; exact ⟨xorVal, fun _ => rfl, rfl, fun _ => rfl⟩
  | andn _ | andnExt _ => cases h; exact ⟨andnVal, fun _ => rfl, rfl, fun _ => rfl⟩
  | shl _ | shlExt _ => cases h; exact ⟨shlVal, fun _ => rfl, rfl, shlVal_eq⟩
  | shr _ | shrExt _ => cases h; exact ⟨shrVal, fun _ => rfl, rfl, shrVal_eq⟩
  | sar _ | sarExt _ => cases h; exact ⟨sarVal, fun _ => rfl, rfl, sarVal_eq⟩
  | rot _ | rotExt _ => cases h; exact ⟨rotVal, fun _ => rfl, rfl, rotVal_eq⟩
  | min _ | minExt _ => cases h; exact ⟨minVal, fun _ => rfl, rfl, minVal_eq⟩
  | max _ | maxExt _ => cases h; exact ⟨maxVal, fun _ => rfl, rfl, maxVal_eq⟩
  | abs _ => cases h; exact ⟨absVal, fun _ => rfl, rfl, absVal_eq⟩
  | clz _ => cases h; exact ⟨clzVal, fun _ => rfl, rfl, clzVal_eq⟩
  | popc _ => cases h; exact ⟨popcVal, fun _ => rfl, rfl, popcVal_eq⟩
  | brev _ => cases h; exact ⟨brevVal, fun _ => rfl, rfl, brevVal_eq⟩
  | bfx _ => cases h; exact ⟨bfxVal, fun _ => rfl, rfl, bfxVal_eq⟩
  | bfi _ => cases h; exact ⟨bfiVal, fun _ => rfl, rfl, bfiVal_eq⟩
  | sel _ => cases h; exact ⟨selVal, fun _ => rfl, rfl, fun _ => rfl⟩
  | mov _ | movExt _ => cases h; exact ⟨movVal, fun _ => rfl, rfl, fun _ => rfl⟩
  | movi _ => cases h; exact ⟨moviVal, fun _ => rfl, rfl, fun _ => rfl⟩
  | lea _ | leaExt _ => cases h; exact ⟨leaVal, fun _ => rfl, rfl, leaVal_eq⟩
  | addq _ | addqExt _ => cases h; exact ⟨addqVal, fun _ => rfl, rfl, addqVal_eq⟩
  | div _ | divExt _ => cases h; exact ⟨divVal, fun _ => rfl, rfl, divVal_eq⟩
  | rem _ | remExt _ => cases h; exact ⟨remVal, fun _ => rfl, rfl, remVal_eq⟩
  | _ => cases h

/-- Settles O10: each instruction's value is its rule's, and an immediate b of `ADD` and `SUB` passes the operands unchanged. -/
theorem integerResults : Obligations.IntegerResults := by
  intro s s1 k t i c0 cx f hruns hreads hf
  refine ⟨?_, fun hi hb => ?_, fun o v hi hb => ?_⟩
  · obtain ⟨val, hexec, hteam, hval⟩ := exec_of_intResult hf
    obtain ⟨-, -, -, hx, -, -⟩ := reads_fields hreads
    rw [hexec, runThread_pure hruns hreads hteam, hval, hx]
  · have hcls : i.shape.b.cls = .v := by
      obtain ⟨o, rfl | rfl⟩ | ⟨x, rfl | rfl⟩ := hi <;> rfl
    rw [reads_imm hreads hb, hcls, lowCls_signExtend]
  · obtain rfl | rfl := hi <;> exact toExt_imm hb

end Sys2Proof.Machine
end
